-- ==== Sys2Proof/Word.lean ====
section
/-! DEFINITION. The word types of the Clourn device (R2 to R4) and their plainest arithmetic: bytes, the
instruction word, lanes, 64-bit registers, the 64 B line and little-endian conversion. -/

namespace Sys2Proof

abbrev Byte := BitVec 8
abbrev W16 := BitVec 16
/-- An instruction word, a lane, a scale word. -/
abbrev W32 := BitVec 32
/-- A general register, an address, a literal. -/
abbrev W64 := BitVec 64
/-- 64 bytes: a line, a queue entry, or the 16 lanes of 32 bits of an accumulator; byte 0 is bits [7:0] (R4). -/
abbrev Line := BitVec 512

/-- Sign extension to 64 bits. -/
abbrev sx64 {w : Nat} (v : BitVec w) : W64 := v.signExtend 64
/-- Zero extension to 64 bits. -/
abbrev zx64 {w : Nat} (v : BitVec w) : W64 := v.zeroExtend 64

end Sys2Proof
end

