-- ==== Sys2Proof/Syntax.lean ====
section
/-! DEFINITION. The syntax of Tlakel: operand forms (R16, R97), codes (R108), and ONE inductive Instr with one
constructor for every row of spec/opcode_table.json: the instructions (05_encoding.md) and the events of the
device's engines (95_what_each_step_holds.md), which carry the names of what they act on. -/

namespace Sys2Proof

/-- Element types, TY codes 0 to 12 (R19). Code 13 (Q4G32) is no instruction operand (R76). -/
inductive ElemTy where
  | i8 | ui8 | i16 | ui16 | i32 | ui32 | i64 | fp16 | bf16 | fp32 | e4m3 | e5m2 | t2
  deriving DecidableEq, Repr

/-- Rounding modes, MOD[7:6] (R20, R79). -/
inductive RMode where
  | rne | rz | rd | ru
  deriving DecidableEq, Repr

/-- The MOD field: SAT and the rounding mode (R20, R97). -/
structure Modes where
  sat : Bool
  rnd : RMode
  deriving DecidableEq, Repr

/-- Conditions, COND codes 0 to 14 (R21). -/
inductive Cond where
  | eq | ne | lt | ge | gt | le | ltu | geu | gtu | leu | mi | pl | vs | vc | al
  deriving DecidableEq, Repr

/-- The condition selector of `sel`, codes 0 to 7 (R397). -/
inductive SelCond where
  | eq | lt | ltu | mi | le | leu | vs | al
  deriving DecidableEq, Repr

/-- Pointer spaces (R50). -/
inductive Space where
  | l | b | g | k
  deriving DecidableEq, Repr

/-- Counters of `wait` (R108, R170). -/
inductive Ctr where
  | lc | sc | cc | oc | nc | mc
  deriving DecidableEq, Repr

/-- Paths (R108, R170). -/
inductive Path where
  | c | a | k | m | n | w | x | h
  deriving DecidableEq, Repr

/-- Queues (R64, R108). -/
inductive Queue where
  | ac | cm | am | mc
  deriving DecidableEq, Repr

/-- Phase scopes (R100, R151). -/
inductive Scope where
  | bench | dev | dom
  deriving DecidableEq, Repr

/-- A pointer operand `(pN)` or `(pN+)` (R16). -/
structure PtrOp where
  p : BitVec 3
  inc : Bool
  deriving DecidableEq, Repr

/-- Operand of format A: kinds 0 to 3 (R97). -/
inductive Opnd where
  | mem (p : BitVec 3) (inc : Bool)
  | acc (a : BitVec 2)
  | s
  | lit (v : W64)
  deriving DecidableEq, Repr

/-- Y operand of the awl's words: a register, or the literal (R440). -/
inductive WSrc where
  | reg (r : BitVec 3)
  | lit (v : W64)
  deriving DecidableEq, Repr

/-- Immediate of formats I and P: the 16-bit field, or the 64-bit literal that replaces it (R98, R101). -/
inductive Imm where
  | short (v : W16)
  | long (v : W64)
  deriving DecidableEq, Repr

/-- Branch target: a word offset, or an absolute literal (R99). -/
inductive Target where
  | rel (off : BitVec 17)
  | abs (v : W64)
  deriving DecidableEq, Repr

/-- Mask of the stitch-map instructions (R100). -/
inductive Mask where
  | short (v : BitVec 17)
  | long (v : W64)
  deriving DecidableEq, Repr

/-- Width of `ldg`, `ldh`, `stg`: an element, 16 B or 64 B (R367, R401). -/
inductive GWidth where
  | ty (t : ElemTy)
  | q
  | v
  deriving DecidableEq, Repr

/-- A count or selector that is an immediate or taken from s (R57, R312, R396). -/
inductive ImmOrS where
  | imm (v : W16)
  | s
  deriving DecidableEq, Repr

/-- The value of `geo` (R106). -/
inductive GeoVal where
  | s
  | val (v : W64)
  deriving DecidableEq, Repr

/-- Format C (R102): the operands of `cpy` but for its follow-on. -/
structure CpyOp where
  d : PtrOp
  src : PtrOp
  map : BitVec 4
  sc : Bool
  ls : Bool
  count : BitVec 29
  seq : W16
  deriving DecidableEq, Repr

/-- Format T (R103). `masks` holds RMASK and LMASK when LEN = 0b11. -/
structure MtileOp where
  a : PtrOp
  b : PtrOp
  ty : ElemTy
  geo : Bool
  ovw : Bool
  spa : BitVec 2
  sca : Bool
  scb : Bool
  macc : BitVec 2
  row : W32
  cblk : W32
  masks : Option (W16 × W16)
  deriving DecidableEq, Repr

/-- Value operand of format O (R104). -/
inductive OVal where
  | mem (p : BitVec 3) (inc : Bool)
  | s
  | lit (v : W64)
  deriving DecidableEq, Repr

/-- Format O as the line offers use it (R229). -/
structure OfferOp where
  g : PtrOp
  r : PtrOp
  ty : ElemTy
  e : Bool
  v : OVal
  deriving DecidableEq, Repr

/-- Count operand of `orowc` and `ofill` (R245). -/
inductive NmCount where
  | imm (n : W32)
  | s
  deriving DecidableEq, Repr

/-- `exo` operands (R105, R273): `nslot` is the phase length minus 1. -/
structure ExoOp where
  t : PtrOp
  die : Bool
  set : BitVec 48
  nslot : W16
  deriving DecidableEq, Repr

/-- A set of sequencers by its letters, as `rdv` names it (R16, R100). -/
structure SeqSet where
  c : Bool
  m : Bool
  a : Bool
  deriving DecidableEq, Repr

/-- What a CNMU's load makes of an offer or a command that arrives: its queue is full (for a
lookup: the walker is at others), its rate limit is reached (R233); and whether the host rejects an AtomicOp (R241). -/
structure CnmuLoad where
  busy : Bool
  throttle : Bool
  reject : Bool
  deriving DecidableEq, Repr

/-- A record at a bench's bind port (R287): OP is 0 for BIND and 1 for PREEMPT. -/
structure BindRec where
  node : W64
  inst : Nat
  ctxn : Nat
  leader : Nat
  op : Nat
  part : Nat
  mem : BitVec 48
  deriving DecidableEq, Repr

/-- The AtomicOps that the host sends through BAR2 (R321). -/
inductive HostOp where
  | fetchAdd | swap | cas
  deriving DecidableEq, Repr

/-- The masters of R328. -/
inductive Master where
  | port0 | port1 | fabric | board
  deriving DecidableEq, Repr

/-- A window of MMIO, a partition's or a context's, and who accesses it: a master (R328), or a core of the device. -/
structure Via where
  by_ : Option Master
  win : Nat
  deriving DecidableEq, Repr

/-- HANDOVER: who asks for it, and the successor that it names (R328). -/
structure Handover where
  by_ : Master
  heir : Master
  deriving DecidableEq, Repr

/-- The element format that EMBREG names, and whether the driver has pinned the table's pages (R253, R324). -/
structure EmbFmt where
  code : Nat
  pinned : Bool
  deriving DecidableEq, Repr

/-- What only the trusted root stage reaches (R40): keys, format range registers, ownership registers, its memory. -/
inductive Trusted where
  | keys | frr | ownership | memory
  deriving DecidableEq, Repr

/-- What comes to the root stage's keys: a KEYREQ's key id with the partition to which it is bound (R324), or an access
of the policy firmware to what that must not reach (R40). -/
inductive KeyOp where
  | bind (key part : Nat)
  | policy (what : Trusted)
  deriving DecidableEq, Repr

/-- A flit that a port replays, and whether the replay fails (R325). -/
structure Replay where
  port : Nat
  failed : Bool
  deriving DecidableEq, Repr

/-- Units whose errors R329 counts. -/
inductive MemUnit where
  | scratchpad | kernel | l2 | msc | lehr | dram
  deriving DecidableEq, Repr

/-- Where a soft error strikes: a unit, the core that a scratchpad or kernel window belongs to, and the address (R329). -/
structure MemSite where
  unit : MemUnit
  core : Nat
  addr : Nat
  deriving DecidableEq, Repr

/-- Whose pieces a pool device answers (R146, R307): a copy of a context, a copy node, or a layer's fill. -/
inductive Mover where
  | ctx (c id : Nat)
  | node (g : W64) (node : Nat)
  | fill (part mid l : Nat)
  deriving DecidableEq, Repr

inductive PieceSide where
  | src | dst | scale
  deriving DecidableEq, Repr

/-- A page of a piece: of its source, its destination, or its scale words. -/
inductive PieceAt where
  | src (page : Nat)
  | dst (page : Nat)
  | scale (page : Nat)
  deriving DecidableEq, Repr

def PieceSide.piece (s : PieceSide) (page : Nat) : PieceAt :=
  match s with | .src => .src page | .dst => .dst page | .scale => .scale page

def PieceAt.side : PieceAt → PieceSide
  | .src _ => .src | .dst _ => .dst | .scale _ => .scale
def PieceAt.page : PieceAt → Nat
  | .src n => n | .dst n => n | .scale n => n

/-- One constructor for every row of spec/opcode_table.json. -/
inductive Instr where
  -- S class (R109)
  | add (x : Opnd) (t : ElemTy)
  | addImm (i : Imm)
  | sub (x : Opnd) (t : ElemTy)
  | subImm (i : Imm)
  | and (x : Opnd) (t : ElemTy)
  | andImm (i : Imm)
  | or (x : Opnd) (t : ElemTy)
  | orImm (i : Imm)
  | xor (x : Opnd) (t : ElemTy)
  | xorImm (i : Imm)
  | shl (x : Opnd) (t : ElemTy)
  | shlImm (i : Imm)
  | shr (x : Opnd) (t : ElemTy)
  | shrImm (i : Imm)
  | sar (x : Opnd) (t : ElemTy)
  | sarImm (i : Imm)
  | mul (x : Opnd) (t : ElemTy)
  | mulImm (i : Imm)
  | mulh (u : Bool) (x : Opnd) (t : ElemTy)
  | mulhImm (u : Bool) (i : Imm)
  | div (u : Bool) (x : Opnd) (t : ElemTy)
  | divImm (u : Bool) (i : Imm)
  | rem (u : Bool) (x : Opnd) (t : ElemTy)
  | remImm (u : Bool) (i : Imm)
  | min (u : Bool) (x : Opnd) (t : ElemTy)
  | minImm (u : Bool) (i : Imm)
  | max (u : Bool) (x : Opnd) (t : ElemTy)
  | maxImm (u : Bool) (i : Imm)
  | cmp (x : Opnd) (t : ElemTy)
  | cmpImm (i : Imm)
  | tst (x : Opnd) (t : ElemTy)
  | tstImm (i : Imm)
  | li (i : Imm)
  | sel (c : SelCond) (x y : Opnd) (t : ElemTy)
  | ldl (p : PtrOp) (t : ElemTy)
  | stl (p : PtrOp) (y : Opnd) (t : ElemTy)
  | cvt (dty sty : ElemTy) (x : Opnd) (md : Modes)
  | geo (g : BitVec 2) (v : GeoVal)
  | pset (p : BitVec 3) (sp : Space) (i : Imm)
  | psetS (p : BitVec 3) (sp : Space)
  | pstr (p : BitVec 3) (i : Imm)
  | plim (p : BitVec 3) (i : Imm)
  | pswz (p : BitVec 3) (z : BitVec 2)
  | padd (p : BitVec 3) (i : Imm)
  | pget (p : BitVec 3) (f : BitVec 2)
  | br (c : Cond) (t : Target)
  | jmp (t : Target)
  | call (t : Target)
  | ret
  | brx (x : Opnd)
  | rep (stag : BitVec 2) (nm1 : BitVec 4) (cnt : ImmOrS)
  -- V class (R110)
  | vld (a : BitVec 2) (p : PtrOp) (t : ElemTy)
  | vst (p : PtrOp) (y : Opnd) (t : ElemTy) (md : Modes)
  | vbcast (a : BitVec 2) (x : Opnd) (t : ElemTy)
  | vadd (a : BitVec 2) (x y : Opnd) (t : ElemTy) (md : Modes)
  | vsub (a : BitVec 2) (x y : Opnd) (t : ElemTy) (md : Modes)
  | vmul (a : BitVec 2) (x y : Opnd) (t : ElemTy) (md : Modes)
  | vmac (a : BitVec 2) (x y : Opnd) (t : ElemTy) (md : Modes)
  | vmin (a : BitVec 2) (x y : Opnd) (t : ElemTy)
  | vmax (a : BitVec 2) (x y : Opnd) (t : ElemTy)
  | vabs (a : BitVec 2) (x : Opnd) (t : ElemTy) (sat : Bool)
  | vneg (a : BitVec 2) (x : Opnd) (t : ElemTy) (sat : Bool)
  | vand (a : BitVec 2) (x y : Opnd) (t : ElemTy)
  | vor (a : BitVec 2) (x y : Opnd) (t : ElemTy)
  | vxor (a : BitVec 2) (x y : Opnd) (t : ElemTy)
  | vshl (a : BitVec 2) (x y : Opnd) (t : ElemTy)
  | vshr (a : BitVec 2) (x y : Opnd) (t : ElemTy)
  | vcmp (pred : BitVec 2) (x y : Opnd) (t : ElemTy)
  | vsel (a : BitVec 2) (x : Opnd) (t : ElemTy)
  | vcvt (a : BitVec 2) (dty sty : ElemTy) (x : Opnd) (md : Modes)
  | vred (x : Opnd) (t : ElemTy) (rnd : RMode)
  | vperm (a : BitVec 2) (x y : Opnd) (t : ElemTy)
  | vscale (a : BitVec 2) (x y : Opnd) (t : ElemTy) (md : Modes)
  | vexp2 (a : BitVec 2) (x : Opnd) (t : ElemTy) (md : Modes)
  | vrcp (a : BitVec 2) (x : Opnd) (t : ElemTy) (md : Modes)
  | vrsq (a : BitVec 2) (x : Opnd) (t : ElemTy) (md : Modes)
  | vmaxi (x : Opnd) (t : ElemTy)
  | vpop (x : Opnd) (t : ElemTy)
  | vmset (x : Opnd)
  | vmsetNz (x : Opnd) (t : ElemTy)
  | vmsetRead
  | vmsetNot
  | vcprs (a : BitVec 2) (v src : PtrOp) (t : ElemTy)
  | vmeta (a : BitVec 2) (sel : W16)
  | vpackt (d src : PtrOp) (sat : Bool)
  | vunpkt (d src : PtrOp)
  -- M class (R111)
  | ldg (w : GWidth) (d src : PtrOp)
  | stg (w : GWidth) (g : PtrOp) (y : Opnd)
  | ldh (w : GWidth) (d src : PtrOp)
  | ldrow (ver : Bool) (d g : PtrOp)
  | cpy (c : CpyOp) (fo : Option MtileOp)
  | smwait (map : BitVec 4) (mask : Mask)
  | smtest (map : BitVec 4) (mask : Mask)
  | smclr (map : BitVec 4) (mask : Mask)
  | wait (c : Ctr) (n : BitVec 17)
  | pwait (src dst : Path)
  | phase (sc : Scope)
  | rwb (p : BitVec 3) (len : ImmOrS)
  | rinv (p : BitVec 3) (len : ImmOrS)
  | tokacq (p : BitVec 3)
  | tokpass (p : BitVec 3)
  | qpush (q : Queue) (x : Opnd)
  | qpop (q : Queue) (x : Opnd)
  | qstat (q : Queue)
  | exo (o : ExoOp)
  | exs (p : PtrOp) (slot : W16)
  | exr (p : PtrOp) (slot : W16)
  | exred (bint : Bool) (p : PtrOp) (slot : W16)
  | exc
  -- X class (R112)
  | mtile (o : MtileOp)
  | tfetch (p : BitVec 3) (n : W16)
  | trel (p : BitVec 3) (n : W16)
  | jinit (all i32 : Bool)
  | jadd (a : BitVec 2) (p : PtrOp) (t : ElemTy)
  | joins (qx qy : Queue) (t : ElemTy)
  | jget (a : BitVec 2) (p : PtrOp) (t : ElemTy)
  | jdrainT (p : BitVec 3)
  | jdrainD (p : BitVec 3) (shape : W16)
  | jstat
  | jspill (p : BitVec 3)
  | wrun (p : BitVec 3)
  -- O class (R113)
  | oadd (o : OfferOp)
  | oand (o : OfferOp)
  | oor (o : OfferOp)
  | omin (o : OfferOp)
  | omax (o : OfferOp)
  | oxch (o : OfferOp)
  | ocas (o : OfferOp)
  | orow (o : OfferOp) (add : Bool) (size : W32)
  | ofin (o : OfferOp) (size : W32)
  | owait (o : OfferOp)
  | oemb (bf16 : Bool) (r v : PtrOp)
  | oscan (r v : PtrOp)
  | orowc (d r src : PtrOp) (cnt : NmCount)
  | ofill (d r : PtrOp) (v : OVal) (cnt : NmCount)
  | ostat (t : Bool) (p : BitVec 3)
  -- W class (R114)
  | wld (d a : BitVec 3) (inc : Bool) (t : ElemTy)
  | wldi (d : BitVec 3) (i : W16)
  | wldiSh (d : BitVec 3) (i : W16)
  | wadd (d : BitVec 3) (y : WSrc)
  | wsub (d : BitVec 3) (y : WSrc)
  | wand (d : BitVec 3) (y : WSrc)
  | wshr (arith : Bool) (d : BitVec 3) (y : WSrc)
  | wcmp (x : BitVec 3) (y : WSrc)
  | wbr (c : Cond) (off : BitVec 17)
  | wjmp (off : BitVec 17)
  | wemit (i k v : BitVec 3)
  | wtile (o a : BitVec 3) (inc : Bool)
  | wtileExpand (o a : BitVec 3) (inc : Bool) (t : ElemTy) (m : BitVec 3)
  | wend
  -- Y class (R115)
  | trap (n : W16)
  | eret
  | srr (r : BitVec 12)
  | srw (r : BitVec 12)
  | fork (access : Bool) (off : BitVec 17)
  | forkBoth (offM : BitVec 17) (offA : W32)
  | rdv (set : SeqSet)
  | tdone
  | tsig (n : W16)
  | tsigS
  | gbar
  | yield
  | idle (n : W16)
  | iflush
  | lacq (l : ImmOrS)
  | lrel (l : ImmOrS)
  | lhint (w : ImmOrS)
  | lreset (l : ImmOrS)
  | tinv (p : BitVec 3)
  | tinvAsid
  | tinvAll
  -- Events. `c` names a thread context (core x 4 + context), `sid` a sequencer (c x 3 + q), `id` an operation
  -- in flight of that context, `g` a graph by its header's address, `mid` and `l` a model and its layer. `by_` is the
  -- master that issues a command (R328), none where a core does through MMIO at level K. A byte that the fabric
  -- carries comes with its poison (R329).
  | loadLanding (c id : Nat)
  | storeAcceptance (c id : Nat)
  | lineEviction (core line : Nat)
  | homeWriteArrival (ha : Nat) (bytes : List (Byte × Bool))
  | pageWalk (c : Nat) (va : W64) (fetch : Bool)
  | runaheadEnd (c q : Nat)
  | faultReply (ctxid saveid gen q : Nat) (word : W64)
  | replayableFault (m : Mover) (side : PieceSide) (page : Nat)
  | poolFaultReply (m : Mover) (side : PieceSide) (page : Nat) (ok : Bool)
  | copyChunkLanding (c id chunk : Nat)
  | scaleWordEntry (c : Nat)
  | followOnIssue (c : Nat)
  | jafTupleApply (c src : Nat)
  | trapEntry (sid : Nat)
  | offerPerform (c id : Nat) (load : CnmuLoad)
  | leaseRevocationAck (block dev : Nat) (dirty : List (Nat × (Byte × Bool)))
  | finishCommit (c id : Nat)
  | offerReplyLanding (c id : Nat)
  | owaitWake (c id : Nat)
  | owaitTimeout (c id : Nat)
  | reservationExpiry (line : Nat)
  | nmCommandPerform (c id : Nat) (load : CnmuLoad)
  | nmReplyLanding (c id : Nat)
  | tokenGrant (block : Nat)
  | exchangeT0 (core : Nat)
  | slotWindowStart (core : Nat)
  | exchangeTransferLanding (core slot : Nat)
  | exchangeReduction (core slot : Nat)
  | walkStart (bench : Nat)
  | walkYield (bench : Nat)
  | walkStepLimit (bench : Nat)
  | wtileRowLanding (bench idx : Nat)
  | launch (w : Via) (g : W64)
  | cancel (w : Via) (g : W64)
  | copyNodeStart (g : W64) (node : Nat)
  | nearNodeStart (g : W64) (node : Nat)
  | fillNodeStart (g : W64) (node : Nat)
  | bind (bench : Nat) (r : BindRec)
  | preempt (bench : Nat) (r : BindRec)
  | instanceStart (g : W64) (node inst : Nat)
  | dispatchSelfBind
  | quantumBoundary (g : W64) (node inst : Nat)
  | coopRotation (g : W64) (node : Nat)
  | swapDrainTimeout (g : W64) (node inst : Nat)
  | teamResume (g : W64) (node inst : Nat)
  | threadMigration (c : Nat)
  | migrationMessage (idx : Nat)
  | bloadRefresh (bench : Nat)
  | idleTimeout (sid : Nat)
  | layerFillStart (die : Nat)
  | evictionDone (part mid l : Nat)
  | layerFillEnd (part mid l : Nat) (lost : Bool)
  | rowreg (w : Via) (pa size : Nat)
  | embreg (w : Via) (ctxid id : Nat) (base : W64) (rowsz nrows : Nat) (fmt : EmbFmt)
  | embunreg (w : Via) (id : Nat)
  | modreg (w : Via) (ctxid : Nat) (desc : W64) (mid : Nat)
  | modunreg (w : Via) (mid : Nat)
  | frrreq (w : Via) (reg : Nat) (w0 w1 w2 w3 : W64)
  | keyreq (w : Via) (key : KeyOp)
  | laypool (w : Via) (slot slots arena units : Nat)
  | registerWrite (w : Via) (off : Nat) (v : W64)
  | handover (h : Handover)
  | ownerLinkLoss
  | bringUp (verified : Bool) (present : List Master)
  | refreshWindow (die : Nat)
  | flitReplay (r : Replay)
  | linkDown (port : Nat)
  | poolLinkFailure
  | hostWindowWrite (part ha : Nat) (bytes : List Byte)
  | hostAtomicop (part : Nat) (op : HostOp) (ha size : Nat) (v c : W64)
  | atsInvalidation (ha : Nat)
  | memoryError (e : MemSite) (corrected : Bool)
  | clockStepChange (mhz : Nat)
  | clockGating
  | stalepUpdate
  | powerRequest (master : Master) (d3hot : Bool)
  | partitionClear (part : Nat)
  | revocationRequest (dev block : Nat)
  | leaseRequest (block dev : Nat) (write : Bool)
  | attestationReport (master : Master) (nonce : BitVec 256)
  deriving DecidableEq, Repr

end Sys2Proof
end

