-- ==== Sys2Proof/WellFormed.lean ====
section
/-! DEFINITION. Which operands an instruction may have: the values that the formats (R97 to R107) and the
instruction's entry assign. Everything else raises ILLEGAL at steps 5 and 6 of R116. -/

namespace Sys2Proof

namespace ElemTy

/-- FP16, BF16, FP32, E4M3, E5M2: TY 7 to 11. -/
def isFloat : ElemTy → Bool
  | fp16 | bf16 | fp32 | e4m3 | e5m2 => true
  | _ => false

/-- TY 0 to 6. -/
def isInt : ElemTy → Bool
  | i8 | ui8 | i16 | ui16 | i32 | ui32 | i64 => true
  | _ => false

/-- TY 0 to 11: the scalar types of `ldl`, `stl`, `ldg`, `stg`, `cvt`. -/
def isScalar : ElemTy → Bool
  | t2 => false
  | _ => true

/-- TY 0 to 5 and 7 to 11: the vector types (R415). -/
def isVector : ElemTy → Bool
  | i64 | t2 => false
  | _ => true

/-- TY 0 to 5. -/
def isVecInt : ElemTy → Bool
  | i8 | ui8 | i16 | ui16 | i32 | ui32 => true
  | _ => false

/-- The types of line offers (R229). -/
def isLine : ElemTy → Bool
  | i32 | ui32 | i64 | fp32 => true
  | _ => false

/-- The types of row offers (R229). -/
def isRow : ElemTy → Bool
  | bf16 | fp32 => true
  | _ => false

/-- The modes of the JAF (R214). -/
def isJaf : ElemTy → Bool
  | i32 | fp32 => true
  | _ => false

end ElemTy

namespace Opnd

def isAcc : Opnd → Bool
  | acc _ => true
  | _ => false

def isMem : Opnd → Bool
  | mem _ _ => true
  | _ => false

def isLit : Opnd → Bool
  | lit _ => true
  | _ => false

def isS : Opnd → Bool
  | s => true
  | _ => false

end Opnd

/-- At most one operand is the literal (R97). -/
def oneLit (x y : Opnd) : Bool := !(x.isLit && y.isLit)

/-- Row sizes (R167, R229). -/
def isRowSize (n : Nat) : Bool :=
  n == 64 || n == 128 || n == 256 || n == 512 || n == 1024

/-- The system register numbers of R118. -/
def isSysReg (r : BitVec 12) : Bool :=
  let n := r.toNat
  n ≤ 0x004 || n == 0x008 || (0x010 ≤ n && n ≤ 0x013) || (0x020 ≤ n && n ≤ 0x023) ||
  n == 0x028 || n == 0x029 || n == 0x030 || n == 0x031 || n == 0x038 || n == 0x039 ||
  (0x040 ≤ n && n ≤ 0x07F)

/-- Operands of the two-operand scalar operations, A form (R333, R335). -/
def wfAluA (x : Opnd) (t : ElemTy) : Bool := !x.isAcc && t.isInt

/-- Operands of a two-source vector instruction (R418). -/
def wfV2 (x y : Opnd) (t : ElemTy) : Bool := oneLit x y && t.isVector

/-- `mtile` (R103). -/
def MtileOp.wf (o : MtileOp) : Bool :=
  (o.ty == .i8 || o.ty == .e4m3 || o.ty == .e5m2 || o.ty == .bf16 || o.ty == .t2) &&
  o.spa != 3 &&
  (o.spa == 0 || o.ty == .i8) &&
  (!(o.sca || o.scb) || o.ty == .i8 || o.ty == .e4m3) &&
  (o.spa != 0 || o.macc == 0) &&
  (o.spa != 2 || o.macc == 0 || o.macc == 2) &&
  (!o.geo || (o.row == 0 && o.cblk == 0 && o.masks.isNone))

/-- `cpy` (R102). -/
def CpyOp.wf (c : CpyOp) : Bool := (!c.ls || c.count == 0) && (c.sc || c.seq == 0)

def OVal.isMem : OVal → Bool
  | .mem _ _ => true
  | _ => false

/-- The count of `orowc` and `ofill` (R245). -/
def NmCount.wf : NmCount → Bool
  | .imm n => n != 0 && n.toNat % 1024 == 0
  | .s => true

/-- The layer operand of `lacq`, `lrel`, `lhint`, `lreset` (R312). -/
def wfLayer : ImmOrS → Bool
  | .imm v => v.toNat ≤ 4095
  | .s => true

/-- The literal of `pstr` and `plim` lies in its range (R101). -/
def wfStride : Imm → Bool
  | .short _ => true
  | .long v => decide (-2147483648 ≤ v.toInt) && decide (v.toInt ≤ 2147483647)

def wfLimit : Imm → Bool
  | .short _ => true
  | .long v => v.toNat ≤ 4294967295

/-- The paths that `pwait` may name as *to* (R389). -/
def Path.isTo : Path → Bool
  | .c | .a | .m | .k | .x => true
  | _ => false

/-- Is this row of the opcode table an event, which has no encoding? -/
def Instr.isEvent : Instr → Bool
  | .loadLanding .. | .storeAcceptance .. | .lineEviction .. | .homeWriteArrival .. | .pageWalk ..
  | .runaheadEnd .. | .faultReply .. | .replayableFault .. | .poolFaultReply .. | .copyChunkLanding ..
  | .scaleWordEntry .. | .followOnIssue .. | .jafTupleApply .. | .trapEntry .. | .offerPerform ..
  | .leaseRevocationAck .. | .finishCommit .. | .offerReplyLanding .. | .owaitWake .. | .owaitTimeout ..
  | .reservationExpiry .. | .nmCommandPerform .. | .nmReplyLanding .. | .tokenGrant .. | .exchangeT0 ..
  | .slotWindowStart .. | .exchangeTransferLanding .. | .exchangeReduction .. | .walkStart .. | .walkYield ..
  | .walkStepLimit .. | .wtileRowLanding .. | .launch .. | .cancel .. | .copyNodeStart .. | .nearNodeStart ..
  | .fillNodeStart .. | .bind .. | .preempt .. | .instanceStart .. | .dispatchSelfBind | .quantumBoundary ..
  | .coopRotation .. | .swapDrainTimeout .. | .teamResume .. | .threadMigration .. | .migrationMessage ..
  | .bloadRefresh .. | .layerFillStart .. | .evictionDone .. | .layerFillEnd .. | .rowreg .. | .embreg ..
  | .embunreg .. | .modreg .. | .modunreg .. | .frrreq .. | .keyreq .. | .laypool .. | .registerWrite ..
  | .handover .. | .ownerLinkLoss | .bringUp .. | .refreshWindow .. | .flitReplay .. | .linkDown ..
  | .poolLinkFailure .. | .hostWindowWrite .. | .hostAtomicop .. | .atsInvalidation .. | .memoryError ..
  | .clockStepChange .. | .clockGating | .stalepUpdate | .idleTimeout .. | .powerRequest ..
  | .partitionClear .. | .revocationRequest .. | .leaseRequest .. | .attestationReport .. => true
  | _ => false

/-- The checks of steps 5 and 6 of R116 on an instruction's operands. An event has none. -/
def Instr.wf : Instr → Bool
  | .add x t | .sub x t | .and x t | .or x t | .xor x t | .shl x t | .shr x t | .sar x t | .mul x t
  | .cmp x t | .tst x t => wfAluA x t
  | .mulh _ x t | .rem _ x t | .min _ x t | .max _ x t => wfAluA x t
  | .div u x t => !x.isAcc && (t.isInt || (t == .fp32 && !u))
  | .sel _ x y t => !x.isAcc && !y.isAcc && oneLit x y && t.isInt
  | .ldl _ t => t.isScalar
  | .stl _ y t => (y.isS || y.isLit) && t.isScalar
  | .cvt d t x _ => d.isScalar && t.isScalar && !x.isAcc
  | .pstr _ i => wfStride i
  | .plim _ i => wfLimit i
  | .brx x => !x.isAcc
  | .vld _ _ t => t.isVector
  | .vst _ y t _ => (y.isAcc || y.isS) && t.isVector
  | .vbcast _ x t => !x.isAcc && t.isVector
  | .vadd _ x y t _ | .vsub _ x y t _ | .vmul _ x y t _ | .vmac _ x y t _ => wfV2 x y t
  | .vmin _ x y t | .vmax _ x y t | .vcmp _ x y t => wfV2 x y t
  | .vabs _ _ t sat | .vneg _ _ t sat => t.isVector && !(t.isFloat && sat)
  | .vand _ x y t | .vor _ x y t | .vxor _ x y t | .vshl _ x y t | .vshr _ x y t =>
      oneLit x y && t.isVecInt
  | .vsel _ _ t => t.isVector
  | .vcvt _ d t _ _ => d.isVector && t.isVector
  | .vred x t r => (x.isMem || x.isAcc) && t.isVector && (t.isFloat || r == .rne)
  | .vperm _ x y t => (x.isMem || x.isAcc) && !y.isMem && t.isVector
  | .vscale _ x y t _ => oneLit x y && !y.isMem && t.isFloat
  | .vexp2 _ _ t _ | .vrcp _ _ t _ | .vrsq _ _ t _ => t.isFloat
  | .vmaxi x t | .vpop x t | .vmsetNz x t => (x.isMem || x.isAcc) && t.isVector
  | .vmset x => x.isS || x.isLit
  | .vcprs _ _ _ t => t == .i8 || t == .ui8 || t == .e4m3 || t == .e5m2
  | .ldg w _ _ | .ldh w _ _ => match w with
      | .ty t => t.isScalar
      | _ => true
  | .stg w _ y => match w with
      | .ty t => t.isScalar && !y.isAcc
      | _ => y.isMem
  | .cpy c fo => c.wf && (match fo with | none => true | some m => m.wf)
  | .pwait _ dst => dst.isTo
  | .qpush _ x | .qpop _ x => x.isMem || x.isAcc
  | .exo o => !o.die || o.set.toNat < 4096
  | .mtile o => o.wf
  | .tfetch _ n | .trel _ n => 1 ≤ n.toNat && n.toNat ≤ 1024
  | .jadd _ _ t | .joins _ _ t | .jget _ _ t => t.isJaf
  | .oadd o | .omin o | .omax o | .oxch o => o.ty.isLine
  | .oand o | .oor o => o.ty.isLine && o.ty != .fp32
  | .ocas o => o.ty.isLine && o.v.isMem
  | .orow o _ size => o.ty.isRow && o.v.isMem && isRowSize size.toNat
  | .ofin o size => !o.e && (o.ty.isLine || o.ty.isRow) && (size == 0 || (o.v.isMem && isRowSize size.toNat))
  | .owait o => o.ty.isLine && !o.e
  | .orowc _ _ _ n => n.wf
  | .ofill _ _ v n => n.wf && !(v == .s && n == .s)
  | .wld _ _ _ t => t.isInt
  | .wtileExpand _ _ _ t _ => t.isVector
  | .srr r | .srw r => isSysReg r
  | .rdv st => st.c || st.m || st.a
  | .lacq l | .lrel l | .lhint l | .lreset l => wfLayer l
  | _ => true

end Sys2Proof
end

