-- ==== Sys2Proof/Decode.lean ====
section
/-! DEFINITION. Instruction words: the formats and opcode maps of R94 to R115, a decoder that is total on any
words or bytes and rejects by name (R116 steps 2 to 6), and the encoder written from the same tables. -/

namespace Sys2Proof

/-! ## Field codes -/

namespace ElemTy

/-- TY codes (R19). -/
def code : ElemTy → BitVec 4
  | i8 => 0 | ui8 => 1 | i16 => 2 | ui16 => 3 | i32 => 4 | ui32 => 5 | i64 => 6
  | fp16 => 7 | bf16 => 8 | fp32 => 9 | e4m3 => 10 | e5m2 => 11 | t2 => 12

/-- The type of a TY code; 13, 14 and 15 name none (R108). -/
def ofCode (c : BitVec 4) : Option ElemTy :=
  match c.toNat with
  | 0 => some i8 | 1 => some ui8 | 2 => some i16 | 3 => some ui16 | 4 => some i32 | 5 => some ui32
  | 6 => some i64 | 7 => some fp16 | 8 => some bf16 | 9 => some fp32 | 10 => some e4m3 | 11 => some e5m2
  | 12 => some t2 | _ => none

end ElemTy

/-- Rounding codes (R20). -/
def RMode.code : RMode → BitVec 2
  | .rne => 0 | .rz => 1 | .rd => 2 | .ru => 3

def RMode.ofCode (c : BitVec 2) : RMode :=
  match c.toNat with
  | 0 => .rne | 1 => .rz | 2 => .rd | _ => .ru

/-- MOD: SAT over the rounding mode (R97). -/
def Modes.code (m : Modes) : BitVec 3 := BitVec.ofBool m.sat ++ m.rnd.code

def Modes.ofCode (c : BitVec 3) : Modes := ⟨c.getLsbD 2, RMode.ofCode (c.extractLsb' 0 2)⟩

/-- COND codes (R21). -/
def Cond.code : Cond → BitVec 4
  | .eq => 0 | .ne => 1 | .lt => 2 | .ge => 3 | .gt => 4 | .le => 5 | .ltu => 6 | .geu => 7
  | .gtu => 8 | .leu => 9 | .mi => 10 | .pl => 11 | .vs => 12 | .vc => 13 | .al => 14

def Cond.ofCode (c : BitVec 4) : Option Cond :=
  match c.toNat with
  | 0 => some .eq | 1 => some .ne | 2 => some .lt | 3 => some .ge | 4 => some .gt | 5 => some .le
  | 6 => some .ltu | 7 => some .geu | 8 => some .gtu | 9 => some .leu | 10 => some .mi | 11 => some .pl
  | 12 => some .vs | 13 => some .vc | 14 => some .al | _ => none

/-- CS of `sel` (R397). -/
def SelCond.code : SelCond → BitVec 3
  | .eq => 0 | .lt => 1 | .ltu => 2 | .mi => 3 | .le => 4 | .leu => 5 | .vs => 6 | .al => 7

def SelCond.ofCode (c : BitVec 3) : SelCond :=
  match c.toNat with
  | 0 => .eq | 1 => .lt | 2 => .ltu | 3 => .mi | 4 => .le | 5 => .leu | 6 => .vs | _ => .al

/-- SPACE codes (R50). -/
def Space.code : Space → BitVec 2
  | .l => 0 | .b => 1 | .g => 2 | .k => 3

def Space.ofCode (c : BitVec 2) : Space :=
  match c.toNat with
  | 0 => .l | 1 => .b | 2 => .g | _ => .k

/-- Counter codes (R108). -/
def Ctr.code : Ctr → BitVec 4
  | .lc => 0 | .sc => 1 | .cc => 2 | .oc => 3 | .nc => 4 | .mc => 5

def Ctr.ofCode (c : BitVec 4) : Option Ctr :=
  match c.toNat with
  | 0 => some .lc | 1 => some .sc | 2 => some .cc | 3 => some .oc | 4 => some .nc | 5 => some .mc
  | _ => none

/-- Path codes (R108). -/
def Path.code : Path → BitVec 4
  | .c => 0 | .a => 1 | .k => 2 | .m => 3 | .n => 4 | .w => 5 | .x => 6 | .h => 7

def Path.ofCode (c : BitVec 4) : Option Path :=
  match c.toNat with
  | 0 => some .c | 1 => some .a | 2 => some .k | 3 => some .m | 4 => some .n | 5 => some .w
  | 6 => some .x | 7 => some .h | _ => none

/-- Queue codes (R108). -/
def Queue.code : Queue → BitVec 2
  | .ac => 0 | .cm => 1 | .am => 2 | .mc => 3

def Queue.ofCode (c : BitVec 2) : Queue :=
  match c.toNat with
  | 0 => .ac | 1 => .cm | 2 => .am | _ => .mc

/-- Scope codes (R100). -/
def Scope.code : Scope → BitVec 4
  | .bench => 0 | .dev => 1 | .dom => 2

def Scope.ofCode (c : BitVec 4) : Option Scope :=
  match c.toNat with
  | 0 => some .bench | 1 => some .dev | 2 => some .dom | _ => none

/-! ## Words -/

/-- The first word (R94): CLASS, OPC, the format's 21 bits, LEN. -/
def firstWord (cls : BitVec 3) (opc : BitVec 6) (body : BitVec 21) (len : BitVec 2) : W32 :=
  cls ++ opc ++ body ++ len

/-- CLASS, OPC, body and LEN of a first word (R94). -/
def wCls (w : W32) : BitVec 3 := w.extractLsb' 29 3
def wOpc (w : W32) : BitVec 6 := w.extractLsb' 23 6
def wBody (w : W32) : BitVec 21 := w.extractLsb' 2 21
def wLen (w : W32) : BitVec 2 := w.extractLsb' 0 2

/-- The words an instruction has, by LEN (R94). -/
def lenWords (len : BitVec 2) : Nat :=
  match len.toNat with
  | 0 => 1 | 1 => 3 | 2 => 3 | _ => 5

/-- The 64-bit literal's words: bits [31:0] first (R94). -/
def litWords (v : W64) : List W32 := [v.extractLsb' 0 32, v.extractLsb' 32 32]

def litOf (lo hi : W32) : W64 := hi ++ lo

/-! ## Format bodies (R97 to R106) -/

/-- Format A. -/
structure FA where
  acc : BitVec 2
  px : BitVec 3
  ix : Bool
  py : BitVec 3
  iy : Bool
  ty : BitVec 4
  md : BitVec 3
  xk : BitVec 2
  yk : BitVec 2
  deriving DecidableEq, Repr

def FA.pack (f : FA) : BitVec 21 :=
  f.acc ++ f.px ++ BitVec.ofBool f.ix ++ f.py ++ BitVec.ofBool f.iy ++ f.ty ++ f.md ++ f.xk ++ f.yk

def FA.unpack (b : BitVec 21) : FA :=
  ⟨b.extractLsb' 19 2, b.extractLsb' 16 3, b.getLsbD 15, b.extractLsb' 12 3, b.getLsbD 11,
   b.extractLsb' 7 4, b.extractLsb' 4 3, b.extractLsb' 2 2, b.extractLsb' 0 2⟩

/-- Format I. -/
structure FI where
  acc : BitVec 2
  p : BitVec 3
  imm : BitVec 16
  deriving DecidableEq, Repr

def FI.pack (f : FI) : BitVec 21 := f.acc ++ f.p ++ f.imm

def FI.unpack (b : BitVec 21) : FI := ⟨b.extractLsb' 19 2, b.extractLsb' 16 3, b.extractLsb' 0 16⟩

/-- Formats J and Q. -/
structure FQ where
  sel : BitVec 4
  val : BitVec 17
  deriving DecidableEq, Repr

def FQ.pack (f : FQ) : BitVec 21 := f.sel ++ f.val

def FQ.unpack (b : BitVec 21) : FQ := ⟨b.extractLsb' 17 4, b.extractLsb' 0 17⟩

/-- Format P. -/
structure FP where
  p : BitVec 3
  fd : BitVec 2
  imm : BitVec 16
  deriving DecidableEq, Repr

def FP.pack (f : FP) : BitVec 21 := f.p ++ f.fd ++ f.imm

def FP.unpack (b : BitVec 21) : FP := ⟨b.extractLsb' 18 3, b.extractLsb' 16 2, b.extractLsb' 0 16⟩

/-- `rep`: NM1, CS, COUNT (R98). -/
structure FR where
  nm1 : BitVec 4
  cs : Bool
  cnt : BitVec 16
  deriving DecidableEq, Repr

def FR.pack (f : FR) : BitVec 21 := f.nm1 ++ BitVec.ofBool f.cs ++ f.cnt

def FR.unpack (b : BitVec 21) : FR := ⟨b.extractLsb' 17 4, b.getLsbD 16, b.extractLsb' 0 16⟩

/-- Word 0 of format C. -/
structure FC where
  d : PtrOp
  src : PtrOp
  map : BitVec 4
  fo : Bool
  sc : Bool
  deriving DecidableEq, Repr

def PtrOp.pack (o : PtrOp) : BitVec 4 := o.p ++ BitVec.ofBool o.inc

def PtrOp.unpack (b : BitVec 4) : PtrOp := ⟨b.extractLsb' 1 3, b.getLsbD 0⟩

def FC.pack (f : FC) : BitVec 21 :=
  f.d.pack ++ f.src.pack ++ f.map ++ BitVec.ofBool f.fo ++ BitVec.ofBool f.sc ++ 0#7

def FC.unpack (b : BitVec 21) : FC :=
  ⟨PtrOp.unpack (b.extractLsb' 17 4), PtrOp.unpack (b.extractLsb' 13 4), b.extractLsb' 9 4, b.getLsbD 8,
   b.getLsbD 7⟩

/-- Word 0 of format T. -/
structure FT where
  a : PtrOp
  b : PtrOp
  ty : BitVec 4
  geo : Bool
  ovw : Bool
  spa : BitVec 2
  sca : Bool
  scb : Bool
  macc : BitVec 2
  deriving DecidableEq, Repr

def FT.pack (f : FT) : BitVec 21 :=
  f.a.pack ++ f.b.pack ++ f.ty ++ BitVec.ofBool f.geo ++ BitVec.ofBool f.ovw ++ f.spa ++
  BitVec.ofBool f.sca ++ BitVec.ofBool f.scb ++ f.macc ++ 0#1

def FT.unpack (b : BitVec 21) : FT :=
  ⟨PtrOp.unpack (b.extractLsb' 17 4), PtrOp.unpack (b.extractLsb' 13 4), b.extractLsb' 9 4, b.getLsbD 8,
   b.getLsbD 7, b.extractLsb' 5 2, b.getLsbD 4, b.getLsbD 3, b.extractLsb' 1 2⟩

/-- Word 0 of format O. -/
structure FO where
  g : PtrOp
  r : PtrOp
  ty : BitVec 4
  e : Bool
  vk : BitVec 2
  v : PtrOp
  deriving DecidableEq, Repr

def FO.pack (f : FO) : BitVec 21 :=
  f.g.pack ++ f.r.pack ++ f.ty ++ BitVec.ofBool f.e ++ f.vk ++ f.v.pack ++ 0#2

def FO.unpack (b : BitVec 21) : FO :=
  ⟨PtrOp.unpack (b.extractLsb' 17 4), PtrOp.unpack (b.extractLsb' 13 4), b.extractLsb' 9 4, b.getLsbD 8,
   b.extractLsb' 6 2, PtrOp.unpack (b.extractLsb' 2 4)⟩

/-- Word 0 of format E. -/
structure FE where
  p : PtrOp
  op : BitVec 3
  scope : Bool
  deriving DecidableEq, Repr

def FE.pack (f : FE) : BitVec 21 := f.p.pack ++ f.op ++ BitVec.ofBool f.scope ++ 0#13

def FE.unpack (b : BitVec 21) : FE := ⟨PtrOp.unpack (b.extractLsb' 17 4), b.extractLsb' 14 3, b.getLsbD 13⟩

/-- Word 0 of format G. -/
structure FG where
  gn : BitVec 2
  fs : Bool
  deriving DecidableEq, Repr

def FG.pack (f : FG) : BitVec 21 := f.gn ++ BitVec.ofBool f.fs ++ 0#18

def FG.unpack (b : BitVec 21) : FG := ⟨b.extractLsb' 19 2, b.getLsbD 18⟩

/-! ## Encoding -/

/-- The P, I and kind fields of an operand of format A (R97). -/
def Opnd.pf : Opnd → BitVec 3
  | .mem p _ => p
  | .acc a => 0#1 ++ a
  | .s | .lit _ => 0

def Opnd.incf : Opnd → Bool
  | .mem _ i => i
  | _ => false

def Opnd.kf : Opnd → BitVec 2
  | .mem .. => 0 | .acc _ => 1 | .s => 2 | .lit _ => 3

def Opnd.lit? : Opnd → Option W64
  | .lit v => some v
  | _ => none

/-- The literal's words, if an operand holds it, and LEN. -/
def litTail : Option W64 → List W32
  | some v => litWords v
  | none => []

def litLen : Option W64 → BitVec 2
  | some _ => 1
  | none => 0

/-- Format A with operands X and Y. -/
def encA (cls : BitVec 3) (opc : BitVec 6) (acc : BitVec 2) (x : Opnd) (y : Opnd) (ty : BitVec 4)
    (md : BitVec 3) : List W32 :=
  let l := match x.lit? with
    | some v => some v
    | none => y.lit?
  firstWord cls opc (FA.pack ⟨acc, x.pf, x.incf, y.pf, y.incf, ty, md, x.kf, y.kf⟩) (litLen l) :: litTail l

/-- The all-zero Y operand of a one-source instruction. -/
def noY : Opnd := .mem 0 false

def encPtr (o : PtrOp) : Opnd := .mem o.p o.inc

/-- Format I with an immediate or the literal. -/
def encI (cls : BitVec 3) (opc : BitVec 6) (acc : BitVec 2) (p : BitVec 3) : Imm → List W32
  | .short v => [firstWord cls opc (FI.pack ⟨acc, p, v⟩) 0]
  | .long v => firstWord cls opc (FI.pack ⟨acc, p, 0⟩) 1 :: litWords v

def encI0 (cls : BitVec 3) (opc : BitVec 6) (acc : BitVec 2) (p : BitVec 3) (v : BitVec 16) : List W32 :=
  [firstWord cls opc (FI.pack ⟨acc, p, v⟩) 0]

/-- A count or layer in IMM16, or from s with ACC = 1. -/
def encIs (cls : BitVec 3) (opc : BitVec 6) (p : BitVec 3) : ImmOrS → List W32
  | .imm v => encI0 cls opc 0 p v
  | .s => encI0 cls opc 1 p 0

def encP (opc : BitVec 6) (p : BitVec 3) (f : BitVec 2) : Imm → List W32
  | .short v => [firstWord 0 opc (FP.pack ⟨p, f, v⟩) 0]
  | .long v => firstWord 0 opc (FP.pack ⟨p, f, 0⟩) 1 :: litWords v

def encQ (cls : BitVec 3) (opc : BitVec 6) (sel : BitVec 4) (val : BitVec 17) : List W32 :=
  [firstWord cls opc (FQ.pack ⟨sel, val⟩) 0]

def encJ (opc : BitVec 6) (c : Cond) : Target → List W32
  | .rel o => encQ 0 opc c.code o
  | .abs v => firstWord 0 opc (FQ.pack ⟨c.code, 0⟩) 1 :: litWords v

def encM (opc : BitVec 6) (map : BitVec 4) : Mask → List W32
  | .short v => encQ 2 opc map v
  | .long v => firstWord 2 opc (FQ.pack ⟨map, 0⟩) 1 :: litWords v

/-- Format T (R103). -/
def encT (o : MtileOp) : List W32 :=
  let f : FT := ⟨o.a, o.b, o.ty.code, o.geo, o.ovw, o.spa, o.sca, o.scb, o.macc⟩
  match o.masks with
  | none => [firstWord 3 0 f.pack 2, o.row, o.cblk]
  | some (r, l) => [firstWord 3 0 f.pack 3, o.row, o.cblk, r ++ l, 0]

/-- Format C (R102). -/
def encC (c : CpyOp) (fo : Bool) : List W32 :=
  [firstWord 2 8 (FC.pack ⟨c.d, c.src, c.map, fo, c.sc⟩) 2, 0#2 ++ BitVec.ofBool c.ls ++ c.count, c.seq ++ 0#16]

def OVal.vk : OVal → BitVec 2
  | .mem .. => 0 | .s => 1 | .lit _ => 2

def OVal.pv : OVal → PtrOp
  | .mem p i => ⟨p, i⟩
  | _ => ⟨0, false⟩

def OVal.lit? : OVal → Option W64
  | .lit v => some v
  | _ => none

/-- Format O (R104). -/
def encO (opc : BitVec 6) (g r : PtrOp) (ty : BitVec 4) (e : Bool) (v : OVal) (aux cnt : W32) : List W32 :=
  let f : FO := ⟨g, r, ty, e, v.vk, v.pv⟩
  match v.lit? with
  | none => [firstWord 4 opc f.pack 2, aux, cnt]
  | some l => firstWord 4 opc f.pack 3 :: aux :: cnt :: litWords l

def encOffer (opc : BitVec 6) (o : OfferOp) (aux cnt : W32) : List W32 :=
  encO opc o.g o.r o.ty.code o.e o.v aux cnt

/-- Format E (R105). -/
def encE (opc : BitVec 6) (p : PtrOp) (op : BitVec 3) (scope : Bool) (w1 w2 : W32) : List W32 :=
  [firstWord 2 opc (FE.pack ⟨p, op, scope⟩) 2, w1, w2]

def GWidth.acc : GWidth → BitVec 2
  | .ty _ => 0 | .q => 1 | .v => 2

def GWidth.tyc : GWidth → BitVec 4
  | .ty t => t.code
  | _ => 0

def NmCount.aux : NmCount → W32
  | .imm _ => 0 | .s => 1

def NmCount.cnt : NmCount → W32
  | .imm n => n | .s => 0

def uAcc (u : Bool) : BitVec 2 := 0#1 ++ BitVec.ofBool u

def WSrc.opnd : WSrc → Opnd
  | .reg r => .mem r false
  | .lit v => .lit v

/-- Is the first operand's word of format A for W words: X names a register, Y a register, TY and MOD as given. -/
def encW (opc : BitVec 6) (acc : BitVec 2) (x : BitVec 3) (y : Opnd) (ty : BitVec 4) (md : BitVec 3) : List W32 :=
  encA 5 opc acc (.mem x false) y ty md

/-- The words of a well-formed instruction; an event has none. -/
def encode : Instr → List W32
  | .add x t => encA 0 0x00 0 x noY t.code 0
  | .addImm i => encI 0 0x10 0 0 i
  | .sub x t => encA 0 0x01 0 x noY t.code 0
  | .subImm i => encI 0 0x11 0 0 i
  | .and x t => encA 0 0x02 0 x noY t.code 0
  | .andImm i => encI 0 0x12 0 0 i
  | .or x t => encA 0 0x03 0 x noY t.code 0
  | .orImm i => encI 0 0x13 0 0 i
  | .xor x t => encA 0 0x04 0 x noY t.code 0
  | .xorImm i => encI 0 0x14 0 0 i
  | .shl x t => encA 0 0x05 0 x noY t.code 0
  | .shlImm i => encI 0 0x15 0 0 i
  | .shr x t => encA 0 0x06 0 x noY t.code 0
  | .shrImm i => encI 0 0x16 0 0 i
  | .sar x t => encA 0 0x07 0 x noY t.code 0
  | .sarImm i => encI 0 0x17 0 0 i
  | .mul x t => encA 0 0x08 0 x noY t.code 0
  | .mulImm i => encI 0 0x18 0 0 i
  | .mulh u x t => encA 0 0x09 (uAcc u) x noY t.code 0
  | .mulhImm u i => encI 0 0x19 (uAcc u) 0 i
  | .div u x t => encA 0 0x0A (uAcc u) x noY t.code 0
  | .divImm u i => encI 0 0x1A (uAcc u) 0 i
  | .rem u x t => encA 0 0x0B (uAcc u) x noY t.code 0
  | .remImm u i => encI 0 0x1B (uAcc u) 0 i
  | .min u x t => encA 0 0x0C (uAcc u) x noY t.code 0
  | .minImm u i => encI 0 0x1C (uAcc u) 0 i
  | .max u x t => encA 0 0x0D (uAcc u) x noY t.code 0
  | .maxImm u i => encI 0 0x1D (uAcc u) 0 i
  | .cmp x t => encA 0 0x0E 0 x noY t.code 0
  | .cmpImm i => encI 0 0x1E 0 0 i
  | .tst x t => encA 0 0x0F 0 x noY t.code 0
  | .tstImm i => encI 0 0x1F 0 0 i
  | .li i => encI 0 0x20 0 0 i
  | .sel c x y t => encA 0 0x21 (c.code.extractLsb' 0 2) x y t.code (0#2 ++ c.code.extractLsb' 2 1)
  | .ldl p t => encA 0 0x22 0 (encPtr p) noY t.code 0
  | .stl p y t => encA 0 0x23 0 (encPtr p) y t.code 0
  | .cvt d t x md => encA 0 0x24 0 x (.mem (d.code.extractLsb' 1 3) (d.code.getLsbD 0)) t.code md.code
  | .geo g v => match v with
      | .s => [firstWord 0 0x25 (FG.pack ⟨g, true⟩) 2, 0, 0]
      | .val x => firstWord 0 0x25 (FG.pack ⟨g, false⟩) 2 :: litWords x
  | .pset p sp i => encP 0x28 p sp.code i
  | .psetS p sp => encP 0x29 p sp.code (.short 0)
  | .pstr p i => encP 0x2A p 0 i
  | .plim p i => encP 0x2B p 0 i
  | .pswz p z => encP 0x2C p 0 (.short (0#14 ++ z))
  | .padd p i => encP 0x2D p 0 i
  | .pget p f => encP 0x2E p f (.short 0)
  | .br c t => encJ 0x30 c t
  | .jmp t => encJ 0x31 .al t
  | .call t => encJ 0x32 .al t
  | .ret => encJ 0x33 .al (.rel 0)
  | .brx x => encA 0 0x34 0 x noY ElemTy.i64.code 0
  | .rep st n c => match c with
      | .imm v => [firstWord 0 (14#4 ++ st) (FR.pack ⟨n, false, v⟩) 0]
      | .s => [firstWord 0 (14#4 ++ st) (FR.pack ⟨n, true, 0⟩) 0]
  | .vld a p t => encA 1 0x00 a (encPtr p) noY t.code 0
  | .vst p y t md => encA 1 0x01 0 (encPtr p) y t.code md.code
  | .vbcast a x t => encA 1 0x02 a x noY t.code 0
  | .vadd a x y t md => encA 1 0x03 a x y t.code md.code
  | .vsub a x y t md => encA 1 0x04 a x y t.code md.code
  | .vmul a x y t md => encA 1 0x05 a x y t.code md.code
  | .vmac a x y t md => encA 1 0x06 a x y t.code md.code
  | .vmin a x y t => encA 1 0x07 a x y t.code 0
  | .vmax a x y t => encA 1 0x08 a x y t.code 0
  | .vabs a x t sat => encA 1 0x09 a x noY t.code (BitVec.ofBool sat ++ 0#2)
  | .vneg a x t sat => encA 1 0x0A a x noY t.code (BitVec.ofBool sat ++ 0#2)
  | .vand a x y t => encA 1 0x0B a x y t.code 0
  | .vor a x y t => encA 1 0x0C a x y t.code 0
  | .vxor a x y t => encA 1 0x0D a x y t.code 0
  | .vshl a x y t => encA 1 0x0E a x y t.code 0
  | .vshr a x y t => encA 1 0x0F a x y t.code 0
  | .vcmp pr x y t => encA 1 0x10 pr x y t.code 0
  | .vsel a x t => encA 1 0x11 a x noY t.code 0
  | .vcvt a d t x md => encA 1 0x12 a x (.mem (d.code.extractLsb' 1 3) (d.code.getLsbD 0)) t.code md.code
  | .vred x t r => encA 1 0x13 0 x noY t.code (0#1 ++ r.code)
  | .vperm a x y t => encA 1 0x14 a x y t.code 0
  | .vscale a x y t md => encA 1 0x15 a x y t.code md.code
  | .vexp2 a x t md => encA 1 0x16 a x noY t.code md.code
  | .vrcp a x t md => encA 1 0x17 a x noY t.code md.code
  | .vrsq a x t md => encA 1 0x18 a x noY t.code md.code
  | .vmaxi x t => encA 1 0x19 0 x noY t.code 0
  | .vpop x t => encA 1 0x1A 0 x noY t.code 0
  | .vmset x => encA 1 0x1B 0 x noY 0 0
  | .vmsetNz x t => encA 1 0x1B 1 x noY t.code 0
  | .vmsetRead => encA 1 0x1B 2 noY noY 0 0
  | .vmsetNot => encA 1 0x1B 3 noY noY 0 0
  | .vcprs a v s t => encA 1 0x1C a (encPtr v) (encPtr s) t.code 0
  | .vmeta a sel => encA 1 0x1D 0 (.acc a) (.lit (0#48 ++ sel)) 0 0
  | .vpackt d s sat => encA 1 0x1E 0 (encPtr d) (encPtr s) 0 (BitVec.ofBool sat ++ 0#2)
  | .vunpkt d s => encA 1 0x1F 0 (encPtr d) (encPtr s) 0 0
  | .ldg w d s => encA 2 0x00 w.acc (encPtr d) (encPtr s) w.tyc 0
  | .stg w g y => encA 2 0x01 w.acc (encPtr g) y w.tyc 0
  | .ldh w d s => encA 2 0x02 w.acc (encPtr d) (encPtr s) w.tyc 0
  | .ldrow v d g => encA 2 0x03 (uAcc v) (encPtr d) (encPtr g) 0 0
  | .cpy c fo => match fo with
      | none => encC c false
      | some m => encC c true ++ encT m
  | .smwait map m => encM 0x10 map m
  | .smtest map m => encM 0x11 map m
  | .smclr map m => encM 0x12 map m
  | .wait c n => encQ 2 0x13 c.code n
  | .pwait s d => encQ 2 0x14 s.code (0#13 ++ d.code)
  | .phase sc => encQ 2 0x15 sc.code 0
  | .rwb p l => encIs 2 0x18 p l
  | .rinv p l => encIs 2 0x19 p l
  | .tokacq p => encI0 2 0x1A 0 p 0
  | .tokpass p => encI0 2 0x1B 0 p 0
  | .qpush q x => encA 2 0x20 q.code x noY 0 0
  | .qpop q x => encA 2 0x21 q.code x noY 0 0
  | .qstat q => encI0 2 0x22 q.code 0 0
  | .exo o => encE 0x28 o.t 0 o.die (o.set.extractLsb' 0 32) (o.nslot ++ o.set.extractLsb' 32 16)
  | .exs p sl => encE 0x29 p 0 false (0#16 ++ sl) 0
  | .exr p sl => encE 0x2A p 0 false (0#16 ++ sl) 0
  | .exred b p sl => encE 0x2B p (0#2 ++ BitVec.ofBool b) false (0#16 ++ sl) 0
  | .exc => encQ 2 0x2C 0 0
  | .mtile o => encT o
  | .tfetch p n => encI0 3 0x01 0 p n
  | .trel p n => encI0 3 0x02 0 p n
  | .jinit al i32 => encI0 3 0x08 0 0 (0#14 ++ BitVec.ofBool al ++ BitVec.ofBool i32)
  | .jadd a p t => encA 3 0x09 0 (.acc a) (encPtr p) t.code 0
  | .joins x y t => encA 3 0x0A 0 (.mem (0#1 ++ x.code) false) (.mem (0#1 ++ y.code) false) t.code 0
  | .jget a p t => encA 3 0x0B a (encPtr p) noY t.code 0
  | .jdrainT p => encI0 3 0x0C 0 p 0
  | .jdrainD p sh => encI0 3 0x0C 1 p sh
  | .jstat => encI0 3 0x0D 0 0 0
  | .jspill p => encI0 3 0x0E 0 p 0
  | .wrun p => encI0 3 0x10 0 p 0
  | .oadd o => encOffer 0x00 o 0 0
  | .oand o => encOffer 0x01 o 0 0
  | .oor o => encOffer 0x02 o 0 0
  | .omin o => encOffer 0x03 o 0 0
  | .omax o => encOffer 0x04 o 0 0
  | .oxch o => encOffer 0x05 o 0 0
  | .ocas o => encOffer 0x06 o 0 0
  | .orow o add size => encOffer 0x07 o (0#31 ++ BitVec.ofBool add) size
  | .ofin o size => encOffer 0x08 o 0 size
  | .owait o => encOffer 0x09 o 0 0
  | .oemb b r v => encO 0x10 ⟨0, false⟩ r (bif b then ElemTy.bf16.code else ElemTy.fp32.code) false (.mem v.p v.inc) 0 0
  | .oscan r v => encO 0x11 ⟨0, false⟩ r 0 false (.mem v.p v.inc) 0 0
  | .orowc d r s n => encO 0x12 d r 0 false (.mem s.p s.inc) n.aux n.cnt
  | .ofill d r v n => encO 0x13 d r 0 false v n.aux n.cnt
  | .ostat t p => encI0 4 0x18 (uAcc t) p 0
  | .wld d a inc t => encW 0x00 0 d (.mem a inc) t.code 0
  | .wldi d i => encI0 5 0x01 0 d i
  | .wldiSh d i => encI0 5 0x01 1 d i
  | .wadd d y => encW 0x02 0 d y.opnd 0 0
  | .wsub d y => encW 0x03 0 d y.opnd 0 0
  | .wand d y => encW 0x04 0 d y.opnd 0 0
  | .wshr ar d y => encW 0x05 (uAcc ar) d y.opnd 0 0
  | .wcmp x y => encW 0x06 0 x y.opnd 0 0
  | .wbr c o => encQ 5 0x08 c.code o
  | .wjmp o => encQ 5 0x09 Cond.al.code o
  | .wemit i k v => encW 0x10 0 i (.mem k false) 0 v
  | .wtile o a inc => encW 0x11 0 o (.mem a inc) 0 0
  | .wtileExpand o a inc t m => encW 0x11 1 o (.mem a inc) t.code m
  | .wend => encI0 5 0x18 0 0 0
  | .trap n => encI0 6 0x00 0 0 n
  | .eret => encI0 6 0x01 0 0 0
  | .srr r => encI0 6 0x02 0 0 (0#4 ++ r)
  | .srw r => encI0 6 0x03 0 0 (0#4 ++ r)
  | .fork ac o => encQ 6 0x08 (bif ac then 2 else 1) o
  | .forkBoth om oa => firstWord 6 0x08 (FQ.pack ⟨3, om⟩) 1 :: [oa, 0]
  | .rdv st => encQ 6 0x09 (0#1 ++ BitVec.ofBool st.a ++ BitVec.ofBool st.m ++ BitVec.ofBool st.c) 0
  | .tdone => encI0 6 0x0A 0 0 0
  | .tsig n => encI0 6 0x0B 0 0 n
  | .tsigS => encI0 6 0x0B 1 0 0
  | .gbar => encI0 6 0x0C 0 0 0
  | .yield => encI0 6 0x0D 0 0 0
  | .idle n => encI0 6 0x0E 0 0 n
  | .iflush => encI0 6 0x0F 0 0 0
  | .lacq l => encIs 6 0x10 0 l
  | .lrel l => encIs 6 0x11 0 l
  | .lhint l => encIs 6 0x12 0 l
  | .lreset l => encIs 6 0x13 0 l
  | .tinv p => encI0 6 0x18 0 p 0
  | .tinvAsid => encI0 6 0x18 1 0 0
  | .tinvAll => encI0 6 0x18 2 0 0
  | _ => []

/-- Bytes of an instruction (R94); the follow-on's words count with its `cpy`. -/
def Instr.bytes (i : Instr) : Nat := 4 * (encode i).length

/-! ## Decoding -/

/-- The operand of P, I and kind fields (R97). -/
def opndOf (p : BitVec 3) (i : Bool) (k : BitVec 2) (lit : W64) : Opnd :=
  match k.toNat with
  | 0 => .mem p i
  | 1 => .acc (p.extractLsb' 0 2)
  | 2 => .s
  | _ => .lit lit

/-- A first word with its further words, each read as 0 where there is none: what the fields of one instruction
are taken from. -/
structure Raw where
  w0 : W32
  w1 : W32
  w2 : W32
  w3 : W32
  w4 : W32
  deriving DecidableEq, Repr

def nth (ws : List W32) (n : Nat) : W32 := (ws[n]?).getD 0

def Raw.of (ws : List W32) : Raw := ⟨nth ws 0, nth ws 1, nth ws 2, nth ws 3, nth ws 4⟩

def Raw.body (r : Raw) : BitVec 21 := wBody r.w0
def Raw.fa (r : Raw) : FA := FA.unpack r.body
def Raw.fi (r : Raw) : FI := FI.unpack r.body
def Raw.fq (r : Raw) : FQ := FQ.unpack r.body
def Raw.fp (r : Raw) : FP := FP.unpack r.body
def Raw.fo (r : Raw) : FO := FO.unpack r.body
def Raw.fe (r : Raw) : FE := FE.unpack r.body
/-- The literal of a 96-bit instruction, and of a 160-bit one (R94). -/
def Raw.lit (r : Raw) : W64 := litOf r.w1 r.w2
def Raw.lit2 (r : Raw) : W64 := litOf r.w3 r.w4
def Raw.long (r : Raw) : Bool := wLen r.w0 == 1
def Raw.x (r : Raw) : Opnd := opndOf r.fa.px r.fa.ix r.fa.xk r.lit
def Raw.y (r : Raw) : Opnd := opndOf r.fa.py r.fa.iy r.fa.yk r.lit
def Raw.px (r : Raw) : PtrOp := ⟨r.fa.px, r.fa.ix⟩
def Raw.py (r : Raw) : PtrOp := ⟨r.fa.py, r.fa.iy⟩
def Raw.ty (r : Raw) : Option ElemTy := ElemTy.ofCode r.fa.ty
def Raw.md (r : Raw) : Modes := Modes.ofCode r.fa.md
/-- dty of `cvt` and `vcvt`: PY and IY. -/
def Raw.dty (r : Raw) : Option ElemTy := ElemTy.ofCode (r.fa.py ++ BitVec.ofBool r.fa.iy)
def Raw.u (r : Raw) : Bool := r.fa.acc.getLsbD 0
def Raw.immI (r : Raw) : Imm := if r.long then .long r.lit else .short r.fi.imm
def Raw.immP (r : Raw) : Imm := if r.long then .long r.lit else .short r.fp.imm
def Raw.tgt (r : Raw) : Target := if r.long then .abs r.lit else .rel r.fq.val
def Raw.mask (r : Raw) : Mask := if r.long then .long r.lit else .short r.fq.val
def Raw.immS (r : Raw) : ImmOrS := if r.fi.acc = 0 then .imm r.fi.imm else .s
def Raw.wsrc (r : Raw) : WSrc := if r.fa.yk = 3 then .lit r.lit else .reg r.fa.py
def Raw.gw (r : Raw) : Option GWidth :=
  match r.fa.acc.toNat with
  | 0 => r.ty.map .ty
  | 1 => some .q
  | 2 => some .v
  | _ => none
def Raw.oval (r : Raw) : OVal :=
  match r.fo.vk.toNat with
  | 0 => .mem r.fo.v.p r.fo.v.inc
  | 1 => .s
  | _ => .lit r.lit2
def Raw.ncnt (r : Raw) : NmCount := if r.w1 = 0 then .imm r.w2 else .s
def Raw.offer (r : Raw) : Option OfferOp :=
  (ElemTy.ofCode r.fo.ty).map fun t => ⟨r.fo.g, r.fo.r, t, r.fo.e, r.oval⟩

/-- Fields of an `mtile` (R103). -/
def parseT (r : Raw) : Option MtileOp :=
  let f := FT.unpack r.body
  (ElemTy.ofCode f.ty).map fun t =>
    ⟨f.a, f.b, t, f.geo, f.ovw, f.spa, f.sca, f.scb, f.macc, r.w1, r.w2,
     if wLen r.w0 = 3 then some (r.w3.extractLsb' 16 16, r.w3.extractLsb' 0 16) else none⟩

/-- Class S (R109). -/
def parseS (r : Raw) : Option Instr :=
  match (wOpc r.w0).toNat with
  | 0x00 => r.ty.map (.add r.x)
  | 0x01 => r.ty.map (.sub r.x)
  | 0x02 => r.ty.map (.and r.x)
  | 0x03 => r.ty.map (.or r.x)
  | 0x04 => r.ty.map (.xor r.x)
  | 0x05 => r.ty.map (.shl r.x)
  | 0x06 => r.ty.map (.shr r.x)
  | 0x07 => r.ty.map (.sar r.x)
  | 0x08 => r.ty.map (.mul r.x)
  | 0x09 => r.ty.map (.mulh r.u r.x)
  | 0x0A => r.ty.map (.div r.u r.x)
  | 0x0B => r.ty.map (.rem r.u r.x)
  | 0x0C => r.ty.map (.min r.u r.x)
  | 0x0D => r.ty.map (.max r.u r.x)
  | 0x0E => r.ty.map (.cmp r.x)
  | 0x0F => r.ty.map (.tst r.x)
  | 0x10 => some (.addImm r.immI)
  | 0x11 => some (.subImm r.immI)
  | 0x12 => some (.andImm r.immI)
  | 0x13 => some (.orImm r.immI)
  | 0x14 => some (.xorImm r.immI)
  | 0x15 => some (.shlImm r.immI)
  | 0x16 => some (.shrImm r.immI)
  | 0x17 => some (.sarImm r.immI)
  | 0x18 => some (.mulImm r.immI)
  | 0x19 => some (.mulhImm r.u r.immI)
  | 0x1A => some (.divImm r.u r.immI)
  | 0x1B => some (.remImm r.u r.immI)
  | 0x1C => some (.minImm r.u r.immI)
  | 0x1D => some (.maxImm r.u r.immI)
  | 0x1E => some (.cmpImm r.immI)
  | 0x1F => some (.tstImm r.immI)
  | 0x20 => some (.li r.immI)
  | 0x21 => r.ty.map (.sel (SelCond.ofCode (r.fa.md.extractLsb' 0 1 ++ r.fa.acc)) r.x r.y)
  | 0x22 => r.ty.map (.ldl r.px)
  | 0x23 => r.ty.map (.stl r.px r.y)
  | 0x24 => r.dty.bind fun d => r.ty.map fun t => .cvt d t r.x r.md
  | 0x25 => let f := FG.unpack r.body
            some (.geo f.gn (if f.fs then .s else .val r.lit))
  | 0x28 => some (.pset r.fp.p (Space.ofCode r.fp.fd) r.immP)
  | 0x29 => some (.psetS r.fp.p (Space.ofCode r.fp.fd))
  | 0x2A => some (.pstr r.fp.p r.immP)
  | 0x2B => some (.plim r.fp.p r.immP)
  | 0x2C => some (.pswz r.fp.p (r.fp.imm.extractLsb' 0 2))
  | 0x2D => some (.padd r.fp.p r.immP)
  | 0x2E => some (.pget r.fp.p r.fp.fd)
  | 0x30 => (Cond.ofCode r.fq.sel).map (.br · r.tgt)
  | 0x31 => some (.jmp r.tgt)
  | 0x32 => some (.call r.tgt)
  | 0x33 => some .ret
  | 0x34 => some (.brx r.x)
  | 0x38 | 0x39 | 0x3A | 0x3B =>
      let f := FR.unpack r.body
      some (.rep ((wOpc r.w0).extractLsb' 0 2) f.nm1 (if f.cs then .s else .imm f.cnt))
  | _ => none

/-- Class V (R110). -/
def parseV (r : Raw) : Option Instr :=
  let a := r.fa.acc
  match (wOpc r.w0).toNat with
  | 0x00 => r.ty.map (.vld a r.px)
  | 0x01 => r.ty.map fun t => .vst r.px r.y t r.md
  | 0x02 => r.ty.map (.vbcast a r.x)
  | 0x03 => r.ty.map fun t => .vadd a r.x r.y t r.md
  | 0x04 => r.ty.map fun t => .vsub a r.x r.y t r.md
  | 0x05 => r.ty.map fun t => .vmul a r.x r.y t r.md
  | 0x06 => r.ty.map fun t => .vmac a r.x r.y t r.md
  | 0x07 => r.ty.map (.vmin a r.x r.y)
  | 0x08 => r.ty.map (.vmax a r.x r.y)
  | 0x09 => r.ty.map fun t => .vabs a r.x t r.md.sat
  | 0x0A => r.ty.map fun t => .vneg a r.x t r.md.sat
  | 0x0B => r.ty.map (.vand a r.x r.y)
  | 0x0C => r.ty.map (.vor a r.x r.y)
  | 0x0D => r.ty.map (.vxor a r.x r.y)
  | 0x0E => r.ty.map (.vshl a r.x r.y)
  | 0x0F => r.ty.map (.vshr a r.x r.y)
  | 0x10 => r.ty.map (.vcmp a r.x r.y)
  | 0x11 => r.ty.map (.vsel a r.x)
  | 0x12 => r.dty.bind fun d => r.ty.map fun t => .vcvt a d t r.x r.md
  | 0x13 => r.ty.map fun t => .vred r.x t r.md.rnd
  | 0x14 => r.ty.map (.vperm a r.x r.y)
  | 0x15 => r.ty.map fun t => .vscale a r.x r.y t r.md
  | 0x16 => r.ty.map fun t => .vexp2 a r.x t r.md
  | 0x17 => r.ty.map fun t => .vrcp a r.x t r.md
  | 0x18 => r.ty.map fun t => .vrsq a r.x t r.md
  | 0x19 => r.ty.map (.vmaxi r.x)
  | 0x1A => r.ty.map (.vpop r.x)
  | 0x1B => match a.toNat with
      | 0 => some (.vmset r.x)
      | 1 => r.ty.map (.vmsetNz r.x)
      | 2 => some .vmsetRead
      | _ => some .vmsetNot
  | 0x1C => r.ty.map (.vcprs a r.px r.py)
  | 0x1D => some (.vmeta (r.fa.px.extractLsb' 0 2) (r.lit.extractLsb' 0 16))
  | 0x1E => some (.vpackt r.px r.py r.md.sat)
  | 0x1F => some (.vunpkt r.px r.py)
  | _ => none

/-- Class M (R111). `more` are the words after the first three, for a follow-on (R102). -/
def parseM (r : Raw) (more : List W32) : Option Instr :=
  match (wOpc r.w0).toNat with
  | 0x00 => r.gw.map fun w => .ldg w r.px r.py
  | 0x01 => r.gw.map fun w => .stg w r.px r.y
  | 0x02 => r.gw.map fun w => .ldh w r.px r.py
  | 0x03 => some (.ldrow r.u r.px r.py)
  | 0x08 =>
      let f := FC.unpack r.body
      let c : CpyOp := ⟨f.d, f.src, f.map, f.sc, r.w1.getLsbD 29, r.w1.extractLsb' 0 29, r.w2.extractLsb' 16 16⟩
      if f.fo then
        let n := Raw.of more
        if wCls n.w0 = 3 ∧ wOpc n.w0 = 0 then (parseT n).map fun m => .cpy c (some m) else none
      else some (.cpy c none)
  | 0x10 => some (.smwait r.fq.sel r.mask)
  | 0x11 => some (.smtest r.fq.sel r.mask)
  | 0x12 => some (.smclr r.fq.sel r.mask)
  | 0x13 => (Ctr.ofCode r.fq.sel).map (.wait · r.fq.val)
  | 0x14 => (Path.ofCode r.fq.sel).bind fun s => (Path.ofCode (r.fq.val.extractLsb' 0 4)).map fun d => .pwait s d
  | 0x15 => (Scope.ofCode r.fq.sel).map .phase
  | 0x18 => some (.rwb r.fi.p r.immS)
  | 0x19 => some (.rinv r.fi.p r.immS)
  | 0x1A => some (.tokacq r.fi.p)
  | 0x1B => some (.tokpass r.fi.p)
  | 0x20 => some (.qpush (Queue.ofCode r.fa.acc) r.x)
  | 0x21 => some (.qpop (Queue.ofCode r.fa.acc) r.x)
  | 0x22 => some (.qstat (Queue.ofCode r.fi.acc))
  | 0x28 => some (.exo ⟨r.fe.p, r.fe.scope, r.w2.extractLsb' 0 16 ++ r.w1, r.w2.extractLsb' 16 16⟩)
  | 0x29 => some (.exs r.fe.p (r.w1.extractLsb' 0 16))
  | 0x2A => some (.exr r.fe.p (r.w1.extractLsb' 0 16))
  | 0x2B => some (.exred (r.fe.op.getLsbD 0) r.fe.p (r.w1.extractLsb' 0 16))
  | 0x2C => some .exc
  | _ => none

/-- Class X (R112). -/
def parseX (r : Raw) : Option Instr :=
  match (wOpc r.w0).toNat with
  | 0x00 => (parseT r).map .mtile
  | 0x01 => some (.tfetch r.fi.p r.fi.imm)
  | 0x02 => some (.trel r.fi.p r.fi.imm)
  | 0x08 => some (.jinit (r.fi.imm.getLsbD 1) (r.fi.imm.getLsbD 0))
  | 0x09 => r.ty.map (.jadd (r.fa.px.extractLsb' 0 2) r.py)
  | 0x0A => r.ty.map (.joins (Queue.ofCode (r.fa.px.extractLsb' 0 2)) (Queue.ofCode (r.fa.py.extractLsb' 0 2)))
  | 0x0B => r.ty.map (.jget r.fa.acc r.px)
  | 0x0C => if r.fi.acc = 0 then some (.jdrainT r.fi.p) else some (.jdrainD r.fi.p r.fi.imm)
  | 0x0D => some .jstat
  | 0x0E => some (.jspill r.fi.p)
  | 0x10 => some (.wrun r.fi.p)
  | _ => none

/-- Class O (R113). -/
def parseO (r : Raw) : Option Instr :=
  let v : PtrOp := r.fo.v
  match (wOpc r.w0).toNat with
  | 0x00 => r.offer.map .oadd
  | 0x01 => r.offer.map .oand
  | 0x02 => r.offer.map .oor
  | 0x03 => r.offer.map .omin
  | 0x04 => r.offer.map .omax
  | 0x05 => r.offer.map .oxch
  | 0x06 => r.offer.map .ocas
  | 0x07 => r.offer.map fun o => .orow o (r.w1.getLsbD 0) r.w2
  | 0x08 => r.offer.map fun o => .ofin o r.w2
  | 0x09 => r.offer.map .owait
  | 0x10 => some (.oemb (r.fo.ty == ElemTy.bf16.code) r.fo.r v)
  | 0x11 => some (.oscan r.fo.r v)
  | 0x12 => some (.orowc r.fo.g r.fo.r v r.ncnt)
  | 0x13 => some (.ofill r.fo.g r.fo.r r.oval r.ncnt)
  | 0x18 => some (.ostat (r.fi.acc.getLsbD 0) r.fi.p)
  | _ => none

/-- Class W (R114, R440). -/
def parseW (r : Raw) : Option Instr :=
  match (wOpc r.w0).toNat with
  | 0x00 => r.ty.map (.wld r.fa.px r.fa.py r.fa.iy)
  | 0x01 => if r.fi.acc = 0 then some (.wldi r.fi.p r.fi.imm) else some (.wldiSh r.fi.p r.fi.imm)
  | 0x02 => some (.wadd r.fa.px r.wsrc)
  | 0x03 => some (.wsub r.fa.px r.wsrc)
  | 0x04 => some (.wand r.fa.px r.wsrc)
  | 0x05 => some (.wshr r.u r.fa.px r.wsrc)
  | 0x06 => some (.wcmp r.fa.px r.wsrc)
  | 0x08 => (Cond.ofCode r.fq.sel).map (.wbr · r.fq.val)
  | 0x09 => some (.wjmp r.fq.val)
  | 0x10 => some (.wemit r.fa.px r.fa.py r.fa.md)
  | 0x11 => if r.fa.acc = 0 then some (.wtile r.fa.px r.fa.py r.fa.iy)
            else r.ty.map fun t => .wtileExpand r.fa.px r.fa.py r.fa.iy t r.fa.md
  | 0x18 => some .wend
  | _ => none

/-- Class Y (R115). -/
def parseY (r : Raw) : Option Instr :=
  match (wOpc r.w0).toNat with
  | 0x00 => some (.trap r.fi.imm)
  | 0x01 => some .eret
  | 0x02 => some (.srr (r.fi.imm.extractLsb' 0 12))
  | 0x03 => some (.srw (r.fi.imm.extractLsb' 0 12))
  | 0x08 => match r.fq.sel.toNat with
      | 1 => some (.fork false r.fq.val)
      | 2 => some (.fork true r.fq.val)
      | 3 => some (.forkBoth r.fq.val r.w1)
      | _ => none
  | 0x09 => some (.rdv ⟨r.fq.sel.getLsbD 0, r.fq.sel.getLsbD 1, r.fq.sel.getLsbD 2⟩)
  | 0x0A => some .tdone
  | 0x0B => if r.fi.acc = 0 then some (.tsig r.fi.imm) else some .tsigS
  | 0x0C => some .gbar
  | 0x0D => some .yield
  | 0x0E => some (.idle r.fi.imm)
  | 0x0F => some .iflush
  | 0x10 => some (.lacq r.immS)
  | 0x11 => some (.lrel r.immS)
  | 0x12 => some (.lhint r.immS)
  | 0x13 => some (.lreset r.immS)
  | 0x18 => match r.fi.acc.toNat with
      | 0 => some (.tinv r.fi.p)
      | 1 => some .tinvAsid
      | _ => some .tinvAll
  | _ => none

/-- The fields of the instruction that the words begin with, reserved bits aside. -/
def parse (ws : List W32) : Option Instr :=
  let r := Raw.of ws
  match (wCls r.w0).toNat with
  | 0 => parseS r
  | 1 => parseV r
  | 2 => parseM r (ws.drop 3)
  | 3 => parseX r
  | 4 => parseO r
  | 5 => parseW r
  | 6 => parseY r
  | _ => none

/-- Why words are no instruction: the steps of R116 that find it so. Every reason but `short` raises ILLEGAL. -/
inductive Reject where
  /-- There are fewer words than LEN states. -/
  | short
  /-- Step 2: CLASS = 0b111. -/
  | classReserved
  /-- Step 3: the opcode's cell is unassigned. -/
  | unassigned
  /-- Step 5: LEN is not accepted (R107). -/
  | badLength
  /-- Step 6: a reserved bit is set, or a field holds a value that is not assigned. -/
  | badField
  deriving DecidableEq, Repr

/-- The formats of the opcode maps; `ix` is format I where the literal is accepted, `jx`, `qx` and `px` likewise. -/
inductive Fmt where
  | a | i | ix | j | jx | q | qx | fork | p | px | c | t | o | e | g
  deriving DecidableEq, Repr

/-- The opcode maps (R109 to R115): the format of an assigned cell. -/
def fmtOf (cls opc : Nat) : Option Fmt :=
  match cls with
  | 0 =>
      if opc ≤ 0x0F then some .a else if opc ≤ 0x20 then some .ix
      else if opc ≤ 0x24 then some .a else if opc = 0x25 then some .g
      else if opc = 0x28 || opc = 0x2A || opc = 0x2B || opc = 0x2D then some .px
      else if opc = 0x29 || opc = 0x2C || opc = 0x2E then some .p
      else if 0x30 ≤ opc && opc ≤ 0x32 then some .jx else if opc = 0x33 then some .j
      else if opc = 0x34 then some .a else if 0x38 ≤ opc && opc ≤ 0x3B then some .i else none
  | 1 => if opc ≤ 0x1F then some .a else none
  | 2 =>
      if opc ≤ 3 then some .a else if opc = 8 then some .c
      else if 0x10 ≤ opc && opc ≤ 0x12 then some .qx else if 0x13 ≤ opc && opc ≤ 0x15 then some .q
      else if 0x18 ≤ opc && opc ≤ 0x1B then some .i else if opc = 0x20 || opc = 0x21 then some .a
      else if opc = 0x22 then some .i else if 0x28 ≤ opc && opc ≤ 0x2B then some .e
      else if opc = 0x2C then some .q else none
  | 3 =>
      if opc = 0 then some .t else if opc = 1 || opc = 2 then some .i else if opc = 8 then some .i
      else if 9 ≤ opc && opc ≤ 0x0B then some .a else if 0x0C ≤ opc && opc ≤ 0x0E then some .i
      else if opc = 0x10 then some .i else none
  | 4 => if opc ≤ 9 then some .o else if 0x10 ≤ opc && opc ≤ 0x13 then some .o
         else if opc = 0x18 then some .i else none
  | 5 =>
      if opc = 0 then some .a else if opc = 1 then some .i else if 2 ≤ opc && opc ≤ 6 then some .a
      else if opc = 8 || opc = 9 then some .j else if opc = 0x10 || opc = 0x11 then some .a
      else if opc = 0x18 then some .i else none
  | 6 =>
      if opc ≤ 3 then some .i else if opc = 8 then some .fork else if opc = 9 then some .q
      else if 0x0A ≤ opc && opc ≤ 0x13 then some .i else if opc = 0x18 then some .i else none
  | _ => none

/-- Is this LEN accepted by the format (R107)? -/
def Fmt.lenOk (f : Fmt) (w : W32) : Bool :=
  let len := (wLen w).toNat
  let a := FA.unpack (wBody w)
  match f with
  | .a => if a.xk = 3 || a.yk = 3 then len == 1 else len == 0
  | .i | .j | .q | .p => len == 0
  | .ix | .jx | .qx | .px => len == 0 || len == 1
  | .fork => if (FQ.unpack (wBody w)).sel = 3 then len == 1 else len == 0
  | .c | .e | .g => len == 2
  | .t | .o => len == 2 || len == 3

/-- The words that are needed to decode what `ws` begins with, as far as `ws` tells (R94, R95, R102). With FO = 1 those
of the follow-on count among them, so that a failing fetch of one comes before steps 2 to 6 of R116 on the `cpy` itself: the
model's choice (assumption 62). -/
def needed (ws : List W32) : Nat :=
  match ws with
  | [] => 1
  | w :: rest =>
    let n := lenWords (wLen w)
    if wCls w = 2 ∧ wOpc w = 8 ∧ (FC.unpack (wBody w)).fo then
      match rest.drop (n - 1) with
      | [] => n + 1
      | w' :: _ => if wCls w' = 3 ∧ wOpc w' = 0 then n + lenWords (wLen w') else n + 1
    else n

/-- What decoding finds. -/
inductive Decoded where
  | ok (i : Instr)
  | bad (r : Reject)
  deriving DecidableEq, Repr

/-- Decode the instruction that the words begin with: its fields, then the checks of R116 steps 2 to 6. A word is
accepted only if it is exactly the encoding of the instruction read from it, so no reserved bit is dropped. -/
def decode (ws : List W32) : Decoded :=
  match ws with
  | [] => .bad .short
  | w :: _ =>
    if wCls w = 7 then .bad .classReserved
    else match fmtOf (wCls w).toNat (wOpc w).toNat with
      | none => .bad .unassigned
      | some f =>
        if !f.lenOk w then .bad .badLength
        else if ws.length < lenWords (wLen w) then .bad .short
        else match parse ws with
          | none => .bad .badField
          | some i => if i.wf && encode i == ws.take (encode i).length then .ok i else .bad .badField

def Decoded.instr? : Decoded → Option Instr
  | .ok i => some i
  | .bad _ => none

/-! ## Bytes -/

/-- A word's bytes, lowest address first (R4). -/
def wordBytes (w : W32) : List Byte :=
  [w.extractLsb' 0 8, w.extractLsb' 8 8, w.extractLsb' 16 8, w.extractLsb' 24 8]

/-- Words of bytes; bytes short of a word are dropped. -/
def wordsOfBytes : List Byte → List W32
  | b0 :: b1 :: b2 :: b3 :: rest => (b3 ++ b2 ++ b1 ++ b0) :: wordsOfBytes rest
  | _ => []

/-- The decoder on bytes. -/
def decodeBytes (bs : List Byte) : Decoded := decode (wordsOfBytes bs)

/-- The longest instruction: a `cpy` with its follow-on. -/
def maxWords : Nat := 8

/-- The words of the opcode table's number: the first word in the low bits, zeros above `nbits`. -/
def tableWords (nbits w : Nat) : List W32 :=
  (List.range maxWords).map fun k => BitVec.ofNat 32 ((w % 2 ^ nbits) / 2 ^ (32 * k))

/-- The instruction the decoder reads from a word of the opcode table. -/
def decodeTableWord (nbits w : Nat) : Option Instr :=
  (decodeBytes ((tableWords nbits w).flatMap wordBytes)).instr?

end Sys2Proof
end

