-- ==== Sys2Proof/Machine/Tab.lean ====
section
/-! DEFINITION. Sparse tables: lists of (key, value) in one canonical form, keys strictly rising and no value
equal to what an unlisted key reads as. Memories of the part are tables of bytes. -/

namespace Sys2Proof.Machine

/-- A sparse table over natural keys. -/
abbrev Tab (α : Type) := List (Nat × α)

namespace Tab

variable {α : Type}

/-- The value at a key; `d` where none is listed. -/
def get (d : α) (t : Tab α) (k : Nat) : α :=
  match t with
  | [] => d
  | (k', v) :: r => if k' = k then v else get d r k

/-- Without the key. -/
def erase (t : Tab α) (k : Nat) : Tab α :=
  match t with
  | [] => []
  | (k', v) :: r => if k' = k then erase r k else (k', v) :: erase r k

/-- With the key listed. -/
def put (t : Tab α) (k : Nat) (v : α) : Tab α :=
  match t with
  | [] => [(k, v)]
  | (k', v') :: r => if k' = k then (k, v) :: r else if k < k' then (k, v) :: (k', v') :: r else (k', v') :: put r k v

/-- Write: the default removes the entry, so that equal contents are equal tables. -/
def set [DecidableEq α] (d : α) (t : Tab α) (k : Nat) (v : α) : Tab α := if v = d then erase t k else put t k v

/-- Keys strictly rise from `lo` on and no entry holds the default. -/
def wfFrom [DecidableEq α] (d : α) (lo : Nat) : Tab α → Bool
  | [] => true
  | (k, v) :: r => decide (lo ≤ k) && decide (v ≠ d) && wfFrom d (k + 1) r

/-- The canonical form. -/
def wf [DecidableEq α] (d : α) (t : Tab α) : Bool := wfFrom d 0 t

end Tab

/-- Byte memories: an unlisted byte reads 0 (assumption 4; R326 for DRAM and the lehr). -/
abbrev Memory := Tab Byte

namespace Memory

/-- One byte. -/
def read (m : Memory) (a : Nat) : Byte := Tab.get 0 m a

/-- `n` bytes from `a` on. -/
def readN (m : Memory) (a : Nat) : Nat → List Byte
  | 0 => []
  | n + 1 => m.read a :: readN m (a + 1) n

/-- Store one byte. -/
def write (m : Memory) (a : Nat) (b : Byte) : Memory := Tab.set 0 m a b

/-- Store bytes from `a` on. -/
def writeN (m : Memory) (a : Nat) : List Byte → Memory
  | [] => m
  | b :: bs => writeN (m.write a b) (a + 1) bs

/-- The canonical form of a memory. -/
def wf (m : Memory) : Bool := Tab.wf 0 m

end Memory

/-! ## Little-endian values (R4) -/

/-- The number whose bytes are these, the first lowest. -/
def leNat : List Byte → Nat
  | [] => 0
  | b :: bs => b.toNat + 256 * leNat bs

/-- The low `n` bytes of a number. -/
def natLe : Nat → Nat → List Byte
  | 0, _ => []
  | n + 1, v => BitVec.ofNat 8 v :: natLe n (v / 256)

def leBv (w : Nat) (bs : List Byte) : BitVec w := BitVec.ofNat w (leNat bs)
def bvLe {w : Nat} (n : Nat) (v : BitVec w) : List Byte := natLe n v.toNat

/-- Replace the bytes from `i` on of a list. -/
def patch (l : List Byte) (i : Nat) (bs : List Byte) : List Byte := l.take i ++ bs ++ l.drop (i + bs.length)

end Sys2Proof.Machine
end

