-- ==== Sys2Proof/Machine/Num.lean ====
section
/-! DEFINITION. Number formats and arithmetic (04_numbers.md): exact values, Round, Widen, NarrowSat, comparison,
Mag, NonZero, the fixed orders of summation, trits and BINT. -/

namespace Sys2Proof.Machine

/-- An exact value: ±m × 2^e, an infinity, or NaN. A zero keeps its sign. -/
inductive Ex where
  | nan
  | inf (neg : Bool)
  | fin (neg : Bool) (m : Nat) (e : Int)
  deriving DecidableEq, Repr

namespace Ex

def zero (neg : Bool) : Ex := fin neg 0 0

def ofInt (i : Int) : Ex := fin (decide (i < 0)) i.natAbs 0

def neg : Ex → Ex
  | nan => nan
  | inf s => inf (!s)
  | fin s m e => fin (!s) m e

def abs : Ex → Ex
  | nan => nan
  | inf _ => inf false
  | fin _ m e => fin false m e

/-- ±m × 2^e as an integer at the scale 2^lo, lo ≤ e. -/
def atScale (s : Bool) (m : Nat) (e lo : Int) : Int :=
  let v : Int := (m * 2 ^ (e - lo).toNat : Nat)
  if s then -v else v

/-- The exact sum, with the zero signs of R82. -/
def add (mode : RMode) : Ex → Ex → Ex
  | nan, _ | _, nan => nan
  | inf a, inf b => if a = b then inf a else nan
  | inf a, _ => inf a
  | _, inf b => inf b
  | fin s m e, fin s' m' e' =>
    if m = 0 ∧ m' = 0 then zero (if s = s' then s else mode == .rd)
    else
      let lo := min e e'
      let v := atScale s m e lo + atScale s' m' e' lo
      if v = 0 then zero (mode == .rd) else fin (decide (v < 0)) v.natAbs lo

/-- The exact product (R82). -/
def mul : Ex → Ex → Ex
  | nan, _ | _, nan => nan
  | inf a, inf b => inf (a ^^ b)
  | inf a, fin s m _ => if m = 0 then nan else inf (a ^^ s)
  | fin s m _, inf b => if m = 0 then nan else inf (s ^^ b)
  | fin s m e, fin s' m' e' => fin (s ^^ s') (m * m') (e + e')

/-- Bits of a quotient before its sticky bit: more than any format's, so that one rounding of it is correct. -/
def divBits : Nat := 192

/-- The quotient, its last bit a sticky one (R334, R86). -/
def div : Ex → Ex → Ex
  | nan, _ | _, nan => nan
  | inf _, inf _ => nan
  | inf a, fin s _ _ => inf (a ^^ s)
  | fin s _ _, inf b => zero (s ^^ b)
  | fin s m e, fin s' m' e' =>
    if m' = 0 then (if m = 0 then nan else inf (s ^^ s'))
    else
      let n := m * 2 ^ divBits
      let q := n / m'
      fin (s ^^ s') (2 * q + if n % m' = 0 then 0 else 1) (e - e' - divBits - 1)

/-- × 2^n. -/
def scale (x : Ex) (n : Int) : Ex :=
  match x with
  | fin s m e => fin s m (e + n)
  | y => y

end Ex

/-- A floating-point format (R73). -/
structure Ff where
  mb : Nat
  eb : Nat
  bias : Nat
  hasInf : Bool
  deriving DecidableEq, Repr

namespace Ff

def fp32 : Ff := ⟨23, 8, 127, true⟩
def fp16 : Ff := ⟨10, 5, 15, true⟩
def bf16 : Ff := ⟨7, 8, 127, true⟩
def e4m3 : Ff := ⟨3, 4, 7, false⟩
def e5m2 : Ff := ⟨2, 5, 15, true⟩

/-- The encodings of the largest finite magnitude, of infinity, of the canonical NaN, and the sign bit. -/
def maxEnc (f : Ff) : Nat := if f.hasInf then (2 ^ f.eb - 1) * 2 ^ f.mb - 1 else 2 ^ (f.eb + f.mb) - 2
def infEnc (f : Ff) : Nat := (2 ^ f.eb - 1) * 2 ^ f.mb
def nanEnc (f : Ff) : Nat := if f.hasInf then (2 ^ f.eb - 1) * 2 ^ f.mb + 2 ^ (f.mb - 1) else 2 ^ (f.eb + f.mb) - 1
def signBit (f : Ff) : Nat := 2 ^ (f.eb + f.mb)
def width (f : Ff) : Nat := 1 + f.eb + f.mb

/-- The exact value of an encoding (R73, R81). -/
def widen (f : Ff) (enc : Nat) : Ex :=
  let s := decide (f.signBit ≤ enc % (2 * f.signBit))
  let mag := enc % f.signBit
  let ex := mag / 2 ^ f.mb
  let mant := mag % 2 ^ f.mb
  if f.hasInf ∧ ex = 2 ^ f.eb - 1 then (if mant = 0 then .inf s else .nan)
  else if !f.hasInf ∧ mag = f.signBit - 1 then .nan
  else if ex = 0 then .fin s mant (1 - (f.bias : Int) - f.mb)
  else .fin s (2 ^ f.mb + mant) ((ex : Int) - f.bias - f.mb)

/-- Does the mode take the next greater magnitude (R79)? `half` compares the part cut off with one half. -/
def roundsUp (mode : RMode) (neg : Bool) (odd : Bool) (half : Ordering) (exact : Bool) : Bool :=
  if exact then false
  else match mode with
    | .rne => half == .gt || (half == .eq && odd)
    | .rz => false
    | .rd => neg
    | .ru => !neg

/-- m × 2^-sh rounded to an integer. -/
def shiftRound (mode : RMode) (neg : Bool) (m sh : Nat) : Nat :=
  if sh = 0 then m
  else if sh > m.log2 + 1 then
    (if m = 0 then 0 else if roundsUp mode neg false .lt false then 1 else 0)
  else
    let q := m / 2 ^ sh
    let r := m % 2 ^ sh
    q + if roundsUp mode neg (q % 2 == 1) (compare (2 * r) (2 ^ sh)) (r == 0) then 1 else 0

/-- Round (R79). -/
def round (f : Ff) (x : Ex) (mode : RMode) (sat : Bool) : Nat :=
  match x with
  | .nan => f.nanEnc
  | .inf s =>
    let sg := if s then f.signBit else 0
    if sat then sg + f.maxEnc else if f.hasInf then sg + f.infEnc else f.nanEnc
  | .fin s m e =>
    let sg := if s then f.signBit else 0
    if m = 0 then sg
    else
      let emin : Int := 1 - (f.bias : Int)
      let lsb : Int := max ((m.log2 : Int) + e) emin - f.mb
      let q := if lsb ≤ e then m * 2 ^ (e - lsb).toNat else shiftRound mode s m (lsb - e).toNat
      let enc := (lsb + f.mb + f.bias - 1).toNat * 2 ^ f.mb + q
      if enc ≤ f.maxEnc then sg + enc
      else
        let toInf : Bool := match mode with
          | .rne => true
          | .rz => false
          | .rd => s
          | .ru => !s
        if sat || !toInf then sg + f.maxEnc else if f.hasInf then sg + f.infEnc else f.nanEnc

/-- Is an encoding subnormal? -/
def isSub (f : Ff) (enc : Nat) : Bool := let mag := enc % f.signBit; decide (0 < mag) && decide (mag < 2 ^ f.mb)

/-- Flush (R80). -/
def flush (f : Ff) (fz : Bool) (enc : Nat) : Nat := if fz && f.isSub enc then enc / f.signBit * f.signBit else enc

end Ff

/-! ## Element types -/

end Sys2Proof.Machine

namespace Sys2Proof
open Machine

/-- The format of a floating-point type; FP32 for the others. -/
def ElemTy.ff : ElemTy → Ff
  | .fp16 => Ff.fp16 | .bf16 => Ff.bf16 | .e4m3 => Ff.e4m3 | .e5m2 => Ff.e5m2 | _ => Ff.fp32

/-- Width in bytes (R71, R73). -/
def ElemTy.bytes : ElemTy → Nat
  | .i8 | .ui8 | .e4m3 | .e5m2 | .t2 => 1
  | .i16 | .ui16 | .fp16 | .bf16 => 2
  | .i32 | .ui32 | .fp32 => 4
  | .i64 => 8

def ElemTy.signed : ElemTy → Bool
  | .i8 | .i16 | .i32 | .i64 => true
  | _ => false

end Sys2Proof

namespace Sys2Proof.Machine

/-- The integer of the low `w` bits of an encoding, signed or not. -/
def intOf (signed : Bool) (w : Nat) (enc : Nat) : Int :=
  let v := enc % 2 ^ w
  if signed && decide (2 ^ (w - 1) ≤ v) then (v : Int) - 2 ^ w else v

/-- Widen (R81). -/
def widenE (t : ElemTy) (enc : Nat) : Ex :=
  if t.isFloat then t.ff.widen enc else Ex.ofInt (intOf t.signed (8 * t.bytes) enc)

/-- Modulo 2^w (R71). -/
def wrap (w : Nat) (i : Int) : Nat := (i % (2 ^ w : Nat)).toNat

/-- The range of an integer type of w bits. -/
def intMin (signed : Bool) (w : Nat) : Int := if signed then -(2 ^ (w - 1) : Nat) else 0
def intMax (signed : Bool) (w : Nat) : Int := if signed then (2 ^ (w - 1) : Nat) - 1 else (2 ^ w : Nat) - 1

def satInt (signed : Bool) (w : Nat) (i : Int) : Int := max (intMin signed w) (min (intMax signed w) i)

/-- An exact finite value rounded to an integer under a mode. -/
def roundInt (mode : RMode) (s : Bool) (m : Nat) (e : Int) : Int :=
  let v : Nat := if 0 ≤ e then m * 2 ^ e.toNat else Ff.shiftRound mode s m (-e).toNat
  if s then -(v : Int) else v

/-- NarrowSat (R81), as an encoding of the type. -/
def narrowSat (x : Ex) (t : ElemTy) (mode : RMode) : Nat :=
  if t.isFloat then t.ff.round x mode true
  else
    let w := 8 * t.bytes
    match x with
    | .nan => 0
    | .inf s => wrap w (if s then intMin t.signed w else intMax t.signed w)
    | .fin s m e =>
      if (m.log2 : Int) + e > 70 then wrap w (if s ∧ m ≠ 0 then intMin t.signed w else intMax t.signed w)
      else wrap w (satInt t.signed w (roundInt mode s m e))

/-- NonZero (R81) of an encoding of `w` bits. -/
def nonZero (float : Bool) (w : Nat) (enc : Nat) : Bool :=
  if float then enc % 2 ^ (w - 1) != 0 else enc % 2 ^ w != 0

/-- Mag (R81). -/
def mag (t : ElemTy) (enc : Nat) : Nat :=
  let w := 8 * t.bytes
  if t.isFloat then enc % 2 ^ (w - 1) else (intOf t.signed w enc).natAbs

/-! ## FP32 words -/

def roundFP32 (x : Ex) (mode : RMode := .rne) (sat : Bool := false) : W32 := BitVec.ofNat 32 (Ff.fp32.round x mode sat)

def ex32 (w : W32) : Ex := Ff.fp32.widen w.toNat

def isNan32 (w : W32) : Bool := ex32 w == .nan

def nan32 : W32 := 0x7FC00000

/-- Order of encodings: with −0 below +0 (R82's minimum and maximum). -/
def ord32 (w : W32) : Int :=
  let m : Nat := w.toNat % 2 ^ 31
  if w.msb then -(m : Int) - 1 else m

/-- Order of values: −0 equals +0 (R82's comparisons). -/
def val32 (w : W32) : Int :=
  let m : Nat := w.toNat % 2 ^ 31
  if w.msb then -(m : Int) else m

def fmin32 (x y : W32) : W32 := if isNan32 x || isNan32 y then nan32 else if ord32 x ≤ ord32 y then x else y
def fmax32 (x y : W32) : W32 := if isNan32 x || isNan32 y then nan32 else if ord32 x ≤ ord32 y then y else x

def fadd32 (x y : W32) (mode : RMode := .rne) (sat : Bool := false) : W32 :=
  roundFP32 ((ex32 x).add mode (ex32 y)) mode sat

def fmul32 (x y : W32) (mode : RMode := .rne) (sat : Bool := false) : W32 := roundFP32 ((ex32 x).mul (ex32 y)) mode sat

/-- a + x × y, rounded once (R82). -/
def fma32 (a x y : W32) (mode : RMode := .rne) (sat : Bool := false) : W32 :=
  roundFP32 ((ex32 a).add mode ((ex32 x).mul (ex32 y))) mode sat

/-- The FP32 word of an exact encoding of a narrower type (R81); a NaN becomes canonical. -/
def widen32 (t : ElemTy) (enc : Nat) : W32 := roundFP32 (t.ff.widen enc)

/-! ## Fixed orders of summation (R83 to R88) -/

/-- One round of PairTree. -/
def pairUp (mode : RMode) : List W32 → List W32
  | a :: b :: r => fadd32 a b mode :: pairUp mode r
  | l => l

/-- PairTree (R85) over 2^k values. -/
def pairTree (mode : RMode) : Nat → List W32 → W32
  | 0, l => l.headD 0
  | k + 1, l => pairTree mode k (pairUp mode l)

/-- The sum's special cases (R83): NaN, the infinities, and otherwise the exact sum, whose zero is +0. -/
def exactSum (terms : List Ex) : Ex :=
  let nan := terms.any (· == .nan)
  let pos := terms.any (· == .inf false)
  let neg := terms.any (· == .inf true)
  if nan || (pos && neg) then .nan
  else if pos then .inf false
  else if neg then .inf true
  else match terms.foldl (fun acc t => acc.add .rne t) (Ex.zero false) with
    | .fin s m e => if m = 0 then Ex.zero false else .fin s m e
    | y => y

/-- ExactDot (R83); `sa`, `sb` are exponents of the operands' block scales. -/
def exactDot (t : ElemTy) (a b : List Nat) (sa sb : Int) : Ex :=
  (exactSum (List.zipWith (fun x y => (widenE t x).mul (widenE t y)) a b)).scale (sa + sb)

/-- BF16 tiles (R84). -/
def bf16Dot (a b : List Nat) : W32 :=
  pairTree .rne 5 (List.zipWith (fun x y => roundFP32 ((Ff.bf16.widen x).mul (Ff.bf16.widen y))) a b)

/-- TritDecode (R75): five trits, or none for a byte of 243 or above. -/
def tritDecode (b : Nat) : Option (List Int) :=
  if 243 ≤ b then none
  else some ((List.range 5).map fun i => match b / 3 ^ i % 3 with | 1 => 1 | 2 => -1 | _ => 0)

/-- The code of a trit (R75). -/
def tritCode (t : Int) : Nat := if t = 0 then 0 else if 0 < t then 1 else 2

/-- T2 × INT8 (R84). -/
def tritDot (a : List Int) (b : List Nat) : W32 :=
  BitVec.ofInt 32 ((List.zipWith (fun x y => x * intOf true 8 y) a b).foldl (· + ·) 0)

/-- ShiftSticky (R88). -/
def shiftSticky (i : Int) (d : Nat) : Int :=
  let m := i.natAbs
  let q := m / 2 ^ d
  let q := if m % 2 ^ d ≠ 0 ∧ q % 2 = 0 then q + 1 else q
  if i < 0 then -(q : Int) else q

/-- The running value of a BINT reduction, specials beside it (R88). -/
structure Bint where
  i : Int
  x : Int
  nan : Bool
  pinf : Bool
  ninf : Bool
  deriving DecidableEq, Repr

def Bint.start : Bint := ⟨0, -126, false, false, false⟩

/-- BintAlign (R88). -/
def Bint.step (b : Bint) (w : W32) : Bint :=
  match ex32 w with
  | .nan => { b with nan := true }
  | .inf s => if s then { b with ninf := true } else { b with pinf := true }
  | .fin s m e =>
    if m = 0 then b
    else
      let ev : Int := e + 23
      let j : Int := if s then -((m * 2 ^ 47 : Nat) : Int) else (m * 2 ^ 47 : Nat)
      if ev > b.x then { b with i := shiftSticky b.i (ev - b.x).toNat + j, x := ev }
      else { b with i := b.i + shiftSticky j (b.x - ev).toNat }

def Bint.result (b : Bint) : W32 :=
  if b.nan || (b.pinf && b.ninf) then nan32
  else if b.pinf then 0x7F800000
  else if b.ninf then 0xFF800000
  else roundFP32 (.fin (decide (b.i < 0)) b.i.natAbs (b.x - 70))

/-- The fold of one lane, north to south; a NaN comes out canonical (R74, R87, R88). -/
def foldLane (bint : Bool) (vs : List W32) : W32 :=
  if bint then (vs.foldl Bint.step Bint.start).result
  else match vs with
    | [] => 0
    | v :: r =>
      let a := r.foldl (fun a x => fadd32 a x) v
      if isNan32 a then nan32 else a

end Sys2Proof.Machine
end

