-- ==== Sys2Proof/Config.lean ====
section
/-! DEFINITION. What the part fixes (R1, R28, R29, R32) and the free values: what the spec leaves open, each an
opaque function that nothing in Lean can evaluate. -/

namespace Sys2Proof.Config

/-- Cores of the part, and of a bench and a die (R1, R29). -/
def cores : Nat := 4608
def benchCores : Nat := 48
def dieCores : Nat := 576
def benches : Nat := 96
def dies : Nat := 8
/-- Thread contexts of a core (R32). -/
def ctxs : Nat := 4
/-- Entries of a queue (R64), of the scale queue (R197), lines a core may pin (R149). -/
def queueCap : Nat := 32
def scaleCap : Nat := 64
def pinCap : Nat := 64
/-- Copies a context may have in flight (R296). -/
def copyCap : Nat := 256
/-- Walks a bench queue holds (R222), steps to a yield (R228), steps to the limit (R227). -/
def walkCap : Nat := 48
def walkYield : Nat := 4096
def walkLimit : Nat := 16777216
/-- Graphs of a context that may be RUNNING (R280). -/
def graphCap : Nat := 64
/-- Entries of one slice's translation cache, and slices of a die (R135). -/
def tlbCap : Nat := 4096
def slices : Nat := 96
/-- Umnus ports of the device (R39), and replays that fail before a link goes down (R325). -/
def ports : Nat := 36
def replayCap : Nat := 8
/-- Lookup records that a walker's queue holds (R244). -/
def lookupCap : Nat := 64
/-- Entries of a finish table and of a wait table (R236, R238). -/
def finishCap : Nat := 4096
def waitCap : Nat := 256
/-- Fills a die's loader runs at once (R306). -/
def fillCap : Nat := 4
/-- Instructions of a run-ahead, pages of its batch (R138). -/
def batchCap : Nat := 32
/-- The SAVEIDs of a save area: a 16-bit field (R286). -/
def saveIds : Nat := 65536

/-- FREE VALUE (assumption 11). Which of several outcomes that the spec allows occurs (R10, R164): an answer for
each value of State.free. -/
opaque freeChoice : Nat → Bool
/-- FREE VALUE (assumptions 20, 21). A byte the spec leaves undefined. -/
opaque freeByte : Nat → Byte
/-- FREE VALUE (assumption 22). What 16 bytes written under one key read as under another (R327). -/
opaque reDecrypt : (written : Nat) → (reader : Nat) → (unit : Nat) → BitVec 128 → BitVec 128
/-- FREE VALUE (assumption 23). NEXT, REM and the next MACRO of REFWIN (R131), before their bounds. -/
opaque refNext : Nat → Nat
opaque refRem : Nat → Nat
opaque refMacro : Nat → Nat
/-- FREE VALUE (assumption 27). Where the driver maps the view of a format range register for a context (R305). -/
opaque viewVa : (ctxid : Nat) → (reg : Nat) → BitVec 64
/-- FREE VALUE (assumption 28). The fused priority of a master (R328), the fused device id, and the bytes of the
measurement log (R326). -/
opaque masterPrio : Nat → Nat
opaque fusedId : List Byte
opaque measured : Nat → Byte
/-- FREE VALUE (assumption 24). The signature over an attestation report (R326). -/
opaque signature : List Byte → List Byte
/-- FREE VALUE (assumption 73). Which line a full cache or pool, or which entry a full translation cache, gives up. -/
opaque victim : Nat → Nat
/-- FREE VALUE (assumption 77). The pool device that holds a page of the pool window and the one whose link fails (R322),
and whether an Umnus port leads to a device (R325). -/
opaque poolDevice : (page : Nat) → Nat
opaque poolFails : Nat → Nat
opaque portTo : (port dev : Nat) → Bool
/-- FREE VALUE (assumption 78). Which counter of a unit other than a core an address of region 9 reads (R330). -/
opaque unitAt : (address : Nat) → Option Nat
/-- FREE VALUE (assumption 79). The nanoseconds of wall-clock time that a step takes (R42). -/
opaque stepNs : Nat → Nat

end Sys2Proof.Config
end

