-- ==== Sys2Proof/Machine/State.lean ====
section
/-! DEFINITION. The state of the device: every piece of state that the spec names (INVENTORY.md, State), as plain
data. Cores are numbered device-wide 0 to 4,607 (R29); a context `cid` is core x 4 + context, a sequencer `sid` is
cid x 3 + q with q as CAUSE.SEQ numbers it: 0 compute, 1 matrix, 2 access (R410). Sparse tables hold what differs
from the default, which is the state at reset. -/

namespace Sys2Proof.Machine

/-! ## Sequencers (R46) -/

structure Flags where
  z : Bool
  n : Bool
  c : Bool
  v : Bool
  deriving DecidableEq, Repr

/-- A pointer register (R49). -/
structure Ptr where
  base : W64
  stride : W32
  limit : W32
  space : Space
  swz : BitVec 2
  deriving DecidableEq, Repr

/-- REPSTATE (R59). -/
structure Rep where
  act : Bool
  pass : W32
  count : W32
  nm1 : BitVec 4
  pos : BitVec 4
  stag : BitVec 2
  body : W64
  deriving DecidableEq, Repr

/-- The repetition buffer's copy (R60): its BODY, the words captured, by address, whether it refetches at the end of
the current pass, and whether it has dropped its copy and refetches the body before the next instruction. -/
structure RepBuf where
  body : W64
  words : List (W64 × W32)
  refetch : Bool
  dropped : Bool
  deriving DecidableEq, Repr

/-- Causes of stalls, in the order of CNT0 to CNT17 (R330). -/
inductive Cause where
  | waitLc | waitSc | waitCc | waitOc | waitNc | waitMc | smap | qEmpty | qFull | bankReplay | jafProbe
  | lacqAbsent | pwait | phaseDrain | token | exchWait | refresh | runahead
  deriving DecidableEq, Repr

/-- Trap causes (R411). -/
inductive TrapCode where
  | illegal | priv | misalign | page | prot | window | token | scale | metaErr | spill | quota | swap | poison
  | offer | exch | trap | walker
  deriving DecidableEq, Repr

/-- One entry of the fault record (R140). -/
structure FaultEnt where
  vpn : BitVec 45
  reason : BitVec 2
  hint : Bool
  fetch : Bool
  write : Bool
  deriving DecidableEq, Repr

/-- A trap about to be taken: its cause, FADDR, ASYNC, INFO, and the record of a PAGE. With `hold`, no trap: the access
waits at a home, and its sequencer stalls under that cause (R131, R237, R251). -/
structure TrapInfo where
  code : TrapCode
  faddr : W64
  async : Bool
  info : W16
  record : List FaultEnt
  hold : Option Cause := none
  /-- EPC, where the trap is of another instruction than the one at the pc. -/
  epc : Option W64 := none
  deriving DecidableEq, Repr

/-- A trap whose handler a sequencer runs: its cause, ASYNC, and the repetition buffer's copy that it interrupted, which
stays until its `eret` (R59, R60). -/
structure Taken where
  code : TrapCode
  async : Bool
  buf : RepBuf
  deriving DecidableEq, Repr

/-- An instruction that the leader has forwarded to a follower (R67): where it stood, its words, and where the
leader's outcome led. -/
structure FwdEnt where
  pc : W64
  rep : Rep
  words : List W32
  npc : W64
  nrep : Rep
  deriving DecidableEq, Repr

/-- Where a `joins` stands (R213, R363): the heads of its streams that are popped but not consumed, the runs it
holds, and the last k of each. -/
structure JoinSt where
  xs : List (W32 × W32 × W32 × W32)
  ys : List (W32 × W32 × W32 × W32)
  xEnd : Bool
  yEnd : Bool
  lastX : Option W32
  lastY : Option W32
  run : List (W32 × W32)
  runK : Option W32
  id : Nat
  deriving DecidableEq, Repr

/-- What a sequencer that is not stalled waits at (R62, R351, R353). -/
inductive Waiting where
  | rdv (set : SeqSet)
  | gbar
  | idle
  | tdone
  deriving DecidableEq, Repr

structure Seq where
  pc : W64
  s : W64
  fl : Flags
  p0 : Ptr
  p1 : Ptr
  p2 : Ptr
  p3 : Ptr
  p4 : Ptr
  p5 : Ptr
  p6 : Ptr
  p7 : Ptr
  rep : Rep
  /-- STATUS.PPL and STATUS.PL (R344). -/
  ppl : Bool
  pl : Bool
  deriving DecidableEq, Repr

/-- The context's registers. -/
structure CtxReg where
  a0 : Line
  a1 : Line
  a2 : Line
  a3 : Line
  m : W16
  fpctl : W64
  cause : W64
  epc : W64
  faddr : W64
  kvec : W64
  kring : W64
  kquota : W64
  opolicy : W64
  stale : W64
  geo0 : W64
  geo1 : W64
  geo2 : W64
  geo3 : W64
  /-- CNT0 to CNT63 (R330). -/
  cnt : Tab W64
  /-- Stitch maps, and the numbers recorded in them, by map x 64 + bit (R144, R145). -/
  sm : Tab W64
  smSeq : Tab (Option W16)
  deriving DecidableEq, Repr

/-- A byte with its poison (R329). -/
abbrev PByte := Byte × Bool

/-- Scratchpad bytes written on one path that another path need not see yet (R164, R170): the aligned 16 B access
that wrote them, whose units are seen together; the unit, the writer's context and path, the reading path, which of its
bytes were written, and the old bytes with their poison. -/
structure Hidden where
  acc : Nat
  unit : Nat
  cid : Nat
  writer : Path
  reader : Path
  mask : List Nat
  old : List PByte
  deriving DecidableEq, Repr

/-- A run-ahead (R138): the demand fault that it will raise, and its speculative registers, scratchpad, kernel window
and stores, by home address, all of which it discards at its end. -/
structure Ahead where
  trap : TrapInfo
  r : Seq
  reg : CtxReg
  scr : Memory
  spois : Tab Bool
  hidden : List Hidden
  stores : List (Nat × (Byte × Bool))
  /-- Registers that depend on poison, as Instr.reads and Instr.writes number them. -/
  bad : List Nat
  /-- The pages collected beside the demand's. -/
  batch : List FaultEnt
  /-- Instructions executed. -/
  count : Nat
  /-- It has met what ends it. -/
  isOver : Bool
  deriving DecidableEq, Repr

/-- A walk (R221) with its start block (R222). -/
structure Walk where
  /-- The awl has taken it from the queue. -/
  started : Bool
  cid : Nat
  q : Nat
  w : List W64
  fl : Flags
  pc : W64
  steps : Nat
  sinceYield : Nat
  /-- Its `wemit` or `wend` waits for room in its queue: it does not yield (R447, R449). -/
  full : Bool
  chunk : Nat
  chunkBytes : Nat
  partialEnt : List (W32 × W32 × W32)
  qsel : Nat
  map : BitVec 4
  done : Nat
  doneEn : Bool
  /-- Rows in flight: offset, bytes, and the chunk of which they are part. -/
  rows : List (Nat × List PByte × Nat)
  ended : Bool
  deriving DecidableEq, Repr

/-- A `lacq` that stalls: its operand as encoded, and the model and layer that it names (R313, R318). -/
structure Lacq where
  op : ImmOrS
  mid : Nat
  layer : Nat
  deriving DecidableEq, Repr

/-- A sequencer's registers and what surrounds them. -/
structure SeqSt where
  r : Seq
  /-- Issuing, or stopped (R61). -/
  run : Bool
  /-- The cause under which it stalls (R330). -/
  stalled : Option Cause
  /-- The wait that is no stall. -/
  waiting : Option Waiting
  /-- It may leave the rdv, gbar or idle it waits at. -/
  released : Bool
  buf : RepBuf
  /-- Fetched words of instructions that have not retired (R121). -/
  pre : List (W64 × W32)
  /-- The run-ahead under way (R138). -/
  ra : Option Ahead
  /-- Asynchronous traps pending (R411). -/
  pend : List TrapInfo
  /-- The traps whose handlers it runs, the innermost first (R60, R203, R340). -/
  traps : List Taken
  /-- The follower's forwarding buffer (R67). -/
  fwd : List FwdEnt
  joins : Option JoinSt
  /-- The leader has forwarded the instruction of this pc and REPSTATE, which has not retired (R67). -/
  passed : Option (W64 × Rep)
  /-- The counter and the bound of the `wait` at which it stalls (R451). -/
  waitAt : Option (Ctr × Nat)
  /-- The `tokacq`s that have queued and not completed: where each stands, and its block (R166). -/
  tokq : List (W64 × Nat)
  /-- What a `wrun` that waits has read of its start block (R453). -/
  wrun : Option Walk
  /-- The `lacq` at which it stalls. -/
  lacq : Option Lacq
  /-- 0, or the reason 7 or 8 that its next exchange instruction raises (R269, R270). -/
  xabort : Nat
  deriving DecidableEq, Repr

/-! ## Operations in flight -/

/-- A place in a core's scratchpad or kernel window: L (with the window's base) or K, offset and swizzle. -/
structure Loc where
  k : Bool
  win : Nat
  off : Nat
  swz : BitVec 2
  deriving DecidableEq, Repr

/-- A translation (R132, R137): physical address of the byte, class, OFF, KEY, and the permissions. -/
structure Xl where
  /-- Home address: the physical address of the home device, with the device's index above bit 52. -/
  ha : Nat
  cc : BitVec 3
  off : Bool
  key : Nat
  deriving DecidableEq, Repr

inductive LoadKind where
  | plain | home | row (ver : Bool)
  deriving DecidableEq, Repr

/-- `ldg`, `ldh` or `ldrow` in flight; `got` holds its bytes once they have been read. -/
structure Load where
  id : Nat
  q : Nat
  kind : LoadKind
  x : Xl
  n : Nat
  dst : Loc
  got : Option (List PByte)
  deriving DecidableEq, Repr

/-- A store, or the write-backs of an `rwb` or `rinv`, in flight (R170). -/
structure Store where
  id : Nat
  q : Nat
  /-- Into the core cache, or to the homes. -/
  cached : Bool
  x : Xl
  writes : List (Nat × List PByte)
  /-- Lines that an `rwb` or `rinv` writes back. -/
  back : List Nat
  deriving DecidableEq, Repr

/-- One side of a copy (R142): a global range by its translated pages, the issuing core's own scratchpad or kernel
window, or a range of space B. -/
inductive Side where
  | glob (va : W64) (pages : List Xl)
  | scr (core : Nat) (ctxn : Nat) (loc : Loc)
  | ben (bench : Nat) (ctxn : Nat) (base : Nat) (swz : BitVec 2)
  deriving DecidableEq, Repr

structure Copy where
  id : Nat
  q : Nat
  op : CpyOp
  n : Nat
  dst : Side
  src : Side
  /-- Chunks landed. -/
  landed : List Nat
  /-- Scale words read with their chunks, with their poison; how many have entered the queue; and the landed chunks
  whose bits wait for their words (R145). -/
  scales : List (Nat × W32 × Bool)
  words : Nat
  held : List Nat
  /-- Pages whose pieces are parked, and pages that were lost (R146). -/
  parked : List PieceAt
  lost : List PieceAt
  /-- The `cpy`'s address. -/
  pc : W64
  deriving DecidableEq, Repr

/-- What the matrix unit needs of an `mtile` that has passed checks 1 to 4 of R196: its operands' pointers, the
translated pages of those in space G, and the renamed accumulator. -/
structure TileIn where
  op : MtileOp
  pa : Ptr
  pb : Ptr
  ga : List Xl
  gb : List Xl
  macc : BitVec 2
  deriving DecidableEq, Repr

/-- A follow-on that waits for its turn (R147): the issue order is the list's order. -/
structure Follow where
  copy : Nat
  q : Nat
  tile : TileIn
  /-- A failed check waits for the handler's `eret` (R340). -/
  held : Bool
  deriving DecidableEq, Repr

inductive OfferStage where
  | sent
  /-- In the wait table (R238); the value that the first write which makes the word differ left. -/
  | waiting (woken : Option (List PByte))
  /-- The home has replied; the reply has not landed. -/
  | replied (bytes : List PByte)
  deriving DecidableEq, Repr

/-- Where the reply of an operation goes: to its slot, nowhere (R284), or into a save image (R296). -/
inductive Fate where
  | live
  | dead
  | saved (inst tidx : Nat)
  deriving DecidableEq, Repr

/-- An offer, `ofin` or `owait` in flight (R229). -/
structure Offer where
  id : Nat
  q : Nat
  opc : Nat
  /-- The offer that an `ofin` finishes. -/
  fopc : Nat
  ty : ElemTy
  e : Bool
  add : Bool
  va : W64
  x : Xl
  size : Nat
  val : List Byte
  val2 : List Byte
  ticket : W32
  slot : Loc
  policy : W64
  /-- Its place in the queue of the escalated offers that wait at their homes (R237). -/
  queued : Option Nat
  stage : OfferStage
  fate : Fate
  deriving DecidableEq, Repr

/-- A near-memory command in flight (R245). -/
structure NmCmd where
  id : Nat
  q : Nat
  opc : Nat
  bf16 : Bool
  /-- The record of `oemb` and `oscan`, or the pattern of `ofill`. -/
  record : List Byte
  recOff : Nat
  dst : List Xl
  src : List Xl
  dva : W64
  n : Nat
  slot : Loc
  /-- The starting context's window: DEST is an offset in it. -/
  win : Nat
  limit : Nat
  out : Option (List PByte)
  result : List Byte
  dest : Nat
  /-- The context that may hold a token for it; a node's command has none (R279). -/
  holder : Option Nat
  part : Nat
  /-- The channel whose walker has accepted a lookup (R244). -/
  walker : Option Nat
  fate : Fate
  deriving DecidableEq, Repr

/-! ## JAF (R198) -/

structure Way where
  row : W32
  cblk : W32
  mask : W16
  lanes : Line
  deriving DecidableEq, Repr

/-- A tuple (R192). -/
structure Tuple where
  row : W32
  cblk : W32
  mask : W16
  lanes : Line
  ow : Bool
  deriving DecidableEq, Repr

structure RingRec where
  t : Tuple
  i32 : Bool
  consumed : Bool
  deriving DecidableEq, Repr

/-- A command whose tuples wait to be applied: its source (0 compute, 1 matrix, 2 access, 3 copies), the sequencer
that traps for it, and whether `mc` counts it. -/
structure JCmd where
  src : Nat
  q : Nat
  tuples : List Tuple
  /-- More tuples may follow (a `joins` under way). -/
  more : Bool
  id : Nat
  /-- `mc` counts it: not after a `jinit` has discarded its parked updates (R360). -/
  counted : Bool
  /-- Lines that it pins until the JAF begins to apply it (R149, assumption 80). -/
  pins : List Nat
  deriving DecidableEq, Repr

structure JPart where
  all : Bool
  i32 : Bool
  deriving DecidableEq, Repr

structure JafCtx where
  part : Option JPart
  ringBase : W64
  ringSize : Nat
  ring : List RingRec
  cmds : List JCmd
  /-- The command that the JAF applies now (R207). -/
  cur : Option Nat
  parked : Bool
  deriving DecidableEq, Repr

/-! ## Thread contexts -/

/-- A queue entry: 64 B and the poison of its four 16 B units (R64, R391). -/
structure QEnt where
  data : Line
  poison : BitVec 4
  deriving DecidableEq, Repr

/-- A scale queue entry (R145). -/
structure SEnt where
  word : W32
  map : BitVec 4
  bit : Nat
  poison : Bool
  deriving DecidableEq, Repr

structure Queues where
  ac : List QEnt
  cm : List QEnt
  am : List QEnt
  mc : List QEnt
  /-- Entries in the keeper's ring, by their places in the quarter (R66). -/
  sAc : List Nat
  sCm : List Nat
  sAm : List Nat
  sMc : List Nat
  scale : List SEnt
  deriving DecidableEq, Repr

/-- The counters (R46, R170). -/
structure Counters where
  lc : Nat
  sc : Nat
  cc : Nat
  oc : Nat
  nc : Nat
  mc : Nat
  deriving DecidableEq, Repr

/-- What is in flight. -/
structure Flight where
  loads : List Load
  stores : List Store
  copies : List Copy
  follows : List Follow
  offers : List Offer
  nms : List NmCmd
  deriving DecidableEq, Repr

/-- A pin-table entry (R311). -/
structure Pin where
  mid : Nat
  layer : Nat
  count : Nat
  deriving DecidableEq, Repr

inductive SlotState where
  | free | bound | running | quiescing
  deriving DecidableEq, Repr

/-- The slot's instance and what the instance start latched (R286, R288, R323). -/
structure Slot where
  state : SlotState
  inst : Nat
  tidx : Nat
  winBase : Nat
  winSize : Nat
  ctxid : Nat
  asid : Nat
  root : Nat
  peers : Tab Nat
  part : Nat
  /-- ASID and partition of the context's previous instance (R47, R48). -/
  lastAsid : Nat
  lastPart : Nat
  /-- Complete: its `tdone` is done; the window stays until the others' copies are done (R124). -/
  complete : Bool
  /-- Arrived at the grid barrier; and the barrier has departed while the member's handler ran (R292). -/
  arrived : Bool
  departed : Bool
  deriving DecidableEq, Repr

structure Ctx where
  reg : CtxReg
  n : Counters
  q : Queues
  f : Flight
  j : JafCtx
  slot : Slot
  pins : List Pin
  /-- Lines pinned by `tfetch`, each by its virtual address (R149, R405). -/
  tpins : List (W64 × Nat)
  /-- ROW lines read in this phase with the versions recorded (R168). -/
  rowReads : List (Nat × W32)
  /-- The sequencer whose trap stopped the others (R63). -/
  handler : Option Nat
  /-- Delivered fault-service reply of each sequencer (R140, R296). -/
  reply : List (Nat × W64)
  /-- An exchange was aborted at its barrier before the core arrived: the core's next exchange instruction raises reason 8
  (R270). -/
  xowed : Bool
  deriving DecidableEq, Repr

/-! ## Cores and benches -/

/-- A cached line: dirty mask per byte, poison per 16 B, class and key (R153). -/
structure CLine where
  line : Nat
  data : Line
  /-- Bytes that hold data: an unfilled line holds only its dirty bytes (R402). -/
  filled : Bool
  dirty : BitVec 64
  poison : BitVec 4
  cc : BitVec 3
  key : Nat
  /-- The version of the row that the line was filled at (R168). -/
  ver : W32
  deriving DecidableEq, Repr

/-- An entry of a pattern table (R264). -/
structure XEnt where
  slot : Nat
  op : Bool
  kind : Nat
  peer : Nat
  deriving DecidableEq, Repr

/-- A core's part in an exchange (R263 to R271). -/
structure Exch where
  sid : Nat
  die : Bool
  set : BitVec 48
  nslot : W16
  tbl : List XEnt
  tblOff : Nat
  next : Nat
  /-- Every participant has arrived and the checks have passed (R266). -/
  ready : Bool
  /-- The phase's name, from its barrier on. -/
  pid : Nat
  opened : Bool
  /-- Slot windows started (R267). -/
  windows : Nat
  /-- Where the `exr` or the ROOT's `exred` that waits will land. -/
  rx : Option Loc
  landed : Bool
  sent : Bool
  deriving DecidableEq, Repr

/-- A transfer, or a contribution to a reduction, that has left its core (R267, R268). -/
structure Xfer where
  /-- The phase to which it belongs. -/
  pid : Nat
  src : Nat
  slot : Nat
  kind : Nat
  op : Bool
  peer : Nat
  data : List PByte
  /-- Receivers that have it still to come. -/
  dsts : List Nat
  deriving DecidableEq, Repr

structure BHold where
  loc : Loc
  ctxn : Nat
  deriving DecidableEq, Repr

structure Core where
  /-- Local SRAM by offset; kernel windows above 2^20 (R53, R123). -/
  scr : Memory
  spois : Tab Bool
  lsplit : W64
  cache : List CLine
  hidden : List Hidden
  /-- Ways by bucket x 4 + way; overflow flags by bucket (R198). -/
  jaf : Tab (Option Way)
  ovf : Tab Bool
  bhold : Option BHold
  bconf : Tab W32
  xch : Option Exch
  /-- Pool lines filled before this core's last open of device scope are not hit (R151). -/
  poolOpen : Nat
  /-- By line, since the core's last open: a pool line filled before this is not hit, because the core has written or read
  the line's home past it (R156, R157; the model's own). -/
  homed : Tab Nat
  deriving DecidableEq, Repr

structure PoolLine where
  c : CLine
  tick : Nat
  deriving DecidableEq, Repr

structure Bench where
  bpool : W64
  pool : List PoolLine
  bload : W64
  /-- The running walk first, then the queue (R222). -/
  walks : List Walk
  deriving DecidableEq, Repr

/-! ## Homes -/

structure FinEnt where
  cnmu : Nat
  idx : Nat
  line : Nat
  epoch : BitVec 20
  tick : Nat
  deriving DecidableEq, Repr

structure Resv where
  line : Nat
  cid : Nat
  deriving DecidableEq, Repr

/-- A token (R165): its holder and the queued contexts. -/
structure Tok where
  holder : Option Nat
  queue : List Nat
  deriving DecidableEq, Repr

structure Lease where
  block : Nat
  dev : Nat
  write : Bool
  deriving DecidableEq, Repr

/-- A write that has reached its line's home and waits there (R237, R251): key, class, line, bytes by home address. -/
structure Late where
  key : Nat
  cc : BitVec 3
  line : Nat
  ws : List (Nat × PByte)
  deriving DecidableEq, Repr

/-- An entry of a slice's translation cache (R135). -/
structure TlbEnt where
  die : Nat
  slice : Nat
  asid : Nat
  part : Nat
  vpn : Nat
  /-- Log2 of the page's bytes. -/
  bits : Nat
  pte : W64
  deriving DecidableEq, Repr

/-- An embedding table (R253). -/
structure EmbTable where
  part : Nat
  id : Nat
  ctxid : Nat
  base : W64
  rowsz : Nat
  nrows : Nat
  fmt : ElemTy
  /-- The table's pages, translated at registration. -/
  pages : List Xl
  deriving DecidableEq, Repr

/-! ## Graphs (R276 to R299) -/

inductive NodeState where
  | waiting | ready | running | done | faulted
  deriving DecidableEq, Repr

structure Node where
  kind : Nat
  prio : Nat
  coop : Bool
  mig : Bool
  lf : Bool
  team : Nat
  lsize : Nat
  npred : Nat
  gx : Nat
  gy : Nat
  target : W64
  args : W64
  succ : List Nat
  aff : W32
  geo3 : W64
  pcnt : Nat
  state : NodeState
  donei : Nat
  barc : Nat
  fault : W64
  fva : W64
  finst : W32
  /-- Instances complete, and cancelled. -/
  doneInst : List Nat
  cancelled : List Nat
  /-- Its place in the order in which nodes became READY (R285). -/
  readyTick : Nat
  /-- When it became READY, in ns (R290). -/
  readyNs : Nat
  /-- Instances that a rotation has chosen to swap in (R293). -/
  swapIn : List Nat
  /-- The descriptor that the launch read (R279, R319). -/
  desc : List Byte
  /-- The copy or near command that the node runs (R279). -/
  copy : Option Copy
  near : Option NmCmd
  deriving DecidableEq, Repr

structure Graph where
  hdr : W64
  ctxid : Nat
  nodes : List Node
  left : Nat
  deriving DecidableEq, Repr

inductive InstState where
  | bound | running | quiescing | saved
  deriving DecidableEq, Repr

/-- An instance bound, running or swapped out (R287 to R297). -/
structure Inst where
  id : Nat
  hdr : W64
  node : Nat
  inst : Nat
  ctxn : Nat
  leader : Nat
  /-- Members in ring order from the leader (R67), as device-wide cores. -/
  members : List Nat
  ctxid : Nat
  part : Nat
  gen : Nat
  saveid : Option Nat
  state : InstState
  /-- The stamp of its start (R291). -/
  begun : Nat
  /-- The stamp of its start, its latest resumption or its latest swap-out (R289, R293); and when it was swapped out last,
  in ns (R290). -/
  startTick : Nat
  outNs : Option Nat
  doneMembers : List Nat
  preempt : Bool
  lf : Bool
  /-- It migrated: its "as left" registers are zero (R48). -/
  migrated : Bool
  deriving DecidableEq, Repr

/-- A member's save image (R295). -/
structure Image where
  inst : Nat
  tidx : Nat
  ctx : Ctx
  sq0 : SeqSt
  sq1 : SeqSt
  sq2 : SeqSt
  scr : Memory
  spois : Tab Bool
  kpriv : Memory
  kpois : Tab Bool
  jaf : Tab (Option Way)
  ovf : Tab Bool
  walk : Option Walk
  /-- What STALEP has counted of its STALE (R330). -/
  seen : W64
  deriving DecidableEq, Repr

/-- A migration message (R70): the instance, where it was bound, where it goes. -/
structure Mig where
  inst : Nat
  src : Nat
  dst : Nat
  args : List PByte
  deriving DecidableEq, Repr

/-! ## Models (R301 to R319) -/

structure Model where
  part : Nat
  mid : Nat
  ctxid : Nat
  desc : W64
  /-- The descriptor's pages, each at its start. -/
  pages : List Xl
  nlayers : Nat
  prio : Nat
  deriving DecidableEq, Repr

/-- A fill as it started (R307), and what its layer holds from then on: the target, its register, the first unit and
the number of units. -/
structure Fill where
  part : Nat
  mid : Nat
  layer : Nat
  src : W64
  bytes : Nat
  tgt : Nat
  frri : Nat
  unit : Nat
  units : Nat
  /-- Pages of the source that a pool device does not hold: the fill is parked (R146, R307). -/
  parked : List PieceAt
  deriving DecidableEq, Repr

structure Pool where
  slot0 : Nat
  slots : Nat
  arena : Nat
  arenaUnits : Nat
  deriving DecidableEq, Repr

/-! ## The machine -/

inductive PState where
  | d0 | d3hot
  deriving DecidableEq, Repr

/-- Whose step is next: a sequencer, a bench's awl, or the engines (assumption 6). -/
inductive Turn where
  | seq (sid : Nat)
  | awl (bench : Nat)
  | engine
  deriving DecidableEq, Repr

/-- What the agenda names: an event, a turn, or the prefetch of a word (R121). -/
inductive Agendum where
  | ev (i : Instr)
  | go (t : Turn)
  | prefetch (sid : Nat) (addr : W64)
  deriving DecidableEq, Repr

/-- Homes: memory and what is kept beside it. -/
structure Homes where
  mem : Memory
  poison : Tab Bool
  /-- Key id under which each 16 B unit was written (R327). -/
  keys : Tab Nat
  tlb : List TlbEnt
  /-- Entries that have left a full slice since the latest `tinv` of their pages: what was fetched, sent or leased
  through them is still theirs (R406; the model's own). -/
  tlbOld : List TlbEnt
  /-- Pages of the host window whose ATS translations the L2 slices hold (R321). -/
  ats : List Nat
  fin : List FinEnt
  resv : List Resv
  /-- Writes that wait at their homes, in the order of their coming. -/
  late : List Late
  rowSize : Tab Nat
  rowVer : Tab W32
  tok : Tab Tok
  leases : List Lease
  revoking : List Lease
  leaseQ : List Lease
  emb : List EmbTable
  /-- Format range registers, register x 4 + word (R260). -/
  frr : Tab W64
  /-- A die's rotation (R131): 0 where none has begun, 1 + m while macro m refreshes, 17 + m after it has. -/
  refresh : Tab Nat
  /-- Umnus ports whose links are down (R325), and pool devices whose links are (R322). -/
  portDown : Tab Bool
  poolCut : Tab Bool
  /-- Bits of a poisoned 16 B unit that writes through the transposition unit have set since (R257, R329). -/
  mended : Tab (BitVec 128)
  deriving DecidableEq, Repr

/-- What the device has still to do about its fields in a context's memory (R283), while a walk for it waits: bytes at an
address, 1 more in DONESEQ, or the completion interrupt that follows. -/
inductive FieldOp where
  | write (ctxid : Nat) (va : W64) (bs : List Byte)
  | bump (ctxid : Nat) (va : W64)
  | irq (ctxid : Nat)
  deriving DecidableEq, Repr

/-- Dispatch, firmware and loaders. -/
structure Sched where
  graphs : List Graph
  insts : List Inst
  images : List Image
  migs : List Mig
  /-- Instance generations given out (R140). -/
  nextGen : Nat
  /-- Completion interrupts raised, by CTXID (R283). -/
  irqs : List Nat
  models : List Model
  demand : List (Nat × Nat × Nat)
  fills : List Fill
  /-- What the RESIDENT and EVICTING layers hold. -/
  residents : List Fill
  evicting : List (Nat × Nat × Nat)
  pools : Tab Pool
  /-- Transfers of exchanges that have left their cores (R268). -/
  xfers : List Xfer
  /-- Records of replayable faults given to the fault service, each as its header and its entry (R140, R146). -/
  service : List (W64 × W64)
  /-- Fields that wait for their walks, oldest first (R251). -/
  fields : List FieldOp
  deriving DecidableEq, Repr

/-- Host, fabric, trust, power. -/
structure Platform where
  /-- Context windows: CTXID x 2^16 + offset (R323). -/
  cwin : Tab W64
  /-- Partition of a CTXID (R287). -/
  cpart : Tab Nat
  /-- Partition windows' status and STALEP (R324, R330), and what STALEP has counted of each context. -/
  status : Tab Nat
  stalep : Tab W64
  staleSeen : Tab W64
  /-- Partition of an installed key id, plus 1 (R327). -/
  keyPart : Tab Nat
  /-- Keys not reinstalled before their partition is cleared. -/
  keyUsed : Tab Bool
  owner : Option Master
  present : List Master
  ready : Bool
  /-- Accesses of the policy firmware that the root of trust has refused and logged (R40). -/
  refusals : List Trusted
  mlog : List Byte
  reports : List (List Byte)
  rejected : Nat
  discarded : Nat
  /-- Corrected errors, by die x 8 + unit (R329). -/
  corrected : Tab Nat
  /-- Stall counters of the other units, the awls' first, by unit and cause (R330, assumption 78). -/
  unitCnt : Tab W64
  /-- Flits replayed by each port, and replays that have failed in a row (R325). -/
  replays : Tab Nat
  failed : Tab Nat
  /-- ATS invalidations completed (R321). -/
  atsDone : Nat
  clock : Nat
  gated : Bool
  pstate : PState
  domain : Nat
  device : Nat
  deriving DecidableEq, Repr

structure State where
  seqs : Tab SeqSt
  ctxs : Tab Ctx
  cores : Tab Core
  benches : Tab Bench
  h : Homes
  sch : Sched
  pf : Platform
  /-- The model's own: who moves next, and the free values' counter (assumptions 6, 11). -/
  turn : Turn
  agenda : List Agendum
  free : Nat
  tick : Nat
  nextId : Nat
  /-- Wall-clock time since reset in ns (R42, assumption 79). -/
  ns : Nat
  deriving DecidableEq, Repr

/-- Why a step faults. -/
inductive Fault where
  /-- `turn` names a sequencer or an awl that the part does not have: raised by step. Safe: no run that starts at
  reset and no event sets such a turn. -/
  | noSuchAgent
  deriving DecidableEq, Repr

/-- Why a step is refused. -/
inductive Refusal where
  /-- An instruction without its meaning: raised by exec alone. Safe: nothing is claimed of it. -/
  | notModelled (mnemonic : String)
  deriving DecidableEq, Repr

/-! ## Reset -/

def Flags.init : Flags := ⟨false, false, false, false⟩
def Ptr.init : Ptr := ⟨0, 0, 0, .l, 0⟩
def Rep.init : Rep := ⟨false, 0, 0, 0, 0, 0, 0⟩

def RepBuf.init : RepBuf := ⟨0, [], false, false⟩

def Seq.init : Seq :=
  ⟨0, 0, Flags.init, Ptr.init, Ptr.init, Ptr.init, Ptr.init, Ptr.init, Ptr.init, Ptr.init, Ptr.init, Rep.init,
   false, false⟩

/-- A stopped sequencer (R46). -/
def SeqSt.init : SeqSt :=
  { r := Seq.init, run := false, stalled := none, waiting := none, released := false, buf := RepBuf.init,
    pre := [], ra := none, pend := [], traps := [], fwd := [], passed := none, waitAt := none, joins := none, tokq := [], wrun := none, lacq := none,
    xabort := 0 }

def Queues.init : Queues := ⟨[], [], [], [], [], [], [], [], []⟩

def CtxReg.init : CtxReg :=
  { a0 := 0, a1 := 0, a2 := 0, a3 := 0, m := 0xFFFF, fpctl := 0, cause := 0, epc := 0, faddr := 0, kvec := 0,
    kring := 0, kquota := 0, opolicy := 0, stale := 0, geo0 := 0x100000001, geo1 := 0, geo2 := 0x100, geo3 := 0,
    cnt := [], sm := [], smSeq := [] }

def Counters.init : Counters := ⟨0, 0, 0, 0, 0, 0⟩
def Flight.init : Flight := ⟨[], [], [], [], [], []⟩
def JafCtx.init : JafCtx := ⟨none, 0, 0, [], [], none, false⟩

def Slot.init : Slot :=
  { state := .free, inst := 0, tidx := 0, winBase := 0, winSize := 0, ctxid := 0, asid := 0, root := 0, peers := [],
    part := 0, lastAsid := 0, lastPart := 0, complete := false, arrived := false, departed := false }

def Ctx.init : Ctx :=
  { reg := CtxReg.init, n := Counters.init, q := Queues.init, f := Flight.init, j := JafCtx.init, slot := Slot.init,
    pins := [], tpins := [], rowReads := [], handler := none, reply := [],
    xowed := false }

def Core.init : Core :=
  { scr := [], spois := [], lsplit := 0, cache := [], hidden := [], jaf := [], ovf := [], bhold := none,
    bconf := [], xch := none, poolOpen := 0, homed := [] }

/-- BLOAD at reset: IDLE 63 (R69). -/
def Bench.init : Bench := { bpool := 0, pool := [], bload := 63, walks := [] }

def Homes.init : Homes :=
  { mem := [], poison := [], keys := [], tlb := [], tlbOld := [], ats := [], fin := [], resv := [], late := [], rowSize := [], rowVer := [], tok := [],
    leases := [], revoking := [], leaseQ := [], emb := [], frr := [], refresh := [], portDown := [], poolCut := [],
    mended := [] }

def Sched.init : Sched :=
  { graphs := [], insts := [], images := [], migs := [], nextGen := 0, irqs := [], models := [], demand := [],
    fills := [], residents := [], evicting := [], pools := [], xfers := [], service := [], fields := [] }

def Platform.init : Platform :=
  { cwin := [], cpart := [], status := [], stalep := [], staleSeen := [], keyPart := [], keyUsed := [],
    owner := none, present := [], ready := false, refusals := [], mlog := [], reports := [], rejected := 0, discarded := 0,
    corrected := [], unitCnt := [], replays := [], failed := [], atsDone := 0, clock := 800, gated := false, pstate := .d0,
    domain := 0, device := 0 }

/-- The device after reset: every sequencer stopped, no graph RUNNING, memory zero (R46, R326; assumption 1). -/
def State.reset : State :=
  { seqs := [], ctxs := [], cores := [], benches := [], h := Homes.init, sch := Sched.init, pf := Platform.init,
    turn := .engine, agenda := [], free := 0, tick := 0, nextId := 0,
    ns := 0 }

end Sys2Proof.Machine
end

