-- ==== Sys2Proof/Machine/Base.lean ====
section
/-! DEFINITION. Numbering of sequencers, contexts and cores (R29, R410), and the accessors of State. -/

namespace Sys2Proof.Machine

/-! ## Numbers -/

def cidOf (k : Nat) : Nat := k / 3
def qOf (k : Nat) : Nat := k % 3
def coreOf (c : Nat) : Nat := c / Config.ctxs
def ctxnOf (c : Nat) : Nat := c % Config.ctxs
def benchOf (core : Nat) : Nat := core / Config.benchCores
def dieOf (core : Nat) : Nat := core / Config.dieCores
def cidAt (core n : Nat) : Nat := core * Config.ctxs + n
def sidAt (c q : Nat) : Nat := c * 3 + q
/-- The core of which a sequencer is part. -/
def coreK (k : Nat) : Nat := coreOf (cidOf k)
def ctxnK (k : Nat) : Nat := ctxnOf (cidOf k)
def seqCount : Nat := Config.cores * Config.ctxs * 3

/-- The path of a sequencer's accesses (R170). -/
def pathOf (q : Nat) : Path :=
  match q with
  | 0 => .c
  | 1 => .m
  | _ => .a

/-! ## Bits -/

/-- `w` bits from bit `lo` on. -/
abbrev bits {n : Nat} (v : BitVec n) (lo w : Nat) : BitVec w := v.extractLsb' lo w
def bitN {n : Nat} (v : BitVec n) (i : Nat) : Bool := v.getLsbD i
/-- The field of `w` bits at `lo` as a number. -/
def fieldN {n : Nat} (v : BitVec n) (lo w : Nat) : Nat := (v.extractLsb' lo w).toNat
def b2n (b : Bool) : Nat := if b then 1 else 0
/-- Saturating add on a counter of `w` bits that stops at its maximum (R330, R169). -/
def satAdd (w v n : Nat) : Nat := min (2 ^ w - 1) (v + n)

/-- Lane l of 16 lanes of 32 bits (R46). -/
def lane (v : Line) (l : Nat) : W32 := v.extractLsb' (32 * l) 32
/-- 16 lanes, lane 0 first. -/
def ofLanes (l : List W32) : Line := leBv 512 (l.flatMap fun w => bvLe 4 w)
def lanes (v : Line) : List W32 := (List.range 16).map (lane v)
def lineBytes (v : Line) : List Byte := bvLe 64 v
def ofBytes (b : List Byte) : Line := leBv 512 b

/-- Bytes without their poison, and whether one is poisoned (R329). -/
def pdata (l : List PByte) : List Byte := l.map Prod.fst
def ppoison (l : List PByte) : Bool := l.any Prod.snd
def clean (l : List Byte) : List PByte := l.map fun b => (b, false)
/-- The number of bytes that an access reads, poison apart. -/
def pnum (l : List PByte) : Nat := leNat (pdata l)

/-! ## Accessors -/

namespace State

def sq (s : State) (k : Nat) : SeqSt := Tab.get SeqSt.init s.seqs k
def setSq (s : State) (k : Nat) (q : SeqSt) : State := { s with seqs := Tab.put s.seqs k q }
def modSq (s : State) (k : Nat) (f : SeqSt → SeqSt) : State := s.setSq k (f (s.sq k))
/-- Change a sequencer's registers. -/
def modR (s : State) (k : Nat) (f : Seq → Seq) : State := s.modSq k fun q => { q with r := f q.r }
def r (s : State) (k : Nat) : Seq := (s.sq k).r

def cx (s : State) (c : Nat) : Ctx := Tab.get Ctx.init s.ctxs c
def setCx (s : State) (c : Nat) (x : Ctx) : State := { s with ctxs := Tab.put s.ctxs c x }
def modCx (s : State) (c : Nat) (f : Ctx → Ctx) : State := s.setCx c (f (s.cx c))
def modReg (s : State) (c : Nat) (f : CtxReg → CtxReg) : State := s.modCx c fun x => { x with reg := f x.reg }
def modN (s : State) (c : Nat) (f : Counters → Counters) : State := s.modCx c fun x => { x with n := f x.n }
def modF (s : State) (c : Nat) (f : Flight → Flight) : State := s.modCx c fun x => { x with f := f x.f }
def modQ (s : State) (c : Nat) (f : Queues → Queues) : State := s.modCx c fun x => { x with q := f x.q }
def modJ (s : State) (c : Nat) (f : JafCtx → JafCtx) : State := s.modCx c fun x => { x with j := f x.j }
def modSlot (s : State) (c : Nat) (f : Slot → Slot) : State := s.modCx c fun x => { x with slot := f x.slot }

def co (s : State) (k : Nat) : Core := Tab.get Core.init s.cores k
def setCo (s : State) (k : Nat) (x : Core) : State := { s with cores := Tab.put s.cores k x }
def modCo (s : State) (k : Nat) (f : Core → Core) : State := s.setCo k (f (s.co k))

def be (s : State) (b : Nat) : Bench := Tab.get Bench.init s.benches b
def setBe (s : State) (b : Nat) (x : Bench) : State := { s with benches := Tab.put s.benches b x }
def modBe (s : State) (b : Nat) (f : Bench → Bench) : State := s.setBe b (f (s.be b))

def modH (s : State) (f : Homes → Homes) : State := { s with h := f s.h }
def modSch (s : State) (f : Sched → Sched) : State := { s with sch := f s.sch }
def modPf (s : State) (f : Platform → Platform) : State := { s with pf := f s.pf }

/-- Level K (R117, R344). -/
def lvlK (s : State) (k : Nat) : Bool := (s.r k).pl

/-- A fresh name for an operation in flight. -/
def fresh (s : State) : Nat × State := (s.nextId, { s with nextId := s.nextId + 1 })

end State

/-! ## Pointers -/

def Seq.ptr (r : Seq) (p : BitVec 3) : Ptr :=
  match p.toNat with
  | 0 => r.p0 | 1 => r.p1 | 2 => r.p2 | 3 => r.p3 | 4 => r.p4 | 5 => r.p5 | 6 => r.p6 | _ => r.p7

def Seq.setPtr (r : Seq) (p : BitVec 3) (v : Ptr) : Seq :=
  match p.toNat with
  | 0 => { r with p0 := v } | 1 => { r with p1 := v } | 2 => { r with p2 := v } | 3 => { r with p3 := v }
  | 4 => { r with p4 := v } | 5 => { r with p5 := v } | 6 => { r with p6 := v } | _ => { r with p7 := v }

/-- One advance of a pointer (R51). -/
def Ptr.advance (p : Ptr) : Ptr :=
  if p.limit = 0 then { p with base := p.base + sx64 p.stride }
  else
    let lim := p.limit.toNat
    let w := p.base.toNat - p.base.toNat % lim
    let o : Int := ((p.base.toNat % lim : Nat) : Int) + p.stride.toInt
    { p with base := BitVec.ofNat 64 (w + (o % (lim : Int)).toNat) }

/-- The advances of an instruction's pointer operands, in operand order (R16). -/
def Seq.advance (r : Seq) (ops : List PtrOp) : Seq :=
  ops.foldl (fun r o => if o.inc then r.setPtr o.p (r.ptr o.p).advance else r) r

/-! ## Accumulators -/

def CtxReg.acc (c : CtxReg) (a : BitVec 2) : Line :=
  match a.toNat with
  | 0 => c.a0 | 1 => c.a1 | 2 => c.a2 | _ => c.a3

def CtxReg.setAcc (c : CtxReg) (a : BitVec 2) (v : Line) : CtxReg :=
  match a.toNat with
  | 0 => { c with a0 := v } | 1 => { c with a1 := v } | 2 => { c with a2 := v } | _ => { c with a3 := v }

/-- The accumulator that a field names, after the renaming of `rep` (R58). -/
def Rep.rename (r : Rep) (a : BitVec 2) : BitVec 2 :=
  if r.act then a + BitVec.ofNat 2 (r.pass.toNat * r.stag.toNat) else a

/-! ## Lists -/

/-- The `i`-th element changed. -/
def modAt {α : Type} (l : List α) (i : Nat) (f : α → α) : List α :=
  match l, i with
  | [], _ => []
  | a :: r, 0 => f a :: r
  | a :: r, i + 1 => a :: modAt r i f

def setAt {α : Type} (l : List α) (i : Nat) (v : α) : List α := modAt l i fun _ => v

/-- The least of `lo`, `lo + 1`, … (n of them) that satisfies `p`. -/
def findFrom (p : Nat → Bool) : Nat → Nat → Option Nat
  | _, 0 => none
  | lo, n + 1 => if p lo then some lo else findFrom p (lo + 1) n

/-- Insert before the first element that `le` does not put before it. -/
def insertBy {α : Type} (le : α → α → Bool) (x : α) : List α → List α
  | [] => [x]
  | y :: r => if le x y then x :: y :: r else y :: insertBy le x r

/-- A stable sort: equal elements keep their order. -/
def sortBy {α : Type} (le : α → α → Bool) : List α → List α
  | [] => []
  | x :: r => insertBy le x (sortBy le r)

end Sys2Proof.Machine
end

