-- ==== Sys2Proof/Machine/Flags.lean ====
section
/-! DEFINITION. Flags (R21, R334) and conditions (R21, R397). -/

namespace Sys2Proof.Machine

/-- Z and N of a 64-bit result; C and V as given. -/
def Flags.ofResult (v : W64) (c o : Bool) : Flags := ⟨v == 0, v.msb, c, o⟩

/-- `add` (R334): C is the carry out of bit 63, V the signed overflow. -/
def addFlags (a b : W64) : Flags :=
  let r := a + b
  .ofResult r (decide (2 ^ 64 ≤ a.toNat + b.toNat)) (a.msb == b.msb && r.msb != a.msb)

/-- `sub` and `cmp` (R334, R21): C is the borrow. -/
def subFlags (a b : W64) : Flags :=
  let r := a - b
  .ofResult r (decide (a.toNat < b.toNat)) (a.msb != b.msb && r.msb != a.msb)

/-- `and`, `or`, `xor`, `tst`: C and V are 0. -/
def logicFlags (r : W64) : Flags := .ofResult r false false

end Sys2Proof.Machine

namespace Sys2Proof

/-- Is the condition met (R21)? -/
def Cond.holds (c : Cond) (f : Machine.Flags) : Bool :=
  match c with
  | .eq => f.z | .ne => !f.z
  | .lt => f.n != f.v | .ge => f.n == f.v
  | .gt => !f.z && f.n == f.v | .le => f.z || f.n != f.v
  | .ltu => f.c | .geu => !f.c
  | .gtu => !f.c && !f.z | .leu => f.c || f.z
  | .mi => f.n | .pl => !f.n
  | .vs => f.v | .vc => !f.v
  | .al => true

/-- The condition of `sel` (R397). -/
def SelCond.cond : SelCond → Cond
  | .eq => .eq | .lt => .lt | .ltu => .ltu | .mi => .mi | .le => .le | .leu => .leu | .vs => .vs | .al => .al

end Sys2Proof
end

