-- ==== Sys2Proof/Machine/Spaces.lean ====
section
/-! DEFINITION. The scratchpad spaces: swizzles (R127), windows (R122, R123), the checks of R52 and R122, and reads
and writes on a path (R55, R164, R170) with their poison (R329). -/

namespace Sys2Proof.Machine

/-! ## Swizzle (R127) -/

/-- Replace the field of `w` bits at `lo`. -/
def withField (v lo w f : Nat) : Nat := v / 2 ^ (lo + w) * 2 ^ (lo + w) + f % 2 ^ w * 2 ^ lo + v % 2 ^ lo

def swzWord (z : BitVec 2) (w : Nat) : Nat :=
  let lo := w % 16
  let hi := w / 16 % 16
  match z.toNat with
  | 0 => w
  | 1 => withField w 3 5 ((w / 8 % 32) ^^^ (w / 256 % 32))
  | 2 => withField w 0 8 (lo * 16 + hi)
  | _ => withField w 0 8 (hi * 16 + (lo + hi) % 16)

/-- The byte offset after the swizzle; bytes within a word stay. -/
def swzOff (z : BitVec 2) (x : Nat) : Nat := swzWord z (x / 8) * 8 + x % 8

/-! ## Places -/

/-- Where the kernel windows lie in a core's byte table: above the 1 MiB of local SRAM. -/
def kBase : Nat := 0x100000

/-- The kernel window's byte at a (swizzled) offset, for context `n` (R123). -/
def kKey (n off : Nat) : Nat := if off < 0x1000 then kBase + 0x10000 * (n + 1) + off else kBase + off

/-- The table key of byte i of a place, for context `n`. -/
def Loc.key (l : Loc) (n i : Nat) : Nat :=
  let o := swzOff l.swz (l.off + i)
  if l.k then kKey n o else l.win + o

/-- Is this K offset mapped (R122, R123)? -/
def kMapped (x : Nat) : Bool := x < 0x400 || (0x1000 ≤ x && x < 0x4000)

/-- The scratchpad limit of LSPLIT (R125). -/
def scrLimit (lsplit : W64) : Nat :=
  match fieldN lsplit 0 2 with
  | 0 => 0x100000 | 1 => 0x0E0000 | 2 => 0x0C0000 | _ => 0x080000

/-! ## Checks of R52 and R122 -/

/-- A check that fails: the trap and its FADDR. -/
abbrev Chk := Option (TrapCode × W64)

/-- The first byte of n from offset x on that lies outside its space. -/
def badByte (ok : Nat → Bool) (x : Nat) : Nat → Option Nat
  | 0 => none
  | n + 1 => if ok x then badByte ok (x + 1) n else some x

/-- Does the swizzled word of a K offset fall in 0x0400 to 0x07FF (R127)? -/
def kPast (z : BitVec 2) (x : Nat) : Bool := 0x400 ≤ swzOff z x && swzOff z x < 0x800

/-- A K access: the offset and its swizzled address must be mapped (R122, R127). FADDR is the unswizzled offset of the
first byte whose swizzled word falls in 0x0400 to 0x07FF; only where no byte's does is it 0. -/
def kCheck (z : BitVec 2) (x n : Nat) : Chk :=
  match badByte (fun y => !kPast z y) x n with
  | some y => some (.window, BitVec.ofNat 64 y)
  | none => (badByte kMapped x n).map fun _ => (.window, 0)

/-- A scratchpad operand's space (R52). -/
def spaceChk (p : Ptr) (lvlK : Bool) : Chk :=
  match p.space with
  | .l => none
  | .k => if lvlK then none else some (.priv, 0)
  | _ => some (.window, 0)

/-- Its range (R122, R137): no byte lies outside where there is none. -/
def rangeChk (p : Ptr) (winSize n : Nat) : Chk :=
  if n = 0 then none
  else if p.space == .k then kCheck p.swz p.base.toNat n
  else if p.base.toNat + n ≤ winSize then none else some (.window, 0)

/-- L or K scratchpad operand of `n` bytes at `p.base` (R52, R122). -/
def scrCheck (p : Ptr) (lvlK : Bool) (winSize n : Nat) : Chk :=
  match spaceChk p lvlK with
  | some e => some e
  | none => rangeChk p winSize n

/-- The place that an L or K pointer names. -/
def locOf (p : Ptr) (winBase : Nat) : Loc := ⟨p.space == .k, winBase, p.base.toNat, p.swz⟩

/-- A misaligned scratchpad access (R141): the first byte that fails, else MISALIGN. -/
def scrCheckBytes (p : Ptr) (winSize n : Nat) : Chk :=
  let x := p.base.toNat
  let ok : Nat → Bool := if p.space == .k then fun y => kMapped y && kMapped (swzOff p.swz y) else fun y => decide (y < winSize)
  match badByte ok x n with
  | some y => some (.window, BitVec.ofNat 64 y)
  | none => some (.misalign, 0)

/-- An access of `n` bytes whose misalignment R141 handles: R52, then R141 or R122. -/
def plainCheck (p : Ptr) (lvlK : Bool) (winSize n align : Nat) : Chk :=
  match spaceChk p lvlK with
  | some e => some e
  | none => if p.base.toNat % align ≠ 0 then scrCheckBytes p winSize n else rangeChk p winSize n

/-- An access whose misalignment raises MISALIGN alone: R52, R122, then the alignment. -/
def strictCheck (p : Ptr) (lvlK : Bool) (winSize n align : Nat) : Chk :=
  match scrCheck p lvlK winSize n with
  | some e => some e
  | none => if p.base.toNat % align ≠ 0 then some (.misalign, 0) else none

/-! ## Reads -/

/-- What path `p` of context `c` sees at a byte: an old value while the write is hidden from it (R164, R170). -/
def Core.byte (co : Core) (c : Nat) (p : Path) (key : Nat) : PByte :=
  match co.hidden.find? fun h => h.unit == key / 16 && h.reader == p && !(h.writer == p && h.cid == c) with
  | some h => h.old.getD (key % 16) (0, false)
  | none => (co.scr.read key, Tab.get false co.spois (key / 16))

/-- Bytes that an access reads, each as its own 16 B unit shows it: the 16 bytes of an access may lie in two units where its
swizzle is not the writer's (assumption 108). -/
def Core.bytes (co : Core) (c : Nat) (p : Path) (l : Loc) (n : Nat) : List PByte :=
  (List.range n).map fun i => co.byte c p (l.key (ctxnOf c) i)

/-! ## Writes -/

/-- Paths on which scratchpad is read (R389). -/
def readers : List Path := [.c, .a, .m, .k, .x]

/-- The 16 bytes of a unit as they stand. -/
def Core.unitBytes (co : Core) (u : Nat) : List PByte :=
  (List.range 16).map fun i => (co.scr.read (u * 16 + i), Tab.get false co.spois u)

/-- Record that a unit's coming change by access `acc`, at these bytes of it, is hidden from the other paths. -/
def Core.hide (co : Core) (acc c : Nat) (p : Path) (u : Nat) (mask : List Nat) : Core :=
  let old := co.unitBytes u
  { co with hidden := co.hidden ++ readers.map fun r => ⟨acc, u, c, p, r, mask, old⟩ }

/-- 16 bytes with one of them set. -/
def setByte (l : List PByte) (i : Nat) (b : PByte) : List PByte :=
  (List.range 16).map fun j => if j = i then b else l.getD j (0, false)

/-- Two records of one unit for one reader. -/
def Hidden.same (x y : Hidden) : Bool := x.unit == y.unit && x.reader == y.reader

/-- The byte of a record's unit after its write: the old byte of the next record, or what stands there. -/
def Core.afterWrite (co : Core) (h : Hidden) (later : List Hidden) (i : Nat) : PByte :=
  match later.find? h.same with
  | some y => y.old.getD i (0, false)
  | none => (co.scr.read (h.unit * 16 + i), Tab.get false co.spois h.unit)

/-- The records that stay, the last first: where one goes, its bytes are new for its reader in earlier ones, too. -/
def Core.keepHidden (co : Core) (gone : Hidden → Bool) (kept : List Hidden) : List Hidden → List Hidden
  | [] => kept
  | h :: r =>
    if gone h then
      co.keepHidden gone (kept.map fun x => if h.same x then
        { x with old := h.mask.foldl (fun l i => setByte l i (co.afterWrite h r i)) x.old } else x) r
    else co.keepHidden gone (h :: kept) r

/-- Writes become visible, each with all of the aligned 16 B that its access wrote (R164). -/
def Core.unhide (co : Core) (gone : Hidden → Bool) : Core :=
  let seen := (co.hidden.filter gone).map fun h => (h.acc, h.reader)
  { co with hidden := (co.keepHidden (fun h => seen.contains (h.acc, h.reader)) [] co.hidden).reverse }

/-- One byte stored: the writer's own path sees it at once, over what may still be hidden from it. -/
def Core.poke (co : Core) (c : Nat) (p : Path) (key : Nat) (b : PByte) : Core :=
  { co with
    scr := co.scr.write key b.1
    hidden := co.hidden.map fun h =>
      if h.unit == key / 16 && h.reader == p && !(h.writer == p && h.cid == c) then
        { h with old := setByte h.old (key % 16) b }
      else h }

/-- The distinct units of a list of keys. -/
def unitsOf (keys : List Nat) : List Nat := (keys.map (· / 16)).eraseDups

/-- Poison of a unit after bytes of it are stored (R329). -/
def unitPoison (old : Bool) (ws : List (Nat × PByte)) (u : Nat) : Bool :=
  let mine := ws.filter fun w => w.1 / 16 == u
  let p := mine.any fun w => w.2.2
  if ((mine.map Prod.fst).eraseDups).length == 16 then p else old || p

/-- The B hold goes when bytes of its groups of 2 KiB are written (R190, R127); it changes only timing. -/
def BHold.hit (b : BHold) (key : Nat) : Bool :=
  let lo := b.loc.key b.ctxn 0 / 2048 * 2048
  lo ≤ key && key < lo + 8192

/-- What an access writes, cut at the aligned 16 B of its offsets, where its first byte has `room` left in its own
(R164). -/
def pieces {α : Type} : (room : Nat) → List α → List (List α)
  | _, [] => []
  | room, x :: r =>
    if room ≤ 1 then [x] :: pieces 16 r
    else match pieces (room - 1) r with
      | [] => [[x]]
      | g :: gs => (x :: g) :: gs

/-- One aligned 16 B of an access stored: two units where a swizzle parts its words. -/
def Core.storePiece (co : Core) (c : Nat) (p : Path) (ws : List (Nat × PByte)) : Core :=
  let acc := (co.hidden.map Hidden.acc).foldl max 0 + 1
  let co := (unitsOf (ws.map Prod.fst)).foldl (fun co u =>
    co.hide acc c p u ((ws.filter fun w => w.1 / 16 == u).map fun w => w.1 % 16)) co
  ws.foldl (fun co w => co.poke c p w.1 w.2) co

/-- Bytes stored by path `p` of context `c`, piece by piece. -/
def Core.store (co : Core) (c : Nat) (p : Path) (gs : List (List (Nat × PByte))) : Core :=
  let ws := gs.flatten
  let pois := (unitsOf (ws.map Prod.fst)).foldl (fun t u =>
    Tab.set false t u (unitPoison (Tab.get false t u) ws u)) co.spois
  let co := gs.foldl (fun co g => co.storePiece c p g) co
  let hold := match co.bhold with
    | some b => if ws.any fun w => b.hit w.1 then none else some b
    | none => none
  { co with spois := pois, bhold := hold }

/-- The keys and bytes of a store at a place. -/
def Loc.writes (l : Loc) (n : Nat) (bs : List PByte) : List (Nat × PByte) :=
  (List.range bs.length).zip bs |>.map fun (i, b) => (l.key n i, b)

/-- K offsets 0x0018 to 0x003F ignore writes and read 0 (R123), and the fault record after them is RO (R6, R140). -/
def kReserved (n key : Nat) : Bool := kKey n 0x18 ≤ key && key < kKey n 0x148

/-- The bits of a byte of the kernel window that a write sets: the RSV bits of the trap frame's word 1 read 0 (R6, R59). -/
def kMask (n key : Nat) : Byte :=
  if key = kKey n 8 then 0xF3 else if key = kKey n 9 then 0x0F
  else if kKey n 10 ≤ key ∧ key < kKey n 15 then 0 else if key = kKey n 15 then 0x80 else 0xFF

/-- What a write to a saved kernel window, by offset, leaves there. -/
def kKept (ws : List (Nat × PByte)) : List (Nat × PByte) :=
  (ws.filter fun w => !kReserved 0 (kKey 0 w.1)).map fun w => (w.1, w.2.1 &&& kMask 0 (kKey 0 w.1), w.2.2)

/-- The bytes that a program's stores leave in the tables of its core: reserved places and bits stay 0. -/
def kWrites (n : Nat) (ws : List (Nat × PByte)) : List (Nat × PByte) :=
  (ws.filter fun w => !kReserved n w.1).map fun w => (w.1, w.2.1 &&& kMask n w.1, w.2.2)

/-- The pieces of a store at a place. -/
def Loc.pieces (l : Loc) (n : Nat) (bs : List PByte) : List (List (Nat × PByte)) :=
  Machine.pieces (16 - l.off % 16) (l.writes n bs)

/-- A program's write. -/
def Core.write (co : Core) (c : Nat) (p : Path) (l : Loc) (bs : List PByte) : Core :=
  co.store c p ((l.pieces (ctxnOf c) bs).map (kWrites (ctxnOf c)))

/-- The device's own write, as of a fault record (R140). -/
def Core.devWrite (co : Core) (c : Nat) (p : Path) (l : Loc) (bs : List PByte) : Core :=
  co.store c p (l.pieces (ctxnOf c) bs)

namespace State

def scrRead (s : State) (c : Nat) (p : Path) (l : Loc) (n : Nat) : List PByte := (s.co (coreOf c)).bytes c p l n
def scrWrite (s : State) (c : Nat) (p : Path) (l : Loc) (bs : List PByte) : State :=
  s.modCo (coreOf c) fun co => co.write c p l bs
def scrDevWrite (s : State) (c : Nat) (p : Path) (l : Loc) (bs : List PByte) : State :=
  s.modCo (coreOf c) fun co => co.devWrite c p l bs

end State

/-! ## Cross-path visibility (R170, R389) -/

/-- Does the record's unit lie in context `c`'s window, or in a kernel window it reaches? -/
def inReach (winBase winSize n u : Nat) : Bool :=
  (winBase ≤ u * 16 && u * 16 < winBase + winSize) || (kKey n 0 ≤ u * 16 && u * 16 < kKey n 0x400) ||
  (kBase + 0x1000 ≤ u * 16 && u * 16 < kBase + 0x4000)

/-- `pwait src, dst` of context `c` on its own core. -/
def pwaitCore (co : Core) (c winBase winSize : Nat) (src dst : Path) : Core :=
  co.unhide fun h => h.writer == src && h.reader == dst && (h.cid == c || inReach winBase winSize (ctxnOf c) h.unit)

/-- The records of context `c` from `src` to `dst` go. -/
def Core.forget (co : Core) (c : Nat) (src dst : Path) : Core :=
  co.unhide fun h => h.writer == src && h.reader == dst && h.cid == c

/-- What the context's earlier operations on `src` wrote is visible on `dst`: on its core, and where its copies
landed through space B. -/
def State.pwait (s : State) (c : Nat) (src dst : Path) : State :=
  let w := (s.cx c).slot
  let s := { s with cores := s.cores.map (fun (e : Nat × Core) => (e.1, e.2.forget c src dst)) }
  s.modCo (coreOf c) fun co => pwaitCore co c w.winBase w.winSize src dst

/-- Hidden writes become visible at any time (assumption 11): what an access wrote goes, for one reader, when its choice
says so. -/
def Core.settle (f k : Nat) (co : Core) : Core :=
  if co.hidden.isEmpty then co
  else co.unhide fun h =>
    Config.freeChoice (f * 0x100000000 + k * 0x10000 + h.acc * 8 + readers.findIdx (· == h.reader))

end Sys2Proof.Machine
end

