-- ==== Sys2Proof/Machine/Home.lean ====
section
/-! DEFINITION. Home memory: keys (R327), poison (R329), the horizontal view of NMC pages (R257), the weight expander
(R76, R77, R260, R261), and arrivals of writes (R153, R164, R167, R236, R238). -/

namespace Sys2Proof.Machine

/-! ## Addresses (R128) -/

def devBit : Nat := 2 ^ 52
/-- 0 for this device, else 1 more than the fabric device's id. -/
def haDev (a : Nat) : Nat := a / devBit
def haRegion (a : Nat) : Nat := a / 2 ^ 40 % 16
def lineOf (a : Nat) : Nat := a / 64
def pageOf (a : Nat) : Nat := a / 4096
/-- 64 KiB blocks (R165, R167, R173). -/
def blockOf (a : Nat) : Nat := a / 65536
def unitOf (a : Nat) : Nat := a / 16

/-- The multiplicative hash of R135 over two words. -/
def hash32 (a b : W32) : W32 := (a * 0x9E3779B1) ^^^ (b * 0x85EBCA77)
/-- The slice that a hash names. -/
def hashSlice (h : W32) : Nat := fieldN h 16 16 * Config.slices / 65536
/-- The translation slice of a page for an ASID (R135). -/
def tslice (va : W64) (asid : Nat) : Nat := hashSlice (hash32 (bits va 12 32) (BitVec.ofNat 32 (asid % 65536)))
/-- `g` of R135 for the line of a physical address. -/
def homeHash (ha : Nat) : W32 := hash32 (BitVec.ofNat 32 (ha / 64)) (BitVec.ofNat 32 (ha / 2 ^ 38 % 2 ^ 14))
/-- The die that homes an address (R135). -/
def dieHome (ha : Nat) : Nat :=
  match haRegion ha with
  | 0 => ha / 2 ^ 37 % 8
  | 1 => ha / 2 ^ 29 % 8
  | _ => fieldN (homeHash ha) 0 3
/-- `Home(PA)` (R135, R137): the die and the slice. -/
def homeOf (ha : Nat) : Nat × Nat := (dieHome ha, hashSlice (homeHash ha))

/-- Byte i of the page range that starts at `va` and whose pages are `pages` (each at its page's start). -/
def xlAt (pages : List Xl) (va : W64) (i : Nat) : Xl :=
  let o := va.toNat % 4096 + i
  let x := pages.getD (o / 4096) ⟨0, 0, false, 0⟩
  { x with ha := x.ha + o % 4096 }

/-! ## Stored bytes under a key (R327) -/

def Homes.unitBits (h : Homes) (u : Nat) : BitVec 128 := leBv 128 (h.mem.readN (u * 16) 16)

/-- The unit as an access with this key reads it. -/
def Homes.unitAs (h : Homes) (key u : Nat) : BitVec 128 :=
  let k := Tab.get 0 h.keys u
  if k = key then h.unitBits u else Config.reDecrypt k key u (h.unitBits u)

/-- No port remains toward a fabric device: one that led there is down, and so is every other (R325). -/
def Homes.lost (h : Homes) (dev : Nat) : Bool :=
  ((List.range Config.ports).any fun p => Tab.get false h.portDown p && Config.portTo p dev) &&
  (List.range Config.ports).all fun p => Tab.get false h.portDown p || !Config.portTo p dev

/-- Is the home out of reach, so that what it answers is poisoned (R322, R325)? -/
def Homes.gone (h : Homes) (a : Nat) : Bool :=
  if haDev a = 0 then haRegion a == 3 && Tab.get false h.poolCut (Config.poolDevice (a % 2 ^ 40 / 4096))
  else h.lost (haDev a - 1)

/-- A stored byte. -/
def Homes.raw (h : Homes) (key a : Nat) : PByte :=
  let u := unitOf a
  (if Tab.get 0 h.keys u = key then h.mem.read a else (h.unitAs key u).extractLsb' (8 * (a % 16)) 8,
   Tab.get false h.poison u || h.gone a)

/-- Bring a unit under a key, before bytes of it are written. -/
def Homes.rekey (h : Homes) (key u : Nat) : Homes :=
  if Tab.get 0 h.keys u = key then h
  else { h with mem := h.mem.writeN (u * 16) (bvLe 16 (h.unitAs key u)), keys := Tab.set 0 h.keys u key }

/-- Store bytes at home addresses. -/
def Homes.put (h : Homes) (key : Nat) (ws : List (Nat × PByte)) : Homes :=
  let us := unitsOf (ws.map Prod.fst)
  let h := us.foldl (fun h u => h.rekey key u) h
  { h with
    mem := ws.foldl (fun m w => m.write w.1 w.2.1) h.mem
    poison := us.foldl (fun t u => Tab.set false t u (unitPoison (Tab.get false t u) ws u)) h.poison
    mended := us.foldl (fun t u => if ws.any (fun w => w.1 / 16 == u && w.2.2) || !unitPoison (Tab.get false h.poison u) ws u
      then Tab.erase t u else t) h.mended }

/-! ## NMC pages (R257) -/

/-- Where bit t of the byte at page offset o (element o / 8) is stored: byte and bit. -/
def nmcPlace (o t : Nat) : Nat × Nat := (64 * (8 * (o % 8) + t) + o / 64, o / 8 % 8)

/-! ## Format range registers (R260, R261) -/

structure Frr where
  en : Bool
  view : Nat
  out : Nat
  fmt : Nat
  npg : Nat
  src : Nat
  scl : Nat
  deriving DecidableEq, Repr

def frrOf (w0 w1 w2 w3 : W64) : Frr :=
  { en := bitN w0 63, view := fieldN w0 12 40 * 4096, out := fieldN w0 8 4, fmt := fieldN w0 0 4,
    npg := fieldN w1 0 32, src := fieldN w2 0 52, scl := fieldN w3 0 52 }

def Homes.frrAt (h : Homes) (i : Nat) : Frr :=
  let w (j : Nat) : W64 := Tab.get 0 h.frr (4 * i + j)
  frrOf (w 0) (w 1) (w 2) (w 3)

/-- The registers that hold something. -/
def Homes.frrs (h : Homes) : List Frr := ((h.frr.map fun e => e.1 / 4).eraseDups).map h.frrAt

/-- The output type, and the bytes of one element. -/
def Frr.ty (f : Frr) : ElemTy := match f.out with | 8 => .bf16 | 10 => .e4m3 | 12 => .t2 | _ => .i8
def Frr.z (f : Frr) : Nat := f.ty.bytes
/-- Elements of the view. -/
def Frr.elems (f : Frr) : Nat := f.npg * 4096 / f.z
def Frr.blocks (f : Frr) : Nat := (f.elems + 4095) / 4096

/-- The view byte that an address is, where it lies in the view. -/
def Frr.offset (f : Frr) (a : Nat) : Option Nat :=
  let d := a - f.view
  if f.en ∧ f.view ≤ a ∧ d % 0x20000 < 4096 ∧ d / 0x20000 < f.npg then some (d / 0x20000 * 4096 + d % 0x20000) else none

def Homes.viewOf (h : Homes) (a : Nat) : Option (Frr × Nat) :=
  h.frrs.findSome? fun f => (f.offset a).map fun o => (f, o)

/-- Stored bytes read by the expander, under the device key. -/
def Homes.rawN (h : Homes) (key a n : Nat) : List PByte := (List.range n).map fun i => h.raw key (a + i)

/-- A value times the group's scale, converted (R76). The sign of the zero that the value 0 gives with a negative scale is
the scale's (assumption 101). -/
def scaled (f : Frr) (v : Int) (scale : Nat) : Nat :=
  narrowSat ((Ex.ofInt v).mul (Ff.fp16.widen scale)) f.ty .rne

/-- The code lengths of a block header; `none` where it is invalid (R77). -/
def blockLens (hdr : Nat) : Option (List Nat) :=
  let ls := (List.range 16).map fun s => hdr / 16 ^ s % 16
  let kraft := (ls.map fun l => if l = 0 then 0 else 2 ^ (12 - l)).foldl (· + ·) 0
  if ls.any (fun l => decide (12 < l)) || ls.all (· == 0) || decide (4096 < kraft) then none else some ls

/-- The canonical codes: (length, code, symbol). -/
def blockCodes (ls : List Nat) : List (Nat × Nat × Nat) :=
  ((List.range 12).foldl (fun (st : Nat × List (Nat × Nat × Nat)) i =>
    let len := i + 1
    let st := (List.range 16).foldl (fun (st : Nat × List (Nat × Nat × Nat)) s =>
      if ls.getD s 0 = len then (st.1 + 1, st.2 ++ [(len, st.1, s)]) else st) st
    (2 * st.1, st.2)) (0, [])).2

/-- Bits of bytes, most significant first. -/
def bitsOf (bs : List Byte) : List Bool := bs.flatMap fun b => (List.range 8).map fun i => b.getLsbD (7 - i)

/-- Read `need` symbols; `none` where the bits match no code. -/
def readCodes (codes : List (Nat × Nat × Nat)) : (need len acc : Nat) → List Bool → Option (List Nat)
  | 0, _, _, _ => some []
  | _ + 1, _, _, [] => none
  | need + 1, len, acc, b :: bs =>
    let acc := 2 * acc + b2n b
    let len := len + 1
    match codes.find? fun c => c.1 == len && c.2.1 == acc with
    | some c => (readCodes codes need 0 0 bs).map (c.2.2 :: ·)
    | none => if len ≥ 12 then none else readCodes codes (need + 1) len acc bs

/-- The levels of a block, where it is valid and no stored byte that decoding it takes is poisoned; one whose offset is
no multiple of 8 decodes from where it stands (R77, R329, assumption 87). -/
def Homes.block (h : Homes) (f : Frr) (b : Nat) : Option (List Nat) :=
  let off := h.rawN 0 (f.scl + 4 * b) 4
  let a := f.src + pnum off
  let hdr := h.rawN 0 a 8
  match (if ppoison off || ppoison hdr then none else blockLens (pnum hdr)) with
  | none => none
  | some ls =>
    let data := (h.rawN 0 (a + 8) 6144).takeWhile fun x => !x.2
    readCodes (blockCodes ls) 4096 0 0 (bitsOf (pdata data))

/-- One decoded element, or none where its line is poisoned. -/
def Homes.elem (h : Homes) (f : Frr) (e : Nat) : Option Nat :=
  let sclAt (base : Nat) : Option Nat :=
    let b := h.rawN 0 (base + 2 * (e / 32)) 2
    if ppoison b then none else some (pnum b)
  match f.fmt with
  | 0 =>
    let b := h.raw 0 (f.src + e / 2)
    let n := if e % 2 = 0 then b.1.toNat % 16 else b.1.toNat / 16
    if b.2 then none else (sclAt f.scl).map (scaled f (intOf true 4 n))
  | 1 =>
    match h.block f (e / 4096) with
    | none => none
    | some ls => (sclAt (f.scl + 4 * f.blocks)).map (scaled f (intOf true 4 (ls.getD (e % 4096) 0)))
  | _ =>
    if f.out = 12 then
      let b := h.raw 0 (f.src + e)
      if b.2 || decide (243 ≤ b.1.toNat) then none else some b.1.toNat
    else
      let b := h.raw 0 (f.src + e / 5)
      match tritDecode b.1.toNat with
      | none => none
      | some ts => if b.2 then none else (sclAt f.scl).map (scaled f (ts.getD (e % 5) 0))

/-- A byte of the view; a line of which an element fails is poisoned. -/
def Homes.viewByte (h : Homes) (f : Frr) (o : Nat) : PByte :=
  let first := o / 64 * 64 / f.z
  let bad := (List.range (64 / f.z)).any fun i => (h.elem f (first + i)).isNone
  if bad then (0, true)
  else (BitVec.ofNat 8 ((h.elem f (o / f.z)).getD 0 / 256 ^ (o % f.z)), false)

/-- Bytes of the stored stream and of the scale region. A stream of blocks ends with the longest block that can stand at
the last offset (assumption 104). -/
def Frr.srcLen (h : Homes) (f : Frr) : Nat :=
  match f.fmt with
  | 0 => f.elems / 2
  | 1 => ((List.range f.blocks).map fun b => pnum (h.rawN 0 (f.scl + 4 * b) 4)).foldl max 0 + 8 + 6144
  | _ => if f.out = 12 then f.npg * 4096 else (f.elems + 4) / 5

def Frr.sclLen (f : Frr) : Nat :=
  if f.fmt = 2 ∧ f.out = 12 then 0
  else (if f.fmt = 1 then 4 * f.blocks else 0) + 2 * ((f.elems + 31) / 32)

/-- Does a write to the byte go nowhere (R261)? -/
def Homes.discards (h : Homes) (a : Nat) : Bool :=
  h.frrs.any fun f => f.en &&
    ((f.offset a).isSome || (decide (f.src ≤ a) && decide (a < f.src + f.srcLen h)) ||
     (decide (f.scl ≤ a) && decide (a < f.scl + f.sclLen)))

/-! ## Reads at the home -/

/-- A byte as any read of its address finds it: through the weight expander where a register covers it (R38, R261). -/
def Homes.stored (h : Homes) (key a : Nat) : PByte :=
  match h.viewOf a with
  | some (f, o) => h.viewByte f o
  | none => h.raw key a

/-- `n` bytes so read. -/
def Homes.storedN (h : Homes) (key a n : Nat) : List PByte := (List.range n).map fun i => h.stored key (a + i)

/-- A byte of the horizontal view of an NMC page (R257): where the page lies in the expander's view, the transposition
unit has the decoded bytes (R261, assumption 87). -/
def Homes.nmcByte (h : Homes) (key a : Nat) : PByte :=
  let pg := a / 4096 * 4096
  let o := a % 4096
  let bs := (List.range 8).map fun t => let p := nmcPlace o t; (h.stored key (pg + p.1), p.2)
  (BitVec.ofNat 8 (leNat (bs.map fun x => BitVec.ofNat 8 (b2n (x.1.1.getLsbD x.2))) |> fun n =>
      (List.range 8).foldl (fun acc t => acc + (n / 256 ^ t % 2) * 2 ^ t) 0), bs.any fun x => x.1.2)

/-- The poison of a unit after one of its bits is written through the transposition unit: it goes when every bit has
been overwritten since (R329). -/
def Homes.mend (h : Homes) (u bit : Nat) (bad : Bool) : Homes :=
  if bad then { h with poison := Tab.set false h.poison u true, mended := Tab.erase h.mended u }
  else if !Tab.get false h.poison u then h
  else
    let m := Tab.get 0 h.mended u ||| BitVec.ofNat 128 (2 ^ bit)
    if m = BitVec.allOnes 128 then { h with poison := Tab.set false h.poison u false, mended := Tab.erase h.mended u }
    else { h with mended := Tab.set 0 h.mended u m }

/-- Write a byte of the horizontal view: one bit in each of eight columns. -/
def Homes.nmcPut (h : Homes) (key a : Nat) (b : PByte) : Homes :=
  let pg := a / 4096 * 4096
  let o := a % 4096
  (List.range 8).foldl (fun h t =>
    let p := nmcPlace o t
    let x := pg + p.1
    let h := h.rekey key (unitOf x)
    let old := h.mem.read x
    let m : Byte := BitVec.ofNat 8 (2 ^ p.2)
    let h := { h with mem := h.mem.write x (if b.1.getLsbD t then old ||| m else old &&& ~~~m) }
    h.mend (unitOf x) (8 * (x % 16) + p.2) b.2) h

/-- Byte i of a translated access. -/
def Homes.byte (h : Homes) (x : Xl) (i : Nat) : PByte :=
  let a := x.ha + i
  if x.cc = 4 then h.nmcByte x.key a else h.stored x.key a

def Homes.bytes (h : Homes) (x : Xl) (n : Nat) : List PByte := (List.range n).map fun i => h.byte x i

/-! ## Holds at the home -/

/-- Has the home replied DECLINED? -/
def NmCmd.declined (c : NmCmd) : Bool :=
  match c.out with
  | some (b :: _) => b.1.toNat / 64 == 1
  | _ => false

/-- Near-memory commands that own pages: accepted and performed, their reply not landed (R250). -/
def NmCmd.owns (c : NmCmd) (page : Nat) : Bool :=
  c.out.isSome && !c.declined && (c.opc == 0x12 || c.opc == 0x13) && (c.dst ++ c.src).any fun x => x.ha / 4096 == page

namespace State

def nmOwned (s : State) (page : Nat) : Bool :=
  (s.ctxs.any fun e => e.2.f.nms.any fun c => c.owns page) ||
  (s.sch.graphs.any fun g => g.nodes.any fun n => match n.near with | some c => c.owns page | none => false)

/-- The context that holds the line's reservation (R237). -/
def reserver (s : State) (line : Nat) : Option Nat := (s.h.resv.find? fun r => r.line == line).map Resv.cid

/-- Must a write to the line wait at its home (R237, R251)? -/
def writeHeld (s : State) (line : Nat) : Bool := (s.reserver line).isSome || s.nmOwned (line / 64)

def rowSize (s : State) (a : Nat) : Nat := Tab.get 0 s.h.rowSize (blockOf a)
/-- The start of the row that holds the address. -/
def rowOf (s : State) (a : Nat) : Nat := if s.rowSize a = 0 then a else a / s.rowSize a * s.rowSize a
def rowVer (s : State) (a : Nat) : W32 := Tab.get 0 s.h.rowVer (s.rowOf a)
def bumpRow (s : State) (a : Nat) : State :=
  if s.rowSize a = 0 then s
  else s.modH fun h => { h with rowVer := Tab.set 0 h.rowVer (s.rowOf a) (s.rowVer a + 1) }

end State

/-! ## Arrivals (R153, R236, R167, R238) -/

/-- Advance the line's epoch, which invalidates its tickets. -/
def Homes.advanceEpoch (h : Homes) (line : Nat) : Homes :=
  { h with fin := h.fin.map fun e => if e.line == line then { e with epoch := e.epoch + 1 } else e }

/-- Store a line's bytes, transposed on an NMC page. -/
def Homes.store (h : Homes) (key : Nat) (cc : BitVec 3) (ws : List (Nat × PByte)) : Homes :=
  if cc = 4 then ws.foldl (fun h w => h.nmcPut key w.1 w.2) h else h.put key ws

/-- An `owait` that waits on the line is answered by the first write that makes its word differ (R238). -/
def wakeOffer (h : Homes) (line : Nat) (o : Offer) : Offer :=
  match o.stage with
  | .waiting none =>
    let v := h.bytes o.x o.size
    if lineOf o.x.ha == line && pdata v != o.val then { o with stage := .waiting (some v) } else o
  | _ => o

namespace State

def wake (s : State) (line : Nat) : State :=
  { s with ctxs := s.ctxs.map fun (e : Nat × Ctx) =>
      (e.1, { e.2 with f := { e.2.f with offers := e.2.f.offers.map (wakeOffer s.h line) } }) }

/-- A write arrives at a line's home: bytes at home addresses of that line. Only a loader writes the lehr (R34, R130). -/
def arrive (s : State) (key : Nat) (cc : BitVec 3) (line : Nat) (ws : List (Nat × PByte)) : State :=
  let ws := ws.filter fun w => haRegion w.1 != 1
  let keep := ws.filter fun w => !s.h.discards w.1
  let s := if keep.length < ws.length then s.modPf fun p => { p with discarded := p.discarded + 1 } else s
  if keep.isEmpty then s
  else
    let s := s.modH fun h => (h.store key cc keep).advanceEpoch line
    (s.bumpRow (line * 64)).wake line

/-- Bytes of one access, each line an arrival. -/
def arriveAll (s : State) (key : Nat) (cc : BitVec 3) (ws : List (Nat × PByte)) : State :=
  ((ws.map fun w => lineOf w.1).eraseDups).foldl
    (fun s l => s.arrive key cc l (ws.filter fun w => lineOf w.1 == l)) s

/-- A write reaches a line's home: it arrives, or waits there behind what holds the line back (R237, R251). -/
def send (s : State) (key : Nat) (cc : BitVec 3) (line : Nat) (ws : List (Nat × PByte)) : State :=
  if s.writeHeld line || s.h.late.any fun l => l.line == line then
    s.modH fun h => { h with late := h.late ++ [⟨key, cc, line, ws⟩] }
  else s.arrive key cc line ws

/-- Writes that wait arrive where nothing holds their lines back any more. -/
def landLate (s : State) : State :=
  s.h.late.foldl (fun s l => s.send l.key l.cc l.line l.ws) (s.modH fun h => { h with late := [] })

/-- Visibility advances on every core, writes that waited at their homes arrive, and wall-clock time passes; the free
values' counter moves on. -/
def settle (s : State) : State :=
  { s.landLate with
    cores := s.landLate.cores.map (fun (e : Nat × Core) => (e.1, e.2.settle s.free e.1))
    free := s.free + 1
    ns := s.ns + Config.stepNs s.free }

/-- A byte as the device reads its own fields: over what its own writes may still wait to store. -/
def ownByte (s : State) (x : Xl) : PByte :=
  s.h.late.foldl (fun b l => l.ws.foldl (fun b w => if w.1 == x.ha then w.2 else b) b) (s.h.byte x 0)

/-- A store of consecutive bytes as one that may have to wait. -/
def homeSend (s : State) (x : Xl) (bs : List PByte) : State :=
  let ws := (List.range bs.length).zip bs |>.map fun (i, b) => (x.ha + i, b)
  ((ws.map fun w => lineOf w.1).eraseDups).foldl
    (fun s l => s.send x.key x.cc l (ws.filter fun w => lineOf w.1 == l)) s

/-- A store of consecutive bytes. -/
def homeWrite (s : State) (x : Xl) (bs : List PByte) : State :=
  s.arriveAll x.key x.cc ((List.range bs.length).zip bs |>.map fun (i, b) => (x.ha + i, b))

end State

end Sys2Proof.Machine
end

