-- ==== Sys2Proof/Machine/Translate.lean ====
section
/-! DEFINITION. Translation: physical addresses (R128 to R130), page tables (R132, R133), classes (R134), the walk and the
translation caches (R135, R136), and the checks of `Translate` and `TranslateAll` (R137, R165, R327). -/

namespace Sys2Proof.Machine

/-- For whom an address is translated: the die of the request, ASID, root table PPN, partition, peer table (each
register as written), level, the context that may hold a token, and whether the access waits where a home holds an
entry back: the device's own does not, its update of an entry follows what the home holds (assumption 76). -/
structure Who where
  die : Nat
  asid : Nat
  root : Nat
  part : Nat
  peers : Tab Nat
  lvlK : Bool
  holder : Option Nat
  waits : Bool
  deriving DecidableEq, Repr

/-- Kinds of access (R137). `offer w` writes unless it is an `owait`; `rowRead` is `ldrow`; `near` is a row command's
source or destination (R246). -/
inductive XKind where
  | read | write | fetch | copyRead | copyWrite | tile | rowRead | offer (w : Bool) | near (w : Bool) | maint
  deriving DecidableEq, Repr

def XKind.needR : XKind → Bool
  | .read | .copyRead | .tile | .rowRead | .offer _ | .near false => true
  | _ => false

def XKind.needW : XKind → Bool
  | .write | .copyWrite | .offer true | .near true => true
  | _ => false

/-- Does the access set D (R132)? -/
def XKind.setsD : XKind → Bool
  | .write | .copyWrite | .near true => true
  | _ => false

/-- A translation that fails: the trap, the reason of a PAGE, and the address; or, with `hold`, one that waits at a home
(R131, R237, R251). -/
structure XErr where
  code : TrapCode
  reason : BitVec 2
  va : W64
  hold : Option Cause := none
  deriving DecidableEq, Repr

/-! ## Fields of a PTE (R132) -/

namespace Pte
def v (e : W64) : Bool := bitN e 0
def r (e : W64) : Bool := bitN e 1
def w (e : W64) : Bool := bitN e 2
def x (e : W64) : Bool := bitN e 3
def u (e : W64) : Bool := bitN e 4
def g (e : W64) : Bool := bitN e 5
def a (e : W64) : Bool := bitN e 6
def d (e : W64) : Bool := bitN e 7
def cc (e : W64) : BitVec 3 := bits e 8 3
def off (e : W64) : Bool := bitN e 11
def ppn (e : W64) : Nat := fieldN e 12 40
def key (e : W64) : Nat := fieldN e 52 12
/-- A pointer to the next table (R133). -/
def isTable (e : W64) : Bool := !r e && !w e && !x e
end Pte

/-! ## Physical addresses -/

/-- The fabric id of this device: domain over device (assumption 25). -/
def Platform.fabricId (p : Platform) : Nat := p.domain * 65536 + p.device

/-- Is the low part of a physical address assigned (R128 to R130, R34, R323)? -/
def paAssigned (low : Nat) : Bool :=
  match low / 2 ^ 40 with
  | 0 => decide (low / 2 ^ 20 % 2 ^ 16 < 49152)
  | 1 => decide (low / 2 ^ 32 % 2 ^ 8 = 0)
  | 2 | 3 => true
  | 8 | 9 | 10 | 11 => true
  | _ => false

/-- The home address of a physical address, or none for a hole. One whose PEER names another device keeps its REGION
there (R128). -/
def State.place (s : State) (peers : Tab Nat) (pa : Nat) : Option Nat :=
  let peer := pa / 2 ^ 44 % 256
  let low := pa % 2 ^ 44
  if !paAssigned low then none
  else if peer = 0 then some low
  else
    let e := Tab.get 0 peers peer
    if e < 2 ^ 63 then none
    else
      let dev := e % 2 ^ 32
      if dev = s.pf.fabricId then some low else some (low + (dev + 1) * devBit)

/-- Is the home in another domain than this device (R174, R325)? -/
def State.otherDomain (s : State) (ha : Nat) : Bool := haDev ha != 0 && (haDev ha - 1) / 65536 != s.pf.domain

def isMmio (ha : Nat) : Bool := 8 ≤ haRegion ha
def isLehr (ha : Nat) : Bool := haRegion ha == 1

/-- A macro of the lehr that refreshes now (R34, R131). -/
def State.refreshing (s : State) (ha : Nat) : Bool :=
  isLehr ha && haDev ha == 0 && Tab.get 0 s.h.refresh (ha / 2 ^ 29 % 8) == ha / 2 ^ 25 % 16 + 1

/-- Why a read of an address waits at its home, where it does: a refreshing macro (R131), or a near-memory command that
owns the page (R251, assumption 76). -/
def State.readHeld (s : State) (ha : Nat) : Option Cause :=
  if s.refreshing ha then some .refresh else if s.nmOwned (pageOf ha) then some .waitNc else none

/-! ## The walk (R133) -/

def canonical (va : W64) : Bool := (bits va 0 57).signExtend 64 == va

/-- VA index of a level. -/
def vaIndex (va : W64) (lvl : Nat) : Nat := fieldN va (12 + 9 * lvl) 9

/-- What a walk finds: a failure, a wait at a table's home, or the leaf with its home address and its level. -/
inductive WalkRes where
  | fail (code : TrapCode) (reason : BitVec 2)
  | held (c : Cause)
  | leaf (pte : W64) (at_ : Nat) (lvl : Nat)
  deriving DecidableEq, Repr

/-- One level of a walk in the table at page `ppn`: the next table, or what the walk finds. -/
def State.walkLevel (s : State) (w : Who) (va : W64) (ppn lvl : Nat) : Nat ⊕ WalkRes :=
  match s.place w.peers (ppn * 4096 + vaIndex va lvl * 8) with
  | none => .inr (.fail .prot 0)
  | some a =>
    let b := s.h.storedN 0 a 8
    let e : W64 := leBv 64 (pdata b)
    -- another domain's table is no copy's to read (R174, R325, assumption 74)
    if s.otherDomain a then .inr (.fail .prot 0)
    else if let some c := (if w.waits then s.readHeld a else none) then .inr (.held c)
    else if ppoison b then .inr (.fail .poison 0)
    else if !Pte.v e then .inr (.fail .page 0)
    else if Pte.isTable e then (if lvl = 0 then .inr (.fail .page 1) else .inl (Pte.ppn e))
    else if lvl ≥ 3 then .inr (.fail .page 1)
    else if Pte.ppn e % 2 ^ (9 * lvl) ≠ 0 then .inr (.fail .page 1)
    else .inr (.leaf e a lvl)

/-- Levels `lvl` down to 0 from the table at page `ppn`. -/
def State.walkFrom (s : State) (w : Who) (va : W64) (ppn : Nat) : Nat → WalkRes
  | 0 => match s.walkLevel w va ppn 0 with
    | .inl _ => .fail .page 1
    | .inr r => r
  | l + 1 => match s.walkLevel w va ppn (l + 1) with
    | .inl next => s.walkFrom w va next l
    | .inr r => r

/-! ## Translation caches (R135) -/

/-- Is the entry for the page that holds `va`, in whichever slice it stands? -/
def TlbEnt.covers (t : TlbEnt) (w : Who) (va : W64) : Bool :=
  t.part == w.part && (t.asid == w.asid || Pte.g t.pte) && t.vpn == fieldN va 0 57 / 2 ^ t.bits

/-- Does the die's slice for `va` find the entry? -/
def TlbEnt.hits (t : TlbEnt) (w : Who) (va : W64) : Bool := t.die == w.die && t.slice == tslice va w.asid && t.covers w va

def State.tlbFind (s : State) (w : Who) (va : W64) : Option TlbEnt := s.h.tlb.find? fun t => t.hits w va

/-- The entry that leaves a slice which holds more than it can (assumption 73). -/
def tlbVictim (f : Nat) (die slice : Nat) (l : List TlbEnt) : Option TlbEnt :=
  let mine := l.filter fun t => t.die == die && t.slice == slice
  if mine.length ≤ Config.tlbCap then none else (mine.drop 1)[Config.victim f % (mine.length - 1)]?

/-- Put an entry into its slice in place of those for the same page. -/
def State.tlbPut (s : State) (w : Who) (va : W64) (e : TlbEnt) : State :=
  s.modH fun h =>
    let l := e :: h.tlb.filter fun t => !t.hits w va
    match tlbVictim s.free e.die e.slice l with
    | some t => { h with tlb := l.erase t, tlbOld := t :: h.tlbOld.erase t }
    | none => { h with tlb := l }

/-- The page's address that an entry gives. -/
def leafPa (pte : W64) (bits : Nat) (va : W64) : Nat :=
  Pte.ppn pte * 4096 / 2 ^ bits * 2 ^ bits + va.toNat % 2 ^ bits

/-! ## Permissions (R132, R134, R327) -/

def State.keyOk (s : State) (part key : Nat) : Bool := key == 0 || Tab.get 0 s.pf.keyPart key == part + 1

/-- The token of a TOKEN page's block is held by the context (R165). -/
def State.holds (s : State) (c : Nat) (ha : Nat) : Bool := (Tab.get ⟨none, []⟩ s.h.tok (blockOf ha)).holder == some c

def State.tokenOk (s : State) (w : Who) (cc : BitVec 3) (ha : Nat) : Bool :=
  cc != 2 || (match w.holder with | some c => s.holds c ha | none => false)

/-- Is the access permitted by the leaf, its class and its region? -/
def State.permit (s : State) (w : Who) (pte : W64) (ha : Nat) (k : XKind) : Option TrapCode :=
  let cc := Pte.cc pte
  let rd := Pte.r pte
  let wr := Pte.w pte
  if wr && !rd then some .prot
  else if cc = 7 then some .prot
  else if !w.lvlK && !Pte.u pte then some .prot
  else if k.needR && !rd || k.needW && !wr || k == .fetch && !Pte.x pte then some .prot
  -- the pool window is for POOL pages, and another domain for copies and for what declines there (R247, R322, R325,
  -- assumption 74)
  else if haRegion ha = 3 && cc != 6 then some .prot
  else if s.otherDomain ha && (k == .read || k == .write || k == .fetch || k == .tile || k == .rowRead) then some .prot
  else if cc = 6 && (k == .read || k == .write || k == .tile || k == .fetch || k == .rowRead) then some .prot
  else if k == .rowRead && cc != 3 then some .prot
  else if (k == .near true || k == .near false) && (cc == 6 || haRegion ha != 0) then some .prot
  else if !s.keyOk w.part (Pte.key pte) then some .prot
  else if isLehr ha && k.needW then some .prot
  else if isMmio ha && !(w.lvlK && (k == .read || k == .write)) then some .prot
  else if (k == .write || k == .copyWrite) && !s.tokenOk w cc ha then some .token
  else none

/-- An entry with A set, and D for a write (R132). -/
def Pte.marked (pte : W64) (k : XKind) : W64 := pte ||| (if k.setsD then 0xC0 else 0x40)

/-- Set A and D in the entry at its home (R132); only a loader writes the lehr (R130). -/
def State.setAD (s : State) (pte : W64) (at_ : Nat) (k : XKind) : State :=
  if Pte.marked pte k = pte then s
  else s.send 0 5 (lineOf at_) ((List.range 8).zip (clean (bvLe 8 (Pte.marked pte k))) |>.map fun (i, b) => (at_ + i, b))

/-- Why the atomic update of an entry waits at its home, where it does (R237, R251). -/
def State.entryHeld (s : State) (w : Who) (pte : W64) (at_ : Nat) (k : XKind) : Option Cause :=
  if !w.waits || Pte.marked pte k = pte then none
  else if s.nmOwned (pageOf at_) then some .waitNc
  else if (s.reserver (lineOf at_)).isSome then some .waitOc
  else none

/-- A page of the host window is translated by ATS, and a slice holds the translation (R321). -/
def State.atsPut (s : State) (ha : Nat) : State :=
  if haRegion ha = 2 ∧ haDev ha = 0 ∧ ¬ s.h.ats.contains (pageOf ha) then s.modH fun h => { h with ats := pageOf ha :: h.ats } else s

/-- `Translate` of the page that holds `va` (R137): the page's translation, and the state with A and D set and the
caches filled. -/
def State.translate (s : State) (w : Who) (va : W64) (k : XKind) : Except XErr (Xl × State) :=
  if !canonical va then .error { code := .page, reason := 2, va := va }
  else
    let pageVa := va.toNat / 4096 * 4096
    let fin (pte : W64) (ha : Nat) (s : State) : Except XErr (Xl × State) := .ok (⟨ha, Pte.cc pte, Pte.off pte, Pte.key pte⟩, s.atsPut ha)
    let hit := s.tlbFind w va
    let found : WalkRes := match hit with
      | some t => .leaf t.pte 0 ((t.bits - 12) / 9)
      | none => s.walkFrom w va w.root 4
    match found with
    | .fail c r => .error { code := c, reason := r, va := va }
    | .held c => .error { code := .page, reason := 0, va := va, hold := some c }
    | .leaf pte _ lvl =>
      let nb := 12 + 9 * lvl
      match s.place w.peers (leafPa pte nb (BitVec.ofNat 64 pageVa)) with
      | none => .error { code := .prot, reason := 0, va := va }
      | some ha =>
        match s.permit w pte ha k with
        | some c => .error { code := c, reason := 0, va := va }
        | none =>
          if hit.isSome && (Pte.d pte || !k.setsD) then fin pte ha s
          else
            -- a first store through a cached entry sets D at the entry's home
            let here := if hit.isSome then s.walkFrom w va w.root 4 else found
            match here with
            | .fail _ _ => fin pte ha s
            | .held c => .error { code := .page, reason := 0, va := va, hold := some c }
            | .leaf e a _ =>
              match s.entryHeld w e a k with
              | some c => .error { code := .page, reason := 0, va := va, hold := some c }
              | none =>
                let new := if hit.isSome then pte ||| 0x80 else Pte.marked e k
                fin pte ha ((s.setAD e a k).tlbPut w va
                  ⟨w.die, tslice va w.asid, w.asid, w.part, fieldN va 0 57 / 2 ^ nb, nb, new⟩)

/-- The pages that `n` bytes from `va` on touch. -/
def pagesOf (va : W64) (n : Nat) : Nat := if n = 0 then 0 else (va.toNat % 4096 + n + 4095) / 4096

/-- Translate `m` pages, the first at `va`. -/
def State.translatePages (s : State) (w : Who) (va : W64) (k : XKind) : Nat → Except XErr (List Xl × State)
  | 0 => .ok ([], s)
  | m + 1 =>
    match s.translate w va k with
    | .error e => .error e
    | .ok (x, s) =>
      match s.translatePages w (BitVec.ofNat 64 (va.toNat / 4096 * 4096 + 4096)) k m with
      | .error e => .error e
      | .ok (xs, s) => .ok (x :: xs, s)

/-- `TranslateAll` (R137): the translations of the pages, each at its page's start. -/
def State.translateAll (s : State) (w : Who) (va : W64) (n : Nat) (k : XKind) : Except XErr (List Xl × State) :=
  s.translatePages w va k (pagesOf va n)

/-- Why a walk for the pages of a range waits, where one does (R131, R237, R251). -/
def State.walkHeld (s : State) (w : Who) (va : W64) (n : Nat) (k : XKind) : Option Cause :=
  match s.translateAll { w with waits := true } va n k with
  | .error e => e.hold
  | .ok _ => none

/-- The translation of an access that lies in one page. -/
def State.translateOne (s : State) (w : Who) (va : W64) (k : XKind) : Except XErr (Xl × State) :=
  match s.translate w va k with
  | .error e => .error e
  | .ok (x, s) => .ok ({ x with ha := x.ha + va.toNat % 4096 }, s)

/-- A sequencer's translations (R135, R323). -/
def State.who (s : State) (k : Nat) : Who :=
  let sl := (s.cx (cidOf k)).slot
  ⟨dieOf (coreK k), sl.asid, sl.root, sl.part, sl.peers, s.lvlK k, some (cidOf k), true⟩

/-! ## Context windows (R323) -/

def cwinKey (ctxid off : Nat) : Nat := ctxid * 65536 + off
def State.cwin (s : State) (ctxid off : Nat) : W64 := Tab.get 0 s.pf.cwin (cwinKey ctxid off)
def State.cpart (s : State) (ctxid : Nat) : Nat := Tab.get 0 s.pf.cpart ctxid
def State.rootOf (s : State) (ctxid : Nat) : Nat := fieldN (s.cwin ctxid 8) 12 40
def State.asidOf (s : State) (ctxid : Nat) : Nat := fieldN (s.cwin ctxid 0x10) 0 16
/-- PEER1 to PEER255 as they stand. -/
def State.peersOf (s : State) (ctxid : Nat) : Tab Nat :=
  ((List.range 255).map fun i => (i + 1, (s.cwin ctxid (0x40 + 8 * i)).toNat)).filter fun e => e.2 != 0

/-- Translations on behalf of a context as its window stands (R279, R288, R303). -/
def State.whoCtx (s : State) (ctxid : Nat) (lvlK : Bool) : Who :=
  ⟨0, s.asidOf ctxid, s.rootOf ctxid, s.cpart ctxid, s.peersOf ctxid, lvlK, none, false⟩

end Sys2Proof.Machine
end

