-- ==== Sys2Proof/Machine/Cache.lean ====
section
/-! DEFINITION. Core caches and bench pools (R125, R126, R151 to R153, R163, R168): hits, fills, dirty bytes,
write-backs, and the landing of loads and the acceptance of stores (R164, R167, R170, R171). -/

namespace Sys2Proof.Machine

/-! ## Lines -/

/-- A line's byte, with its poison. -/
def CLine.byte (l : CLine) (o : Nat) : PByte := (l.data.extractLsb' (8 * o) 8, l.poison.getLsbD (o / 16))

def CLine.isDirty (l : CLine) : Bool := l.dirty != 0

/-- The dirty bytes, by home address. -/
def CLine.writes (l : CLine) : List (Nat × PByte) :=
  ((List.range 64).filter fun o => l.dirty.getLsbD o).map fun o => (l.line * 64 + o, l.byte o)

/-- The poison of a 16 B unit after bytes of the line are set: all of the unit overwritten, or only some. -/
def linePoison (old : BitVec 4) (ws : List (Nat × PByte)) : BitVec 4 :=
  (List.range 4).foldl (fun p u => if (ws.any fun w => w.1 / 16 == u) && unitPoison (old.getLsbD u) ws u
    then p ||| BitVec.ofNat 4 (2 ^ u) else if ws.any fun w => w.1 / 16 == u then p &&& ~~~(BitVec.ofNat 4 (2 ^ u)) else p) old

/-- Bytes set in a line, by offset. -/
def setBytes (d : Line) (ws : List (Nat × PByte)) : Line :=
  ofBytes (ws.foldl (fun l w => setAt l w.1 w.2.1) (lineBytes d))

def maskOf (ws : List (Nat × PByte)) : BitVec 64 := ws.foldl (fun m w => m ||| BitVec.ofNat 64 (2 ^ w.1)) 0

/-- Bytes stored into a line become dirty. -/
def CLine.store (l : CLine) (ws : List (Nat × PByte)) : CLine :=
  { l with data := setBytes l.data ws, poison := linePoison l.poison ws, dirty := l.dirty ||| maskOf ws }

/-- The line filled with a base of 64 bytes beneath its dirty bytes. -/
def CLine.fill (l : CLine) (base : List PByte) (ver : W32) : CLine :=
  let keep := ((List.range 64).filter fun o => l.dirty.getLsbD o).map fun o => (o, l.byte o)
  let full := (List.range 64).zip base
  { l with data := setBytes (setBytes l.data full) keep, poison := linePoison (linePoison 0 full) keep,
           filled := true, ver := ver }

def emptyLine (x : Xl) : CLine := ⟨lineOf x.ha, 0, false, 0, 0, x.cc, x.key, 0⟩

/-- May lines of this class lie in a core cache (R134)? -/
def cacheable (cc : BitVec 3) : Bool := cc != 5 && cc != 6 && cc != 7

def Core.hasCache (co : Core) : Bool := fieldN co.lsplit 0 2 != 0
def Core.find (co : Core) (line : Nat) : Option CLine := co.cache.find? fun l => l.line == line
def Core.putLine (co : Core) (l : CLine) : Core :=
  { co with cache := l :: co.cache.filter fun x => x.line != l.line }
def Core.dropLine (co : Core) (line : Nat) : Core := { co with cache := co.cache.filter fun x => x.line != line }

def Bench.find (b : Bench) (line : Nat) : Option PoolLine := b.pool.find? fun l => l.c.line == line
def Bench.putLine (b : Bench) (l : PoolLine) : Bench :=
  { b with pool := l :: b.pool.filter fun x => x.c.line != l.c.line }

/-- Lines that a core's cache portion holds (R125). -/
def cacheLines (lsplit : W64) : Nat :=
  match fieldN lsplit 0 2 with
  | 0 => 0 | 1 => 2048 | 2 => 4096 | _ => 8192

/-- Is the access through another translation than the one under which the line is held: another key, or another
layout (R257, R327)? -/
def CLine.alias (l : CLine) (x : Xl) : Bool := l.key != x.key || (l.cc == 4) != (x.cc == 4)

/-- A line's dirty bytes by their offsets. -/
def CLine.dirtyBytes (l : CLine) : List (Nat × PByte) := l.writes.map fun w => (w.1 % 64, w.2)

/-- Do two ranges of home addresses meet? -/
def overlap (a n b m : Nat) : Bool := decide (a < b + m) && decide (b < a + n)

/-- Does a store write a byte of the range? -/
def Store.hits (st : Store) (a n : Nat) : Bool := st.writes.any fun w => overlap w.1 w.2.length a n

namespace State

/-! ## Pool membership (R126) -/

def inPool (s : State) (core : Nat) : Bool := bitN (s.be (benchOf core)).bpool (core % Config.benchCores)

/-- The bench has a pool: some member has a cache portion. -/
def hasPool (s : State) (bench : Nat) : Bool :=
  (List.range Config.benchCores).any fun c =>
    bitN (s.be bench).bpool c && (s.co (bench * Config.benchCores + c)).hasCache

/-- Lines that a bench's pool holds: its members' portions (R126, assumption 73). -/
def poolLines (s : State) (bench : Nat) : Nat :=
  ((List.range Config.benchCores).map fun c => if bitN (s.be bench).bpool c
    then cacheLines (s.co (bench * Config.benchCores + c)).lsplit else 0).foldl (· + ·) 0

/-! ## The pool's lines (R126, R151, R153) -/

/-- 64 bytes of a line at its home. -/
def homeLine (s : State) (x : Xl) : List PByte := s.h.bytes { x with ha := lineOf x.ha * 64 } 64

/-- A line's dirty bytes go to its home. -/
def writeHome (s : State) (l : CLine) : State := if l.isDirty then s.send l.key l.cc l.line l.writes else s

/-- A line leaves the pool for its home. -/
def poolEvict (s : State) (bench : Nat) (p : PoolLine) : State :=
  (s.writeHome p.c).modBe bench fun b => { b with pool := b.pool.filter fun x => x.c.line != p.c.line }

/-- The pool's copy of a line takes bytes that a core of its bench writes to the home past it: they are newer than what
the pool holds (R156, R159). -/
def poolTakes (s : State) (bench line : Nat) (ws : List (Nat × PByte)) : State :=
  match (s.be bench).find line with
  | none => s
  | some p =>
    let c := { p.c.store ws with dirty := p.c.dirty &&& ~~~maskOf ws }
    s.modBe bench fun b =>
      if c.filled || c.isDirty then b.putLine { p with c := c } else { b with pool := b.pool.filter fun x => x.c.line != line }

/-- The pool no longer hits what it holds clean of the lines that satisfy `p`. -/
def poolForget (s : State) (bench : Nat) (p : PoolLine → Bool) : State :=
  s.modBe bench fun b => { b with
    pool := (b.pool.filter fun l => l.c.isDirty || !p l).map fun l =>
      if p l then { l with c := { l.c with filled := false } } else l }

/-- May the core's reads hit the pool's copy (R151, R157)? -/
def poolHits (s : State) (core : Nat) (p : PoolLine) : Bool :=
  p.c.filled && decide ((s.co core).poolOpen ≤ p.tick) && decide (Tab.get 0 (s.co core).homed p.c.line ≤ p.tick)

/-- The core has written or read these lines at their homes past the pool: from now on its reads do not hit what the pool
took before (R156, R157). -/
def noteHomed (s : State) (core : Nat) (ls : List Nat) : State :=
  if ls.isEmpty then s
  else { s.modCo core fun co => { co with homed := ls.foldl (fun t l => Tab.set 0 t l (s.tick + 1)) co.homed } with tick := s.tick + 1 }

/-- A line's pool copy under another translation goes home. -/
def poolAlign (s : State) (bench : Nat) (x : Xl) : State :=
  match (s.be bench).find (lineOf x.ha) with
  | some p => if p.c.alias x then s.poolEvict bench p else s
  | none => s

/-- Evict from a pool that holds more than it can: a free choice among the lines whose homes take them, the newest
apart (assumption 73). -/
def poolTrim (s : State) (bench : Nat) : Nat → State
  | 0 => s
  | n + 1 =>
    let vs := ((s.be bench).pool.drop 1).filter fun l => !l.c.isDirty || !s.writeHeld l.c.line
    match vs[Config.victim (s.free + n) % vs.length]? with
    | some p => (s.poolEvict bench p).poolTrim bench n
    | none => s

/-- Evict until the pool's lines fit. -/
def poolFit (s : State) (bench : Nat) : State := s.poolTrim bench ((s.be bench).pool.length - s.poolLines bench)

/-- Are the line's clean bytes what its home holds now? -/
def current (s : State) (l : CLine) : Bool :=
  l.filled && l.ver == s.rowVer (l.line * 64) &&
  ((List.range 64).zip (s.h.bytes ⟨l.line * 64, l.cc, false, l.key⟩ 64)).all fun (o, b) => l.dirty.getLsbD o || l.byte o == b

/-- The pool takes a line that a member evicts, or the dirty bytes that a close writes to it (R126, R151). Clean bytes
that the home has superseded do not enter: they would outlive the opens that end them (R157). -/
def toPool (s : State) (bench : Nat) (l : CLine) : State :=
  let s := s.poolAlign bench ⟨l.line * 64, l.cc, false, l.key⟩
  let s := match (s.be bench).find l.line with
    | some p => if l.isDirty then s.modBe bench fun b => b.putLine { p with c := p.c.store l.dirtyBytes } else s
    | none =>
      if s.current l then s.modBe bench fun b => b.putLine ⟨l, s.tick⟩
      else if l.isDirty then s.modBe bench fun b => b.putLine ⟨{ l with filled := false }, s.tick⟩
      else s
  s.poolFit bench

/-- A core's dirty bytes of a line arrive at its home, past its bench's pool. -/
def coreHome (s : State) (core : Nat) (l : CLine) : State :=
  if l.isDirty then (s.writeHome l).poolTakes (benchOf core) l.line l.dirtyBytes else s

/-- Do the core's victims go to a pool? -/
def pooled (s : State) (core : Nat) : Bool := s.inPool core && s.hasPool (benchOf core)

/-- A core's line is evicted: to the bench pool where the core is a member, else home (R126, R153). -/
def evict (s : State) (core : Nat) (l : CLine) : State :=
  let s := s.modCo core fun co => co.dropLine l.line
  if s.pooled core then s.toPool (benchOf core) l else s.coreHome core l

/-- May the line be evicted now? A dirty line whose home holds it back waits, unless a pool takes it. -/
def evictable (s : State) (core : Nat) (l : CLine) : Bool := s.pooled core || !l.isDirty || !s.writeHeld l.line

/-- Where a core's cache holds one line more than its portion, a free choice goes, the newest apart (assumption 73). -/
def cacheFit (s : State) (core : Nat) : State :=
  if (s.co core).cache.length ≤ cacheLines (s.co core).lsplit then s
  else
    let vs := ((s.co core).cache.drop 1).filter (s.evictable core)
    match vs[Config.victim s.free % vs.length]? with
    | some l => s.evict core l
    | none => s

/-- A line enters a core's cache. -/
def cacheTake (s : State) (core : Nat) (l : CLine) : State := (s.modCo core fun co => co.putLine l).cacheFit core

/-- A line that the core holds under another translation leaves it. -/
def cacheAlign (s : State) (core : Nat) (x : Xl) : State :=
  match (s.co core).find (lineOf x.ha) with
  | some l => if l.alias x then (s.modCo core fun co => co.dropLine l.line).coreHome core l else s
  | none => s

/-! ## Fills -/

/-- What a miss of a core's cache finds: the pool's line where it may hit (R151), else the home's. The pool's copy
is refreshed from the home where it lacks bytes. -/
def missLine (s : State) (core : Nat) (x : Xl) : List PByte × W32 × State :=
  let b := benchOf core
  let s := s.poolAlign b x
  let home := s.homeLine x
  let ver := s.rowVer x.ha
  match (if s.hasPool b then (s.be b).find (lineOf x.ha) else none) with
  | some p =>
    if s.poolHits core p then
      ((List.range 64).map p.c.byte, p.c.ver, s)
    else
      let c := p.c.fill home ver
      ((List.range 64).map c.byte, ver, s.modBe b fun b => b.putLine ⟨c, s.tick⟩)
  | none => (home, ver, s)

/-- The line as a plain load finds it, filled into the core cache where there is one (R125, R153). -/
def loadLine (s : State) (core : Nat) (x : Xl) : CLine × State :=
  let s := s.cacheAlign core x
  match (s.co core).find (lineOf x.ha) with
  | some l =>
    if l.filled then (l, s)
    else
      let (base, ver, s) := s.missLine core x
      let l := l.fill base ver
      (l, s.cacheTake core l)
  | none =>
    let (base, ver, s) := s.missLine core x
    let l := (emptyLine x).fill base ver
    (l, if (s.co core).hasCache then s.cacheTake core l else s)

/-- The closing context's record of a ROW line read through the cache (R168): the first version that it read in the
phase stays, though the line is evicted and read again (assumption 66). -/
def noteRow (s : State) (c : Nat) (x : Xl) (l : CLine) : State :=
  if x.cc = 3 && (s.co (coreOf c)).hasCache && !((s.cx c).rowReads.any fun r => r.1 == l.line) then
    s.modCx c fun cx => { cx with rowReads := (l.line, l.ver) :: cx.rowReads }
  else s

/-- A plain read of `n` bytes that lie in one line. -/
def readPlain (s : State) (c : Nat) (x : Xl) (n : Nat) : List PByte × State :=
  if cacheable x.cc then
    let (l, s) := s.loadLine (coreOf c) x
    ((List.range n).map (fun i => l.byte (x.ha % 64 + i)), s.noteRow c x l)
  else (s.h.bytes x n, s)

/-- `ldh`: the home's value beneath the core's own dirty bytes (R171). -/
def readHome (s : State) (c : Nat) (x : Xl) (n : Nat) : List PByte :=
  let home := s.h.bytes x n
  match (s.co (coreOf c)).find (lineOf x.ha) with
  | some l => (List.range n).zip home |>.map fun (i, b) =>
      let o := x.ha % 64 + i
      if l.dirty.getLsbD o then l.byte o else b
  | none => home

/-! ## Write-backs -/

/-- Clean a core's line. -/
def cleanLine (s : State) (core line : Nat) : State :=
  s.modCo core fun co => { co with cache := co.cache.map fun l => if l.line == line then { l with dirty := 0 } else l }

/-- Write one line of a core back to the point of visibility and keep it clean. -/
def backLine (s : State) (core : Nat) (toHome : Bool) (l : CLine) : State :=
  if !l.isDirty then s
  else
    let s := s.cleanLine core l.line
    if !toHome && s.hasPool (benchOf core) then s.toPool (benchOf core) l else s.coreHome core l

/-- Write the pool's dirty lines that satisfy `p` back to their homes. -/
def backPool (s : State) (bench : Nat) (p : CLine → Bool) : State :=
  let ls := (s.be bench).pool.filter fun l => l.c.isDirty && p l.c
  let s := s.modBe bench fun b =>
    { b with pool := b.pool.map fun l => if l.c.isDirty && p l.c then { l with c := { l.c with dirty := 0 } } else l }
  ls.foldl (fun s l => s.writeHome l.c) s

/-- Classes on which a phase acts (R152). -/
def phased (cc : BitVec 3) : Bool := cc == 0 || cc == 2 || cc == 3 || cc == 4

/-- The lines that a close writes to their homes. -/
def closeHome (s : State) (core : Nat) (toHome : Bool) : List Nat :=
  let mine := ((s.co core).cache.filter fun l => l.isDirty && phased l.cc).map CLine.line
  if toHome then mine ++ ((s.be (benchOf core)).pool.filter fun l => l.c.isDirty).map fun l => l.c.line
  else if s.hasPool (benchOf core) then [] else mine

/-- STALE counts the ROW lines read in the phase whose version has changed (R168, R169). -/
def countStale (s : State) (c : Nat) : State :=
  let n := ((s.cx c).rowReads.filter fun r => s.rowVer (r.1 * 64) != r.2).length
  s.modCx c fun cx => { cx with
    rowReads := []
    reg := { cx.reg with stale := BitVec.ofNat 64 (satAdd 40 (fieldN cx.reg.stale 0 40) n) } }

/-- A close of context `c` (R151 to R153). -/
def close (s : State) (c : Nat) (toHome : Bool) : State :=
  let core := coreOf c
  let s := s.countStale c
  let s := ((s.co core).cache.filter fun l => l.isDirty && phased l.cc).foldl (fun s l => s.backLine core toHome l) s
  if toHome then s.backPool (benchOf core) (fun _ => true) else s

/-- An open of context `c`: clean lines go; later reads do not hit earlier pool lines at device scope. What the pool took
before the core wrote the line at its home past it leaves the pool, too: no other core of the bench may hit it after an
open of its own (R155, R157). -/
def openPhase (s : State) (c : Nat) (dev : Bool) : State :=
  let core := coreOf c
  let s := s.poolForget (benchOf core) fun p => decide (p.tick < Tab.get 0 (s.co core).homed p.c.line)
  let s := s.modCo core fun co => { co with cache := co.cache.filter (fun l => l.isDirty || !phased l.cc), homed := [] }
  if dev then { s.modCo core fun co => { co with poolOpen := s.tick + 1 } with tick := s.tick + 1 } else s

/-- Drop the clean lines that satisfy `p` from a core's cache. -/
def dropClean (s : State) (core : Nat) (p : CLine → Bool) : State :=
  s.modCo core fun co => { co with cache := co.cache.filter fun l => l.isDirty || !p l }

/-- A core has read these lines at their homes past its cache: a clean copy that its home has superseded leaves the
core's cache, so that no later read returns an older write (R156, R157). -/
def homeSeen (s : State) (core : Nat) (ls : List Nat) : State :=
  let past (l : CLine) : Bool := ls.contains l.line && l.filled && !s.current l
  let keep (l : CLine) : CLine := if past l then { l with filled := false } else l
  (s.modCo core fun co => { co with cache := (co.cache.filter fun l => l.isDirty || !past l).map keep }).noteHomed core ls

/-- Write back a core's dirty lines that satisfy `p`, to their homes. -/
def backLines (s : State) (core : Nat) (p : CLine → Bool) : State :=
  ((s.co core).cache.filter fun l => l.isDirty && p l).foldl (fun s l => s.backLine core true l) s

/-! ## Registers in MMIO (R323, R324, R330) -/

/-- The context window's registers, and those that read as written. -/
def cwinListed (off : Nat) : Bool := off % 8 == 0 && (off < 0x838 || off == 0x840)

/-- Writable bits of a context register (R323, R6). -/
def cwinMask (off : Nat) : W64 :=
  match off with
  | 8 => 0x000FFFFFFFFFF000
  | 0x10 => 0xFFFF
  | 0x30 => 0x1FF
  | o => if 0x40 ≤ o ∧ o < 0x838 then 0x80000000FFFFFFFF else 0xFFFFFFFFFFFFFFFF

/-- The core whose telemetry block holds the address, and the counter. -/
def bconfAt (ha : Nat) : Option (Nat × Nat) :=
  let die := ha / 2 ^ 36 % 16
  let bench := ha / 2 ^ 32 % 16
  let core := ha / 2 ^ 26 % 64
  let off := ha % 2 ^ 26
  if die < 8 ∧ bench < 12 ∧ core < Config.benchCores ∧ off < 2048 then
    some (die * Config.dieCores + bench * Config.benchCores + core, off / 8)
  else none

/-- A register read by a core at level K. Another device's registers are words at its home (assumption 75). -/
def mmioRead (s : State) (ha : Nat) : W64 :=
  if haDev ha ≠ 0 then leBv 64 (s.h.mem.readN ha 8) else
  match haRegion ha with
  | 8 => if cwinListed (ha % 65536) && ha % 65536 != 0x840 then s.cwin (ha / 65536 % 2 ^ 24) (ha % 65536) else 0
  | 9 => match bconfAt ha with
    | some (c, b) => zx64 (Tab.get 0 (s.co c).bconf b)
    | none => match Config.unitAt ha with
      | some u => Tab.get 0 s.pf.unitCnt u
      | none => 0
  | 10 =>
    let p := ha / 2 ^ 36 % 16
    match ha % 2 ^ 36 with
    | 0x140 => BitVec.ofNat 64 (Tab.get 0 s.pf.status p)
    | 0x200 => Tab.get 0 s.pf.stalep p
    | _ => leBv 64 (s.h.mem.readN ha 8)
  | _ => leBv 64 (s.h.mem.readN ha 8)

/-- Is the register a word of memory at its home: another device's, the Gaffer mailbox's, or a partition window's that
holds no register? -/
def mmioStored (ha : Nat) : Bool :=
  haDev ha != 0 || (haRegion ha != 8 && haRegion ha != 9 && !(haRegion ha == 10 && (ha % 2 ^ 36 == 0x140 || ha % 2 ^ 36 == 0x200)))

/-- A register's bytes, with the poison of a word of memory (R325, R329). -/
def mmioBytes (s : State) (ha : Nat) : List PByte :=
  (bvLe 8 (s.mmioRead ha)).map fun b => (b, mmioStored ha && (Tab.get false s.h.poison (unitOf ha) || s.h.gone ha))

/-- A word of memory in MMIO is written, with its poison (R329). -/
def mmioPut (s : State) (ha : Nat) (bs : List PByte) : State :=
  let ws := (List.range bs.length).zip bs |>.map fun (i, b) => (ha + i, b)
  s.modH fun h => { h with
    mem := h.mem.writeN ha (pdata bs)
    poison := Tab.set false h.poison (unitOf ha) (unitPoison (Tab.get false h.poison (unitOf ha)) ws (unitOf ha)) }

/-- A word of a partition window's command record (R324): nothing while the window is busy, and busy from the
record's last word on, until the command has been handled. -/
def windowWrite (s : State) (ha : Nat) (bs : List PByte) : State :=
  let p := ha / 2 ^ 36 % 16
  let off := ha % 2 ^ 36
  if off < 0x100 || 0x140 ≤ off || Tab.get 0 s.pf.status p == 2 then s
  else
    let s := s.mmioPut ha bs
    if off = 0x138 then s.modPf fun f => { f with status := Tab.set 0 f.status p 2 } else s

/-- Is the event a write of a context's register? -/
def isRegWrite : Agendum → Bool
  | .ev (.launch ..) | .ev (.cancel ..) | .ev (.registerWrite ..) => true
  | _ => false

/-- The effect of a core's write of a register comes next, after those of its earlier writes. -/
def regNext (s : State) (i : Instr) : State :=
  { s with agenda := s.agenda.takeWhile isRegWrite ++ .ev i :: s.agenda.dropWhile isRegWrite }

/-- A register written by a core at level K: a context register's effect is the next event. -/
def mmioWrite (s : State) (ha : Nat) (bs : List PByte) : State :=
  let v := leBv 64 (pdata bs)
  if haDev ha ≠ 0 then s.mmioPut ha bs else
  match haRegion ha with
  | 8 =>
    let ctxid := ha / 65536 % 2 ^ 24
    s.regNext (match ha % 65536 with
      | 0 => .launch ⟨none, ctxid⟩ v
      | 0x840 => .cancel ⟨none, ctxid⟩ v
      | off => .registerWrite ⟨none, ctxid⟩ off v)
  | 9 => match bconfAt ha with
    | some (c, b) => if v = 0 then s.modCo c fun co => { co with bconf := Tab.set 0 co.bconf b 0 } else s
    | none => s
  | 10 => s.windowWrite ha bs
  | _ => if ha % 2 ^ 40 < 4096 then s.mmioPut ha bs else s

/-! ## Loads (R55, R156, R164, R170) -/

/-- Bytes of a load that an earlier store of the sequencer, still in flight, has written. -/
def overlayStores (s : State) (c q before : Nat) (x : Xl) (bs : List PByte) : List PByte :=
  let sts := (s.cx c).f.stores.filter fun st => st.q == q && st.id < before
  (List.range bs.length).zip bs |>.map fun (i, b) =>
    sts.foldl (fun b st => st.writes.foldl (fun b w =>
      if w.1 ≤ x.ha + i && x.ha + i < w.1 + w.2.length then w.2.getD (x.ha + i - w.1) b else b) b) b

/-- Write back a core's dirty bytes of `n` bytes' lines, and their pool copies, to the homes. -/
def backRange (s : State) (core a n : Nat) : State :=
  let inR (l : CLine) : Bool := overlap a n (l.line * 64) 64
  (s.backLines core inR).backPool (benchOf core) inR

/-- The bytes of a load as they are read now; what `readPlain` fills stays. -/
def loadBytes (s : State) (c : Nat) (l : Load) : List PByte × State :=
  match l.kind with
  | .plain =>
    if isMmio l.x.ha then (s.mmioBytes l.x.ha, s)
    else let (b, s) := s.readPlain c l.x l.n; (s.overlayStores c l.q l.id l.x b, s)
  | .home =>
    if isMmio l.x.ha then (s.mmioBytes l.x.ha, s)
    else
      let s := s.backPool (benchOf (coreOf c)) fun p => p.line == lineOf l.x.ha
      (s.overlayStores c l.q l.id l.x (s.readHome c l.x l.n), s.homeSeen (coreOf c) [lineOf l.x.ha])
  | .row ver =>
    let row := { l.x with ha := s.rowOf l.x.ha }
    let s := s.backRange (coreOf c) row.ha (s.rowSize row.ha)
    let b := s.h.bytes row (s.rowSize row.ha)
    let ls := (List.range ((s.rowSize row.ha + 63) / 64)).map (lineOf row.ha + ·)
    (if ver then b ++ (bvLe 8 (zx64 (s.rowVer l.x.ha))).map (fun x => (x, s.h.gone l.x.ha)) else b, s.homeSeen (coreOf c) ls)

/-- The bytes that a load reads: where, and how many. -/
def loadRange (s : State) (l : Load) : Nat × Nat :=
  match l.kind with
  | .row _ => (s.rowOf l.x.ha, s.rowSize l.x.ha)
  | _ => (l.x.ha, l.n)

/-- Read a load's bytes if they have not been read. -/
def captureLoad (s : State) (c : Nat) (l : Load) : State :=
  match l.got with
  | some _ => s
  | none =>
    let (b, s) := s.loadBytes c l
    s.modF c fun f => { f with loads := f.loads.map fun m => if m.id == l.id then { m with got := some b } else m }

/-- A load lands: its bytes in scratchpad on the sequencer's path, `lc` one less (R170). -/
def landLoad (s : State) (c : Nat) (l : Load) : State :=
  let (b, s) := match l.got with | some b => (b, s) | none => s.loadBytes c l
  let s := s.scrWrite c (pathOf l.q) l.dst b
  s.modCx c fun cx => { cx with
    n := { cx.n with lc := cx.n.lc - 1 }
    f := { cx.f with loads := cx.f.loads.filter fun m => m.id != l.id } }

/-- Does a store of the sequencer older than `id` still have to be accepted in the range? -/
def storeBefore (s : State) (c q id a n : Nat) : Bool :=
  (s.cx c).f.stores.any fun st => st.q == q && decide (st.id < id) && st.writes.any fun w => overlap w.1 w.2.length a n

/-- Lines of a range that a core or its pool holds dirty and whose homes hold them back. -/
def dirtyHeld (s : State) (core a n : Nat) : Bool :=
  let bad (l : CLine) : Bool := l.isDirty && overlap a n (l.line * 64) 64 && s.writeHeld l.line
  (s.co core).cache.any bad || (s.be (benchOf core)).pool.any fun p => bad p.c

/-- Does the load hit the core cache? -/
def loadHits (s : State) (c : Nat) (l : Load) : Bool :=
  l.kind == .plain && (match (s.co (coreOf c)).find (lineOf l.x.ha) with | some x => x.filled && !x.alias l.x | none => false)

/-- Does a refreshing macro hold the load (R131)? -/
def loadRefresh (s : State) (c : Nat) (l : Load) : Bool := l.got.isNone && !s.loadHits c l && s.refreshing l.x.ha

/-- Must reading the load write bytes back first that a home holds: a row's (R373), those of the pool beneath an `ldh`,
or those of a line under another translation? -/
def loadBack (s : State) (c : Nat) (l : Load) : Bool :=
  let core := coreOf c
  match l.kind with
  | .row _ => let (a, n) := s.loadRange l
              s.dirtyHeld core a n
  | .home => (s.be (benchOf core)).pool.any fun p => p.c.isDirty && p.c.line == lineOf l.x.ha && s.writeHeld p.c.line
  | .plain => match (s.co core).find (lineOf l.x.ha) with
    | some x => x.alias l.x && x.isDirty && s.writeHeld x.line
    | none => false

/-- Has an offer of the sequencer older than `id` to a byte of the range still to be answered? Its read and its write come
before those of what follows it in program order (R156, R158; assumption 98). -/
def offersBefore (s : State) (c q id a n : Nat) (p : Offer → Bool) : Bool :=
  (s.cx c).f.offers.any fun o => o.q == q && decide (o.id < id) && o.fate == .live && overlap o.x.ha (max o.size 1) a n && p o &&
    (match o.stage with | .replied _ => false | _ => true)

/-- May the load's bytes be read now? A row waits for the sequencer's own earlier stores (R373), a register for those to
it, and any load for its offers there, but that a clean line that the core holds stays as it is for all but `owait` (R156,
R231); the lehr's refresh (R131), a near-memory command (R251) and what must be written back first hold it. -/
def loadFree (s : State) (c : Nat) (l : Load) : Bool :=
  let (a, n) := s.loadRange l
  l.got.isSome ||
    (!s.offersBefore c l.q l.id a n (fun o => !s.loadHits c l || o.opc == 9) &&
     (match l.kind with | .row _ => !s.storeBefore c l.q l.id a n | _ => !isMmio a || !s.storeBefore c l.q l.id a n) &&
     (s.loadHits c l || ((s.readHeld l.x.ha).isNone && !s.loadBack c l)))

/-- Does the load land now? Loads of one sequencer to overlapping bytes land in order (R156). -/
def loadDue (s : State) (c : Nat) (l : Load) : Bool :=
  let (a, n) := s.loadRange l
  !((s.cx c).f.loads.any fun m => m.q == l.q && decide (m.id < l.id) &&
      (let (b, k) := s.loadRange m; overlap b k a n)) && s.loadFree c l

/-! ## Stores (R170, R402) -/

/-- Bytes into the core cache: the line's dirty bytes (R153). -/
def cacheStore (s : State) (core : Nat) (x : Xl) (w : Nat × List PByte) : State :=
  let s := s.cacheAlign core { x with ha := w.1 }
  let l := ((s.co core).find (lineOf w.1)).getD (emptyLine { x with ha := w.1 })
  let ws := (List.range w.2.length).zip w.2 |>.map fun (i, b) => (w.1 % 64 + i, b)
  s.cacheTake core (l.store ws)

/-- A store past the caches: bytes of one access at their home, which the pool's copies take, too. -/
def homeStore (s : State) (core : Nat) (x : Xl) (bs : List PByte) : State :=
  let ws := (List.range bs.length).zip bs |>.map fun (i, b) => (x.ha + i, b)
  ((ws.map fun w => lineOf w.1).eraseDups).foldl (fun s l =>
    s.poolTakes (benchOf core) l ((ws.filter fun w => lineOf w.1 == l).map fun w => (w.1 % 64, w.2))) (s.homeSend x bs)

/-- Is every line that the store writes at a home free to take it? -/
def storeReady (s : State) (c : Nat) (st : Store) : Bool :=
  ((st.cached && (s.co (coreOf c)).hasCache) || st.writes.all fun w => !s.writeHeld (lineOf w.1)) &&
  st.back.all fun l => !s.writeHeld l

/-- Write a line of the core and of its pool back; one that holds nothing else goes. -/
def backOne (s : State) (core line : Nat) : State :=
  let s := match (s.co core).find line with
    | some l => (s.backLine core true l).modCo core fun co =>
        { co with cache := co.cache.filter fun l => l.line != line || l.filled || l.isDirty }
    | none => s
  (s.backPool (benchOf core) fun l => l.line == line).modBe (benchOf core) fun b =>
    { b with pool := b.pool.filter fun l => l.c.line != line || l.c.filled || l.c.isDirty }

/-- The earlier loads of the sequencer that a store or an offer overtakes: those that read a byte of it, and those before
them that read a byte of theirs. They read before it is performed, all at once (R156). -/
def overtaken (s : State) (c q id : Nat) (hits : Nat → Nat → Bool) : List Load :=
  ((s.cx c).f.loads.filter fun m => m.q == q && decide (m.id < id)).foldr (fun m ls =>
    let (a, n) := s.loadRange m
    if hits a n || ls.any (fun y => let (b, k) := s.loadRange y; overlap b k a n)
    then m :: ls else ls) []

def captureBefore (s : State) (c q id : Nat) (hits : Nat → Nat → Bool) : State :=
  (s.overtaken c q id hits).foldl (fun s m => s.captureLoad c m) s

/-- A store is accepted by the core cache, or by its homes; `sc` one less. -/
def acceptStore (s : State) (c : Nat) (st : Store) : State :=
  let s := s.captureBefore c st.q st.id st.hits
  let s := st.writes.foldl (fun s w =>
    if isMmio w.1 then s.mmioWrite w.1 w.2
    else if st.cached && (s.co (coreOf c)).hasCache then s.cacheStore (coreOf c) st.x w
    else s.homeStore (coreOf c) { st.x with ha := w.1 } w.2) s
  let s := st.back.foldl (fun s l => s.backOne (coreOf c) l) s
  s.modCx c fun cx => { cx with
    n := { cx.n with sc := cx.n.sc - 1 }
    f := { cx.f with stores := cx.f.stores.filter fun m => m.id != st.id } }

/-- Stores of one sequencer to overlapping bytes are accepted in order (R156); a store waits until the loads that it
overtakes may read, and its sequencer's earlier offers to its bytes are answered. -/
def storeDue (s : State) (c : Nat) (st : Store) : Bool :=
  s.storeReady c st &&
  !(st.writes.any fun w => s.storeBefore c st.q st.id w.1 w.2.length || s.offersBefore c st.q st.id w.1 w.2.length fun _ => true) &&
  (s.overtaken c st.q st.id st.hits).all (s.loadFree c)

/-- Lines of a page range that the core or its pool holds (R163). -/
def inPages (pages : List Xl) (va : W64) (n line : Nat) : Bool :=
  let lo := va.toNat % 4096
  ((List.range pages.length).zip pages).any fun (j, x) =>
    x.ha / 4096 == line / 64 && overlap (j * 4096 + line % 64 * 64) 64 lo n

end State

end Sys2Proof.Machine
end

