-- ==== Sys2Proof/Machine/JafOps.lean ====
section
/-! DEFINITION. The join accumulator file (R198 to R207): hashing and placing of tuples, combination, the spill ring, the
commands of the four sources, and parking. -/

namespace Sys2Proof.Machine

/-! ## The table (R200, R201) -/

def jHash (row cblk : W32) : Nat := ((row * 0x9E3779B1) ^^^ (cblk * 0x85EBCA77)).toNat

/-- A partition's first bucket and its bucket count (R198). -/
def JPart.base (p : JPart) (ctxn : Nat) : Nat := if p.all then 0 else 64 * ctxn
def JPart.count (p : JPart) : Nat := if p.all then 256 else 64

/-- The bucket of a key, from the partition's first. -/
def JPart.bucket (p : JPart) (row cblk : W32) : Nat := jHash row cblk / 2 ^ 24 % p.count

/-- The ways probed, in order: 8 buckets of 4. -/
def JPart.probes (p : JPart) (ctxn : Nat) (b : Nat) : List Nat :=
  (List.range 8).flatMap fun i => (List.range 4).map fun w => (p.base ctxn + (b + i) % p.count) * 4 + w

/-- Lane values of a combination (R201). -/
def combineLane (i32 ow : Bool) (had new : Bool) (old v : W32) : W32 :=
  if !new then old else if !had || ow then v else if i32 then old + v else fadd32 old v

/-- `Combine` (R201). -/
def Way.combine (w : Way) (t : Tuple) (i32 : Bool) : Way :=
  { w with
    mask := w.mask ||| t.mask
    lanes := ofLanes ((List.range 16).map fun l =>
      combineLane i32 t.ow (w.mask.getLsbD l) (t.mask.getLsbD l) (lane w.lanes l) (lane t.lanes l)) }

/-- Insertion: lanes outside the mask read 0. -/
def Tuple.insert (t : Tuple) : Way :=
  ⟨t.row, t.cblk, t.mask, ofLanes ((List.range 16).map fun l => if t.mask.getLsbD l then lane t.lanes l else 0)⟩

def Core.way (co : Core) (i : Nat) : Option Way := Tab.get none co.jaf i
def Core.setWay (co : Core) (i : Nat) (w : Option Way) : Core := { co with jaf := Tab.set none co.jaf i w }

/-- The way that holds a key. -/
def Core.findKey (co : Core) (p : JPart) (ctxn : Nat) (row cblk : W32) : Option (Nat × Way) :=
  (p.probes ctxn (p.bucket row cblk)).findSome? fun i => match co.way i with
    | some w => if w.row = row ∧ w.cblk = cblk then some (i, w) else none
    | none => none

/-- Placing in the table, or false when the tuple must spill (R200); the overflow flag is then set. -/
def Core.place (co : Core) (p : JPart) (ctxn : Nat) (t : Tuple) : Core × Bool :=
  let b := p.bucket t.row t.cblk
  match co.findKey p ctxn t.row t.cblk with
  | some (i, w) => (co.setWay i (some (w.combine t p.i32)), true)
  | none =>
    let ob := p.base ctxn + b
    let freeWay := if Tab.get false co.ovf ob then none else (p.probes ctxn b).find? fun i => (co.way i).isNone
    match freeWay with
    | some i => (co.setWay i (some t.insert), true)
    | none => ({ co with ovf := Tab.set false co.ovf ob true }, false)

/-- Clear every way and overflow flag of a partition (R199). -/
def Core.clearPart (co : Core) (p : JPart) (ctxn : Nat) : Core :=
  let lo := p.base ctxn
  let hi := lo + p.count
  { co with
    jaf := co.jaf.filter fun (e : Nat × Option Way) => !(lo ≤ e.1 / 4 && e.1 / 4 < hi)
    ovf := co.ovf.filter fun (e : Nat × Bool) => !(lo ≤ e.1 && e.1 < hi) }

/-- The valid ways of a partition, in table order. -/
def Core.ways (co : Core) (p : JPart) (ctxn : Nat) : List (Nat × Way) :=
  let lo := p.base ctxn
  co.jaf.filterMap fun (e : Nat × Option Way) =>
    if lo ≤ e.1 / 4 && e.1 / 4 < lo + p.count then e.2.map fun w => (e.1, w) else none

/-! ## The spill ring (R202) -/

/-- A ring record's 128 bytes. -/
def RingRec.bytes (r : RingRec) : List Byte :=
  lineBytes r.t.lanes ++ bvLe 4 r.t.row ++ bvLe 4 r.t.cblk ++ bvLe 2 r.t.mask ++
  [BitVec.ofNat 8 (b2n r.t.ow + 2 * b2n r.i32 + 4 * b2n r.consumed)] ++ List.replicate 53 0

/-- What the ring's memory holds while the partition is held: no defined value (assumption 21); the records themselves
stand there from the release on (`ringSettle`). -/
def ringBytes (f : Nat) (r : RingRec) : List Byte :=
  if Config.freeChoice f then r.bytes else (List.range 128).map fun i => Config.freeByte (f * 128 + i)

/-- The ring byte at which the next record is to be written, in a circular region; 0 without a ring (R202, R203). After
`jinit` or `jdrain.t` the ring's first record stands at its base again (assumption 88). -/
def JafCtx.next (j : JafCtx) : W64 :=
  if j.ringSize = 0 then 0 else j.ringBase + BitVec.ofNat 64 (128 * j.ring.length % j.ringSize)

def JafCtx.full (j : JafCtx) : Bool := decide (j.ringSize < 128 * (j.ring.length + 1))

/-- Unconsumed records (R202). -/
def JafCtx.live (j : JafCtx) : List RingRec := j.ring.filter fun r => !r.consumed

namespace State

/-- Translations of the matrix unit for a context's ring, which `jspill` has checked at its own level. -/
def whoJaf (s : State) (c q : Nat) : Who := { s.who (sidAt c q) with lvlK := true, waits := false }

/-- Why the walk for the ring's next record waits, for a tuple that must spill (R131, R237, R251; assumption 76). -/
def ringHeld (s : State) (c q : Nat) (p : JPart) (t : Tuple) : Option Cause :=
  let j := (s.cx c).j
  if j.ringSize = 0 || j.full || ((s.co (coreOf c)).place p (ctxnOf c) t).2 then none
  else s.walkHeld (s.whoJaf c q) j.next 128 .write

/-- Append a record to the ring, or the FADDR of the SPILL (R203). -/
def ringAppend (s : State) (c q : Nat) (r : RingRec) : Except W64 State :=
  let j := (s.cx c).j
  if j.ringSize = 0 || j.full then .error j.next
  else match s.translateAll (s.whoJaf c q) j.next 128 .write with
    | .error _ => .error j.next
    | .ok (pages, s) =>
      match pages with
      | [] => .error j.next
      | x :: _ =>
        let s := s.homeSend { x with ha := x.ha + j.next.toNat % 4096 } (clean (ringBytes s.free r))
        .ok (s.modJ c fun j => { j with ring := j.ring ++ [r] })

/-- A ring's records as they stand in its memory once they are the JAF's no longer: consumed ones with their mark (R202,
R205). A page that no longer translates keeps what it holds. -/
def ringStand (s : State) (w : Who) (j : JafCtx) : State :=
  ((List.range j.ring.length).zip j.ring).foldl (fun s (i, r) =>
    match s.translateOne w (j.ringBase + BitVec.ofNat 64 (128 * i)) .write with
    | .ok (x, s) => s.homeSend x (clean r.bytes)
    | .error _ => s) s

/-- The records of a context's ring so stand: they leave it, or move. -/
def ringSettle (s : State) (c : Nat) : State := s.ringStand (s.whoJaf c 0) (s.cx c).j

/-- Place one tuple of context `c` (R200): in the table or in the ring, else with the SPILL's FADDR; a tuple that must
spill sets its overflow flag first. -/
def jafPlace (s : State) (c q : Nat) (p : JPart) (t : Tuple) : State × Option W64 :=
  let (co, ok) := (s.co (coreOf c)).place p (ctxnOf c) t
  let s := s.setCo (coreOf c) co
  if ok then (s, none)
  else match s.ringAppend c q ⟨t, p.i32, false⟩ with
    | .error f => (s, some f)
    | .ok s => (s, none)

/-! ## Traps that become pending (R411) -/

/-- The sequencer that takes a trap of sequencer `q` of context `c`: the compute sequencer when that one has stopped
(R203, R227). -/
def taker (s : State) (c q : Nat) : Nat := if (s.sq (sidAt c q)).run then sidAt c q else sidAt c 0

def post (s : State) (k : Nat) (t : TrapInfo) : State := s.modSq k fun q => { q with pend := q.pend ++ [t] }

/-! ## Commands (R192, R203, R207) -/

/-- Is the command a `joins` that its own sequencer's trap has cut: it has no update to come before the `eret`? -/
def jafCut (s : State) (c : Nat) (m : JCmd) : Bool :=
  m.more && m.tuples.isEmpty && (s.cx c).handler == some (sidAt c m.q)

/-- The oldest command of a source; one that is cut gives way to those of the handler (assumption 30). -/
def jafHead (s : State) (c src : Nat) : Option JCmd :=
  (s.cx c).j.cmds.find? fun m => m.src == src && !s.jafCut c m

def jafSet (s : State) (c : Nat) (m : JCmd) : State :=
  s.modJ c fun j => { j with cmds := j.cmds.map fun x => if x.id == m.id then m else x }

/-- Where a command stands after a tuple of it: done, it goes and `mc` falls. -/
def jafRetire (s : State) (c : Nat) (m : JCmd) : State :=
  if !m.tuples.isEmpty || m.more then s.jafSet c m
  else s.modCx c fun x => { x with
    j := { x.j with
      cur := if x.j.cur == some m.id then none else x.j.cur
      cmds := x.j.cmds.filter fun y => y.id != m.id }
    n := { x.n with mc := x.n.mc - b2n m.counted } }

/-- Is no command under way (R207), for one of sequencer `q` from `id` on? A `joins` that is cut gives way to what the
handler of its own trap issues, and to nothing else (assumption 30). -/
def jafFree (s : State) (c q id : Nat) : Bool :=
  let j := (s.cx c).j
  j.cur.isNone || j.cmds.any fun m => j.cur == some m.id && s.jafCut c m && m.q == q && decide (m.id < id)

/-- May the JAF apply this command now? -/
def jafMay (s : State) (c : Nat) (m : JCmd) : Bool := s.jafFree c m.q m.id || (s.cx c).j.cur == some m.id

/-- Apply the next tuple of a command; one that cannot be placed parks all later updates. A `joins` that has given way
stays the command under way. -/
def jafStep (s : State) (c : Nat) (p : JPart) (m : JCmd) : State :=
  match m.tuples with
  | [] => if m.more then s else s.jafRetire c m
  | t :: rest =>
    let m := { m with pins := [] }
    let s := (s.modJ c fun j => { j with cur := j.cur.or (some m.id) }).jafSet c m
    match s.jafPlace c m.q p t with
    | (s, none) => s.jafRetire c { m with tuples := rest }
    | (s, some f) =>
      (s.modJ c fun j => { j with parked := true, cmds := j.cmds.map fun x => { x with pins := [] } }).post (s.taker c m.q) ⟨.spill, f, true, 0, [], none, none⟩

/-- Does the walk for the command's next tuple wait? -/
def jafWaits (s : State) (c : Nat) (p : JPart) (m : JCmd) : Bool :=
  (m.tuples.head?.bind (s.ringHeld c m.q p)).isSome

/-- Apply the next tuple of a source's oldest command, one command at a time (R207). -/
def jafApply (s : State) (c src : Nat) : State :=
  match (s.cx c).j.parked, (s.cx c).j.part, s.jafHead c src with
  | false, some p, some m => if s.jafMay c m && !s.jafWaits c p m then s.jafStep c p m else s
  | _, _, _ => s

/-- Complete what has passed its checks, as far as it does not park (R210, R284): `n` tuples at most. A `joins` that
still runs stops between two tuples and gives way (R363, assumption 30). -/
def jafFlush (s : State) (c : Nat) : Nat → State
  | 0 => s
  | n + 1 =>
    let due (m : JCmd) : Bool := !m.tuples.isEmpty || !m.more
    let j := (s.cx c).j
    match j.parked, j.part, (match j.cmds.find? fun m => due m && j.cur == some m.id with
      | some m => some m
      | none => j.cmds.find? due) with
    | false, some p, some m => (s.jafStep c p m).jafFlush c n
    | _, _, _ => s

/-- Tuples that wait. -/
def jafPending (s : State) (c : Nat) : Nat := ((s.cx c).j.cmds.map fun m => m.tuples.length + 1).foldl (· + ·) 0

/-- Add a command of a source. -/
def jafIssue (s : State) (c : Nat) (m : JCmd) : State := s.modJ c fun j => { j with cmds := j.cmds ++ [m] }

/-- The partition and the ring leave the core. -/
def jafDrop (s : State) (c : Nat) : State :=
  match (s.cx c).j.part with
  | some p => (s.modCo (coreOf c) fun co => co.clearPart p (ctxnOf c)).modJ c fun _ => JafCtx.init
  | none => s.modJ c fun _ => JafCtx.init

/-- Release the partition, its contents discarded (R199). -/
def jafRelease (s : State) (c : Nat) : State := (s.ringSettle c).jafDrop c

end State

end Sys2Proof.Machine
end

