-- ==== Sys2Proof/Machine/Units.lean ====
section
/-! DEFINITION. Operations of the device's other units that several families share: tokens (R165, R166), the layer
records (R303, R311), the abort of an exchange (R270), the walks (R228), and the replies of a context that goes. -/

namespace Sys2Proof.Machine

namespace State

/-! ## Tokens -/

def tok (s : State) (b : Nat) : Tok := Tab.get ⟨none, []⟩ s.h.tok b
def setTok (s : State) (b : Nat) (t : Tok) : State := s.modH fun h => { h with tok := Tab.set ⟨none, []⟩ h.tok b t }

/-- Pass a held token: the block's dirty bytes of the holder's core, and those that it evicted to its bench's pool, go
home, and the token is FREE (R161, R166, R171). -/
def tokRelease (s : State) (c b : Nat) : State :=
  let inB (l : CLine) : Bool := blockOf (l.line * 64) == b
  let s := (s.backLines (coreOf c) inB).backPool (benchOf (coreOf c)) inB
  s.setTok b { s.tok b with holder := none }

/-- Every token that the context holds is passed, and its queued requests are withdrawn (R284). -/
def tokDrop (s : State) (c : Nat) : State :=
  let bs := s.h.tok.map Prod.fst
  bs.foldl (fun s b =>
    let s := if (s.tok b).holder == some c then s.tokRelease c b else s
    s.setTok b { s.tok b with queue := (s.tok b).queue.filter (· != c) }) s

/-! ## Layer records (R303) -/

def model (s : State) (part mid : Nat) : Option Model := s.sch.models.find? fun m => m.part == part && m.mid == mid

def mdRead (s : State) (m : Model) (off n : Nat) : List Byte :=
  (List.range n).map fun i => (s.ownByte (xlAt m.pages m.desc (off + i))).1
def mdNat (s : State) (m : Model) (off n : Nat) : Nat := leNat (s.mdRead m off n)
def mdWrite (s : State) (m : Model) (off : Nat) (bs : List Byte) : State :=
  s.homeSend (xlAt m.pages m.desc off) (clean bs)

end State

/-- Offset of a layer's record in its descriptor (R302). -/
def recOff (l : Nat) : Nat := 64 + 128 * l
/-- FLAG values (R303). -/
def lfAbsent : Nat := 0
def lfFilling : Nat := 1
def lfResident : Nat := 2
def lfEvicting : Nat := 3
def lfFaulted : Nat := 4

namespace State

def layFlag (s : State) (m : Model) (l : Nat) : Nat := s.mdNat m (recOff l) 1
def setFlag (s : State) (m : Model) (l v : Nat) : State := s.mdWrite m (recOff l) (natLe 1 v)
def layPin (s : State) (m : Model) (l : Nat) : Nat := s.mdNat m (recOff l + 4) 4
def setPin (s : State) (m : Model) (l v : Nat) : State := s.mdWrite m (recOff l + 4) (natLe 4 v)

/-- Every pin of a context's pin table is released (R311). -/
def pinsDrop (s : State) (c : Nat) : State :=
  let part := (s.cx c).slot.part
  let s := (s.cx c).pins.foldl (fun s p => match s.model part p.mid with
    | some m => s.setPin m p.layer (s.layPin m p.layer - p.count)
    | none => s) s
  s.modCx c fun x => { x with pins := [] }

/-! ## Exchanges (R263, R270) -/

/-- The cores that an exchange's set names, as seen from one of its cores (R263). -/
def xchCores (core : Nat) (die : Bool) (set : BitVec 48) : List Nat :=
  if die then ((List.range 12).filter fun b => set.getLsbD b).flatMap fun b =>
    (List.range Config.benchCores).map fun i => dieOf core * Config.dieCores + b * Config.benchCores + i
  else ((List.range Config.benchCores).filter fun i => set.getLsbD i).map fun i => benchOf core * Config.benchCores + i

/-- The cores that take part in the same exchange as `core`: named by its set, and at it. -/
def xchPeers (s : State) (core : Nat) (x : Exch) : List Nat :=
  (xchCores core x.die x.set).filter fun k => match (s.co k).xch with
    | some y => y.ready == x.ready && y.pid == x.pid && y.die == x.die && y.set == x.set
    | none => false

/-- Cores at a barrier. -/
def arrivals (s : State) : List (Nat × Exch) :=
  ((s.cores.map Prod.fst).eraseDups).filterMap fun c => match (s.co c).xch with
    | some x => if x.ready then none else some (c, x)
    | none => none

/-- The cores that the arrivals whose sets share a core name, directly or through others, with the cores `want`; `n`
rounds. -/
def gather (as : List (Nat × Exch)) : Nat → List Nat → List Nat
  | 0, want => want
  | n + 1, want =>
    gather as n (as.foldl (fun w a =>
      let cs := xchCores a.1 a.2.die a.2.set
      if cs.any w.contains then w ++ cs.filter (fun c => !w.contains c) else w) want)

/-- Every core that the barrier of `core`'s arrival waits for (R266). -/
def barrierCores (s : State) (core : Nat) (x : Exch) : List Nat :=
  gather s.arrivals s.arrivals.length (xchCores core x.die x.set)

/-- The cores that stand in the exchange of `core`: those of its phase, or those that wait at its barrier, whatever they
name. -/
def xchGroup (s : State) (core : Nat) (x : Exch) : List Nat :=
  if x.ready then s.xchPeers core x else (s.barrierCores core x).filter fun k => s.arrivals.any fun a => a.1 == k

/-- Does the next exchange instruction of a core's contexts in use raise reason 8? -/
def setOwed (s : State) (core : Nat) (b : Bool) : State :=
  (List.range Config.ctxs).foldl (fun s n =>
    s.modCx (cidAt core n) fun x => { x with xowed := b && x.slot.state != .free }) s

/-- The phase of `core` is aborted: every other participant will raise EXCH with reason 8, no phase stays open, and
its transfers that have not landed do not land, a closed sender's included (R270). One that has not arrived at the barrier
raises it at its core's next exchange instruction (assumption 89). -/
def xchAbort (s : State) (core : Nat) : State :=
  match (s.co core).xch with
  | none => s
  | some x =>
    let ps := s.xchGroup core x
    let late := if x.ready then [] else (s.barrierCores core x).filter fun k => k != core && !ps.contains k
    let s := ps.foldl (fun s k => match (s.co k).xch with
      | some y =>
        let s := if k == core then s else s.modSq y.sid fun q => { q with xabort := 8 }
        s.modCo k fun co => { co with xch := none }
      | none => s) s
    let s := late.foldl (fun s k => s.setOwed k true) s
    (s.modCo core fun co => { co with xch := none }).modSch fun h => { h with
      xfers := h.xfers.filter fun t => !x.ready || t.pid != x.pid }

/-- The exchange of sequencer `k`, from its `exo` on. -/
def xchOf (s : State) (k : Nat) : Option Exch :=
  match (s.co (coreK k)).xch with
  | some x => if x.sid == k then some x else none
  | none => none

/-- Sequencer `k` ends its exchange, open or at its barrier, by a trap (R270). -/
def xchCut (s : State) (k : Nat) : State := if (s.xchOf k).isSome then s.xchAbort (coreK k) else s

/-- Is a context in an exchange, from `exo` to `exc` (R272)? -/
def inExchange (s : State) (c : Nat) : Bool :=
  match (s.co (coreOf c)).xch with
  | some x => cidOf x.sid == c
  | none => false

/-! ## Walks (R228) -/

def walksDrop (s : State) (c : Nat) : State :=
  s.modBe (benchOf (coreOf c)) fun b => { b with walks := b.walks.filter fun w => w.cid != c }

/-! ## What is in flight when a context goes (R284, R294) -/

/-- Stores and loads that have issued complete, in the order of their issue. -/
def settleMem (s : State) (c : Nat) : State :=
  let f := (s.cx c).f
  let ops : List (Nat × (Load ⊕ Store)) := f.loads.map (fun l => (l.id, .inl l)) ++ f.stores.map fun st => (st.id, .inr st)
  (sortBy (fun x y => decide (x.1 ≤ y.1)) ops).foldl (fun s o => match o.2 with
    | .inl l => s.landLoad c l
    | .inr st => s.acceptStore c st) s

/-- Replies of the context's offers and commands will go where `f` says. -/
def reFate (s : State) (c : Nat) (f : Fate) : State :=
  let new (x : Fate) : Fate := match x with | .live => f | y => y
  s.modF c fun fl => { fl with
    offers := fl.offers.map fun o => { o with fate := new o.fate }
    nms := fl.nms.map fun o => { o with fate := new o.fate } }

/-- The reservations of a context end (R237, R284). -/
def resvDrop (s : State) (c : Nat) : State := s.modH fun h => { h with resv := h.resv.filter fun r => r.cid != c }

end State

end Sys2Proof.Machine
end

