-- ==== Sys2Proof/Machine/Graph.lean ====
section
/-! DEFINITION. Task graphs and the instances bound to cores: node states and their device fields (R276 to R285), the
placement of teams (R288, R289), completion, cancellation (R284), and the start of a swap (R291, R294). -/

namespace Sys2Proof.Machine

/-! ## Records (R276, R277) -/

def nodeVa (hdr : W64) (i : Nat) : W64 := hdr + BitVec.ofNat 64 (64 + 128 * i)

def NodeState.code : NodeState → Nat
  | .waiting => 0 | .ready => 1 | .running => 2 | .done => 3 | .faulted => 4

/-- The FAULT word (R278). -/
def faultWord (src detail : Nat) (cause : W32) : W64 := BitVec.ofNat 64 (src * 2 ^ 56 + detail * 2 ^ 48 + cause.toNat)

/-- Instances of a node (R277). -/
def Node.count (n : Node) : Nat := n.gx * n.gy

/-- Trap codes (R411). -/
def TrapCode.num : TrapCode → Nat
  | .illegal => 1 | .priv => 2 | .misalign => 3 | .page => 4 | .prot => 5 | .window => 6 | .token => 7 | .scale => 8
  | .metaErr => 9 | .spill => 10 | .quota => 11 | .swap => 12 | .poison => 13 | .offer => 14 | .exch => 15
  | .trap => 16 | .walker => 17

/-! ## Copies in flight -/

def Copy.chunks (c : Copy) : Nat := (c.n + 511) / 512

/-- Every chunk has landed and none holds its bit: `cc` no longer counts the copy, though words of a scaled one may wait
for those of earlier copies (R144, R145). -/
def Copy.finished (c : Copy) : Bool := c.landed.length == c.chunks && c.held.isEmpty

/-- The context's copies that `cc` counts. -/
def Flight.copying (f : Flight) : List Copy := f.copies.filter fun c => !c.finished

namespace State

/-- The place of a field that the device reads or writes, at a virtual address of the context (R283): none where its walk
waits (R251). -/
def fieldAt (s : State) (ctxid : Nat) (va : W64) (f : Xl → State → Option State) : Option State :=
  match s.translateOne { s.whoCtx ctxid true with waits := true } va .read with
  | .ok (x, s) => f x s
  | .error e => if e.hold.isSome then none else some s

/-- What the device does about a field now, at its home: none where it waits (R131, R251). -/
def fieldNow (s : State) (o : FieldOp) : Option State :=
  match o with
  | .write ctxid va bs => s.fieldAt ctxid va fun x s => some (s.homeSend x (clean bs))
  | .bump ctxid va => s.fieldAt ctxid va fun x s =>
      if (s.readHeld x.ha).isSome then none
      else
        let v := pnum ((List.range 8).map fun i => s.ownByte { x with ha := x.ha + i })
        some (s.homeSend x (clean (natLe 8 (v + 1))))
  | .irq ctxid => some (s.modSch fun h => { h with irqs := h.irqs ++ [ctxid] })

/-- The device's fields are written in order: behind what waits, this waits, too. -/
def fieldDo (s : State) (o : FieldOp) : State :=
  (if s.sch.fields.isEmpty then s.fieldNow o else none).getD (s.modSch fun h => { h with fields := h.fields ++ [o] })

/-- The oldest field that waits is written, where it may be. -/
def fieldNext (s : State) : Option State :=
  match s.sch.fields with
  | [] => none
  | o :: r => (s.modSch fun h => { h with fields := r }).fieldNow o

/-- A field that the device writes. -/
def fieldWrite (s : State) (ctxid : Nat) (va : W64) (bs : List Byte) : State := s.fieldDo (.write ctxid va bs)

/-! ## Graphs -/

def graph (s : State) (ctxid : Nat) (hdr : W64) : Option Graph :=
  s.sch.graphs.find? fun g => g.ctxid == ctxid && g.hdr == hdr

def modGraph (s : State) (ctxid : Nat) (hdr : W64) (f : Graph → Graph) : State :=
  s.modSch fun h => { h with graphs := h.graphs.map fun g => if g.ctxid == ctxid && g.hdr == hdr then f g else g }

def node (s : State) (ctxid : Nat) (hdr : W64) (i : Nat) : Option Node :=
  (s.graph ctxid hdr).bind fun g => g.nodes[i]?

def modNode (s : State) (ctxid : Nat) (hdr : W64) (i : Nat) (f : Node → Node) : State :=
  s.modGraph ctxid hdr fun g => { g with nodes := modAt g.nodes i f }

def nodeWrite (s : State) (ctxid : Nat) (hdr : W64) (i off : Nat) (bs : List Byte) : State :=
  s.fieldWrite ctxid (nodeVa hdr i + BitVec.ofNat 64 off) bs

/-- A node's new state, in its record too. -/
def setNode (s : State) (ctxid : Nat) (hdr : W64) (i : Nat) (st : NodeState) : State :=
  (s.modNode ctxid hdr i fun n => { n with state := st }).nodeWrite ctxid hdr i 64 (natLe 1 st.code)

/-- The node's first fault: FAULT, FVA and FINST, written once (R278). -/
def noteFault (s : State) (ctxid : Nat) (hdr : W64) (i : Nat) (f fva : W64) (inst : Nat) : State :=
  match s.node ctxid hdr i with
  | none => s
  | some n =>
    if n.fault != 0 then s
    else
      let s := s.modNode ctxid hdr i fun n => { n with fault := f, fva := fva, finst := BitVec.ofNat 32 inst }
      s.nodeWrite ctxid hdr i 72 (bvLe 8 f ++ bvLe 8 fva ++ natLe 4 inst)

/-- The end of a graph: STATE, then DONESEQ, then the completion interrupt (R283). -/
def endGraph (s : State) (ctxid : Nat) (hdr : W64) (st : Nat) : State :=
  let s := s.fieldWrite ctxid (hdr + 1) (natLe 1 st)
  let s := (s.fieldDo (.bump ctxid (hdr + 16))).modSch fun h => { h with
    graphs := h.graphs.filter fun g => !(g.ctxid == ctxid && g.hdr == hdr) }
  s.fieldDo (.irq ctxid)

/-- Does the graph end now (R283 step 3)? -/
def checkEnd (s : State) (ctxid : Nat) (hdr : W64) : State :=
  match s.graph ctxid hdr with
  | none => s
  | some g =>
    if g.left = 0 then s.endGraph ctxid hdr 2
    else if (g.nodes.any fun n => n.state == .faulted) && !(g.nodes.any fun n => n.state == .ready || n.state == .running)
    then s.endGraph ctxid hdr 3
    else s

/-! ## Instances -/

def inst (s : State) (id : Nat) : Option Inst := s.sch.insts.find? fun i => i.id == id
def modInst (s : State) (id : Nat) (f : Inst → Inst) : State :=
  s.modSch fun h => { h with insts := h.insts.map fun i => if i.id == id then f i else i }

/-- The instance of a running context. -/
def instOf (s : State) (c : Nat) : Option Inst :=
  if (s.cx c).slot.state == .free then none else s.inst (s.cx c).slot.inst

/-- The contexts of an instance's members, in ring order (R67). -/
def cids (i : Inst) : List Nat := i.members.map fun m => cidAt m i.ctxn

/-- Where the save image of a member lies (R295), and word w of its record area (R296). -/
def swapVa (s : State) (i : Inst) (tidx : Nat) : W64 :=
  s.cwin i.ctxid 0x18 + BitVec.ofNat 64 ((i.saveid.getD 0 * 48 + tidx) * 0x140000)
def saveWord (s : State) (i : Inst) (tidx w : Nat) (v : W64) : State :=
  s.fieldWrite i.ctxid (s.swapVa i tidx + BitVec.ofNat 64 (8 * w)) (bvLe 8 v)

def findInst (s : State) (ctxid : Nat) (hdr : W64) (node n : Nat) : Option Inst :=
  s.sch.insts.find? fun i => i.ctxid == ctxid && i.hdr == hdr && i.node == node && i.inst == n

/-! ## Windows (R124, R288) -/

/-- Bytes that a copy of `n` bytes reads at its source, with its scale words (R145). -/
def cpySrcLen (o : CpyOp) (n : Nat) : Nat := if o.sc then n + n / 512 * 4 else n

/-- Is the window held by a copy that goes through space B (R124)? A scaled copy's words follow its data (R145). -/
def held (s : State) (core n : Nat) : Bool :=
  s.ctxs.any fun e => e.2.f.copying.any fun c =>
    let hits (len : Nat) (sd : Side) : Bool := match sd with
      | .ben b m a _ => m == n && decide (b * Config.benchCores + a / 2 ^ 20 ≤ core) &&
          decide (core ≤ b * Config.benchCores + (a + len - 1) / 2 ^ 20)
      | .scr _ _ _ => false
      | .glob _ _ => false
    hits c.n c.dst || hits (cpySrcLen c.op c.n) c.src

/-- The windows placed on a core. -/
def windows (s : State) (core : Nat) : List (Nat × Nat) :=
  ((List.range Config.ctxs).map fun n => let sl := (s.cx (cidAt core n)).slot; (sl.winBase, sl.winSize)).filter fun w => w.2 != 0

/-- The lowest free window of `units` x 64 KiB in the scratchpad portion. -/
def freeWindow (s : State) (core units : Nat) : Option Nat :=
  let size := units * 65536
  let lim := scrLimit (s.co core).lsplit
  ((List.range 16).map (· * 65536)).find? fun b =>
    decide (b + size ≤ lim) && (s.windows core).all fun w => !overlap b size w.1 w.2

/-- Windows of instances that have completed go when nothing holds them. -/
def sweepWindows (s : State) : State :=
  { s with ctxs := s.ctxs.map fun (e : Nat × Ctx) =>
      if e.2.slot.complete && !s.held (coreOf e.1) (ctxnOf e.1) then
        (e.1, { e.2 with slot := { e.2.slot with complete := false, winSize := 0 } })
      else e }

def slotFree (s : State) (core n : Nat) : Bool :=
  let sl := (s.cx (cidAt core n)).slot
  sl.state == .free && sl.winSize == 0

/-- May a core take a member (R287)? -/
def canTake (s : State) (core n units : Nat) : Bool := s.slotFree core n && (s.freeWindow core units).isSome

/-- May a bench take a node with these affinity masks (R289)? -/
def affine (aff : W32) (b : Nat) : Bool :=
  let dm := fieldN aff 0 8
  let bm := fieldN aff 8 12
  (dm = 0 || dm.testBit (b / 12)) && (bm = 0 || bm.testBit (b % 12))

/-- A placement on one bench: the lowest context number that is free on enough cores, and the lowest of those. -/
def placementIn (s : State) (b : Nat) (fit : Nat → Bool) (team units : Nat) : Option (Nat × List Nat) :=
  (List.range Config.ctxs).findSome? fun n =>
    let cs := ((List.range Config.benchCores).map (b * Config.benchCores + ·)).filter fun k => s.canTake k n units && fit k
    if team ≤ cs.length then some (n, cs.take team) else none

/-- A placement by dispatch's own search (R289) on cores that `fit`: context number, and members. -/
def placementFor (s : State) (fit : Nat → Bool) (aff : W32) (team units : Nat) : Option (Nat × List Nat) :=
  ((List.range Config.benches).filter (affine aff)).findSome? fun b => s.placementIn b fit team units

def placement (s : State) (aff : W32) (team units : Nat) : Option (Nat × List Nat) := s.placementFor (fun _ => true) aff team units

/-! ## Quiescing (R294) -/

/-- The lowest SAVEID that no other instance of the context holds (R295). -/
def newSaveId (s : State) (ctxid : Nat) : Option Nat :=
  let used := (s.sch.insts.filter fun i => i.ctxid == ctxid).filterMap Inst.saveid
  findFrom (fun n => !used.contains n) 0 Config.saveIds

/-- A running team stops issuing and gets a SAVEID; while a member is in an exchange the swap waits (R272). -/
def quiesce (s : State) (id : Nat) : State :=
  match s.inst id with
  | none => s
  | some i =>
    if i.state != .running then s
    else if (cids i).any s.inExchange then s.modInst id fun i => { i with preempt := true }
    else
      match (match i.saveid with | some v => some v | none => s.newSaveId i.ctxid) with
      | none => s.modInst id fun i => { i with preempt := false }
      | some v =>
        let s := s.modInst id fun i => { i with state := .quiescing, saveid := some v, preempt := false }
        -- run-ahead is discarded (R138)
        (cids i).foldl (fun s c => (List.range 3).foldl (fun s q => s.modSq (sidAt c q) fun x => { x with ra := none })
          (s.modSlot c fun sl => { sl with state := .quiescing })) s

/-- A node's effective priority at a time, when it or its instance waits since `since` (R290). -/
def effective (n : Node) (since now : Nat) : Nat :=
  if n.prio = 7 then 7 else min 6 (n.prio + (now - since) / 10000000)

/-- An instance's effective priority: since it was swapped out last, or since its node became READY. -/
def instPrio (s : State) (x : Inst) : Nat :=
  match s.node x.ctxid x.hdr x.node with
  | some n => effective n (x.outNs.getD n.readyNs) s.ns
  | none => 0

/-- The slots of these instances taken as free, with their partitions of the JAF. -/
def without (s : State) (is : List Inst) : State :=
  is.foldl (fun s i => (cids i).foldl (fun s c =>
    (s.modSlot c fun sl => { sl with state := .free, winSize := 0 }).modJ c fun j => { j with part := none }) s) s

/-- Urgent work of PRIO 7 without a placement: victims of one bench, lowest effective priority first, then the latest
started, until the bench will have a placement for the team (R291). -/
def urgent (s : State) (n : Node) : State :=
  if n.prio != 7 || (s.placement n.aff n.team n.lsize).isSome then s
  else
    let victims (b : Nat) : List Inst :=
      sortBy (fun x y => s.instPrio x < s.instPrio y || (s.instPrio x == s.instPrio y && decide (y.begun ≤ x.begun)))
        (s.sch.insts.filter fun i => i.state == .running && s.instPrio i < 7 && benchOf i.leader == b)
    let plan (b : Nat) : Option (List Inst) :=
      let vs := victims b
      ((List.range (vs.length + 1)).map vs.take).find? fun is =>
        ((s.without is).placementIn b (fun _ => true) n.team n.lsize).isSome
    match ((List.range Config.benches).filter (affine n.aff)).findSome? fun b => if (victims b).isEmpty then none else plan b with
    | some is => is.foldl (fun s i => s.quiesce i.id) s
    | none => s

/-! ## Progress (R283, R285) -/

/-- A node becomes READY; an event node is complete at once. -/
def makeReady (s : State) (ctxid : Nat) (hdr : W64) (i : Nat) : State :=
  let (t, s) := s.fresh
  let s := (s.modNode ctxid hdr i fun n => { n with readyTick := t, readyNs := s.ns }).setNode ctxid hdr i .ready
  match s.node ctxid hdr i with
  | some n => if n.kind = 1 then s.urgent n else s
  | none => s

/-- Decrement PCNT; answers whether the node is an event that completes (R285, R279). -/
def countDown (s : State) (ctxid : Nat) (hdr : W64) (i : Nat) : State × Bool :=
  match s.node ctxid hdr i with
  | none => (s, false)
  | some n =>
    if n.pcnt = 0 then (s, false)
    else
      let p := n.pcnt - 1
      let s := (s.modNode ctxid hdr i fun n => { n with pcnt := p }).nodeWrite ctxid hdr i 8 (natLe 4 p)
      if p = 0 ∧ n.state = .waiting then
        if n.kind = 4 then (s, true) else (s.makeReady ctxid hdr i, false)
      else (s, false)

/-- The nodes `work` become DONE, and so do the event nodes that they complete; at most `fuel` nodes. -/
def nodesDone (s : State) (ctxid : Nat) (hdr : W64) : Nat → List Nat → State
  | 0, _ => s
  | _ + 1, [] => s
  | fuel + 1, i :: rest =>
    match s.node ctxid hdr i with
    | none => s
    | some n =>
      let s := s.setNode ctxid hdr i .done
      let left := ((s.graph ctxid hdr).map Graph.left).getD 0 - 1
      let s := (s.modGraph ctxid hdr fun g => { g with left := left }).fieldWrite ctxid (hdr + 8) (natLe 4 left)
      let (s, more) := n.succ.foldl (fun (st : State × List Nat) j =>
        let (s, ev) := st.1.countDown ctxid hdr j
        (s, if ev then st.2 ++ [j] else st.2)) (s, [])
      s.nodesDone ctxid hdr fuel (rest ++ more)

/-- NODE_DONE, and the graph's end where it comes. -/
def nodeDone (s : State) (ctxid : Nat) (hdr : W64) (i : Nat) : State :=
  let n := ((s.graph ctxid hdr).map fun g => g.nodes.length).getD 0
  (s.nodesDone ctxid hdr (n + 1) [i]).checkEnd ctxid hdr

/-- A node of any kind ends FAULTED with this fault. -/
def nodeFail (s : State) (ctxid : Nat) (hdr : W64) (i : Nat) (f fva : W64) : State :=
  ((s.noteFault ctxid hdr i f fva 0).setNode ctxid hdr i .faulted).checkEnd ctxid hdr

/-- A task node whose instances are all complete or cancelled, one at least cancelled, is FAULTED (R284). -/
def checkTask (s : State) (ctxid : Nat) (hdr : W64) (i : Nat) : State :=
  match s.node ctxid hdr i with
  | none => s
  | some n =>
    if n.state == .running && !n.cancelled.isEmpty && n.doneInst.length + n.cancelled.length == n.count
    then (s.setNode ctxid hdr i .faulted).checkEnd ctxid hdr else s

/-! ## Barriers (R292) -/

/-- Members that count as arrived: BARC, and every member of a completed instance. -/
def Node.arrived (n : Node) : Nat := n.barc + n.doneInst.length * n.team

/-- All members of the node have arrived: they depart together, and BARC returns to 0. -/
def barDepart (s : State) (ctxid : Nat) (hdr : W64) (i : Nat) : State :=
  match s.node ctxid hdr i with
  | none => s
  | some n =>
    if n.barc = 0 || Node.arrived n < n.count * n.team then s
    else
      let s := (s.modNode ctxid hdr i fun n => { n with barc := 0 }).nodeWrite ctxid hdr i 60 (natLe 4 0)
      let ours (id : Nat) : Bool := match s.inst id with
        | some y => y.ctxid == ctxid && y.hdr == hdr && y.node == i | none => false
      -- a member whose handler runs departs after its `eret`
      let left (x : Slot) (q : SeqSt) : Slot := { x with arrived := false, departed := q.waiting != some .gbar }
      let off (q : SeqSt) : SeqSt := if q.waiting == some .gbar then { q with released := true } else q
      let mine := (s.ctxs.filter fun (e : Nat × Ctx) => e.2.slot.arrived && ours e.2.slot.inst).map Prod.fst
      let s := mine.foldl (fun s c =>
        (s.modSlot c fun sl => left sl (s.sq (sidAt c 0))).modSq (sidAt c 0) off) s
      s.modSch fun h => { h with images := h.images.map fun (m : Image) =>
        if m.ctx.slot.arrived && ours m.inst then
          { m with ctx := { m.ctx with slot := left m.ctx.slot m.sq0 }, sq0 := off m.sq0 }
        else m }

/-! ## A context goes -/

/-- A stopped sequencer that keeps its "as left" registers (R46). -/
def SeqSt.stop (q : SeqSt) : SeqSt :=
  { SeqSt.init with r := { q.r with rep := Rep.init, ppl := false, pl := false } }

/-- The context's slot becomes FREE; its window goes unless a copy holds it (R124). -/
def freeSlot (s : State) (c : Nat) : State :=
  let s := (List.range 3).foldl (fun s q => s.modSq (sidAt c q) SeqSt.stop) s
  let s := s.modCx c fun x => { x with
    q := Queues.init, handler := none, reply := [], rowReads := [], tpins := [], xowed := false
    reg := { x.reg with sm := [], smSeq := [] }
    n := Counters.init
    f := { x.f with loads := [], stores := [], copies := [], follows := [] }
    slot := { x.slot with state := .free, complete := true, arrived := false, departed := false, lastAsid := x.slot.asid, lastPart := x.slot.part } }
  s.sweepWindows

/-- INSTANCE_CANCEL on one member (R284 steps 1 to 6). -/
def cancelMember (s : State) (c : Nat) : State :=
  let s := if s.inExchange c then s.xchAbort (coreOf c) else s
  let s := s.settleMem c
  let s := s.jafFlush c (s.jafPending c)
  let s := s.reFate c .dead
  let s := (s.resvDrop c).jafRelease c
  let s := ((s.pinsDrop c).tokDrop c).walksDrop c
  s.freeSlot c

/-- The name under which a swapped-out member holds or awaits a token (assumption 26). -/
def tokName (id tidx : Nat) : Nat := Config.cores * Config.ctxs + id * 64 + tidx

/-- The swapped-out member of a name. -/
def savedName (s : State) (nm : Nat) : Option (Inst × Nat) :=
  let n := nm - Config.cores * Config.ctxs
  if nm < Config.cores * Config.ctxs then none else (s.inst (n / 64)).map fun i => (i, n % 64)

/-- The tokens that one name holds or awaits stand under another. -/
def tokRename (s : State) (a b : Nat) : State :=
  s.modH fun h => { h with tok := h.tok.map fun (e : Nat × Tok) =>
    (e.1, { holder := if e.2.holder == some a then some b else e.2.holder
            queue := e.2.queue.map fun x => if x == a then b else x }) }

/-- Replies of a saved member's operations will go elsewhere. -/
def moveFate (s : State) (a b : Fate) : State :=
  { s with ctxs := s.ctxs.map fun (e : Nat × Ctx) => (e.1, { e.2 with f := { e.2.f with
      offers := e.2.f.offers.map fun (o : Offer) => if o.fate == a then { o with fate := b } else o
      nms := e.2.f.nms.map fun (o : NmCmd) => if o.fate == a then { o with fate := b } else o } }) }

/-- The image of a swapped-out member is discarded, with what it held (R284). -/
def dropImage (s : State) (i : Inst) (m : Image) : State :=
  let s := m.ctx.pins.foldl (fun s p => match s.model i.part p.mid with
    | some md => s.setPin md p.layer (s.layPin md p.layer - p.count)
    | none => s) s
  let s := s.moveFate (.saved i.id m.tidx) .dead
  let sl := m.ctx.slot
  let s := s.ringStand ⟨0, sl.asid, sl.root, sl.part, sl.peers, true, none, false⟩ m.ctx.j
  let nm := tokName i.id m.tidx
  s.modH fun h => { h with tok := h.tok.map fun (e : Nat × Tok) =>
    (e.1, { holder := if e.2.holder == some nm then none else e.2.holder, queue := e.2.queue.filter (· != nm) }) }

/-- INSTANCE_CANCEL (R284): every member, or every image of a swapped-out team; the node is judged. -/
def cancelInst (s : State) (id : Nat) : State :=
  match s.inst id with
  | none => s
  | some i =>
    let s := (s.sch.images.filter fun m => m.inst == id).foldl (fun s m => s.dropImage i m) s
    let s := if i.state == .saved then s else (cids i).foldl (fun s c => s.cancelMember c) s
    let s := s.modSch fun h => { h with
      insts := h.insts.filter fun x => x.id != id
      images := h.images.filter fun m => m.inst != id
      migs := h.migs.filter fun m => m.inst != id }
    let s := s.modNode i.ctxid i.hdr i.node fun n => { n with cancelled := n.cancelled ++ [i.inst] }
    (s.barDepart i.ctxid i.hdr i.node).checkTask i.ctxid i.hdr i.node

/-- Cancel the instance of a context whose trap has no handler, or whose ARGS block cannot be read: SRC = 1 (R278). -/
def cancelTrap (s : State) (id : Nat) (cause : W32) (fva : W64) : State :=
  match s.inst id with
  | none => s
  | some i => (s.noteFault i.ctxid i.hdr i.node (faultWord 1 0 cause) fva i.inst).cancelInst id

/-- Cancel a graph (R284): its instances, then every node that is not DONE or FAULTED with SRC = 6. -/
def cancelGraph (s : State) (ctxid : Nat) (hdr : W64) : State :=
  match s.graph ctxid hdr with
  | none => s
  | some g =>
    let live (n : Node) : Bool := n.state == .waiting || n.state == .ready || n.state == .running
    let idx := (List.range g.nodes.length).filter fun i => match g.nodes[i]? with | some n => live n | none => false
    -- every node that the cancellation makes FAULTED records SRC 6 first, unless it has a fault
    let s := idx.foldl (fun s i => s.noteFault ctxid hdr i (faultWord 6 0 0) 0 0) s
    let ids := (s.sch.insts.filter fun i => i.ctxid == ctxid && i.hdr == hdr).map Inst.id
    -- no end is judged until all are cancelled: the nodes are made FAULTED before their instances go
    -- a RUNNING near node's command is performed all the same, and its reply goes nowhere
    let cmds := g.nodes.filterMap fun n => n.near.map fun c => { c with fate := Fate.dead }
    let s := s.modF 0 fun f => { f with nms := f.nms ++ cmds }
    let s := idx.foldl (fun s i =>
      (s.modNode ctxid hdr i fun n => { n with copy := none, near := none }).setNode ctxid hdr i .faulted) s
    let s := ids.foldl (fun s id => s.cancelInst id) s
    s.checkEnd ctxid hdr

/-! ## Completion (R285, R404) -/

/-- The compute sequencer of every member is at its `tdone`: the instance completes. -/
def instComplete (s : State) (id : Nat) : State :=
  match s.inst id with
  | none => s
  | some i =>
    let s := s.modSch fun h => { h with insts := h.insts.filter fun x => x.id != id }
    match s.node i.ctxid i.hdr i.node with
    | none => s
    | some n =>
      let d := n.donei + 1
      let s := (s.modNode i.ctxid i.hdr i.node fun n => { n with donei := d, doneInst := n.doneInst ++ [i.inst] }).nodeWrite
        i.ctxid i.hdr i.node 56 (natLe 4 d)
      let s := s.barDepart i.ctxid i.hdr i.node
      if d = n.count then s.nodeDone i.ctxid i.hdr i.node else s.checkTask i.ctxid i.hdr i.node

end State

end Sys2Proof.Machine
end

