-- ==== Sys2Proof/Machine/Ops.lean ====
section
/-! DEFINITION. What every instruction shares: the checks of steps 7 and 8 of R116, the advance of the pc under `rep`
(R57 to R60), stalls (R330), leader/follower forwarding (R67, R68), taking an exception (R409 to R411) and the return
from one (R345). -/

namespace Sys2Proof.Machine

/-- The outcome of a step of the machine. -/
abbrev Res := Host.Outcome State Fault Refusal

/-- What an instruction comes to on its sequencer: it retires and the pc advances; it retires and has set the pc; it
traps; it stalls under a cause; it waits and counts under no cause. -/
inductive Out where
  | done (s : State)
  | jump (s : State)
  | trap (t : TrapInfo) (s : State)
  | wait (c : Cause) (s : State)
  | hold (w : Waiting) (s : State)
  deriving DecidableEq, Repr

/-- A precise trap. -/
def precise (c : TrapCode) (faddr : W64 := 0) : TrapInfo := ⟨c, faddr, false, 0, [], none, none⟩

/-! ## Traps (R409 to R411) -/

/-- The CAUSE word (R410). -/
def causeWord (t : TrapInfo) (q : Nat) (klev : Bool) : W64 :=
  BitVec.ofNat 64 (t.info.toNat * 65536 + q % 4 * 1024 + b2n t.async * 512 + b2n klev * 256 + t.code.num)

/-- The trap frame's three words (R59). -/
def Rep.words (r : Rep) : List W64 :=
  [BitVec.ofNat 64 (r.pass.toNat * 2 ^ 32 + r.count.toNat),
   BitVec.ofNat 64 (b2n r.act * 2 ^ 63 + r.nm1.toNat * 256 + r.pos.toNat * 16 + r.stag.toNat), r.body]

/-- REPSTATE as a frame gives it. -/
def Rep.ofWords (w0 w1 w2 : W64) : Rep :=
  { act := bitN w1 63, pass := bits w0 32 32, count := bits w0 0 32, nm1 := bits w1 8 4, pos := bits w1 4 4,
    stag := bits w1 0 2, body := w2 }

/-- An entry of the fault record (R140). -/
def FaultEnt.word (e : FaultEnt) : W64 :=
  BitVec.ofNat 64 (e.vpn.toNat * 4096 + e.reason.toNat * 16 + b2n e.hint * 8 + b2n e.fetch * 4 + b2n e.write * 2)

/-- The record's header word. -/
def recordHead (gen saveid ctx count : Nat) : W64 :=
  BitVec.ofNat 64 (gen % 65536 * 2 ^ 48 + saveid % 65536 * 2 ^ 32 + ctx % 65536 * 65536 + count)

/-- A place in the context's kernel window. -/
def kLoc (off : Nat) : Loc := ⟨true, 0, off, 0⟩

/-- The fault record at K 0x0040 (R140). SAVEID is 0 while the team has none assigned (assumption 65). -/
def State.writeRecord (s : State) (c q : Nat) (es : List FaultEnt) : State :=
  let (gen, sv) := match s.instOf c with
    | some i => (i.gen, i.saveid.getD 0)
    | none => (0, 0)
  let ws := recordHead gen sv (s.cx c).slot.ctxid es.length :: es.map FaultEnt.word
  s.scrDevWrite c (pathOf q) (kLoc 0x40) (clean (ws.flatMap (bvLe 8)))

/-- The handler's address (R410). -/
def handlerPc (kvec : W64) : W64 := (bits kvec 2 55 ++ (0 : BitVec 2)).signExtend 64

/-- TAKING A TRAP, on the sequencer k that takes it (R409). EPC is its pc, but for a trap of another instruction. Words fetched at the level that it leaves go
(R116), and a member that was complete executes its `tdone` afresh (R227, R404). -/
def State.takeTrap (s : State) (k : Nat) (t : TrapInfo) : State :=
  let c := cidOf k
  let q := qOf k
  let r := s.r k
  let cause := causeWord t q r.pl
  -- a `gbar` that has departed and not completed has departed still (R292)
  let s := if (s.sq k).released && (s.sq k).waiting == some .gbar then s.modSlot c fun x => { x with departed := true } else s
  let s := s.scrWrite c (pathOf q) (kLoc 0) (clean (r.rep.words.flatMap (bvLe 8)))
  let s := if t.record.isEmpty then s else s.writeRecord c q t.record
  let s := s.modReg c fun g => { g with cause := cause, epc := t.epc.getD r.pc, faddr := t.faddr }
  let s := s.modSq k fun x => { x with
    r := { x.r with rep := Rep.init, ppl := r.pl, pl := true }
    ra := none, stalled := none, waiting := none, released := false, waitAt := none, pre := []
    buf := RepBuf.init, wrun := none, lacq := none, traps := ⟨t.code, t.async, x.buf⟩ :: x.traps }
  let s := match s.instOf c with
    | some i => if i.doneMembers.contains (coreOf c) then
        s.modInst i.id fun x => { x with doneMembers := x.doneMembers.filter (· != coreOf c) } else s
    | none => s
  if bitN (s.cx c).reg.kvec 0 then
    (s.modR k fun r => { r with pc := handlerPc (s.cx c).reg.kvec }).modCx c fun x =>
      { x with handler := if x.handler.isNone then some k else x.handler }
  else match s.instOf c with
    | some i => s.cancelTrap i.id (bits cause 0 32) t.faddr
    | none => s.cancelMember c

/-! ## REPSTATE (R57 to R60) -/

/-- Registers after one instruction of `bytes` bytes at the pc has retired: the next one's address, position and pass.
`n` is how many positions of the body it took (2 for a `cpy` with its follow-on). -/
def Seq.next (r : Seq) (bytes : Nat) (n : Nat := 1) : Seq :=
  let r' := { r with pc := r.pc + BitVec.ofNat 64 bytes }
  if !r.rep.act then r'
  else if r.rep.pos.toNat + n ≤ r.rep.nm1.toNat then
    { r' with rep := { r.rep with pos := r.rep.pos + BitVec.ofNat 4 n } }
  else if r.rep.pass + 1 < r.rep.count then
    { r with pc := r.rep.body, rep := { r.rep with pass := r.rep.pass + 1, pos := 0 } }
  else { r' with rep := Rep.init }

/-- A buffer that refetches the body at `body` (R60). -/
def RepBuf.drop (body : W64) : RepBuf := ⟨body, [], false, true⟩

/-- At the end of a pass the buffer drops its copy if a refetch was asked for (R60). -/
def SeqSt.retire (q : SeqSt) (bytes n : Nat) : SeqSt :=
  let r := q.r.next bytes n
  let ended := q.r.rep.act && (!r.rep.act || r.rep.pass != q.r.rep.pass)
  { q with
    r := r, stalled := none, waiting := none, released := false, waitAt := none, lacq := none
    buf := if ended && !r.rep.act then RepBuf.init else if ended && q.buf.refetch then RepBuf.drop r.rep.body else q.buf }

/-- The fetched words of a retired instruction go. -/
def SeqSt.issued (q : SeqSt) (pc : W64) (bytes : Nat) : SeqSt :=
  { q with pre := q.pre.filter fun e => bytes ≤ (e.1 - pc).toNat }

/-- Retired by a jump: the pc is set. -/
def SeqSt.retireJump (q : SeqSt) : SeqSt :=
  { q with stalled := none, waiting := none, released := false }

/-- Body positions that an instruction takes. -/
def slotsOf : Instr → Nat
  | .cpy _ (some _) => 2
  | _ => 1

/-! ## Leader and follower (R67, R68) -/

/-- The members of the team that a context runs with by R67, and its index in it; none where it fetches alone. -/
def State.team (s : State) (c : Nat) : Option (Inst × Nat) :=
  match s.instOf c with
  | some i => if i.lf && decide (1 < i.members.length) then (i.members.idxOf? (coreOf c)).map fun n => (i, n) else none
  | none => none

/-- The same sequencer of the team's next member. -/
def State.nextMember (s : State) (k : Nat) : Option Nat :=
  match s.team (cidOf k) with
  | some (i, n) => (i.members[n + 1]?).map fun m => sidAt (cidAt m i.ctxn) (qOf k)
  | none => none

/-- Does the sequencer take its instructions from the stream? A handler is fetched by the member itself. -/
def State.follows (s : State) (k : Nat) : Bool :=
  match s.team (cidOf k) with
  | some (_, n) => decide (0 < n) && !s.lvlK k
  | none => false

/-- Has the instruction at which the sequencer stands been forwarded? -/
def State.hasPassed (s : State) (k : Nat) : Bool := (s.sq k).passed == some ((s.r k).pc, (s.r k).rep)

/-- Forward a retired instruction to the next member, with where it led (R67), unless it has been forwarded. -/
def State.passOn (old s : State) (k : Nat) (i : Instr) : State :=
  match old.nextMember k with
  | none => s
  | some n =>
    let e : FwdEnt := ⟨(old.r k).pc, (old.r k).rep, encode i, (s.r k).pc, (s.r k).rep⟩
    (if old.hasPassed k then s else s.modSq n fun q => { q with fwd := q.fwd ++ [e] }).modSq k fun q => { q with passed := none }

/-- Forward an instruction that waits: it has issued (R67). -/
def State.passAhead (s : State) (k : Nat) (i : Instr) : State :=
  match s.nextMember k with
  | none => s
  | some n =>
    if s.lvlK k || s.hasPassed k then s
    else
      let r := (s.r k).next i.bytes (slotsOf i)
      (s.modSq n fun q => { q with fwd := q.fwd ++ [⟨(s.r k).pc, (s.r k).rep, encode i, r.pc, r.rep⟩] }).modSq k fun q =>
        { q with passed := some ((s.r k).pc, (s.r k).rep) }

/-- Forward a retired instruction to the next member, and follow the leader's outcome (R67). `old` is the state before
it; a handler's instructions are not forwarded. -/
def State.forward (old s : State) (k : Nat) (i : Instr) : State :=
  if old.lvlK k then s
  else
    let s := if old.follows k then
        match (s.sq k).fwd with
        | e :: rest => s.modSq k fun q => { q with r := { q.r with pc := e.npc, rep := e.nrep }, fwd := rest }
        | [] => s
      else s
    old.passOn s k i

/-! ## Outcomes -/

def Cause.num : Cause → Nat
  | .waitLc => 0 | .waitSc => 1 | .waitCc => 2 | .waitOc => 3 | .waitNc => 4 | .waitMc => 5 | .smap => 6
  | .qEmpty => 7 | .qFull => 8 | .bankReplay => 9 | .jafProbe => 10 | .lacqAbsent => 11 | .pwait => 12
  | .phaseDrain => 13 | .token => 14 | .exchWait => 15 | .refresh => 16 | .runahead => 17

/-- Counter n of a context counts one more, and stops at its maximum (R330). -/
def CtxReg.count (g : CtxReg) (n : Nat) : CtxReg :=
  { g with cnt := Tab.set 0 g.cnt n (BitVec.ofNat 64 (satAdd 64 (Tab.get 0 g.cnt n).toNat 1)) }

/-- The cause of a sequencer's oldest blocked instruction: a load of its own that a refreshing macro holds comes before
the instruction that stalls (R131, R330). -/
def State.blocked (s : State) (k : Nat) (c : Cause) : Cause :=
  if (s.cx (cidOf k)).f.loads.any fun l => l.q == qOf k && s.loadRefresh (cidOf k) l then .refresh else c

/-- A stalled step counts one under its cause (R330, assumption 7). A `gbar` that has departed stays so while its word is
fetched anew (R292). -/
def State.stall (s : State) (k : Nat) (c : Cause) : State :=
  let c := s.blocked k c
  (s.modSq k fun q => { q with stalled := some c, waiting := if q.released then q.waiting else none }).modReg (cidOf k) fun g => g.count (qOf k * 18 + c.num)

/-- A run-ahead begins at its checkpoint (R138). -/
def State.checkpoint (s : State) (k : Nat) (t : TrapInfo) : Ahead :=
  let co := s.co (coreK k)
  { trap := t, r := s.r k, reg := (s.cx (cidOf k)).reg, scr := co.scr, spois := co.spois, hidden := co.hidden
    -- the sequencer's own stores in flight are behind it
    stores := (((s.cx (cidOf k)).f.stores.filter fun st => st.q == qOf k).flatMap fun st => st.writes.flatMap fun w =>
      (List.range w.2.length).zip w.2 |>.map fun (i, b) => (w.1 + i, b)).reverse
    bad := [], batch := [], count := 0, isOver := false }

/-- A data access that fails with PAGE starts run-ahead; every other trap is taken (R138, R409). -/
def State.raise (s : State) (k : Nat) (t : TrapInfo) : State :=
  if t.code == .page && !(t.record.any FaultEnt.fetch) && (s.sq k).ra.isNone then
    (s.modSq k fun q => { q with ra := some (s.checkpoint k t) }).stall k .runahead
  else s.takeTrap k t

/-- An instruction's outcome becomes the next state. -/
def deliver (old : State) (k : Nat) (i : Instr) (o : Out) : State :=
  match o with
  | .done s => old.forward (s.modSq k fun q => (q.retire i.bytes (slotsOf i)).issued (old.r k).pc i.bytes) k i
  | .jump s => old.forward (s.modSq k fun q => q.retireJump.issued (old.r k).pc i.bytes) k i
  | .trap t s => match t.hold with
    | some c => s.stall k c
    | none => s.raise k t
  | .wait c s => s.stall k c
  | .hold w s => s.modSq k fun q => { q with stalled := none, waiting := some w }

/-! ## Steps 4, 7 and 8 of R116 -/

/-- Does the instruction name `a0` to `a3` or `m`, or is it of V class (R22)? -/
def isVec : Instr → Bool
  | .vld .. | .vst .. | .vbcast .. | .vadd .. | .vsub .. | .vmul .. | .vmac .. | .vmin .. | .vmax .. | .vabs ..
  | .vneg .. | .vand .. | .vor .. | .vxor .. | .vshl .. | .vshr .. | .vcmp .. | .vsel .. | .vcvt .. | .vred ..
  | .vperm .. | .vscale .. | .vexp2 .. | .vrcp .. | .vrsq .. | .vmaxi .. | .vpop .. | .vmset .. | .vmsetNz ..
  | .vmsetRead | .vmsetNot | .vcprs .. | .vmeta .. | .vpackt .. | .vunpkt .. => true
  | .jadd .. | .jget .. => true
  | .mtile o => o.spa != 0
  | .cpy _ (some o) => o.spa != 0
  | .qpush _ x | .qpop _ x => x.isAcc
  | _ => false

/-- Only the compute sequencer executes it (R61, R299). -/
def computeOnly : Instr → Bool
  | .fork .. | .forkBoth .. | .gbar | .yield => true
  | i => isVec i

/-- It raises ILLEGAL in a `rep` body (R57). -/
def noRep : Instr → Bool
  | .rep .. | .br .. | .jmp .. | .call .. | .ret | .brx .. | .fork .. | .forkBoth .. | .rdv .. | .gbar | .tdone
  | .yield | .idle .. | .eret => true
  | _ => false

/-- Class W (R114). -/
def isW : Instr → Bool
  | .wld .. | .wldi .. | .wldiSh .. | .wadd .. | .wsub .. | .wand .. | .wshr .. | .wcmp .. | .wbr .. | .wjmp ..
  | .wemit .. | .wtile .. | .wtileExpand .. | .wend => true
  | _ => false

/-- The exchange instructions, the only ones of an open phase (R267). -/
def isExch : Instr → Bool
  | .exs .. | .exr .. | .exred .. | .exc => true
  | _ => false

/-- May level U read the register (R118)? -/
def sysReadU (r : BitVec 12) : Bool :=
  let n := r.toNat
  n == 0 || n == 8 || n == 0x10 || n == 0x11 || (0x20 ≤ n && n ≤ 0x23) || n == 0x28 || n == 0x29 || n == 0x31 ||
  n == 0x38 || n == 0x39 || (0x40 ≤ n && n ≤ 0x7F)

/-- May level U write it, be the write ignored (R118)? -/
def sysWriteU (r : BitVec 12) : Bool :=
  let n := r.toNat
  n == 8 || (0x20 ≤ n && n ≤ 0x23) || n == 0x28 || n == 0x29 || n == 0x38 || n == 0x39

/-- It raises PRIV at level U (R117, R118). -/
def privileged : Instr → Bool
  | .eret | .lreset .. | .tinv .. | .tinvAsid | .tinvAll => true
  | .srr r => !sysReadU r
  | .srw r => !sysWriteU r
  | _ => false

/-- FADDR of EXCH (R269). -/
def exchFaddr (off : Option Nat) (reason : Nat) : W64 :=
  BitVec.ofNat 64 ((match off with | some o => o | none => 0xFFFFFFFF) * 2 ^ 32 + reason)

/-- The table entry of the core's open phase that comes next (R269). -/
def Exch.entryOff (x : Exch) : Option Nat := if x.next < x.tbl.length then some (x.tblOff + 8 * (x.next + 1)) else none

/-- The open phase of which `k` is the exchanging sequencer. -/
def State.openPhaseOf (s : State) (k : Nat) : Option Exch :=
  match (s.co (coreK k)).xch with
  | some x => if x.sid == k && x.opened then some x else none
  | none => none

/-- The first check of R116 from step 4 on that the decoded instruction fails, or reason 4 of R269. -/
def State.refuses (s : State) (k : Nat) (i : Instr) : Option (TrapInfo × State) :=
  if isW i then some (precise .illegal, s)
  else if computeOnly i && qOf k != 0 then some (precise .illegal, s)
  else if noRep i && (s.r k).rep.act then some (precise .illegal, s)
  else if privileged i && !s.lvlK k then some (precise .priv, s)
  else match s.openPhaseOf k with
    | some x => if isExch i then none else some (precise .exch (exchFaddr x.entryOff 4), s.xchAbort (coreK k))
    | none => none

/-! ## The awl (R119, R227) -/

/-- The running walk of a bench. -/
def State.walk (s : State) (b : Nat) : Option Walk := (s.be b).walks.head?

def State.setWalk (s : State) (b : Nat) (w : Walk) : State :=
  s.modBe b fun x => { x with walks := match x.walks with | [] => [] | _ :: r => w :: r }

/-- Units that have stall counters of their own (R330): the awl of a bench, the streamer of a home slice (R143), a CNMU,
the layer loader of a die, and the cinch in the router of a core. -/
inductive StallUnit where
  | awl (b : Nat) | streamer (slice : Nat) | cnmu (n : Nat) | loader (die : Nat) | cinch (core : Nat)
  deriving DecidableEq, Repr

/-- The key of a unit's stall counter. -/
def StallUnit.key (u : StallUnit) (c : Cause) : Nat :=
  let n := match u with
    | .awl b => 5 * b | .streamer i => 5 * i + 1 | .cnmu n => 5 * n + 2 | .loader d => 5 * d + 3 | .cinch c => 5 * c + 4
  n * 18 + c.num

/-- A unit stalls: its counter counts one more (R330, assumption 78). -/
def State.unitStall (s : State) (u : StallUnit) (c : Cause) : State :=
  s.modPf fun p => { p with unitCnt := (
    Tab.set 0 p.unitCnt (u.key c) (BitVec.ofNat 64 (satAdd 64 (Tab.get 0 p.unitCnt (u.key c)).toNat 1))) }

/-- An awl stalls. -/
def State.awlStall (s : State) (b : Nat) (c : Cause) : State := s.unitStall (.awl b) c

/-- The running walk fails: WALKER becomes pending on the sequencer that issued `wrun`, with the failing word's address
in FADDR (R227). Rows in flight still land; a walk that fails after its instance has completed is dropped. -/
def State.walkFail (s : State) (b : Nat) (faddr : W64) : State :=
  match s.walk b with
  | none => s
  | some w =>
    let s := if w.rows.isEmpty then s.modBe b fun x => { x with walks := x.walks.drop 1 }
      else s.setWalk b { w with ended := true, doneEn := false }
    if (s.cx w.cid).slot.state == .free then s else s.post (s.taker w.cid w.q) ⟨.walker, faddr, true, 0, [], none, none⟩

/-! ## Running an instruction -/

/-- Has another sequencer's handler stopped this one (R63)? -/
def State.barred (s : State) (k : Nat) : Bool :=
  match (s.cx (cidOf k)).handler with
  | some h => h != k
  | none => false

/-- A core's instruction on the sequencer whose turn it is. An awl that meets it stops its walk (R119). -/
def run (i : Instr) (s : State) (body : Nat → Out) : Res :=
  match s.turn with
  | .seq k =>
    match s.refuses k i with
    | some (t, s') => .next (deliver s k i (.trap t s'))
    | none => .next (deliver s k i (body k))
  | .awl b => .next (match s.walk b with | some w => s.walkFail b w.pc | none => s)
  | .engine => .next s

/-! ## The return from a trap (R345) -/

/-- The first word of a body instruction: the copy's, where the buffer holds it (R60), or the home's. -/
def State.bodyWord (s : State) (k : Nat) (b : RepBuf) (a : W64) : Option W32 :=
  match b.words.find? fun e => e.1 == a with
  | some e => some e.2
  | none => match s.translateOne (s.who k) a .fetch with
    | .ok (x, s) => some (leBv 32 (pdata (s.h.bytes x 4)))
    | .error _ => none

/-- Bytes of the body instruction at an address, as its LEN field gives its length (R94); 4 where its first word cannot
be fetched (assumption 63). -/
def State.lenAt (s : State) (k : Nat) (b : RepBuf) (a : W64) : Nat :=
  match s.bodyWord k b a with
  | some w => 4 * lenWords (wLen w)
  | none => 4

/-- The address `n` instructions on from `a`. -/
def State.skip (s : State) (k : Nat) (b : RepBuf) : Nat → W64 → W64
  | 0, a => a
  | n + 1, a => s.skip k b n (a + BitVec.ofNat 64 (s.lenAt k b a))

/-- The copy that a return finds: what the trap interrupted, where it is that body's; else the body is refetched. -/
def SeqSt.copyOf (q : SeqSt) (f : Rep) : RepBuf :=
  match q.traps with
  | t :: _ => if t.buf.body = f.body then t.buf else RepBuf.drop f.body
  | [] => RepBuf.drop f.body

/-- Does the handler that returns serve an asynchronous trap of one of the causes? -/
def SeqSt.served (q : SeqSt) (p : TrapCode → Bool) : Bool :=
  match q.traps with
  | t :: _ => t.async && p t.code
  | [] => false

/-- The frame from which sequencer k returns (R59). -/
def State.frame (s : State) (k : Nat) : Rep :=
  let b := s.scrRead (cidOf k) (pathOf (qOf k)) (kLoc 0) 24
  Rep.ofWords (leBv 64 (pdata (b.take 8))) (leBv 64 (pdata ((b.drop 8).take 8))) (leBv 64 (pdata (b.drop 16)))

/-- Does a frame resume its body, at a position of it? -/
def Rep.resumes (f : Rep) : Bool := f.act && decide (f.pass < f.count) && decide (f.pos ≤ f.nm1)

/-- Body instructions that a return passes over: those before POS, or the whole body. -/
def Rep.skips (f : Rep) : Nat := if f.resumes then f.pos.toNat else if f.act then f.nm1.toNat + 1 else 0

/-- Sequencer k at the level to which it returns. -/
def State.lowered (s : State) (k : Nat) : State :=
  s.modSq k fun q => { q with r := { q.r with pl := q.r.ppl, ppl := false } }

/-- Why a word of the body that a return passes over cannot be read yet: its walk or its home waits (R131, R251). -/
def State.skipHeld (s : State) (k : Nat) (b : RepBuf) : Nat → W64 → Option Cause
  | 0, _ => none
  | n + 1, a =>
    match (match b.words.find? fun e => e.1 == a with
      | some _ => none
      | none => match s.translateOne (s.who k) a .fetch with
        | .ok (x, _) => s.readHeld x.ha
        | .error e => e.hold) with
    | some c => some c
    | none => s.skipHeld k b n (a + BitVec.ofNat 64 (s.lenAt k b a))

/-- Why a return waits, where it does. -/
def State.returnHeld (s : State) (k : Nat) : Option Cause :=
  let f := s.frame k
  (s.lowered k).skipHeld k ((s.sq k).copyOf f) f.skips f.body

/-- THE RETURN FROM A TRAP on sequencer k. A BODY off a 4 B boundary is taken as it stands (assumption 90). -/
def State.trapReturn (s : State) (k : Nat) : State :=
  let c := cidOf k
  let f := s.frame k
  let q := s.sq k
  let buf := q.copyOf f
  let s := s.lowered k
  let pc := if f.act then s.skip k buf f.skips f.body else (s.cx c).reg.epc &&& ~~~(3 : W64)
  let rep := if f.resumes then f else Rep.init
  let s := s.modSq k fun q => { q with
    r := { q.r with pc := pc, rep := rep }
    buf := if rep.act then buf else RepBuf.init
    pre := [], traps := q.traps.drop 1 }
  -- the others resume (R63); the handler of a SPILL resumes parked updates (R203), that of a follow-on's trap later ones (R340)
  s.modCx c fun x => { x with
    handler := none
    j := if q.served (· == .spill) then { x.j with parked := false } else x.j
    f := if q.served fun c => c == .scale || c == .metaErr || c == .poison then
      { x.f with follows := x.f.follows.map fun o => { o with held := false } } else x.f }

end Sys2Proof.Machine
end

