-- ==== Sys2Proof/Machine/Transc.lean ====
section
/-! DEFINITION. `vexp2`, `vrcp` and `vrsq` (R89 to R92): tables of coefficients, each the FP32 rounding of an exact
real computed here in fixed point, and the polynomial. -/

namespace Sys2Proof.Machine.Transc

/-- Bits of the fixed-point reals that the coefficients are rounded from. -/
def fx : Nat := 160

/-- ln 2 × 2^fx: Σ 1 / (k 2^k). -/
def ln2 : Nat := (List.range 170).foldl (fun a k => a + 2 ^ fx / ((k + 1) * 2 ^ (k + 1))) 0

/-- Σ x^k / k! in fixed point, for 0 ≤ x < 1. -/
def expSum (x : Nat) : Nat → Nat → Nat → Nat
  | 0, _, _ => 0
  | n + 1, k, term => term + expSum x n (k + 1) (term * x / 2 ^ fx / (k + 1))

/-- 2^(num / 256) × 2^fx, for num < 256. -/
def pow2 (num : Nat) : Nat := expSum (ln2 * num / 256) 45 0 (2 ^ fx)

/-- The FP32 rounding of a real given by its fixed-point floor: it is never dyadic, so a sticky bit stands for the
rest. -/
def coef (neg : Bool) (v : Nat) : W32 := roundFP32 (.fin neg (2 * v + 1) (-(fx : Int) - 1))

/-- Coefficients of `vexp2`: u = (i + 0.5) / 128 (R90). -/
def exp2Coefs (i : Nat) : W32 × W32 × W32 :=
  let p := pow2 (2 * i + 1)
  let p1 := p * ln2 / 2 ^ fx
  (coef false p, coef false p1, coef false (p1 * ln2 / 2 ^ fx / 2))

/-- Coefficients of `vrcp`: u = (257 + 2i) / 256 (R91). -/
def rcpCoefs (i : Nat) : W32 × W32 × W32 :=
  let n := 257 + 2 * i
  let q (k : Nat) : Ex := (Ex.fin false (256 ^ k) 0).div (.fin false (n ^ k) 0)
  (roundFP32 (q 1), roundFP32 (q 2).neg, roundFP32 (q 3))

/-- The greatest number whose square is at most n, by bits from 2^k down. -/
def sqrtBits (n : Nat) : Nat → Nat → Nat
  | 0, r => r
  | k + 1, r => let c := r + 2 ^ k; sqrtBits n k (if c * c ≤ n then c else r)

/-- u^(−1/2) × 2^fx for u = a / b, both as in R92: √(b / a) = √(ab) / a. -/
def rsqrt (a b : Nat) : Nat := sqrtBits (a * b * 2 ^ (2 * fx)) (fx + 16) 0 / a

/-- Coefficients of `vrsq`, entries 0 to 255 (R92). -/
def rsqCoefs (i : Nat) : W32 × W32 × W32 :=
  let a := if i < 128 then 257 + 2 * i else 257 + 2 * (i - 128)
  let b := if i < 128 then 256 else 128
  let r := rsqrt a b
  let r1 := r * b / a
  let r2 := r1 * b / a
  (coef false r, coef true (r1 / 2), coef false (r2 * 3 / 8))

/-- The centre u of an entry, as an exact value. -/
def exp2U (i : Nat) : Ex := .fin false (2 * i + 1) (-8)
def rcpU (i : Nat) : Ex := .fin false (257 + 2 * i) (-8)
def rsqU (i : Nat) : Ex := if i < 128 then .fin false (257 + 2 * i) (-8) else .fin false (257 + 2 * (i - 128)) (-7)

/-- Poly (R89). -/
def poly (c : W32 × W32 × W32) (d : W32) : W32 :=
  let q := fmul32 c.2.2 d
  let q := fadd32 q c.2.1
  let q := fmul32 q d
  fadd32 q c.1

/-- The last step: RoundFP32(q × 2^n) (R89). -/
def finish (q : W32) (n : Int) (neg : Bool) : W32 :=
  let x := (ex32 q).scale n
  roundFP32 (if neg then x.neg else x)

/-- floor(m × 2^e). -/
def floorEx (s : Bool) (m : Nat) (e : Int) : Int := roundInt .rd s m e

/-- `vexp2` (R90). -/
def exp2 (x : W32) : W32 :=
  match ex32 x with
  | .nan => nan32
  | .inf s => if s then 0 else 0x7F800000
  | .fin s m e =>
    let n := floorEx s m e
    let f := (Ex.fin s m e).add .rne (Ex.ofInt (-n))
    let i := match f with
      | .fin _ fm fe => (floorEx false fm (fe + 7)).toNat
      | _ => 0
    let d := roundFP32 (f.add .rne (exp2U i).neg)
    finish (poly (exp2Coefs i) d) n false

/-- x = m × 2^e with m in [1, 2): the exponent of a finite nonzero value. -/
def expOf (m : Nat) (e : Int) : Int := (m.log2 : Int) + e

/-- `vrcp` (R91). -/
def rcp (x : W32) : W32 :=
  match ex32 x with
  | .nan => nan32
  | .inf s => if s then 0x80000000 else 0
  | .fin s m e =>
    if m = 0 then (if s then 0xFF800000 else 0x7F800000)
    else
      let ee := expOf m e
      let mm : Ex := .fin false m (e - ee)
      let i := (m * 2 ^ 7 / 2 ^ m.log2) - 128
      let d := roundFP32 (mm.add .rne (rcpU i).neg)
      finish (poly (rcpCoefs i) d) (-ee) s

/-- `vrsq` (R92). -/
def rsq (x : W32) : W32 :=
  match ex32 x with
  | .nan => nan32
  | .inf s => if s then nan32 else 0
  | .fin s m e =>
    if m = 0 then (if s then 0xFF800000 else 0x7F800000)
    else if s then nan32
    else
      let ee := expOf m e
      let k := ee / 2
      let odd := ee - 2 * k
      let u : Ex := .fin false m (e - 2 * k)
      let i := if odd = 0 then (m * 2 ^ 7 / 2 ^ m.log2) - 128 else 128 + ((m * 2 ^ 7 / 2 ^ m.log2) - 128)
      let d := roundFP32 (u.add .rne (rsqU i).neg)
      finish (poly (rsqCoefs i) d) (-k) false

end Sys2Proof.Machine.Transc
end

