-- ==== Sys2Proof/Machine/Operands.lean ====
section
/-! DEFINITION. Every operand form: scratchpad operands with their checks (R52, R122, R141, R329), the scalar mould
(R333, R335), the vector operands and the masked results (R415 to R417), global operands (R137, R368), immediates,
and the value operands of the offers (R229). -/

namespace Sys2Proof
open Machine

/-! ## Immediates -/

/-- The sign-extended immediate, or the literal (R98). -/
def Imm.sx : Imm → W64
  | .short v => sx64 v
  | .long v => v

/-- The zero-extended immediate, or the literal (R387). -/
def Imm.zx : Imm → W64
  | .short v => zx64 v
  | .long v => v

def Mask.bits : Mask → W64
  | .short v => zx64 v
  | .long v => v

/-- A count or selector (R57, R312, R396): the immediate, or s[31:0]. -/
def ImmOrS.count (i : ImmOrS) (s : W64) : W32 :=
  match i with
  | .imm v => v.zeroExtend 32
  | .s => bits s 0 32

/-- The pointers that an operand names, with their advance. -/
def Opnd.ptrs : Opnd → List PtrOp
  | .mem p i => [⟨p, i⟩]
  | _ => []

def OVal.ptrs : OVal → List PtrOp
  | .mem p i => [⟨p, i⟩]
  | _ => []

def GWidth.bytes : GWidth → Nat
  | .ty t => t.bytes
  | .q => 16
  | .v => 64

end Sys2Proof

namespace Sys2Proof.Machine

/-- A value, or the trap that its checks raise. -/
abbrev Chkd (α : Type) := Except TrapInfo α

/-- Go on with a checked value, or trap without effect (R9). -/
def attempt {α : Type} (s : State) (e : Chkd α) (f : α → Out) : Out :=
  match e with
  | .error t => .trap t s
  | .ok a => f a

/-- A check as a trap. -/
def asTrap (c : Chk) : Chkd Unit :=
  match c with
  | some (t, f) => .error (precise t f)
  | none => .ok ()

/-- A condition that raises a trap. -/
def trapIf (b : Bool) (c : TrapCode) (faddr : W64 := 0) : Chkd Unit := if b then .error (precise c faddr) else .ok ()

/-- The first failing check decides. -/
def firstOf : List (Chkd Unit) → Chkd Unit
  | [] => .ok ()
  | c :: r => match c with
    | .error t => .error t
    | .ok _ => firstOf r

/-! ## Scratchpad operands -/

namespace State

def winBase (s : State) (k : Nat) : Nat := (s.cx (cidOf k)).slot.winBase
def winSize (s : State) (k : Nat) : Nat := (s.cx (cidOf k)).slot.winSize

/-- The place that a scratchpad pointer names. -/
def loc (s : State) (k : Nat) (p : Ptr) : Loc := locOf p (s.winBase k)

/-- The checks of an access of `n` bytes at a pointer: emulated by R141 where it is misaligned, or not. -/
def scrChk (s : State) (k : Nat) (p : Ptr) (n align : Nat) (emul : Bool) : Chkd Unit :=
  asTrap (if emul then plainCheck p (s.lvlK k) (s.winSize k) n align else strictCheck p (s.lvlK k) (s.winSize k) n align)

/-- The bytes at a scratchpad pointer on the sequencer's path. -/
def scrAt (s : State) (k : Nat) (p : Ptr) (n : Nat) : List PByte :=
  s.scrRead (cidOf k) (pathOf (qOf k)) (s.loc k p) n

/-- Store at a scratchpad pointer on the sequencer's path. -/
def scrPut (s : State) (k : Nat) (p : Ptr) (bs : List PByte) : State :=
  s.scrWrite (cidOf k) (pathOf (qOf k)) (s.loc k p) bs

/-- Consumed bytes: a poisoned one raises POISON (R329). -/
def consume (bs : List PByte) : Chkd (List Byte) :=
  if ppoison bs then .error (precise .poison) else .ok (pdata bs)

/-- A scratchpad operand that is read: its checks, then its poison (R335, R417). -/
def scrVal (s : State) (k : Nat) (p : Ptr) (n align : Nat) (emul : Bool) : Chkd (List Byte) :=
  match s.scrChk k p n align emul with
  | .error t => .error t
  | .ok _ => consume (s.scrAt k p n)

/-! ## Scalar sources (R333) -/

end State

/-- The 64-bit value of an element: sign-extended when the type is signed, else zero-extended. -/
def extTy (t : ElemTy) (n : Nat) : W64 := BitVec.ofInt 64 (intOf t.signed (8 * t.bytes) n)

namespace State

/-- A source of the scalar mould. -/
def srcVal (s : State) (k : Nat) (x : Opnd) (t : ElemTy) : Chkd W64 :=
  match x with
  | .mem p _ => match s.scrVal k ((s.r k).ptr p) t.bytes t.bytes true with
    | .error e => .error e
    | .ok b => .ok (extTy t (leNat b))
  | .s => .ok (extTy t (s.r k).s.toNat)
  | .lit v => .ok (extTy t v.toNat)
  | .acc _ => .error (precise .illegal)

/-- Retire a scalar result: the registers change, then the pointers advance. -/
def retireR (s : State) (k : Nat) (ps : List PtrOp) (f : Seq → Seq) : State := s.modR k fun r => (f r).advance ps

end State

/-! ## Vector operands (R415, R416) -/

/-- The 32-bit lane of an element. -/
def toLane (t : ElemTy) (enc : Nat) : W32 :=
  if t.isFloat then (if t == .fp32 then BitVec.ofNat 32 enc else widen32 t enc)
  else BitVec.ofInt 32 (intOf t.signed (8 * t.bytes) enc)

/-- Elements of consecutive bytes. -/
def elems (t : ElemTy) (n : Nat) (bs : List Byte) : List Nat :=
  (List.range n).map fun i => leNat ((bs.drop (i * t.bytes)).take t.bytes)

/-- The lane type as an integer of the lane. -/
def laneInt (t : ElemTy) (w : W32) : Int := intOf t.signed 32 w.toNat

/-- Is a lane nonzero as its lane type (R433, R434)? -/
def laneNonZero (t : ElemTy) (w : W32) : Bool := nonZero t.isFloat 32 w.toNat

namespace State

/-- FPCTL.FZ (R80). -/
def fz (s : State) (k : Nat) : Bool := bitN (s.cx (cidOf k)).reg.fpctl 0

/-- The stored elements of a 16-element operand. -/
def vmem (s : State) (k : Nat) (p : BitVec 3) (t : ElemTy) (emul : Bool) : Chkd (List Nat) :=
  match s.scrVal k ((s.r k).ptr p) (16 * t.bytes) (16 * t.bytes) emul with
  | .error e => .error e
  | .ok b => .ok (elems t 16 b)

def accOf (s : State) (k : Nat) (a : BitVec 2) : List W32 := lanes ((s.cx (cidOf k)).reg.acc ((s.r k).rep.rename a))

/-- The 16 lane values of a source. -/
def vsrc (s : State) (k : Nat) (x : Opnd) (t : ElemTy) : Chkd (List W32) :=
  match x with
  | .mem p _ => match s.vmem k p t false with
    | .error e => .error e
    | .ok es => .ok (es.map (toLane t))
  | .acc a => .ok (s.accOf k a)
  | .s => .ok (List.replicate 16 (bits (s.r k).s 0 32))
  | .lit v => .ok (List.replicate 16 (bits v 0 32))

/-- The lanes of an accumulator that the mask selects are written. -/
def accWrite (s : State) (k : Nat) (a : BitVec 2) (new : List W32) : State :=
  let a' := (s.r k).rep.rename a
  s.modReg (cidOf k) fun g => g.setAcc a' (ofLanes ((List.range 16).map fun l =>
    if g.m.getLsbD l then new.getD l 0 else lane (g.acc a') l))

/-- A vector result, then the pointers' advance. -/
def retireV (s : State) (k : Nat) (a : BitVec 2) (new : List W32) (ps : List PtrOp) : State :=
  (s.accWrite k a new).retireR k ps id

/-- The mask of the lanes that satisfy a test. -/
def setMask (s : State) (k : Nat) (m : W16) : State :=
  (s.modReg (cidOf k) fun g => { g with m := m }).modR k fun r => { r with fl := ⟨m == 0, false, false, false⟩ }

end State

/-- The mask whose bit l is the l-th truth value. -/
def maskBits (l : List Bool) : W16 := (BitVec.ofBoolListLE ((List.range 16).map fun i => l.getD i false)).setWidth 16

/-- Flush of an FP32 result. -/
def flush32 (fz : Bool) (w : W32) : W32 := BitVec.ofNat 32 (Ff.fp32.flush fz w.toNat)

/-- An exact value as a floating-point lane. -/
def flLane (fz : Bool) (md : Modes) (x : Ex) : W32 := flush32 fz (roundFP32 x md.rnd md.sat)

/-- An exact integer as a lane of the lane type. -/
def intLane (t : ElemTy) (sat : Bool) (i : Int) : W32 := BitVec.ofInt 32 (if sat then satInt t.signed 32 i else i)

/-- A two-source vector instruction: `f` takes FZ, the destination's old lane, and both lanes. -/
def vec2 (i : Instr) (s : State) (a : BitVec 2) (x y : Opnd) (t : ElemTy) (f : Bool → W32 → W32 → W32 → W32) : Res :=
  run i s fun k =>
    attempt s (s.vsrc k x t) fun xs => attempt s (s.vsrc k y t) fun ys =>
      let old := s.accOf k a
      .done (s.retireV k a ((List.range 16).map fun l => f (s.fz k) (old.getD l 0) (xs.getD l 0) (ys.getD l 0))
        (x.ptrs ++ y.ptrs))

/-- A one-source vector instruction. -/
def vec1 (i : Instr) (s : State) (a : BitVec 2) (x : Opnd) (t : ElemTy) (f : Bool → W32 → W32) : Res :=
  run i s fun k =>
    attempt s (s.vsrc k x t) fun xs => .done (s.retireV k a (xs.map (f (s.fz k))) x.ptrs)

/-- A test of the elements of a kind-0 or kind-1 operand: `onMem` takes stored elements, `onAcc` lanes. -/
def vtest {α : Type} (s : State) (k : Nat) (x : Opnd) (t : ElemTy) (onMem : Nat → α) (onAcc : W32 → α) : Chkd (List α) :=
  match x with
  | .mem p _ => match s.vmem k p t false with
    | .error e => .error e
    | .ok es => .ok (es.map onMem)
  | _ => match s.vsrc k x t with
    | .error e => .error e
    | .ok ls => .ok (ls.map onAcc)

/-! ## Global operands -/

/-- A failed translation as a trap: a PAGE carries its record and its address; the others none (R140, R409). One that
waits at a home becomes the stall. -/
def XErr.trap (e : XErr) (fetch write : Bool) : TrapInfo :=
  match e.code with
  | .page => { code := .page, faddr := e.va, async := false, info := 0,
               record := [⟨bits e.va 12 45, e.reason, false, fetch, write⟩], hold := e.hold }
  | c => precise c

/-- An access emulated by R141 that fails at a byte names the byte whatever the trap. -/
def XErr.trapAt (e : XErr) (write : Bool) : TrapInfo :=
  let t := e.trap false write
  match e.code with
  | .page | .prot => { t with faddr := e.va }
  | _ => t

/-- Does the kind of access write, for the record's W bit (R140)? -/
def XKind.isWrite : XKind → Bool
  | .write | .copyWrite | .offer true | .near true => true
  | _ => false

/-- The space of a global address (R52). -/
def gSpace (p : Ptr) (lvlK : Bool) : Chk :=
  match p.space with
  | .g => none
  | .k => if lvlK then some (.window, 0) else some (.priv, 0)
  | _ => some (.window, 0)

/-- The space of a pointer that an entry requires to be G (R364, R396, R405, R408): PRIV for K at level U (R52), else
WINDOW. -/
def onlyG (p : Ptr) (lvlK : Bool) : Chkd Unit := asTrap (gSpace p lvlK)

namespace State

/-- `TranslateAll` of `n` bytes, as a checked value. -/
def pages (s : State) (k : Nat) (va : W64) (n : Nat) (x : XKind) : Chkd (List Xl × State) :=
  match s.translateAll (s.who k) va n x with
  | .error e => .error (e.trap false x.isWrite)
  | .ok r => .ok r

/-- A naturally aligned access of `n` bytes. -/
def place1 (s : State) (k : Nat) (va : W64) (x : XKind) : Chkd (Xl × State) :=
  match s.translateOne (s.who k) va x with
  | .error e => .error (e.trap false x.isWrite)
  | .ok r => .ok r

/-- The byte checks of bytes of a misaligned access in space G that have a translation, or have none (R141): the trap
they come to. A byte of a register permits no such access (R323). -/
def gPart (va : W64) (n : Nat) (x : XKind) (r : Except XErr (List Xl × State)) : TrapInfo :=
  match r with
  | .error e => e.trapAt x.isWrite
  | .ok (ps, _) => match findFrom (fun i => isMmio (xlAt ps va i).ha) 0 n with
    | some i => precise .prot (va + BitVec.ofNat 64 i)
    | none => precise .misalign

/-- The byte checks of a misaligned access in space G, byte by byte (R141). A token is asked for after them (R402): where
a page lacks one, the bytes of the next page are checked. -/
def gBytes (s : State) (k : Nat) (va : W64) (n : Nat) (x : XKind) : TrapInfo :=
  match s.translateAll (s.who k) va n x with
  | .error e =>
    let done := (e.va - va).toNat + (4096 - e.va.toNat % 4096)
    if e.code = .token ∧ done < n then
      let a := va + BitVec.ofNat 64 done
      gPart a (n - done) x (s.translateAll (s.who k) a (n - done) x)
    else e.trapAt x.isWrite
  | r => gPart va n x r

end State

/-! ## Value operands of the offers (R229) -/

namespace State

/-- The `n` bytes of a value operand; those at a pointer are read with its checks. -/
def oval (s : State) (k : Nat) (v : OVal) (n align : Nat) : Chkd (List Byte) :=
  match v with
  | .mem p _ => s.scrVal k ((s.r k).ptr p) n align false
  | .s => .ok (natLe n (s.r k).s.toNat)
  | .lit l => .ok (natLe n l.toNat)

end State

end Sys2Proof.Machine
end

