-- ==== Sys2Proof/Machine/Fetch.lean ====
section
/-! DEFINITION. Fetching an instruction's words (R95, R116 step 1, R121), through the repetition buffer (R60), and the
bytes in which they stand. -/

namespace Sys2Proof.Machine

/-- The trap of a word that cannot be fetched: FADDR names it where the instruction began on another page (R95). -/
def fetchTrap (e : XErr) (pc : W64) : TrapInfo :=
  let t := e.trap true false
  if e.va.toNat / 4096 = pc.toNat / 4096 then t else { t with faddr := e.va }

/-- Words by LEN alone (R94), as a body is found (R57). -/
def lenOf (ws : List W32) : Nat :=
  match ws with
  | [] => 1
  | w :: _ => lenWords (wLen w)

/-- Words with their addresses. -/
def addressed (a : W64) (ws : List W32) : List (W64 × W32) :=
  (List.range ws.length).zip ws |>.map fun (i, w) => (a + BitVec.ofNat 64 (4 * i), w)

/-- Words that a copy takes in beside those it holds. -/
def RepBuf.add (b : RepBuf) (ws : List (W64 × W32)) : RepBuf :=
  { b with words := b.words ++ ws.filter fun w => !b.words.any fun e => e.1 == w.1 }

namespace State

/-- The word at `a` as it stands at its home, for one who may execute it: it waits for a macro's refresh and for a
near-memory command (R131, R251). -/
def homeWord (s : State) (w : Who) (a : W64) : Except XErr (W32 × State) :=
  match s.translateOne w a .fetch with
  | .error e => .error e
  | .ok (x, s) => match s.readHeld x.ha with
    | some c => .error { code := .page, reason := 0, va := a, hold := some c }
    | none =>
      let b := s.h.bytes x 4
      if ppoison b then .error { code := .poison, reason := 0, va := a } else .ok (leBv 32 (pdata b), s)

/-- The word at `a` as it stands at its home (R121). -/
def fetchHome (s : State) (k : Nat) (a : W64) : Except XErr (W32 × State) := s.homeWord (s.who k) a

/-- The word at `a`: the repetition buffer's, one already fetched, or the home's. -/
def fetchWord (s : State) (k : Nat) (a : W64) : Except XErr (W32 × State) :=
  let q := s.sq k
  let find (l : List (W64 × W32)) : Option W32 := (l.find? fun e => e.1 == a).map Prod.snd
  match (if q.r.rep.act then find q.buf.words else none) with
  | some w => .ok (w, s)
  | none => match find q.pre with
    | some w => .ok (w, s)
    | none => s.fetchHome k a

/-- Words from `a` on until they make up what `want` asks for; `fuel` words at most. -/
def fetchWords (s : State) (k : Nat) (a : W64) (want : List W32 → Nat) : Nat → List W32 → Except XErr (List W32 × State)
  | 0, ws => .ok (ws, s)
  | fuel + 1, ws =>
    if want ws ≤ ws.length then .ok (ws, s)
    else match s.fetchWord k (a + BitVec.ofNat 64 (4 * ws.length)) with
      | .error e => .error e
      | .ok (w, s) => s.fetchWords k a want fuel (ws ++ [w])

/-- The words of the `n` instructions from `a` on, as far as they can be fetched, and what the first that cannot be
fetched comes to (R60). -/
def bodyWords (s : State) (k : Nat) : Nat → W64 → List (W64 × W32) × Option XErr × State
  | 0, _ => ([], none, s)
  | n + 1, a => match s.fetchWords k a lenOf 5 [] with
    | .error e => ([], some e, s)
    | .ok (ws, s) =>
      let (rest, e, s) := s.bodyWords k n (a + BitVec.ofNat 64 (4 * ws.length))
      (addressed a ws ++ rest, e, s)

/-- `rep` captures the body (R60); words that cannot be fetched yet join the copy when they are reached (R57). -/
def capture (s : State) (k : Nat) : State :=
  let r := (s.r k).rep
  let (ws, _, s) := s.bodyWords k (r.nm1.toNat + 1) r.body
  s.modSq k fun q => { q with buf := q.buf.add ws }

/-- A body whose copy the buffer has dropped is refetched whole before its next instruction, which is the one at POS by
the lengths that the words now give (R60). -/
def refetch (s : State) (k : Nat) : Except XErr State :=
  let q := s.sq k
  if q.r.rep.act && q.buf.dropped then
    match s.bodyWords k (q.r.rep.nm1.toNat + 1) q.r.rep.body with
    | (_, some e, _) => .error e
    | (ws, none, s) =>
      let buf : RepBuf := { RepBuf.init with body := q.r.rep.body, words := ws }
      let pc := s.skip k buf q.r.rep.pos.toNat q.r.rep.body
      .ok (s.modSq k fun q => { q with r := { q.r with pc := pc }, buf := buf })
  else .ok s

/-- Words of the body that the fetched instruction at the pc takes from it: its follow-on may lie beyond. -/
def ofBody (r : Rep) (ws : List W32) : List W32 := if r.pos < r.nm1 then ws else ws.take (lenOf ws)

/-- THE INSTRUCTION at the pc (R116 step 1): its words, kept until it retires, or the trap of the fetch. The words of a
`cpy`'s follow-on are fetched with it before any other check of either (assumption 62). -/
def fetch (s : State) (k : Nat) : Except TrapInfo (List W32 × State) :=
  match s.refetch k with
  | .error e => .error (fetchTrap e (s.r k).pc)
  | .ok s =>
    let pc := (s.r k).pc
    match s.fetchWords k pc needed maxWords [] with
    | .error e => .error (fetchTrap e pc)
    | .ok (ws, s) =>
      .ok (ws, s.modSq k fun q => { q with
        pre := addressed pc ws ++ (q.pre.filter fun e => 4 * ws.length ≤ (e.1 - pc).toNat)
        buf := if q.r.rep.act then q.buf.add (addressed pc (ofBody q.r.rep ws)) else q.buf })

/-- Fetch one word early (R121): it stays until its instruction retires or `iflush` discards it. -/
def prefetch (s : State) (k : Nat) (a : W64) : State :=
  match s.fetchHome k a with
  | .error _ => s
  | .ok (w, s) => if (s.sq k).pre.any fun e => e.1 == a then s else s.modSq k fun q => { q with pre := (a, w) :: q.pre }

/-- The word of an awl at `a`, read with the walk's context (R221). -/
def awlWord (s : State) (w : Walk) (a : W64) : Except XErr (W32 × State) :=
  s.homeWord { s.who (sidAt w.cid 0) with lvlK := false, holder := none } a

/-- The words of the awl's instruction at `a`. -/
def awlWords (s : State) (w : Walk) (a : W64) : Nat → List W32 → Except XErr (List W32 × State)
  | 0, ws => .ok (ws, s)
  | fuel + 1, ws =>
    if lenOf ws ≤ ws.length then .ok (ws, s)
    else match s.awlWord w (a + BitVec.ofNat 64 (4 * ws.length)) with
      | .error e => .error e
      | .ok (x, s) => s.awlWords w a fuel (ws ++ [x])

end State

/-! ## Bytes -/

/-- The words of an instruction as they stand in memory, from a home address on (R4, R94). -/
def placeWords (m : Memory) (a : Nat) (ws : List W32) : Memory := m.writeN a (ws.flatMap wordBytes)

end Sys2Proof.Machine
end

