-- ==== Sys2Proof/Machine/Control.lean ====
section
/-! DEFINITION. Branches (R336 to R338, R361) and `rep` (R57, R60, R395). A follower takes the leader's outcome
(R67): `deliver` sets its pc from the stream. -/

namespace Sys2Proof.Machine

/-- The target of format J (R99). -/
def targetOf (pc : W64) : Target → W64
  | .rel o => pc + sx64 o * 4
  | .abs v => v

/-- A literal target must be a multiple of 4, whether or not it is taken (R99). -/
def targetChk : Target → Chkd Unit
  | .rel _ => .ok ()
  | .abs v => trapIf (v &&& 3 != 0) .misalign

/-- `br` (R336). -/
def execBr (c : Cond) (t : Target) (s : State) : Res :=
  run (.br c t) s fun k => attempt s (targetChk t) fun _ =>
    if c.holds (s.r k).fl then .jump (s.modR k fun r => { r with pc := targetOf r.pc t }) else .done s

/-- `jmp` (R361). -/
def execJmp (t : Target) (s : State) : Res :=
  run (.jmp t) s fun k => attempt s (targetChk t) fun _ =>
    .jump (s.modR k fun r => { r with pc := targetOf r.pc t })

/-- `call` (R338): the link is p7's base. -/
def execCall (t : Target) (s : State) : Res :=
  run (.call t) s fun k => attempt s (targetChk t) fun _ =>
    .jump (s.modR k fun r =>
      { r with pc := targetOf r.pc t, p7 := { r.p7 with base := r.pc + BitVec.ofNat 64 (Instr.call t).bytes } })

/-- `ret` (R338). -/
def execRet (s : State) : Res :=
  run .ret s fun k => attempt s (trapIf ((s.r k).p7.base &&& 3 != 0) .misalign) fun _ =>
    .jump (s.modR k fun r => { r with pc := r.p7.base })

/-- The target of `brx`; a misaligned pointer is not emulated (R337). -/
def State.brxVal (s : State) (k : Nat) (x : Opnd) : Chkd W64 :=
  match x with
  | .mem p _ => match s.scrVal k ((s.r k).ptr p) 8 8 false with
    | .error e => .error e
    | .ok b => .ok (leBv 64 b)
  | y => s.srcVal k y .i64

/-- `brx` (R337): FADDR holds a misaligned target. -/
def execBrx (x : Opnd) (s : State) : Res :=
  run (.brx x) s fun k => attempt s (s.brxVal k x) fun t => attempt s (trapIf (t &&& 3 != 0) .misalign t) fun _ =>
    .jump (s.retireR k x.ptrs fun r => { r with pc := t })

/-- The address after `n` instructions, by their LEN fields (R395). -/
def State.skipBody (s : State) (k : Nat) : Nat → W64 → Except XErr (W64 × State)
  | 0, a => .ok (a, s)
  | n + 1, a => match s.fetchWord k a with
    | .error e => .error e
    | .ok (w, s) => s.skipBody k n (a + BitVec.ofNat 64 (4 * lenWords (wLen w)))

/-- `rep` (R395): a count of 0 skips the body; otherwise the body is captured (R60). -/
def execRep (stag : BitVec 2) (nm1 : BitVec 4) (cnt : ImmOrS) (s : State) : Res :=
  run (.rep stag nm1 cnt) s fun k =>
    let body := (s.r k).pc + 4
    let n := cnt.count (s.r k).s
    if n = 0 then
      match s.skipBody k (nm1.toNat + 1) body with
      | .error e => .trap (e.trap true false) s
      | .ok (a, s) => .jump (s.modR k fun r => { r with pc := a })
    else
      let s := s.modSq k fun q => { q with
        r := { q.r with pc := body, rep := ⟨true, 0, n, nm1, 0, stag, body⟩ }
        buf := { RepBuf.init with body := body } }
      .jump (s.capture k)

end Sys2Proof.Machine
end

