-- ==== Sys2Proof/Machine/Memory.lean ====
section
/-! DEFINITION. Global loads and stores (R367 to R373, R401, R402), `rwb` and `rinv` (R163, R396), and the events of
their completion: landings, acceptances, evictions, walks of the page tables, and write-backs that arrive from
elsewhere. -/

namespace Sys2Proof.Machine

/-! ## Checks of a global access (R368, R402, R141) -/

/-- The byte checks of a misaligned scratchpad operand. -/
def State.scrBytesChk (s : State) (k : Nat) (p : Ptr) (n align : Nat) : Chkd Unit :=
  if p.base.toNat % align = 0 then asTrap (rangeChk p (s.winSize k) n)
  else match scrCheckBytes p (s.winSize k) n with
    | some (.misalign, _) => .ok ()
    | c => asTrap c

/-- The byte checks of a misaligned global operand; the token is asked for after the alignment (R402). -/
def State.gBytesChk (s : State) (k : Nat) (va : W64) (n : Nat) (x : XKind) : Chkd Unit :=
  let t := if va.toNat % n = 0 then
      match s.translateAll (s.who k) va n x with
      | .error e => e.trap false x.isWrite
      | .ok (ps, _) => precise (if n != 8 && (ps.any fun y => isMmio y.ha) then .prot else .misalign)
    else s.gBytes k va n x
  if t.code = .misalign ∨ t.code = .token then .ok () else .error t

/-- MMIO admits only accesses of 8 bytes (R323). -/
def mmioChk (x : Xl) (n : Nat) : Chkd Unit := trapIf (isMmio x.ha && n != 8) .prot

/-- The translation of a global access of `n` bytes with a scratchpad operand: spaces, alignment (each byte first,
then MISALIGN), range, translation. `gFirst`: the global operand is operand X. -/
def State.gAccess (s : State) (k : Nat) (scr : Option Ptr) (g : Ptr) (n : Nat) (x : XKind) (gFirst : Bool) :
    Chkd (Xl × State) :=
  let lvl := s.lvlK k
  let cs := asTrap (match scr with | some p => spaceChk p lvl | none => none)
  let cg := asTrap (gSpace g lvl)
  let mis := g.base.toNat % n != 0 || (match scr with | some p => p.base.toNat % n != 0 | none => false)
  let bs := match scr with | some p => s.scrBytesChk k p n n | none => .ok ()
  let bg := s.gBytesChk k g.base n x
  match firstOf (if gFirst then [cg, cs] else [cs, cg]) with
  | .error t => .error t
  | .ok _ =>
    if mis then
      match firstOf (if gFirst then [bg, bs] else [bs, bg]) with
      | .error t => .error t
      | .ok _ => .error (precise .misalign)
    else match bs with
      | .error t => .error t
      | .ok _ => match s.place1 k g.base x with
        | .error t => .error t
        | .ok (xl, s) => match mmioChk xl n with
          | .error t => .error t
          | .ok _ => .ok (xl, s)

/-! ## Loads -/

/-- Issue a load: `lc` rises. -/
def State.issueLoad (s : State) (k : Nat) (kind : LoadKind) (x : Xl) (n : Nat) (dst : Loc) : State :=
  let (id, s) := s.fresh
  s.modCx (cidOf k) fun c => { c with
    n := { c.n with lc := c.n.lc + 1 }
    f := { c.f with loads := c.f.loads ++ [⟨id, qOf k, kind, x, n, dst, none⟩] } }

def loadMem (i : Instr) (s : State) (kind : LoadKind) (w : GWidth) (d src : PtrOp) : Res :=
  run i s fun k =>
    let pd := (s.r k).ptr d.p
    let ps := (s.r k).ptr src.p
    attempt s (s.gAccess k (some pd) ps w.bytes .read false) fun (x, s) =>
      .done ((s.issueLoad k kind x w.bytes (s.loc k pd)).retireR k [d, src] id)

/-- `ldg` (R367 to R369). -/
def execLdg (w : GWidth) (d src : PtrOp) (s : State) : Res := loadMem (.ldg w d src) s .plain w d src

/-- `ldh` (R370): it reads the home. -/
def execLdh (w : GWidth) (d src : PtrOp) (s : State) : Res := loadMem (.ldh w d src) s .home w d src

/-- `ldrow` (R372, R373). -/
def execLdrow (ver : Bool) (d g : PtrOp) (s : State) : Res :=
  run (.ldrow ver d g) s fun k =>
    let pd := (s.r k).ptr d.p
    let pg := (s.r k).ptr g.p
    attempt s (firstOf [asTrap (spaceChk pd (s.lvlK k)), asTrap (gSpace pg (s.lvlK k)),
        trapIf (pd.base.toNat % 64 != 0) .misalign]) fun _ =>
      attempt s (s.place1 k pg.base .rowRead) fun (x, s') =>
        let n := s.rowSize x.ha
        attempt s (trapIf (n == 0) .prot) fun _ =>
          attempt s (asTrap (rangeChk pd (s.winSize k) (if ver then n + 8 else n))) fun _ =>
            .done ((s'.issueLoad k (.row ver) x n (s.loc k pd)).retireR k [d, g] id)

/-! ## Stores -/

/-- The bytes that `stg` stores, read at issue (R402). -/
def State.stgVal (s : State) (k : Nat) (y : Opnd) (n : Nat) : List PByte :=
  match y with
  | .mem p _ => s.scrAt k ((s.r k).ptr p) n
  | .lit v => clean (bvLe n v)
  | _ => clean (bvLe n (s.r k).s)

/-- `stg` (R401, R402). -/
def execStg (w : GWidth) (g : PtrOp) (y : Opnd) (s : State) : Res :=
  run (.stg w g y) s fun k =>
    let pg := (s.r k).ptr g.p
    let scr := match y with | .mem p _ => some ((s.r k).ptr p) | _ => none
    attempt s (s.gAccess k scr pg w.bytes .write true) fun (x, s) =>
      let v := s.stgVal k y w.bytes
      let (id, s) := s.fresh
      let st : Store := ⟨id, qOf k, cacheable x.cc && !isMmio x.ha, x, [(x.ha, v)], []⟩
      let s := s.modCx (cidOf k) fun c => { c with
        n := { c.n with sc := c.n.sc + 1 }
        f := { c.f with stores := c.f.stores ++ [st] } }
      .done (s.retireR k (g :: y.ptrs) fun r => r)

/-! ## `rwb` and `rinv` (R163, R396) -/

/-- Lines of the range that the core or its pool holds dirty. -/
def State.dirtyIn (s : State) (core : Nat) (p : Nat → Bool) : List Nat :=
  ((((s.co core).cache.filter fun l => l.isDirty && p l.line).map CLine.line) ++
   (((s.be (benchOf core)).pool.filter fun l => l.c.isDirty && p l.c.line).map fun l => l.c.line)).eraseDups

/-- `rinv` drops the lines of the range: clean ones go, and dirty ones keep only their dirty bytes. -/
def State.dropIn (s : State) (core : Nat) (p : Nat → Bool) : State :=
  (s.modCo core fun co => { co with cache :=
    (co.cache.filter fun l => l.isDirty || !p l.line).map fun l => if p l.line then { l with filled := false } else l }).poolForget
    (benchOf core) fun l => p l.c.line

/-- Earlier stores of the sequencer into these lines that the core cache has not accepted: an `rwb` or `rinv` handles
their bytes, too (R153, R163, R187). -/
def State.ownStores (s : State) (k : Nat) (p : Nat → Bool) : Bool :=
  (s.cx (cidOf k)).f.stores.any fun t => t.q == qOf k && t.cached && t.writes.any fun w => p (lineOf w.1)

def maint (i : Instr) (s : State) (inv : Bool) (p : BitVec 3) (len : ImmOrS) : Res :=
  run i s fun k =>
    let pg := (s.r k).ptr p
    let n := (len.count (s.r k).s).toNat
    attempt s (onlyG pg (s.lvlK k)) fun _ => attempt s (s.pages k pg.base n .maint) fun (ps, s) =>
      let inR (l : Nat) : Bool := State.inPages ps pg.base n l
      let core := coreK k
      let back := s.dirtyIn core inR
      if s.ownStores k inR then .wait .waitSc s
      else if back.isEmpty then .done (if inv then s.dropIn core inR else s)
      else
        let (id, s) := (if inv then s.dropIn core inR else s).fresh
        .done (s.modCx (cidOf k) fun c => { c with
          n := { c.n with sc := c.n.sc + 1 }
          f := { c.f with stores := c.f.stores ++ [⟨id, qOf k, false, ⟨0, 0, false, 0⟩, [], back⟩] } })

def execRwb (p : BitVec 3) (len : ImmOrS) (s : State) : Res := maint (.rwb p len) s false p len
def execRinv (p : BitVec 3) (len : ImmOrS) (s : State) : Res := maint (.rinv p len) s true p len

/-! ## Events -/

/-- An event's effect where it is pending; otherwise nothing happens (assumption 15). -/
def happens {α : Type} (s : State) (o : Option α) (f : α → State) : Res :=
  match o with
  | some a => .next (f a)
  | none => .next s

/-- A load of context c lands (R170). -/
def execLoadLanding (c id : Nat) (s : State) : Res :=
  happens s ((s.cx c).f.loads.find? fun l => l.id == id && s.loadDue c l) fun l => s.landLoad c l

/-- A store of context c is accepted, or the write-backs of an `rwb` or `rinv` (R170, R402). -/
def execStoreAcceptance (c id : Nat) (s : State) : Res :=
  happens s ((s.cx c).f.stores.find? fun t => t.id == id && s.storeDue c t) fun t => s.acceptStore c t

/-- A core's line is evicted at any moment (R153): to the bench pool where the core is a member, else home; one that the
core does not hold leaves its bench's pool for the home. A dirty line whose home holds it back waits. -/
def execLineEviction (core line : Nat) (s : State) : Res :=
  match (s.co core).find line with
  | some l => if s.evictable core l then .next (s.evict core l) else .next s
  | none => happens s (((s.be (benchOf core)).find line).filter fun p => !p.c.isDirty || !s.writeHeld line) fun p =>
      s.poolEvict (benchOf core) p

/-- A write arrives at its home from outside the cores (R153, R167, R325): bytes of one line, under no key and in plain
layout (assumption 67), with their poison (R329). It waits where the home holds the line back. -/
def execHomeWriteArrival (ha : Nat) (bytes : List PByte) (s : State) : Res :=
  if ha % 64 + bytes.length ≤ 64 ∧ !isMmio ha ∧ !isLehr ha then .next (s.homeSend ⟨ha, 0, false, 0⟩ bytes)
  else .next s

/-- A walk for context c fills the translation cache of its die and sets A (R132 to R136); D waits for a store. -/
def execPageWalk (c : Nat) (va : W64) (fetch : Bool) (s : State) : Res :=
  match s.translate (s.who (sidAt c 0)) va (if fetch then .fetch else .read) with
  | .ok (_, s) => .next s
  | .error _ => .next s

end Sys2Proof.Machine
end

