-- ==== Sys2Proof/Machine/Order.lean ====
section
/-! DEFINITION. What orders accesses: stitch maps (R144, R398), counters (R170, R451), paths (R389), phases (R151, R152,
R388) and tokens (R165, R166, R408). -/

namespace Sys2Proof.Machine

/-! ## Stitch maps -/

def CtxReg.map (g : CtxReg) (m : BitVec 4) : W64 := Tab.get 0 g.sm m.toNat

/-- `SmSet` (R144): a bit of a map, with its SEQ. -/
def CtxReg.smSet (g : CtxReg) (m : BitVec 4) (bit : Nat) (seq : W16) : CtxReg :=
  { g with
    sm := Tab.set 0 g.sm m.toNat (g.map m ||| BitVec.ofNat 64 (2 ^ bit))
    smSeq := Tab.set none g.smSeq (m.toNat * 64 + bit) (some seq) }

/-- Set a bit of a map alone. -/
def CtxReg.smBit (g : CtxReg) (m : BitVec 4) (bit : Nat) : CtxReg :=
  { g with sm := Tab.set 0 g.sm m.toNat (g.map m ||| BitVec.ofNat 64 (2 ^ bit)) }

/-- Clear bits with their recorded SEQ. -/
def CtxReg.smClear (g : CtxReg) (m : BitVec 4) (mask : W64) : CtxReg :=
  { g with
    sm := Tab.set 0 g.sm m.toNat (g.map m &&& ~~~mask)
    smSeq := g.smSeq.filter fun (e : Nat × Option W16) => !(e.1 / 64 == m.toNat && mask.getLsbD (e.1 % 64)) }

/-- `smwait` (R398). The bits of a copy's chunks are R144's (assumption 103). -/
def execSmwait (map : BitVec 4) (mask : Mask) (s : State) : Res :=
  run (.smwait map mask) s fun k =>
    if (s.cx (cidOf k)).reg.map map &&& mask.bits = mask.bits then .done (s.pwait (cidOf k) .k (pathOf (qOf k)))
    else .wait .smap s

/-- `smtest` (R398). -/
def execSmtest (map : BitVec 4) (mask : Mask) (s : State) : Res :=
  run (.smtest map mask) s fun k =>
    let v := (s.cx (cidOf k)).reg.map map &&& mask.bits
    .done (s.modR k fun r => { r with s := v, fl := ⟨v == mask.bits, false, false, false⟩ })

/-- `smclr` (R398). -/
def execSmclr (map : BitVec 4) (mask : Mask) (s : State) : Res :=
  run (.smclr map mask) s fun k => .done (s.modReg (cidOf k) fun g => g.smClear map mask.bits)

/-! ## Counters and paths -/

def Counters.get (n : Counters) : Ctr → Nat
  | .lc => n.lc | .sc => n.sc | .cc => n.cc | .oc => n.oc | .nc => n.nc | .mc => n.mc

/-- The cause under which a `wait` stalls (R330). -/
def waitCause : Ctr → Cause
  | .lc => .waitLc | .sc => .waitSc | .cc => .waitCc | .oc => .waitOc | .nc => .waitNc | .mc => .waitMc

/-- `wait` (R451): it goes on once the counter has been at most n at the end of a step, whatever is issued then. -/
def execWait (c : Ctr) (n : BitVec 17) (s : State) : Res :=
  run (.wait c n) s fun k =>
    if (s.sq k).released || (s.cx (cidOf k)).n.get c ≤ n.toNat then .done s
    else .wait (waitCause c) (s.modSq k fun q => { q with waitAt := some (c, n.toNat) })

/-- `pwait` (R389): it makes visible at once what it may stall for. -/
def execPwait (src dst : Path) (s : State) : Res :=
  run (.pwait src dst) s fun k => .done (if src = dst then s else s.pwait (cidOf k) src dst)

/-! ## Phases -/

/-- `phase` (R388): it waits while a home holds one of its bytes back. -/
def execPhase (sc : Scope) (s : State) : Res :=
  run (.phase sc) s fun k =>
    let c := cidOf k
    let home := sc != .bench
    if (s.closeHome (coreOf c) home).any s.writeHeld then .wait .phaseDrain s
    else .done ((s.close c home).openPhase c home)

/-! ## Tokens -/

/-- The checks of R408: the block. -/
def State.tokBlock (s : State) (k : Nat) (p : BitVec 3) : Chkd (Nat × State) :=
  let pg := (s.r k).ptr p
  match onlyG pg (s.lvlK k) with
  | .error t => .error t
  | .ok _ => match s.place1 k pg.base .read with
    | .error t => .error t
    | .ok (x, s) => if x.cc = 2 then .ok (blockOf x.ha, s) else .error (precise .prot)

def State.tokFlags (s : State) (k : Nat) (z : Bool) : State :=
  s.modR k fun r => { r with fl := ⟨z, false, false, false⟩ }

/-- Has the `tokacq` at which the sequencer stands queued for the block? -/
def State.queued (s : State) (k b : Nat) : Bool := (s.sq k).tokq.contains ((s.r k).pc, b)

/-- Queue for a token, once. -/
def State.tokQueue (s : State) (k b : Nat) : State :=
  if s.queued k b then s
  else
    let t := s.tok b
    let s := if t.queue.contains (cidOf k) then s else s.setTok b { t with queue := t.queue ++ [cidOf k] }
    s.modSq k fun q => { q with tokq := ((s.r k).pc, b) :: q.tokq }

/-- On the grant the block's clean lines go from the core cache, and the pool no longer hits them (R161). -/
def State.tokClean (s : State) (core b : Nat) : State :=
  let hit (l : CLine) : Bool := blockOf (l.line * 64) == b
  (s.dropClean core hit).poolForget (benchOf core) fun p => hit p.c

/-- `tokacq` (R166, R408). -/
def execTokacq (p : BitVec 3) (s : State) : Res :=
  run (.tokacq p) s fun k =>
    attempt s (s.tokBlock k p) fun (b, s) =>
      if (s.tok b).holder = some (cidOf k) then
        if s.queued k b then
          .done (((s.tokClean (coreK k) b).modSq k fun q => { q with tokq := q.tokq.erase ((s.r k).pc, b) }).tokFlags k false)
        else .done (s.tokFlags k true)
      else .wait .token (s.tokQueue k b)

/-- Writes of a context into a block that are not yet at their homes, and lines of it that a home holds back. -/
def State.tokBusy (s : State) (c b : Nat) : Bool :=
  let f := (s.cx c).f
  (f.stores.any fun t => t.writes.any fun w => blockOf w.1 == b) ||
  (f.copying.any fun t => match t.dst with
    | .glob _ ps => ps.any fun x => blockOf x.ha == b
    | .scr .. => false
    | .ben .. => false) ||
  (f.offers.any fun o => o.opc == 8 && o.stage == .sent && blockOf o.x.ha == b) ||
  (let held (l : CLine) : Bool := l.isDirty && blockOf (l.line * 64) == b && s.writeHeld l.line
   (s.co (coreOf c)).cache.any held || (s.be (benchOf (coreOf c))).pool.any fun p => held p.c)

/-- `tokpass` (R166, R408). -/
def execTokpass (p : BitVec 3) (s : State) : Res :=
  run (.tokpass p) s fun k =>
    attempt s (s.tokBlock k p) fun (b, s') =>
      let c := cidOf k
      if (s'.tok b).holder ≠ some c then .trap (precise .token) s
      else if s'.tokBusy c b then .wait .phaseDrain s'
      else .done ((s'.tokRelease c b).tokFlags k (s.r k).fl.z)

/-- The home grants a FREE token to the oldest request (R166). -/
def execTokenGrant (block : Nat) (s : State) : Res :=
  let t := s.tok block
  match t.holder, t.queue with
  | none, c :: rest =>
    let s := s.setTok block ⟨some c, rest⟩
    -- a grant to a member that is swapped out is recorded in its save area (R166, R296)
    .next (match s.savedName c with | some (i, t) => s.saveWord i t 4 1 | none => s.tokClean (coreOf c) block)
  | _, _ => .next s

end Sys2Proof.Machine
end

