-- ==== Sys2Proof/Machine/Queue.lean ====
section
/-! DEFINITION. The queues and the keeper's ring (R64 to R66, R390 to R392). A spilled entry's bytes stand at their
homes in the queue's quarter of the ring; `sAc` to `sMc` name their places, oldest first (assumption 17). -/

namespace Sys2Proof.Machine

/-! ## Queues by name -/

def Queues.get (x : Queues) : Queue → List QEnt
  | .ac => x.ac | .cm => x.cm | .am => x.am | .mc => x.mc

def Queues.set (x : Queues) (q : Queue) (l : List QEnt) : Queues :=
  match q with
  | .ac => { x with ac := l } | .cm => { x with cm := l } | .am => { x with am := l } | .mc => { x with mc := l }

def Queues.spill (x : Queues) : Queue → List Nat
  | .ac => x.sAc | .cm => x.sCm | .am => x.sAm | .mc => x.sMc

def Queues.setSpill (x : Queues) (q : Queue) (l : List Nat) : Queues :=
  match q with
  | .ac => { x with sAc := l } | .cm => { x with sCm := l } | .am => { x with sAm := l } | .mc => { x with sMc := l }

/-- Entries spilled across the four queues. -/
def Queues.spilled (x : Queues) : Nat := x.sAc.length + x.sCm.length + x.sAm.length + x.sMc.length

/-- Producer and consumer, as CAUSE.SEQ numbers sequencers (R64). -/
def producer : Queue → Nat
  | .ac | .am => 2
  | .cm => 0
  | .mc => 1

def consumer : Queue → Nat
  | .ac | .mc => 0
  | .cm | .am => 1

/-! ## The keeper -/

/-- Entries of a quarter of the ring (R65). -/
def quarterCap (kring : W64) : Nat := fieldN kring 0 8 * 16

/-- The address of a place of a queue's quarter. -/
def ringVa (kring : W64) (q : Queue) (i : Nat) : W64 :=
  (bits kring 12 45 ++ (0 : BitVec 12)).signExtend 64 + BitVec.ofNat 64 ((q.code.toNat * quarterCap kring + i) * 64)

/-- The place that the next entry takes: the one after the newest, round the quarter. -/
def nextPlace (kring : W64) (l : List Nat) : Nat :=
  match l.getLast? with
  | some i => (i + 1) % quarterCap kring
  | none => 0

/-- An entry's bytes with their poison. -/
def QEnt.bytes (e : QEnt) : List PByte :=
  (List.range 64).zip (lineBytes e.data) |>.map fun (i, b) => (b, e.poison.getLsbD (i / 16))

def QEnt.ofBytes (bs : List PByte) : QEnt :=
  ⟨Machine.ofBytes (pdata bs), BitVec.ofNat 4 (((List.range 4).map fun u => if ppoison ((bs.drop (16 * u)).take 16) then 2 ^ u else 0).foldl (· + ·) 0)⟩

/-- A push's outcome (R66); where it raises QUOTA, whether the queue's quarter of the ring is full. -/
inductive Push where
  | ok (s : State)
  | full
  | quota (ringFull : Bool)
  | page (e : XErr)
  | held (c : Cause)

namespace State

def queues (s : State) (c : Nat) : Queues := (s.cx c).q

/-- The keeper moves spilled entries back while the queue has room; what cannot be read back stays. -/
def refillFrom (s : State) (w : Who) (c : Nat) (q : Queue) : List Nat → Option XErr × State
  | [] => (none, s)
  | i :: rest =>
    if Config.queueCap ≤ ((s.queues c).get q).length then (none, s)
    else match s.translateOne w (ringVa (s.cx c).reg.kring q i) .read with
      | .error e => (some e, s)
      | .ok (x, s) => match s.readHeld x.ha with
        | some h => (some { code := .page, reason := 0, va := ringVa (s.cx c).reg.kring q i, hold := some h }, s)
        | none =>
          (s.modQ c fun y => (y.set q (y.get q ++ [QEnt.ofBytes (s.h.bytes x 64)])).setSpill q rest).refillFrom w c q rest

def refill (s : State) (w : Who) (c : Nat) (q : Queue) : Option XErr × State :=
  s.refillFrom w c q ((s.queues c).spill q)

/-- Is spilling off (R65)? -/
def spillOff (s : State) (c : Nat) : Bool :=
  let g := (s.cx c).reg
  fieldN g.kring 0 8 == 0 || g.kquota == 0

/-- Push an entry onto a queue of context `c` (R66). -/
def push (s : State) (w : Who) (c : Nat) (q : Queue) (e : QEnt) : Push :=
  let s := (s.refill w c q).2
  let x := s.queues c
  if (x.get q).length < Config.queueCap && (x.spill q).isEmpty then .ok (s.modQ c fun y => y.set q (y.get q ++ [e]))
  else if s.spillOff c then .full
  else
    let g := (s.cx c).reg
    let l := x.spill q
    let ringFull := decide (quarterCap g.kring ≤ l.length)
    if decide (g.kquota.toNat < 64 * (x.spilled + 1)) || ringFull then .quota ringFull
    else
      let i := nextPlace g.kring l
      match s.translateOne w (ringVa g.kring q i) .write with
      | .error e => match e.hold with
        | some h => .held h
        | none => .page e
      | .ok (a, s) =>
        if s.writeHeld (lineOf a.ha) then .full
        else .ok ((s.homeSend a e.bytes).modQ c fun y => y.setSpill q (l ++ [i]))

/-- The oldest entry of a queue: the entry with the state in which it is resident, or what keeps it away. -/
def oldest (s : State) (w : Who) (c : Nat) (q : Queue) : Except (Option XErr) (QEnt × State) :=
  let (e, s) := s.refill w c q
  match (s.queues c).get q with
  | x :: _ => .ok (x, s)
  | [] => .error e

/-- Remove the oldest entry; the keeper refills the queue. -/
def popped (s : State) (w : Who) (c : Nat) (q : Queue) : State :=
  ((s.modQ c fun y => y.set q ((y.get q).drop 1)).refill w c q).2

/-- Does a walk of the context feed the queue now (R224)? -/
def walkFeeds (s : State) (c : Nat) (q : Queue) : Bool :=
  (s.be (benchOf (coreOf c))).walks.any fun w => w.cid == c && w.started && !w.ended &&
    ((w.qsel == 1 && q == .ac) || (w.qsel == 2 && q == .am))

/-- Checks 3 and 4 of R391 on a kind-0 operand. -/
def qOperand (s : State) (k : Nat) (x : Opnd) : Chkd Unit :=
  match x with
  | .mem p _ => s.scrChk k ((s.r k).ptr p) 64 64 false
  | _ => .ok ()

/-- The entry that a `qpush` reads. -/
def qEntry (s : State) (k : Nat) (x : Opnd) : QEnt :=
  match x with
  | .mem p _ => QEnt.ofBytes (s.scrAt k ((s.r k).ptr p) 64)
  | .acc a => ⟨(s.cx (cidOf k)).reg.acc ((s.r k).rep.rename a), 0⟩
  | _ => ⟨0, 0⟩

end State

/-- A failed access of the keeper raises PAGE whatever failed (R66). -/
def ringTrap (e : XErr) (write : Bool) : TrapInfo := XErr.trap { e with code := .page } false write

/-- `qpush` (R391). -/
def execQpush (q : Queue) (x : Opnd) (s : State) : Res :=
  run (.qpush q x) s fun k =>
    let c := cidOf k
    attempt s (firstOf [trapIf (producer q != qOf k) .illegal, trapIf (qOf k == 2 && s.walkFeeds c q) .illegal,
        s.qOperand k x]) fun _ =>
      match s.push (s.who k) c q (s.qEntry k x) with
      | .ok s => .done (s.retireR k x.ptrs fun r => r)
      | .full => .wait .qFull s
      | .quota _ => .trap (precise .quota) s
      | .page e => .trap (ringTrap e true) s
      | .held h => .wait h s

/-- `qpop` (R391). -/
def execQpop (q : Queue) (x : Opnd) (s : State) : Res :=
  run (.qpop q x) s fun k =>
    let c := cidOf k
    attempt s (firstOf [trapIf (consumer q != qOf k) .illegal, s.qOperand k x]) fun _ =>
      match s.oldest (s.who k) c q with
      | .error none => .wait .qEmpty s
      | .error (some e) => .trap (ringTrap e false) s
      | .ok (e, s') =>
        match x with
        | .acc a =>
          if e.poison ≠ 0 then .trap (precise .poison) s
          else .done ((s'.popped (s.who k) c q).modReg c fun g => g.setAcc ((s.r k).rep.rename a) e.data)
        | .mem p _ => .done (((s'.popped (s.who k) c q).scrPut k ((s.r k).ptr p) e.bytes).retireR k x.ptrs fun r => r)
        | _ => .done s'

/-- The status word of `qstat` (R392). -/
def qStatus (x : Queues) (q : Queue) (seq : Nat) : W64 :=
  BitVec.ofNat 64 ((x.spill q).length * 65536 + b2n (consumer q == seq) * 128 + b2n (producer q == seq) * 64 +
    (x.get q).length)

/-- `qstat` (R392). -/
def execQstat (q : Queue) (s : State) : Res :=
  run (.qstat q) s fun k => .done (s.modR k fun r => { r with s := qStatus (s.queues (cidOf k)) q (qOf k) })

end Sys2Proof.Machine
end

