-- ==== Sys2Proof/Machine/Exchange.lean ====
section
/-! DEFINITION. Exchange phases and router reduction (12_exchange.md; R346 to R349). -/

namespace Sys2Proof.Machine

/-! ## The pattern table (R264) -/

def XEnt.ofWord (w : W64) : XEnt := ⟨fieldN w 16 16, bitN w 13, fieldN w 10 3, fieldN w 0 10⟩

/-- The core that a PEER field or a set bit's core number names (R263). -/
def peerCore (core : Nat) (die : Bool) (peer : Nat) : Nat :=
  if die then dieOf core * Config.dieCores + peer else benchOf core * Config.benchCores + peer

def peerOk (die : Bool) (peer : Nat) : Bool := decide (peer < if die then Config.dieCores else Config.benchCores)

/-- Is an entry word valid after an entry of slot `last`? -/
def entryOk (core : Nat) (o : ExoOp) (last : Option Nat) (w : W64) : Bool :=
  let e := XEnt.ofWord w
  fieldN w 32 32 == 0 && fieldN w 14 2 == 0 && decide (e.kind < 6) && decide (e.slot ≤ o.nslot.toNat) &&
  (match last with | some l => decide (l < e.slot) | none => true) &&
  (!e.op || decide (4 ≤ e.kind)) &&
  (if e.kind < 2 then peerOk o.die e.peer && (State.xchCores core o.die o.set).contains (peerCore core o.die e.peer) &&
      peerCore core o.die e.peer != core
    else e.peer == 0)

/-- The index of the first invalid word from index `i` on. -/
def badEntry (core : Nat) (o : ExoOp) : Nat → Option Nat → List W64 → Option Nat
  | _, _, [] => none
  | i, last, w :: r => if entryOk core o last w then badEntry core o (i + 1) (some (XEnt.ofWord w).slot) r else some i

/-- The first invalid word of a table, its header at index 0. -/
def badWord (core : Nat) (o : ExoOp) : List W64 → Option Nat
  | [] => some 0
  | h :: es => if fieldN h 12 52 ≠ 0 ∨ fieldN h 0 12 = 0 then some 0 else badEntry core o 1 none es

/-! ## The barrier (R265, R266) -/

/-- A core's mesh row and column, each with its bench. -/
def meshRow (core : Nat) : Nat × Nat := (benchOf core, core % Config.benchCores / 8)
def meshCol (core : Nat) : Nat × Nat := (benchOf core, core % 8)

/-- A core's entry for a slot. -/
def Exch.entry (x : Exch) (slot : Nat) : Option XEnt := x.tbl.find? fun e => e.slot == slot

/-- The entries of all participants with their cores. -/
def allEntries (ps : List (Nat × Exch)) : List (Nat × XEnt) := ps.flatMap fun p => p.2.tbl.map fun e => (p.1, e)

/-- The checks of R265 on one entry. -/
def entryMatches (ps : List (Nat × Exch)) (die : Bool) (c : Nat) (e : XEnt) : Bool :=
  let es := allEntries ps
  let row (k : Nat) : List Nat := (es.filter fun f => f.2.kind == k && f.2.slot == e.slot && meshRow f.1 == meshRow c).map Prod.fst
  let col : List (Nat × XEnt) := es.filter fun f => (f.2.kind == 4 || f.2.kind == 5) && f.2.slot == e.slot && meshCol f.1 == meshCol c
  match e.kind with
  | 0 | 1 =>
    let p := peerCore c die e.peer
    match ps.find? fun q => q.1 == p with
    | some q => (match q.2.entry e.slot with
      | some f => f.kind == 1 - e.kind && peerCore c die f.peer == c
      | none => false)
    | none => false
  | 2 | 3 => (row 2).length == 1 && !(row 3).isEmpty
  | _ => (col.filter fun f => f.2.kind == 5).length == 1 && col.all fun f => f.2.op == e.op

def barrierOk (ps : List (Nat × Exch)) : Bool :=
  match ps with
  | [] => false
  | (_, x) :: _ =>
    ps.all (fun p => p.2.die == x.die && p.2.set == x.set && p.2.nslot == x.nslot) &&
    (allEntries ps).all fun f => entryMatches ps x.die f.1 f.2

/-- FADDR of an EXCH that concerns no entry. -/
def exchTrap (off : Option Nat) (reason : Nat) : TrapInfo :=
  ⟨.exch, exchFaddr off reason, reason == 8, 0, [], none, none⟩

namespace State

/-- The barrier of an arrival, where it is complete: its checks pass and the phase is ready, or every participant
raises EXCH with reason 7 (R266, R269). -/
def tryBarrier (s : State) (core : Nat) : State :=
  match (s.co core).xch with
  | none => s
  | some x =>
    let want := s.barrierCores core x
    let ps := s.arrivals.filter fun a => want.contains a.1
    if !(want.all fun c => ps.any fun p => p.1 == c) then s
    else if barrierOk ps then
      let (id, s) := s.fresh
      ps.foldl (fun s p => s.modCo p.1 fun co => { co with xch := some { p.2 with ready := true, pid := id } }) s
    else
      ps.foldl (fun s p => (s.modCo p.1 fun co => { co with xch := none }).modSq p.2.sid fun q => { q with xabort := 7 }) s

/-- An exchange instruction of sequencer k raises what its phase's end has left, or a phase's that ended before its core
arrived there (R270), but not inside an earlier exchange of its own (assumption 89). -/
def abortTrap (s : State) (k : Nat) : Option (TrapInfo × State) :=
  let r := (s.sq k).xabort
  if r ≠ 0 then some (exchTrap none r, s.modSq k fun q => { q with xabort := 0 })
  else if (s.cx (cidOf k)).xowed && (s.xchOf k).isNone then some (exchTrap none 8, s.setOwed (coreK k) false)
  else none

/-! ## `exo` -/

/-- The pattern table's words. -/
def tableWords (s : State) (k : Nat) (p : Ptr) (n : Nat) : List PByte :=
  (s.co (coreK k)).bytes (cidOf k) .x (s.loc k p) (8 * n)

/-- What `exo` waits for before it arrives: the table's words once the earlier operations are visible (R266). -/
def xchOrder (s : State) (k : Nat) : State :=
  [Path.c, .m, .a, .k, .w].foldl (fun s q => s.pwait (cidOf k) q .x) s

def words8 : Nat → List Byte → List W64
  | 0, _ => []
  | n + 1, bs => leBv 64 (bs.take 8) :: words8 n (bs.drop 8)

/-- Checks 2 to 4 of R274, and the table. -/
def exoTable (s : State) (k : Nat) (o : ExoOp) : Chkd (List W64) :=
  let p := (s.r k).ptr o.t.p
  let core := coreK k
  match firstOf [asTrap (spaceChk p (s.lvlK k)), asTrap (rangeChk p (s.winSize k) 8)] with
  | .error t => .error t
  | .ok _ =>
    let n := fieldN (leBv 64 (pdata (s.tableWords k p 1))) 0 12 + 1
    let bs := s.tableWords k p n
    let ws := words8 n (pdata bs)
    match firstOf [asTrap (rangeChk p (s.winSize k) (8 * n)), trapIf (p.base.toNat % 8 != 0) .misalign,
        trapIf (ppoison bs) .poison] with
    | .error t => .error t
    | .ok _ =>
      if !(State.xchCores core o.die o.set).contains core then .error (exchTrap none 9)
      else match badWord core o ws with
        | some i => .error (exchTrap (some (p.base.toNat + 8 * i)) 6)
        | none => .ok ws

/-- Arrive at the barrier. -/
def exoArrive (s : State) (k : Nat) (o : ExoOp) (ws : List W64) : State :=
  let x : Exch := {
    sid := k, die := o.die, set := o.set, nslot := o.nslot, tbl := (ws.drop 1).map XEnt.ofWord
    tblOff := ((s.r k).ptr o.t.p).base.toNat, next := 0, ready := false, pid := 0, opened := false, windows := 0, rx := none
    landed := false, sent := false }
  (s.modCo (coreK k) fun co => { co with xch := some x }).tryBarrier (coreK k)

/-- The end of `exo`: the phase opens for the sequencer at T0. -/
def exoWait (s : State) (k : Nat) (o : ExoOp) : Out :=
  match s.abortTrap k with
  | some (t, s) => .trap t s
  | none => match (s.co (coreK k)).xch with
    | some x =>
      if x.windows = 0 then .wait .exchWait s
      else .done ((s.modCo (coreK k) fun co => { co with xch := some { x with opened := true } }).retireR k [o.t] fun r => r)
    | none => .wait .exchWait s

end State

/-- `exo` (R346). One that the exchanging sequencer executes while its earlier `exo` waits, as in a trap handler, is that same
`exo` (assumption 100). -/
def execExo (o : ExoOp) (s : State) : Res :=
  run (.exo o) s fun k =>
    match s.abortTrap k with
    | some (t, s) => .trap t s
    | none => match (s.co (coreK k)).xch with
      | some x => if x.sid = k then s.exoWait k o else .wait .exchWait s
      | none =>
        let s' := s.xchOrder k
        attempt s (s'.exoTable k o) fun ws => (s'.exoArrive k o ws).exoWait k o

/-! ## `exs`, `exr`, `exred` (R347) -/

/-- The next entry of the sequencer's open phase, with the checks of R274: reasons 8, 1, 2 and 3, then the operand. A
failed check aborts the phase. -/
def State.exNext (s : State) (k : Nat) (p : PtrOp) (slot : W16) (kind : XEnt → Bool) :
    Except (TrapInfo × State) (Exch × XEnt) :=
  let ptr := (s.r k).ptr p.p
  match s.abortTrap k with
  | some e => .error e
  | none => match s.openPhaseOf k with
    | none => .error (exchTrap none 1, s.xchCut k)
    | some x =>
      let s' := s.xchAbort (coreK k)
      match x.tbl[x.next]? with
      | none => .error (exchTrap none 2, s')
      | some e =>
        if e.slot ≠ slot.toNat then .error (exchTrap x.entryOff 2, s')
        else if !kind e then .error (exchTrap x.entryOff 3, s')
        else match s.scrChk k ptr 64 16 false with
          | .error t => .error (t, s')
          | .ok _ => .ok (x, e)

def State.setXch (s : State) (core : Nat) (x : Exch) : State := s.modCo core fun co => { co with xch := some x }

/-- An exchange instruction retires: the next entry, the pointer. -/
def State.exDone (s : State) (k : Nat) (x : Exch) (p : PtrOp) : Out :=
  .done ((s.setXch (coreK k) { x with next := x.next + 1, rx := none, landed := false, sent := false }).retireR k [p] fun r => r)

/-- 64 bytes at the pointer leave the core for their receivers. -/
def State.exSend (s : State) (k : Nat) (p : PtrOp) (x : Exch) (e : XEnt) (dsts : List Nat) : State :=
  let bs := s.scrRead (cidOf k) .x (s.loc k ((s.r k).ptr p.p)) 64
  s.modSch fun h => { h with xfers := h.xfers ++ [⟨x.pid, coreK k, e.slot, e.kind, e.op, e.peer, bs, dsts⟩] }

/-- Participants of the core's phase whose entry for the slot, not yet executed, satisfies `p`. -/
def State.exPeers (s : State) (core slot : Nat) (x : Exch) (p : Nat → XEnt → Bool) : List Nat :=
  (s.xchPeers core x).filter fun c => match (s.co c).xch with
    | some y => (y.tbl.drop y.next).any fun e => e.slot == slot && p c e
    | none => false

/-- `exs` (R347). -/
def execExs (p : PtrOp) (slot : W16) (s : State) : Res :=
  run (.exs p slot) s fun k =>
    match s.exNext k p slot fun e => e.kind == 0 || e.kind == 2 with
    | .error (t, s) => .trap t s
    | .ok (x, e) =>
      let core := coreK k
      if x.windows ≤ e.slot then .wait .exchWait s
      else
        let dsts := if e.kind = 0 then [peerCore core x.die e.peer]
          else s.exPeers core e.slot x fun c f => f.kind == 3 && meshRow c == meshRow core
        (s.exSend k p x e dsts).exDone k x p

/-- Wait until something has landed at the pointer. -/
def State.exLanding (s : State) (k : Nat) (x : Exch) (p : PtrOp) : Out :=
  if x.landed then s.exDone k x p
  else .wait .exchWait (s.setXch (coreK k) { x with rx := some (s.loc k ((s.r k).ptr p.p)) })

/-- `exr` (R347). -/
def execExr (p : PtrOp) (slot : W16) (s : State) : Res :=
  run (.exr p slot) s fun k =>
    match s.exNext k p slot fun e => e.kind == 1 || e.kind == 3 with
    | .error (t, s) => .trap t s
    | .ok (x, e) => if x.windows ≤ e.slot then .wait .exchWait s else s.exLanding k x p

/-- `exred` (R347): RED contributes; ROOT contributes once and waits for the result. -/
def execExred (bint : Bool) (p : PtrOp) (slot : W16) (s : State) : Res :=
  run (.exred bint p slot) s fun k =>
    match s.exNext k p slot fun e => (e.kind == 4 || e.kind == 5) && e.op == bint with
    | .error (t, s) => .trap t s
    | .ok (x, e) =>
      let core := coreK k
      if x.windows ≤ e.slot then .wait .exchWait s
      else if e.kind = 4 then
        (s.exSend k p x e (s.exPeers core e.slot x fun c f => f.kind == 5 && meshCol c == meshCol core)).exDone k x p
      else if x.sent then s.exLanding k x p
      else (s.exSend k p x e [core]).exLanding k { x with sent := true } p

/-- `exc` (R348): sends have left the core when their instructions completed. -/
def execExc (s : State) : Res :=
  run .exc s fun k =>
    match s.abortTrap k with
    | some (t, s) => .trap t s
    | none => match s.openPhaseOf k with
      | none => .trap (exchTrap none 1) (s.xchCut k)
      | some x =>
        match x.entryOff with
        | some o => .trap (exchTrap (some o) 5) (s.xchAbort (coreK k))
        | none => .done ((s.modCo (coreK k) fun co => { co with xch := none }).pwait (cidOf k) .x (pathOf (qOf k)))

/-! ## Events -/

/-- Change the exchange of every participant of a core's phase. -/
def State.xchAll (s : State) (core : Nat) (x : Exch) (f : Exch → Exch) : State :=
  (s.xchPeers core x).foldl (fun s c => s.modCo c fun co => { co with xch := co.xch.map f }) s

def State.xchAt (s : State) (core : Nat) (p : Exch → Bool) : Option Exch :=
  match (s.co core).xch with
  | some x => if p x then some x else none
  | none => none

/-- T0 of a core's phase: the window of slot 0 starts for every participant (R266, R267). -/
def execExchangeT0 (core : Nat) (s : State) : Res :=
  happens s (s.xchAt core fun x => x.ready && x.windows == 0) fun x => s.xchAll core x fun y => { y with windows := 1 }

/-- The next slot's window starts (R267). -/
def execSlotWindowStart (core : Nat) (s : State) : Res :=
  happens s (s.xchAt core fun x => decide (0 < x.windows) && decide (x.windows ≤ x.nslot.toNat)) fun x =>
    s.xchAll core x fun y => { y with windows := y.windows + 1 }

/-- What lands at a core's pointer, for the slot that it waits at (R268). -/
def State.rxAt (s : State) (core slot : Nat) (p : XEnt → Bool) : Option (Exch × Loc) :=
  match (s.co core).xch with
  | some x => match x.rx, x.tbl[x.next]? with
    | some l, some e => if e.slot == slot && p e && !x.landed then some (x, l) else none
    | _, _ => none
  | none => none

def State.exLand (s : State) (core : Nat) (x : Exch) (l : Loc) (bs : List PByte) : State :=
  (s.scrWrite (cidOf x.sid) .x l bs).setXch core { x with landed := true }

/-- A receiver has its transfer; one that all have goes. -/
def State.received (s : State) (core pid slot : Nat) : State :=
  s.modSch fun h => { h with xfers := (h.xfers.map fun (t : Xfer) =>
    if t.pid == pid && t.slot == slot && t.kind < 4 then { t with dsts := t.dsts.filter (· != core) } else t).filter fun t => !t.dsts.isEmpty }

/-- A unicast or a multicast lands whole at its receiver (R268). -/
def execExchangeTransferLanding (core slot : Nat) (s : State) : Res :=
  match s.rxAt core slot fun e => e.kind == 1 || e.kind == 3 with
  | none => .next s
  | some (x, l) =>
    happens s (s.sch.xfers.find? fun t => t.pid == x.pid && t.slot == slot && decide (t.kind < 4) && t.dsts.contains core)
      fun t => (s.exLand core x l t.data).received core x.pid slot

/-- A reduction's result (R268): the fold of each lane, from the northernmost contribution on. -/
def reduction (op : Bool) (ts : List Xfer) : List PByte :=
  let ts := sortBy (fun a b => decide (a.src ≤ b.src)) ts
  let ls := ts.map fun t => lanes (ofBytes (pdata t.data))
  let poison := ts.any fun t => ppoison t.data
  (lineBytes (ofLanes ((List.range 16).map fun i => foldLane op (ls.map fun l => l.getD i 0)))).map fun b => (b, poison)

/-- The cinches fold a slot's contributions once all have been read, and the result lands at the ROOT (R268). -/
def execExchangeReduction (core slot : Nat) (s : State) : Res :=
  match s.rxAt core slot (fun e => e.kind == 5) with
  | none => .next s
  | some (x, l) =>
    let mine (t : Xfer) : Bool := t.pid == x.pid && t.slot == slot && decide (4 ≤ t.kind) && t.dsts == [core]
    let ts := s.sch.xfers.filter mine
    -- a contribution that is still to come: an entry not yet executed
    let rest := s.exPeers core slot x fun c f => c != core && (f.kind == 4) && meshCol c == meshCol core
    let op := match x.tbl[x.next]? with | some e => e.op | none => false
    if rest.isEmpty && ts.any (fun t => t.src == core) then
      .next ((s.exLand core x l (reduction op ts)).modSch fun h => { h with xfers := h.xfers.filter fun t => !mine t })
    else .next s

end Sys2Proof.Machine
end

