-- ==== Sys2Proof/Machine/Tile.lean ====
section
/-! DEFINITION. The tile command (R190 to R197, R216 to R218, R376, R377), and `tfetch` and `trel` (R149, R405). -/

namespace Sys2Proof.Machine

/-! ## The layouts (R190) -/

/-- Bytes that operand A spans, and operand B. -/
def tileA (o : MtileOp) : Nat :=
  match o.spa.toNat with
  | 1 => 256
  | 2 => 512
  | _ => if o.ty == .t2 then 1012 else 1024

def tileB (o : MtileOp) : Nat := if o.ty == .t2 then 4096 else if o.spa == 1 then 512 else 1024

/-- Bytes from one row of A to the next, and the logical K. -/
def tileRow (o : MtileOp) : Nat := match o.spa.toNat with | 1 => 16 | 2 => 32 | _ => 64
def tileK (o : MtileOp) : Nat :=
  if o.ty == .t2 then 256 else if o.ty == .bf16 || o.spa == 1 then 32 else 64

/-! ## Geometry (R194, R195) -/

/-- Key base and masks of a command. -/
structure TileKey where
  row : W32
  cblk : W32
  rmask : Nat → Bool
  lmask : W16

def lmaskBelow (p : Nat → Bool) : W16 := maskBits ((List.range 16).map p)

def tileKey (g : CtxReg) (o : MtileOp) : TileKey :=
  if o.geo then
    let iy := fieldN g.geo1 32 32
    let ix := fieldN g.geo1 0 32
    { row := BitVec.ofNat 32 (iy * 16), cblk := BitVec.ofNat 32 ix
      rmask := fun r => decide (iy * 16 + r < fieldN g.geo3 43 21)
      lmask := lmaskBelow fun l => decide (ix * 16 + l < fieldN g.geo3 22 21) }
  else
    let ms := o.masks.getD (0xFFFF, 0xFFFF)
    { row := o.row, cblk := o.cblk, rmask := fun r => ms.1.getLsbD r, lmask := ms.2 }

/-- Are the operands read (R195)? -/
def tileReads (g : CtxReg) (o : MtileOp) : Bool :=
  !o.geo || (fieldN g.geo3 43 21 != 0 && fieldN g.geo3 22 21 != 0 && fieldN g.geo3 0 22 != 0)

/-- The zeros of an overwrite form with K = 0. -/
def tileZeros (g : CtxReg) (o : MtileOp) : Bool := o.ovw && fieldN g.geo3 43 21 != 0 && fieldN g.geo3 22 21 != 0

/-- The tuples of a command whose cells are `c` (R192). -/
def tileTuples (key : TileKey) (ow : Bool) (c : Nat → Nat → W32) : List Tuple :=
  if key.lmask = 0 then []
  else ((List.range 16).filter key.rmask).map fun r =>
    ⟨key.row + BitVec.ofNat 32 r, key.cblk, key.lmask, ofLanes ((List.range 16).map (c r)), ow⟩

/-! ## The cells (R191, R217) -/

/-- The masks of row r: its groups in order (R216). -/
def tileMasks (g : CtxReg) (o : MtileOp) (macc : BitVec 2) (r : Nat) : List Nat :=
  let of (a : BitVec 2) : List Nat := (List.range 4).map fun i => fieldN (lane (g.acc a) r) (8 * i) 8
  if o.spa == 2 then of macc ++ of (macc + 1) else of macc

/-- A sparse row expanded: stored bytes fill the set positions (R217). -/
def expandRow : List Nat → List Nat → List Nat
  | [], _ => []
  | m :: ms, bs =>
    let row := (List.range 8).foldl (fun (st : List Nat × List Nat) b =>
      if m.testBit b then (st.1 ++ [st.2.headD 0], st.2.drop 1) else (st.1 ++ [0], st.2)) ([], bs.take 4)
    row.1 ++ expandRow ms (bs.drop 4)

/-- Bytes as numbers. -/
def byteNats (bs : List Byte) : List Nat := bs.map BitVec.toNat

/-- Row r of A as encodings, in logical order. -/
def rowA (g : CtxReg) (t : TileIn) (a : List Byte) (r : Nat) : List Nat :=
  let bs := (a.drop (tileRow t.op * r)).take (tileRow t.op)
  if t.op.spa ≠ 0 then expandRow (tileMasks g t.op t.macc r) (byteNats bs) else elems t.op.ty (tileK t.op) bs

/-- Column j of B. -/
def colB (t : TileIn) (b : List Byte) (j : Nat) : List Nat :=
  let ty := if t.op.ty == .t2 then ElemTy.i8 else t.op.ty
  elems ty (tileK t.op) (b.drop (tileK t.op * ty.bytes * j))

/-- The trits of row r of a T2 operand. -/
def rowTrits (a : List Byte) (r : Nat) : List Int :=
  (((a.drop (64 * r)).take 52).flatMap fun b => (tritDecode b.toNat).getD []).take 256

/-- The exponent of the block scale over byte `i` of an operand; words in order of their chunks. -/
def scaleAt (ws : List W32) (i : Nat) : Int :=
  match ws[i / 512]? with
  | some w => (fieldN w 0 8 : Int) - 127
  | none => 0

def tileCell (g : CtxReg) (t : TileIn) (a b : List Byte) (wa wb : List W32) (r j : Nat) : W32 :=
  match t.op.ty with
  | .t2 => tritDot (rowTrits a r) (colB t b j)
  | .bf16 => bf16Dot (rowA g t a r) (colB t b j)
  | ty => roundFP32 (exactDot ty (rowA g t a r) (colB t b j) (scaleAt wa (tileRow t.op * r))
      (scaleAt wb (tileK t.op * j)))

/-! ## Checks 1 to 4 (R196) -/

/-- The space and range of an operand (R52, R122); a scaled one lies in scratchpad. -/
def tileSpace (p : Ptr) (lvlK scaled : Bool) (winSize n : Nat) : Chk :=
  if p.space == .g then (if scaled then some (.window, 0) else none) else scrCheck p lvlK winSize n

def tileAlign (p : Ptr) (scaled : Bool) : Chkd Unit := trapIf (p.base.toNat % (if scaled then 512 else 64) != 0) .misalign

namespace State

/-- A G operand's pages. -/
def tilePages (s : State) (k : Nat) (p : Ptr) (n : Nat) : Chkd (List Xl × State) :=
  if p.space == .g then s.pages k p.base n .tile else .ok ([], s)

/-- Checks 1 to 4 of R196 for sequencer k. -/
def tileCheck (s : State) (k : Nat) (o : MtileOp) (pa pb : Ptr) : Chkd (TileIn × State) :=
  let c := cidOf k
  let modeBad := match (s.cx c).j.part with
    | none => true
    | some p => p.i32 != (o.ty == .t2)
  let sp (p : Ptr) (sc : Bool) (n : Nat) := asTrap (tileSpace p (s.lvlK k) sc (s.winSize k) n)
  match firstOf [trapIf modeBad .illegal, sp pa o.sca (tileA o), sp pb o.scb (tileB o), tileAlign pa o.sca,
      tileAlign pb o.scb] with
  | .error t => .error t
  | .ok _ => match s.tilePages k pa (tileA o) with
    | .error t => .error t
    | .ok (ga, s) => match s.tilePages k pb (tileB o) with
      | .error t => .error t
      | .ok (gb, s) => .ok (⟨o, pa, pb, ga, gb, (s.r k).rep.rename o.macc⟩, s)

/-! ## Checks 5 to 8 -/

/-- An operand's bytes on path m. -/
def tileBytes (s : State) (k : Nat) (p : Ptr) (g : List Xl) (n : Nat) : List PByte :=
  if p.space == .g then (List.range n).map fun i => s.h.byte (xlAt g p.base i) 0
  else s.scrRead (cidOf k) .m (s.loc k p) n

/-- The bytes of operand A that are read: of a T2 row, bytes 0 to 51 (R190). -/
def tileRead (o : MtileOp) (a : List PByte) : List PByte :=
  if o.ty == .t2 then ((List.range a.length).zip a |>.filter fun e => decide (e.1 % 64 < 52)).map Prod.snd else a

/-- What holds a page of a G operand: the lehr's refresh or a near-memory command (R131, R251). -/
def tileHeld (s : State) (t : TileIn) : Option Cause := (t.ga ++ t.gb).findSome? fun x => s.readHeld x.ha

/-- Scale words that an operand takes. -/
def tileScales (sc : Bool) (n : Nat) : Nat := if sc then (n + 511) / 512 else 0

/-- The check of one scale word (R78): its number must stand recorded for its bit. -/
def scaleOk (s : State) (c : Nat) (e : SEnt) : Bool :=
  Tab.get none (s.cx c).reg.smSeq (e.map.toNat * 64 + e.bit) == some (bits e.word 8 16) &&
  fieldN e.word 24 8 == 0 && fieldN e.word 0 8 != 255

/-- FADDR of the first mask whose population count is not 4 (R218). -/
def badMask (g : CtxReg) (t : TileIn) : Option W64 :=
  (List.range 16).findSome? fun l =>
    ((List.range (tileMasks g t.op t.macc l).length).zip (tileMasks g t.op t.macc l)).findSome? fun (i, m) =>
      if (((List.range 8).filter m.testBit).length) = 4 then none
      else some (0xFFFFFFFFFFFFF000 + BitVec.ofNat 64 ((t.macc + BitVec.ofNat 2 (i / 4)).toNat * 256 + l * 16 + i % 4))

/-- Where the first byte stands that is no T2 byte, among those that are read: bytes 0 to 51 of each row (R75, R189). -/
def badTrit (a : List Byte) : Option Nat :=
  (List.range 1024).find? fun i => decide (i % 64 < 52) && decide (243 ≤ (a.getD i 0).toNat)

/-- What a command comes to when it is issued to the matrix unit. -/
inductive TileRes where
  | trap (t : TrapInfo)
  | wait (c : Cause)
  | go (s : State) (ts : List Tuple)

/-- Steps 5 to 8 of R196 and the command's tuples; its scale words are popped. -/
def tileRun (s : State) (k : Nat) (t : TileIn) : TileRes :=
  let c := cidOf k
  let g := (s.cx c).reg
  let o := t.op
  let key := tileKey g o
  if !tileReads g o then .go s (if tileZeros g o then tileTuples key true fun _ _ => 0 else [])
  else match s.tileHeld t with
  | some c => .wait c
  | none =>
    let na := tileScales o.sca (tileA o)
    let nb := tileScales o.scb (tileB o)
    let q := (s.cx c).q.scale
    if q.length < na + nb then .wait .qEmpty
    else
      let es := q.take (na + nb)
      let a := s.tileBytes k t.pa t.ga (tileA o)
      let b := s.tileBytes k t.pb t.gb (tileB o)
      if !es.all (s.scaleOk c) then .trap (precise .scale)
      else match (if o.ty == .t2 then (badTrit (pdata a)).map fun i => t.pa.base + BitVec.ofNat 64 i
          else if o.spa ≠ 0 then badMask g t else none) with
        | some f => .trap (precise .metaErr f)
        | none =>
          if ppoison (tileRead o a) || ppoison b || es.any SEnt.poison then .trap (precise .poison)
          else
            let ws := es.map SEnt.word
            .go (s.modQ c fun x => { x with scale := x.scale.drop (na + nb) })
              (tileTuples key o.ovw (tileCell g t (pdata a) (pdata b) (ws.take na) (ws.drop na)))

/-- The B operand that a T2 command reads in scratchpad stays held (R190). -/
def tileHold (s : State) (k : Nat) (t : TileIn) : State :=
  if t.op.ty == .t2 && t.pb.space != .g && tileReads (s.cx (cidOf k)).reg t.op then
    s.modCo (coreK k) fun co => { co with bhold := some ⟨s.loc k t.pb, ctxnK k⟩ }
  else s

/-! ## Pinning (R149, R405) -/

/-- Lines pinned on a core, ahead by `tfetch` or for a command. -/
def pinned (s : State) (core : Nat) : Nat :=
  ((List.range Config.ctxs).map fun n =>
    let x := s.cx (cidAt core n)
    x.tpins.length + (x.j.cmds.map fun m => m.pins.length).foldl (· + ·) 0).foldl (· + ·) 0

/-- Does a command of the core hold pins? -/
def cmdPins (s : State) (core : Nat) : Bool :=
  (List.range Config.ctxs).any fun n => (s.cx (cidAt core n)).j.cmds.any fun m => !m.pins.isEmpty

/-- The lines of its G operands that a command pins itself, A before B, in ascending order: those of all the bytes that
R190 lays out (assumption 102). -/
def tileLines (s : State) (c : Nat) (t : TileIn) : List Nat :=
  let ls (p : Ptr) (g : List Xl) (n : Nat) : List Nat :=
    if p.space == .g then (List.range ((n + 63) / 64)).map fun i => lineOf (xlAt g p.base (64 * i)).ha else []
  (ls t.pa t.ga (tileA t.op) ++ ls t.pb t.gb (tileB t.op)).eraseDups.filter fun l => !(s.cx c).tpins.any fun p => p.2 == l

/-- The lines that a command pins now: none while they outnumber the free pins and an earlier command holds some. -/
def tilePins (s : State) (c : Nat) (t : TileIn) : Option (List Nat) :=
  let ls := if tileReads (s.cx c).reg t.op then s.tileLines c t else []
  let free := Config.pinCap - s.pinned (coreOf c)
  if free < ls.length && s.cmdPins (coreOf c) then none else some (ls.take free)

/-- Hand a command's tuples to the JAF. -/
def tileIssue (s : State) (c src q : Nat) (ts : List Tuple) (pins : List Nat) : State :=
  let (n, s) := s.fresh
  s.jafIssue c ⟨src, q, ts, false, n, true, pins⟩

end State

/-- `mtile` (R376). -/
def execMtile (o : MtileOp) (s : State) : Res :=
  run (.mtile o) s fun k =>
    attempt s (s.tileCheck k o ((s.r k).ptr o.a.p) ((s.r k).ptr o.b.p)) fun (t, s') =>
      match s'.tilePins (cidOf k) t with
      | none => .wait .waitMc s'
      | some ls => match s'.tileRun k t with
        | .trap t => .trap t s
        | .wait c => .wait c s'
        | .go s ts =>
          let s := (s.tileHold k t).tileIssue (cidOf k) (qOf k) (qOf k) ts ls
          .done ((s.modN (cidOf k) fun n => { n with mc := n.mc + 1 }).retireR k [o.a, o.b] fun r => r)

/-- Pin lines in order while the core's budget lasts. -/
def State.pinLines (s : State) (c : Nat) : List (W64 × Nat) → State
  | [] => s
  | l :: r =>
    if (s.cx c).tpins.any fun p => p.2 == l.2 then s.pinLines c r
    else if s.pinned (coreOf c) < Config.pinCap then (s.modCx c fun x => { x with tpins := x.tpins ++ [l] }).pinLines c r
    else s

/-- The start of the line that holds an address. -/
def lineStart (va : W64) : W64 := va &&& ~~~(63 : W64)

/-- `tfetch` (R405). -/
def execTfetch (p : BitVec 3) (n : W16) (s : State) : Res :=
  run (.tfetch p n) s fun k =>
    let pg := (s.r k).ptr p
    attempt s (onlyG pg (s.lvlK k)) fun _ => attempt s (s.pages k pg.base (64 * n.toNat) .tile) fun (ps, s) =>
      .done (s.pinLines (cidOf k) ((List.range n.toNat).map fun i =>
        (lineStart pg.base + BitVec.ofNat 64 (64 * i), lineOf (xlAt ps (lineStart pg.base) (64 * i)).ha)))

/-- `trel` (R405): the pins that were taken at its lines' addresses go, whatever these map to now, and those on the lines
to which they map. -/
def execTrel (p : BitVec 3) (n : W16) (s : State) : Res :=
  run (.trel p n) s fun k =>
    let pg := (s.r k).ptr p
    attempt s (onlyG pg (s.lvlK k)) fun _ =>
      let vas := (List.range n.toNat).map fun i => lineStart pg.base + BitVec.ofNat 64 (64 * i)
      let ls := vas.filterMap fun va => match s.translateOne (s.who k) va .tile with
        | .ok (x, _) => some (lineOf x.ha)
        | .error _ => none
      .done (s.modCx (cidOf k) fun x => { x with tpins := x.tpins.filter fun p => !vas.contains p.1 && !ls.contains p.2 })

end Sys2Proof.Machine
end

