-- ==== Sys2Proof/Machine/Jaf.lean ====
section
/-! DEFINITION. The JAF instructions (R199, R204 to R215, R356 to R365) and the application of tuples (R200 to R203). -/

namespace Sys2Proof.Machine

/-! ## Bytes of a translated range -/

namespace State

/-- Bytes `off` on of a range are written at their homes, page by page. -/
def pagesWrite (s : State) (pages : List Xl) (va : W64) (off : Nat) (bs : List PByte) : State :=
  let o := va.toNat % 4096 + off
  (List.range (pages.length)).foldl (fun s j =>
    let lo := max (j * 4096) o
    let hi := min ((j + 1) * 4096) (o + bs.length)
    if lo < hi then
      let x := pages.getD j ⟨0, 0, false, 0⟩
      s.homeSend { x with ha := x.ha + lo % 4096 } ((bs.drop (lo - o)).take (hi - lo))
    else s) s

/-- The lines of a range. -/
def pagesLines (pages : List Xl) (va : W64) (off n : Nat) : List Nat :=
  let first := (va.toNat + off) / 64
  (List.range ((va.toNat + off + n + 63) / 64 - first)).map fun i =>
    lineOf (xlAt pages va ((first + i) * 64 - va.toNat)).ha

/-- Does a home hold back a line of the range? -/
def pagesHeld (s : State) (pages : List Xl) (va : W64) (off n : Nat) : Bool := (pagesLines pages va off n).any s.writeHeld

/-- A context's write of a range at its homes; no cached copy changes (R153, R339). -/
def pagesPut (s : State) (c : Nat) (pages : List Xl) (va : W64) (off : Nat) (bs : List PByte) : State :=
  (s.pagesWrite pages va off bs).noteHomed (coreOf c) (pagesLines pages va off bs.length)

/-! ## Claims (R199, R360) -/

/-- The parked updates go; `mc` falls by the commands to which they belong. A `joins` that still runs goes on (R360). -/
def jafDiscard (s : State) (c : Nat) : State :=
  if (s.cx c).j.parked then
    s.modCx c fun x => { x with
      n := { x.n with mc := x.n.mc - (x.j.cmds.filter fun m => m.counted && !m.tuples.isEmpty).length }
      j := { x.j with
        cmds := (x.j.cmds.filter fun m => m.more || m.tuples.isEmpty).map fun m =>
          if m.tuples.isEmpty then m else { m with tuples := [], counted := false }
        cur := x.j.cur.filter fun i => x.j.cmds.any fun m => m.id == i && (m.more || m.tuples.isEmpty), parked := false } }
  else s

/-- The partitions of the core's other contexts. -/
def otherParts (s : State) (c : Nat) : List JPart :=
  ((List.range Config.ctxs).filter (· != ctxnOf c)).filterMap fun n => (s.cx (cidAt (coreOf c) n)).j.part

/-- Release a partition of the other size; the ring's place stays. -/
def jafShed (s : State) (c : Nat) (all : Bool) : State :=
  match (s.cx c).j.part with
  | some p =>
    if p.all == all then s
    else (s.modCo (coreOf c) fun co => co.clearPart p (ctxnOf c)).modJ c fun j => { j with part := none }
  | none => s

/-- Claim and clear the partition; the ring's records go. -/
def jafClaim (s : State) (c : Nat) (p : JPart) : State :=
  ((s.ringSettle c).modCo (coreOf c) fun co => co.clearPart p (ctxnOf c)).modJ c fun j => { j with part := some p, ring := [] }

end State

/-- `jinit` (R360). -/
def execJinit (all i32 : Bool) (s : State) : Res :=
  run (.jinit all i32) s fun k =>
    let c := cidOf k
    let s := s.jafDiscard c
    if (s.cx c).n.mc ≠ 0 then .wait .waitMc s
    else
      let s := s.jafShed c all
      let others := s.otherParts c
      if (if all then !others.isEmpty else others.any JPart.all) then .wait .jafProbe s
      else .done (s.jafClaim c ⟨all, i32⟩)

/-! ## Keys (R357, R359) -/

/-- The partition, where it is held in this mode. -/
def State.jafPart (s : State) (c : Nat) (t : ElemTy) : Chkd JPart :=
  match (s.cx c).j.part with
  | some p => if p.i32 == (t == .i32) then .ok p else .error (precise .illegal)
  | none => .error (precise .illegal)

/-- A key's row and column block (R214). -/
def State.jafKey (s : State) (k : Nat) (p : PtrOp) : Chkd (W32 × W32) :=
  match s.scrVal k ((s.r k).ptr p.p) 8 8 false with
  | .error t => .error t
  | .ok b => .ok (leBv 32 (b.take 4), leBv 32 (b.drop 4))

/-- `jadd` (R357): the update is complete before the next instruction. It waits for what the sequencer issued before, for
the command that the JAF applies (R207), and while updates are parked, until they resume (assumption 70). -/
def execJadd (a : BitVec 2) (p : PtrOp) (t : ElemTy) (s : State) : Res :=
  run (.jadd a p t) s fun k =>
    let c := cidOf k
    attempt s (s.jafPart c t) fun part => attempt s (s.jafKey k p) fun key =>
      let j := (s.cx c).j
      if j.parked || !s.jafFree c (qOf k) s.nextId || (s.jafHead c (qOf k)).isSome then .wait .jafProbe s
      else
        let g := (s.cx c).reg
        if g.m = 0 then .done (s.retireR k [p] fun r => r)
        else
          let tup : Tuple := ⟨key.1, key.2, g.m, g.acc ((s.r k).rep.rename a), false⟩
          match s.ringHeld c (qOf k) part tup, s.jafPlace c (qOf k) part tup with
          | some w, _ => .wait w s
          | none, (s, none) => .done (s.retireR k [p] fun r => r)
          | none, (_, some f) => .trap (precise .spill f) s

/-- `jget` (R359). -/
def execJget (a : BitVec 2) (p : PtrOp) (t : ElemTy) (s : State) : Res :=
  run (.jget a p t) s fun k =>
    let c := cidOf k
    attempt s (s.jafPart c t) fun part => attempt s (s.jafKey k p) fun key =>
      let e := (s.co (coreOf c)).findKey part (ctxnOf c) key.1 key.2
      let v : Line := match e with
        | some (_, w) => ofLanes ((List.range 16).map fun l => if w.mask.getLsbD l then lane w.lanes l else 0)
        | none => 0
      .done ((s.modReg c fun g => g.setAcc ((s.r k).rep.rename a) v).retireR k [p] fun r =>
        { r with fl := ⟨e.isNone, false, false, false⟩ })

/-! ## Draining (R204 to R206) -/

/-- Fold one more record of a key (R206). -/
def addRec (ws : List Way) (r : RingRec) : List Way :=
  if ws.any fun w => w.row == r.t.row && w.cblk == r.t.cblk then
    ws.map fun w => if w.row == r.t.row && w.cblk == r.t.cblk then w.combine r.t r.i32 else w
  else ws ++ [r.t.insert]

/-- Every key's value: the table's entries and the folds of the ring's unconsumed records. -/
def State.jafEntries (s : State) (c : Nat) : List Way :=
  match (s.cx c).j.part with
  | some p => ((s.co (coreOf c)).ways p (ctxnOf c)).map Prod.snd ++ (s.cx c).j.live.foldl addRec []
  | none => []

/-- Ascending order of row ∥ cblk. -/
def Way.key (w : Way) : Nat := w.row.toNat * 2 ^ 32 + w.cblk.toNat

/-- A lane of a drained value. -/
def Way.drained (w : Way) (l : Nat) : W32 := if w.mask.getLsbD l then lane w.lanes l else 0

/-- The 80 B record of `jdrain.t`. -/
def Way.record (w : Way) : List Byte :=
  bvLe 4 w.row ++ bvLe 4 w.cblk ++ bvLe 2 w.mask ++ List.replicate 6 0 ++ (List.range 16).flatMap fun l => bvLe 4 (w.drained l)

/-- The destination of a drain after its checks. -/
inductive DrainDst where
  | scr (l : Loc)
  | glob (va : W64) (ps : List Xl)

/-- Checks 2 and 3 of R358. -/
def drainChk (p : Ptr) (lvlK : Bool) : Chkd Unit :=
  firstOf [asTrap (if p.space == .g then none else spaceChk p lvlK), trapIf (p.base.toNat % 16 != 0) .misalign]

/-- The check of the output's bytes. -/
def State.drainDst (s : State) (k : Nat) (p : Ptr) (n : Nat) : Chkd (DrainDst × State) :=
  if p.space == .g then
    match s.pages k p.base n .write with
    | .error t => .error t
    | .ok (ps, s) => .ok (.glob p.base ps, s)
  else match rangeChk p (s.winSize k) n with
    | some (t, f) => .error (precise t f)
    | none => .ok (.scr (s.loc k p), s)

def State.drainHeld (s : State) (d : DrainDst) (n : Nat) : Bool :=
  match d with
  | .scr _ => false
  | .glob va ps => s.pagesHeld ps va 0 n

/-- The output lands on path m. -/
def State.drainOut (s : State) (c : Nat) (d : DrainDst) (bs : List Byte) : State :=
  match d with
  | .scr l => s.scrWrite c .m l (clean bs)
  | .glob va ps => s.pagesPut c ps va 0 (clean bs)

/-- The mould of both drains: the output's bytes, what is emptied, and the count for s. -/
def drain (i : Instr) (s : State) (p : BitVec 3) (out : Nat → State → List Byte × (State → State) × Nat) : Res :=
  run i s fun k =>
    let c := cidOf k
    let pn := (s.r k).ptr p
    attempt s (firstOf [trapIf (s.cx c).j.part.isNone .illegal, drainChk pn (s.lvlK k)]) fun _ =>
      if (s.cx c).n.mc ≠ 0 then .wait .waitMc s
      else
        let (bs, after, n) := out k s
        attempt s (s.drainDst k pn bs.length) fun (d, s) =>
          if s.drainHeld d bs.length then .wait .waitMc s
          else .done ((after (s.drainOut c d bs)).modR k fun r => { r with s := BitVec.ofNat 64 n })

/-- The table, the flags and the ring's records go. -/
def State.jafEmpty (s : State) (c : Nat) : State :=
  match (s.cx c).j.part with
  | some p =>
    ((s.ringSettle c).modCo (coreOf c) fun co => co.clearPart p (ctxnOf c)).modJ c fun j => { j with ring := [] }
  | none => s

/-- `jdrain.t` (R204). -/
def execJdrainT (p : BitVec 3) (s : State) : Res :=
  drain (.jdrainT p) s p fun k s =>
    let es := sortBy (fun a b => decide (Way.key a ≤ Way.key b)) (s.jafEntries (cidOf k))
    (es.flatMap Way.record, fun s => s.jafEmpty (cidOf k), es.length)

/-- Remove keys from the table and mark their ring records consumed (R205). -/
def State.jafTake (s : State) (c : Nat) (mine : W32 → W32 → Bool) : State :=
  let inPart : List Nat := match (s.cx c).j.part with
    | some p => ((s.co (coreOf c)).ways p (ctxnOf c)).map Prod.fst
    | none => []
  let s := s.modCo (coreOf c) fun co => { co with
    jaf := co.jaf.filter fun (e : Nat × Option Way) => !(inPart.contains e.1 && match e.2 with
      | some w => mine w.row w.cblk
      | none => false) }
  s.modJ c fun j => { j with ring := j.ring.map fun r => if mine r.t.row r.t.cblk then { r with consumed := true } else r }

/-- `jdrain.d` (R205). -/
def execJdrainD (p : BitVec 3) (shape : W16) (s : State) : Res :=
  drain (.jdrainD p shape) s p fun k s =>
    let c := cidOf k
    let nr := fieldN shape 8 8 + 1
    let nb := fieldN shape 0 8 + 1
    let row0 : W32 := bits (s.r k).s 32 32
    let cb0 : W32 := bits (s.r k).s 0 32
    let es := s.jafEntries c
    let mine (row cblk : W32) : Bool := decide ((row - row0).toNat < nr) && decide ((cblk - cb0).toNat < nb)
    let bs := (List.range nr).flatMap fun r => (List.range nb).flatMap fun b =>
      match es.find? fun w => w.row == row0 + BitVec.ofNat 32 r && w.cblk == cb0 + BitVec.ofNat 32 b with
      | some w => (List.range 16).flatMap fun l => bvLe 4 (w.drained l)
      | none => List.replicate 64 0
    (bs, fun s => s.jafTake c mine, (es.filter fun w => mine w.row w.cblk).length)

/-! ## `jstat` and `jspill` -/

/-- The JSTAT word (R215). -/
def State.jstat (s : State) (c : Nat) : W64 :=
  match (s.cx c).j.part with
  | none => BitVec.ofNat 64 ((s.cx c).j.live.length * 2 ^ 32)
  | some p =>
    let co := s.co (coreOf c)
    let lo := p.base (ctxnOf c)
    let ovf := (List.range p.count).any fun b => Tab.get false co.ovf (lo + b)
    BitVec.ofNat 64 ((s.cx c).j.live.length * 2 ^ 32 + (if p.i32 then 2 else 1) * 2 ^ 26 + b2n p.all * 2 ^ 25 +
      b2n ovf * 2 ^ 24 + (co.ways p (ctxnOf c)).length)

/-- `jstat` (R365): it answers with or without a partition, as R365 and MODE 0 of R215 have it, though the last
paragraph of R214 says ILLEGAL of every instruction but `jinit` without one (assumption 68). -/
def execJstat (s : State) : Res :=
  run .jstat s fun k => .done (s.modR k fun r => { r with s := s.jstat (cidOf k) })

/-- The unconsumed records stand at the start of a new ring (R202). -/
def State.jafMove (s : State) (c : Nat) (ps : List Xl) (base : W64) (size : Nat) : State :=
  let live := (s.cx c).j.live
  let s := s.ringSettle c
  let s := (List.range live.length).zip live |>.foldl (fun s (i, r) =>
    s.pagesWrite ps base (128 * i) (clean (ringBytes (s.free + i) r))) s
  s.modJ c fun j => { j with ringBase := base, ringSize := size, ring := live }

/-- Does a command past its checks still have to be applied, spilled or parked? One that the handler's own trap has cut
has no update to come before the `eret` (assumption 30). -/
def State.jafRuns (s : State) (c : Nat) : Bool := !(s.cx c).j.parked && (s.cx c).j.cmds.any fun m => !s.jafCut c m

/-- `jspill` (R364). -/
def execJspill (p : BitVec 3) (s : State) : Res :=
  run (.jspill p) s fun k =>
    let c := cidOf k
    let pn := (s.r k).ptr p
    let size := pn.limit.toNat
    let last : W64 := if size = 0 then 0 else pn.base + BitVec.ofNat 64 size - 1
    attempt s (firstOf [trapIf (s.cx c).j.part.isNone .illegal, onlyG pn (s.lvlK k),
        trapIf (pn.base.toNat % 128 != 0 || size % 128 != 0) .misalign]) fun _ =>
      attempt s (s.pages k pn.base size .write) fun (ps, s') =>
        let n := 128 * (s'.cx c).j.live.length
        if size < n then .trap (precise .spill last) s
        else if s'.jafRuns c || s'.pagesHeld ps pn.base 0 n then .wait .waitMc s'
        else .done (s'.jafMove c ps pn.base size)

/-! ## `joins` (R212, R213, R362, R363) -/

abbrev JTup := W32 × W32 × W32 × W32

/-- The four tuples of an entry. -/
def joinTuples (e : QEnt) : List JTup :=
  (List.range 4).map fun i => (lane e.data (4 * i), lane e.data (4 * i + 1), lane e.data (4 * i + 2), lane e.data (4 * i + 3))

/-- What a merge comes to: both streams are consumed, it waits for an entry, or it traps. -/
inductive JoinEnd where
  | fin
  | wait
  | trap (t : TrapInfo)

/-- A stream's next tuple, with its k: at its end, to be popped, found in error, or there. -/
inductive JHead where
  | atEnd
  | pop
  | endTuple
  | bad
  | tup (t : JTup)

/-- `kOf` takes a tuple's k: its second word in X, its first in Y. -/
def joinHead (l : List JTup) (ended : Bool) (last : Option W32) (kOf : JTup → W32) : JHead :=
  if ended then .atEnd
  else match l with
    | [] => .pop
    | t :: _ =>
      if t.2.2.2.toNat / 2 ≠ 0 then .bad
      else if t.2.2.2.toNat % 2 = 1 then .endTuple
      else match last with
        | some k => if kOf t < k then .bad else .tup t
        | none => .tup t

/-- One product as a tuple of one lane (R213). -/
def joinTuple (i32 : Bool) (x : JTup) (y : W32 × W32) : Tuple :=
  let v : W32 := if i32 then x.2.2.1 * y.2 else fmul32 x.2.2.1 y.2
  let l := y.1.toNat % 16
  ⟨x.1, y.1 >>> 4, BitVec.ofNat 16 (2 ^ l), ofLanes ((List.range 16).map fun i => if i = l then v else 0), false⟩

namespace State

/-- Tuples of a `joins` join its command. -/
def joinEmit (s : State) (c id : Nat) (ts : List Tuple) : State :=
  s.modJ c fun j => { j with cmds := j.cmds.map fun m => if m.id == id then { m with tuples := m.tuples ++ ts } else m }

/-- Pop an entry for a stream: its tuples, or how the merge stops. A poisoned entry stays. -/
def joinPop (s : State) (k : Nat) (q : Queue) : Except JoinEnd (List JTup × State) :=
  let c := cidOf k
  match s.oldest (s.who k) c q with
  | .error none => .error .wait
  | .error (some e) => .error (.trap (ringTrap e false))
  | .ok (e, s) => if e.poison ≠ 0 then .error (.trap (precise .poison)) else .ok (joinTuples e, s.popped (s.who k) c q)

/-- The merge, at most `fuel` actions: what it comes to, where it stands, the state. Y's run and the tuple after it are
looked at before X's head, and before the run's products are emitted; the products of one X tuple are emitted before the
next is looked at (assumption 69). -/
def joinMerge (k : Nat) (qx qy : Queue) (i32 : Bool) : Nat → JoinSt → State → JoinEnd × JoinSt × State
  | 0, j, s => (.wait, j, s)
  | fuel + 1, j, s =>
    match joinHead j.ys j.yEnd j.lastY (fun t => t.1) with
    | .bad => (.trap (precise .metaErr), j, s)
    | .pop => match s.joinPop k qy with
      | .error e => (e, j, s)
      | .ok (ts, s) => joinMerge k qx qy i32 fuel { j with ys := ts } s
    | .endTuple => joinMerge k qx qy i32 fuel { j with ys := [], yEnd := true } s
    | yh =>
      -- Y's run at its k: begun, or one tuple longer
      let more : Option JTup := match yh with
        | .tup y => if j.runK == none || j.runK == some y.1 then some y else none
        | _ => none
      match more with
      | some y =>
        if 256 ≤ j.run.length then (.trap (precise .metaErr), j, s)
        else joinMerge k qx qy i32 fuel
          { j with ys := j.ys.drop 1, lastY := some y.1, runK := some y.1, run := j.run ++ [(y.2.1, y.2.2.1)] } s
      | none =>
        match joinHead j.xs j.xEnd j.lastX (fun t => t.2.1) with
        | .bad => (.trap (precise .metaErr), j, s)
        | .pop => match s.joinPop k qx with
          | .error e => (e, j, s)
          | .ok (ts, s) => joinMerge k qx qy i32 fuel { j with xs := ts } s
        | .endTuple => joinMerge k qx qy i32 fuel { j with xs := [], xEnd := true } s
        | .atEnd => match j.runK with
          | some _ => joinMerge k qx qy i32 fuel { j with runK := none, run := [] } s
          | none => (.fin, j, s)
        | .tup x =>
          let next : JoinSt := { j with xs := j.xs.drop 1, lastX := some x.2.1 }
          match j.runK with
          | none => joinMerge k qx qy i32 fuel next s
          | some kk =>
            if x.2.1 < kk then joinMerge k qx qy i32 fuel next s
            else if x.2.1 = kk then
              joinMerge k qx qy i32 fuel next (s.joinEmit (cidOf k) j.id (j.run.map (joinTuple i32 x)))
            else joinMerge k qx qy i32 fuel { j with runK := none, run := [] } s

/-- Actions that a merge can take on what the queues hold. -/
def joinFuel (s : State) (c : Nat) (qx qy : Queue) (j : JoinSt) : Nat :=
  let x := s.queues c
  16 * ((x.get qx).length + (x.get qy).length + (x.spill qx).length + (x.spill qy).length + j.xs.length + j.ys.length + 2)

/-- No more tuples follow; a command without tuples is done. -/
def joinClose (s : State) (c id : Nat) : State :=
  match (s.cx c).j.cmds.find? fun m => m.id == id with
  | some m => s.jafRetire c { m with more := false }
  | none => s

/-- Checks 1 to 3 of R362. -/
def joinChk (s : State) (k : Nat) (qx qy : Queue) (t : ElemTy) : Chkd Unit :=
  firstOf [trapIf (qx == qy) .illegal, trapIf (consumer qx != qOf k || consumer qy != qOf k) .illegal,
    match s.jafPart (cidOf k) t with | .ok _ => .ok () | .error e => .error e]

/-- A `joins` begins: `mc` counts it. -/
def joinStart (s : State) (k : Nat) : JoinSt × State :=
  let c := cidOf k
  let (id, s) := s.fresh
  let s := (s.jafIssue c ⟨qOf k, qOf k, [], true, id, true, []⟩).modN c fun n => { n with mc := n.mc + 1 }
  (⟨[], [], false, false, none, none, [], none, id⟩, s)

/-- The merge from where it stands, and its outcome. -/
def joinGo (s : State) (k : Nat) (qx qy : Queue) (t : ElemTy) (j : JoinSt) : Out :=
  let c := cidOf k
  let (e, j, s) := joinMerge k qx qy (t == .i32) (s.joinFuel c qx qy j) j s
  let keep (s : State) (o : Option JoinSt) : State := s.modSq k fun q => { q with joins := o }
  match e with
  | .fin => .done (keep (s.joinClose c j.id) none)
  | .wait => .wait .qEmpty (keep s (some j))
  | .trap t =>
    -- another sequencer's handler runs: it raises its trap after the `eret` (R63)
    if s.barred k then .wait .qEmpty (keep s (some j))
    else if t.code == .metaErr then .trap t (keep (s.joinClose c j.id) none) else .trap t (keep s (some j))

end State

/-- `joins` (R362). -/
def execJoins (qx qy : Queue) (t : ElemTy) (s : State) : Res :=
  run (.joins qx qy t) s fun k =>
    match (s.sq k).joins with
    | some j => s.joinGo k qx qy t j
    | none => attempt s (s.joinChk k qx qy t) fun _ => let (j, s) := s.joinStart k; s.joinGo k qx qy t j

/-! ## Events -/

/-- The JAF places, combines or spills the next tuple of a source (R200 to R203, R207). -/
def execJafTupleApply (c src : Nat) (s : State) : Res := .next (s.jafApply c src)

end Sys2Proof.Machine
end

