-- ==== Sys2Proof/Machine/Copy.lean ====
section
/-! DEFINITION. Copies (R124, R142 to R148, R339 to R341): issue, the landing of chunks, scale words, follow-ons, and
replayable faults. -/

namespace Sys2Proof.Machine

/-! ## Issue (R339) -/

/-- The spaces of a copy's side (R52). -/
def cpySpace (p : Ptr) (lvlK : Bool) : Chk :=
  match p.space with
  | .k => if lvlK then none else some (.priv, 0)
  | _ => none

def benchBytes : Nat := Config.benchCores * 2 ^ 20

namespace State

/-- May context `c` reach every byte of a range of space B (R124)? -/
def benRange (s : State) (c : Nat) (base n : Nat) : Bool :=
  n == 0 ||
  (decide (base + n ≤ benchBytes) &&
   (List.range ((base + n - 1) / 2 ^ 20 + 1 - base / 2 ^ 20)).all fun i =>
     let m := base / 2 ^ 20 + i
     let sl := (s.cx (cidAt (benchOf (coreOf c) * Config.benchCores + m) (ctxnOf c))).slot
     let last := if m = (base + n - 1) / 2 ^ 20 then (base + n - 1) % 2 ^ 20 else 2 ^ 20 - 1
     (sl.state == .running || sl.state == .quiescing) && sl.part == (s.cx c).slot.part && sl.asid == (s.cx c).slot.asid && decide (last < sl.winSize))

/-- `SpaceCheck` of a side (R52, R122). -/
def cpyChk (s : State) (k : Nat) (p : Ptr) (n : Nat) : Chkd Unit :=
  firstOf [asTrap (cpySpace p (s.lvlK k)),
    match p.space with
    | .g => .ok ()
    | .b => trapIf (!s.benRange (cidOf k) p.base.toNat n) .window
    | _ => asTrap (rangeChk p (s.winSize k) n)]

/-- A side with its pages translated. -/
def cpySide (s : State) (k : Nat) (p : Ptr) (n : Nat) (x : XKind) : Chkd (Side × State) :=
  match p.space with
  | .g => match s.pages k p.base n x with
    | .error t => .error t
    | .ok (ps, s) => .ok (.glob p.base ps, s)
  | .b => .ok (.ben (benchOf (coreK k)) (ctxnK k) p.base.toNat p.swz, s)
  | _ => .ok (.scr (coreK k) (ctxnK k) (s.loc k p), s)

/-- The checks of R339 before translation. -/
def cpyChks (s : State) (k : Nat) (o : CpyOp) (n : Nat) : Chkd Unit :=
  let pd := (s.r k).ptr o.d.p
  let ps := (s.r k).ptr o.src.p
  firstOf [s.cpyChk k pd n, s.cpyChk k ps (cpySrcLen o n), trapIf (o.sc && pd.space != .l) .window,
    trapIf (o.sc && pd.base.toNat % 512 != 0) .misalign]

/-- Both sides, the destination first. -/
def cpySides (s : State) (k : Nat) (o : CpyOp) (n : Nat) : Chkd (Side × Side × State) :=
  match s.cpySide k ((s.r k).ptr o.d.p) n .copyWrite with
  | .error t => .error t
  | .ok (d, s) => match s.cpySide k ((s.r k).ptr o.src.p) (cpySrcLen o n) .copyRead with
    | .error t => .error t
    | .ok (x, s) => .ok (d, x, s)

/-- The follow-on's checks 1 to 4 (R340). -/
def cpyFollow (s : State) (k : Nat) (fo : Option MtileOp) : Chkd (Option TileIn × State) :=
  match fo with
  | none => .ok (none, s)
  | some m => match s.tileCheck k m ((s.r k).ptr m.a.p) ((s.r k).ptr m.b.p) with
    | .error t => .error t
    | .ok (t, s) => .ok (some t, s)

/-- Does a follow-on's trap of the context still wait for its handler, or its handler for the `eret` (R340)? -/
def followFailed (s : State) (c : Nat) : Bool :=
  let hits (t : TrapCode) (a : Bool) : Bool := a && (t == .scale || t == .metaErr || t == .poison)
  (List.range 3).any fun q =>
    let x := s.sq (sidAt c q)
    (x.pend.any fun t => hits t.code t.async) || x.traps.any fun t => hits t.code t.async

/-- The copy and its follow-on are in flight. -/
def cpyStart (s : State) (k : Nat) (o : CpyOp) (n : Nat) (d x : Side) (fo : Option TileIn) : State :=
  let c := cidOf k
  let (id, s) := s.fresh
  let s := if n = 0 then s else s.modCx c fun y => { y with
    n := { y.n with cc := y.n.cc + 1 }
    f := { y.f with copies := y.f.copies ++ [⟨id, qOf k, o, n, d, x, [], [], 0, [], [], [], (s.r k).pc⟩] } }
  match fo with
  | none => s
  | some t => s.modCx c fun y => { y with
      n := { y.n with mc := y.n.mc + 1 }
      f := { y.f with follows := y.f.follows ++ [⟨id, qOf k, t, s.followFailed c⟩] } }

/-- The byte count (R339). -/
def cpyCount (s : State) (k : Nat) (o : CpyOp) : Nat := if o.ls then fieldN (s.r k).s 0 32 else o.count.toNat

end State

/-- The pointers of a `cpy` and its follow-on. -/
def cpyPtrs (o : CpyOp) (fo : Option MtileOp) : List PtrOp :=
  [o.d, o.src] ++ match fo with | some m => [m.a, m.b] | none => []

/-- `cpy` (R339). -/
def execCpy (o : CpyOp) (fo : Option MtileOp) (s : State) : Res :=
  run (.cpy o fo) s fun k =>
    let n := s.cpyCount k o
    attempt s (firstOf [trapIf (o.ls && decide (536870911 < n)) .illegal,
        trapIf (o.sc && (n == 0 || n % 512 != 0)) .illegal]) fun _ =>
      if Config.copyCap ≤ (s.cx (cidOf k)).f.copying.length then .wait .waitCc s
      else attempt s (s.cpyChks k o n) fun _ => attempt s (s.cpySides k o n) fun (d, x, s1) =>
        attempt s (s1.cpyFollow k fo) fun (t, s2) =>
          .done ((s2.cpyStart k o n d x t).retireR k (cpyPtrs o fo) fun r => r)

/-! ## Sides -/

/-- The core and the key of a scratchpad byte of a side. -/
def State.sideKey (s : State) (sd : Side) (i : Nat) : Nat × Nat :=
  match sd with
  | .scr core n l => (core, l.key n i)
  | .ben b n a z =>
    let core := b * Config.benchCores + (a + i) / 2 ^ 20
    (core, (s.cx (cidAt core n)).slot.winBase + swzOff z ((a + i) % 2 ^ 20))
  | .glob _ _ => (0, 0)

/-- The offset in its space at which a side starts. -/
def Side.offset : Side → Nat
  | .scr _ _ l => l.off
  | .ben _ _ a _ => a
  | .glob va _ => va.toNat

/-- A byte of a source, on path k of context `c`, or at its home. -/
def State.sideByte (s : State) (c : Nat) (sd : Side) (i : Nat) : PByte :=
  match sd with
  | .glob va ps => s.h.byte (xlAt ps va i) 0
  | sd => let a := s.sideKey sd i; (s.co a.1).byte c .k a.2

def State.sideRead (s : State) (c : Nat) (sd : Side) (off n : Nat) : List PByte :=
  (List.range n).map fun i => s.sideByte c sd (off + i)

/-- Bytes land at a destination. -/
def State.sideWrite (s : State) (c : Nat) (sd : Side) (off : Nat) (bs : List PByte) : State :=
  match sd with
  | .glob va ps => s.pagesWrite ps va off bs
  | sd =>
    let ws := (List.range bs.length).zip bs |>.map fun (i, b) => (s.sideKey sd (off + i), b)
    let gs := pieces (16 - (sd.offset + off) % 16) ws
    ((ws.map fun w => w.1.1).eraseDups).foldl (fun s core => s.modCo core fun co =>
      co.store c .k (gs.map fun g => kWrites (ctxnOf c) ((g.filter fun w => w.1.1 == core).map fun w => (w.1.2, w.2)))) s

/-! ## Chunks (R144) -/

def Copy.chunkLen (c : Copy) (i : Nat) : Nat := min 512 (c.n - 512 * i)

/-- Where what lands with chunk i begins: an aligned 16 B of the destination that the edge of two chunks cuts lands whole,
with the first of them (R164, R339). -/
def Copy.edge (c : Copy) (i : Nat) : Nat :=
  if i = 0 then 0 else min c.n (512 * i + (16 - c.dst.offset % 16) % 16)

/-- Bytes that land with chunk i. -/
def Copy.landLen (c : Copy) (i : Nat) : Nat := c.edge (i + 1) - c.edge i

/-- Has every byte of chunk i landed? -/
def Copy.chunkIn (c : Copy) (i : Nat) : Bool :=
  c.landed.contains i && (i == 0 || c.edge i == 512 * i || c.landed.contains (i - 1))

/-- Pages that `n` bytes from offset `off` of a side touch, by their index among the side's; none outside space G. -/
def Side.touches (sd : Side) (off n : Nat) : List Nat :=
  match sd with
  | .glob va _ =>
    let o := va.toNat % 4096 + off
    (List.range 2).map (o / 4096 + ·) |>.filter fun p => decide (p * 4096 < o + n)
  | _ => []

def Side.page (sd : Side) (p : Nat) : Option Xl :=
  match sd with
  | .glob _ ps => ps[p]?
  | _ => none

/-- The pages that `n` bytes of a copy from offset `off` touch (R143), and those of scale word i (R145). -/
def Copy.piecesAt (c : Copy) (off n i : Nat) : List PieceAt :=
  (c.src.touches off n).map .src ++ (c.dst.touches off n).map .dst ++
  if c.op.sc then (c.src.touches (c.n + 4 * i) 4).map .scale else []

/-- The pages of a chunk's pieces. -/
def Copy.pieces (c : Copy) (i : Nat) : List PieceAt := c.piecesAt (512 * i) (c.chunkLen i) i

/-- The pages of what lands with a chunk. -/
def Copy.needs (c : Copy) (i : Nat) : List PieceAt := c.piecesAt (c.edge i) (c.landLen i) i

def Copy.pageAt (c : Copy) (p : PieceAt) : Option Xl :=
  match p with
  | .src n | .scale n => c.src.page n
  | .dst n => c.dst.page n

/-- May a chunk land: none of its pieces parked, its source readable, its destination free? -/
def State.chunkDue (s : State) (c : Copy) (i : Nat) : Bool :=
  decide (i < c.chunks) && !c.landed.contains i &&
  (c.needs i).all (fun p => !c.parked.contains p && (match p, c.pageAt p with
    | .dst _, _ => true
    | _, some x => (s.readHeld x.ha).isNone
    | _, none => true)) &&
  (match c.dst with
   | .glob va ps => !s.pagesHeld ps va (c.edge i) (c.landLen i)
   | _ => true)

/-- Was a page of the chunk's pieces lost (R146)? -/
def Copy.chunkLost (c : Copy) (i : Nat) : Bool := (c.pieces i).any c.lost.contains

/-- Bytes of a source; where a piece of a byte's chunk was lost it is poisoned. -/
def State.pieceRead (s : State) (cid : Nat) (c : Copy) (off n : Nat) (chunk : Nat → Nat) : List PByte :=
  ((List.range n).zip (s.sideRead cid c.src off n)).map fun (j, b) => (b.1, b.2 || c.chunkLost (chunk (off + j)))

/-- The bytes that land with a chunk. -/
def State.chunkBytes (s : State) (cid : Nat) (c : Copy) (i : Nat) : List PByte :=
  s.pieceRead cid c (c.edge i) (c.landLen i) (· / 512)

/-- The chunks with a chunk's index mod 64 have landed, and no bit of theirs waits. -/
def Copy.residueDone (c : Copy) (i : Nat) : Bool :=
  (List.range ((c.chunks + 63) / 64)).all fun j =>
    let m := i % 64 + 64 * j
    !decide (m < c.chunks) || (c.chunkIn m && !c.held.contains m)

/-- Nothing of the copy is left to do. -/
def Copy.done (c : Copy) : Bool := c.finished && (!c.op.sc || c.words == c.chunks)

/-- A chunk of a scaled copy that lands records its SEQ (R145). -/
def CtxReg.chunkSeq (g : CtxReg) (c : Copy) (i : Nat) : CtxReg :=
  if c.op.sc then
    { g with smSeq := Tab.set none g.smSeq (c.op.map.toNat * 64 + i % 64) (some (c.op.seq + BitVec.ofNat 16 i)) }
  else g

/-- A chunk's bit is set where it may be; one of a copy without scales records SEQ 0 with it (R144). -/
def CtxReg.chunkBit (g : CtxReg) (c : Copy) (i : Nat) : CtxReg :=
  if !c.residueDone i then g else if c.op.sc then g.smBit c.op.map (i % 64) else g.smSet c.op.map (i % 64) 0

/-- What the landing with chunk i does to the maps: the next chunk's first bytes may have landed with it. -/
def CtxReg.chunkLands (g : CtxReg) (c : Copy) (i : Nat) : CtxReg :=
  let g := (g.chunkSeq c i).chunkBit c i
  if i + 1 < c.chunks ∧ c.edge (i + 1) ≠ 512 * (i + 1) then g.chunkBit c (i + 1) else g

/-- A copy of a context has changed: `cc` falls with the chunk that finishes it, and one that is done goes. -/
def State.putCopy (s : State) (cid : Nat) (old c : Copy) : State :=
  let s := s.modCx cid fun x => { x with
    n := if !old.finished && c.finished then { x.n with cc := x.n.cc - 1 } else x.n
    f := { x.f with copies := if c.done then x.f.copies.filter fun y => y.id != c.id
                              else x.f.copies.map fun y => if y.id == c.id then c else y } }
  if c.finished then s.sweepWindows else s

/-- Scale words of a copy that stand next in order and have landed. -/
def Copy.scaleRun (c : Copy) : Nat := (findFrom (fun n => !c.scales.any fun w => w.1 == n) c.words (c.chunks + 1)).getD c.words - c.words

/-- Landed words that enter the queue before word i of the copy `id` (R145). -/
def wordsBefore (id i : Nat) : List Copy → Nat
  | [] => 0
  | x :: r =>
    if !x.op.sc then wordsBefore id i r
    else if x.id == id then min x.scaleRun (i - x.words)
    else if x.words + x.scaleRun == x.chunks then x.scaleRun + wordsBefore id i r
    else x.scaleRun

/-- Can the word of a chunk that lands not enter the queue for want of room (R145)? A word that has entered does not
enter again (R148). -/
def State.wordWaits (s : State) (cid : Nat) (c : Copy) (i : Nat) : Bool :=
  c.op.sc && decide (c.words ≤ i) &&
  decide (Config.scaleCap ≤ (s.cx cid).q.scale.length + wordsBefore c.id i (s.cx cid).f.copies)

/-- Bytes of a context's copy at its destination. -/
def State.copyWrite (s : State) (c : Nat) (sd : Side) (off : Nat) (bs : List PByte) : State :=
  match sd with
  | .glob va ps => s.pagesPut c ps va off bs
  | sd => s.sideWrite c sd off bs

/-- A chunk of a context's copy lands. -/
def State.landChunk (s : State) (cid : Nat) (c : Copy) (i : Nat) : State :=
  let w := s.pieceRead cid c (c.n + 4 * i) 4 fun _ => i
  let s' := s.copyWrite cid c.dst (c.edge i) (s.chunkBytes cid c i)
  let y := { c with
    landed := c.landed ++ [i]
    scales := if c.op.sc then c.scales ++ [(i, leBv 32 (pdata w), ppoison w)] else c.scales
    held := if s.wordWaits cid c i then c.held ++ [i] else c.held }
  (s'.modReg cid fun g => g.chunkLands y i).putCopy cid c y

/-- The copy node that has this copy (R279). -/
def State.nodeCopy (s : State) (id : Nat) : Option (W64 × Nat × Nat × Copy) :=
  s.sch.graphs.findSome? fun g => ((List.range g.nodes.length).zip g.nodes).findSome? fun (i, n) =>
    match n.copy with
    | some c => if c.id == id then some (g.hdr, g.ctxid, i, c) else none
    | none => none

/-- A chunk of a copy node's copy lands; with the last one the node is DONE. -/
def State.landNodeChunk (s : State) (hdr : W64) (ctxid node : Nat) (c : Copy) (i : Nat) : State :=
  let s := s.sideWrite 0 c.dst (c.edge i) (s.chunkBytes 0 c i)
  let c := { c with landed := c.landed ++ [i] }
  if c.done then (s.modNode ctxid hdr node fun n => { n with copy := none }).nodeDone ctxid hdr node
  else s.modNode ctxid hdr node fun n => { n with copy := some c }

/-- A chunk lands whole (R143, R144). -/
def execCopyChunkLanding (c id chunk : Nat) (s : State) : Res :=
  match (s.cx c).f.copies.find? fun x => x.id == id with
  | some x => if s.chunkDue x chunk then .next (s.landChunk c x chunk) else .next s
  | none => happens s (s.nodeCopy id) fun (hdr, ctxid, node, x) =>
      if s.chunkDue x chunk then s.landNodeChunk hdr ctxid node x chunk else s

/-! ## Scale words (R145) -/

/-- The next scale word of a context: its copy, and the word where its chunk has landed. -/
def State.nextScale (s : State) (c : Nat) : Option (Copy × W32 × Bool) :=
  match (s.cx c).f.copies.find? fun x => x.op.sc && decide (x.words < x.chunks) with
  | none => none
  | some x => if Config.scaleCap ≤ (s.cx c).q.scale.length then none
    else (x.scales.find? fun w => w.1 == x.words).map fun w => (x, w.2)

/-- A scale word enters the queue, in chunk order and issue order. -/
def execScaleWordEntry (c : Nat) (s : State) : Res :=
  happens s (s.nextScale c) fun (x, w, p) =>
    let i := x.words
    let s := s.modQ c fun q => { q with scale := q.scale ++ [⟨w, x.op.map, i % 64, p⟩] }
    let y := { x with words := i + 1, held := x.held.filter (· != i) }
    (if x.held.contains i then s.modReg c fun g => g.chunkBit y i else s).putCopy c x y

/-! ## Follow-ons (R147, R340) -/

/-- The places that a range takes: (0, core) for scratchpad by group of 2 KiB where it is swizzled, (1, 0) for homes;
start and length. -/
def State.placesOf (s : State) (sd : Side) (off n : Nat) : List (Nat × Nat × Nat × Nat) :=
  match sd with
  | .glob va ps => (List.range (n / 64 + 2)).filterMap fun i =>
      let o := (va.toNat + off) / 64 * 64 + 64 * i
      if o < va.toNat + off + n then some (1, 0, (xlAt ps va (o - va.toNat)).ha, 64) else none
  | .scr core m l => [(0, core, if l.swz = 0 then l.key m off else l.key m off / 2048 * 2048, if l.swz = 0 then n else n + 4096)]
  | .ben _ _ _ z =>
    let a := s.sideKey sd off
    [(0, a.1, if z = 0 then a.2 else a.2 / 2048 * 2048, if z = 0 then n else n + 4096)]

/-- Do two lists of places meet? -/
def placesMeet (a b : List (Nat × Nat × Nat × Nat)) : Bool :=
  a.any fun x => b.any fun y => x.1 == y.1 && x.2.1 == y.2.1 && overlap x.2.2.1 x.2.2.2 y.2.2.1 y.2.2.2

/-- The places of a command's operands. -/
def State.tilePlaces (s : State) (k : Nat) (t : TileIn) : List (Nat × Nat × Nat × Nat) :=
  let side (p : Ptr) (g : List Xl) : Side := if p.space == .g then .glob p.base g else .scr (coreK k) (ctxnK k) (s.loc k p)
  s.placesOf (side t.pa t.ga) 0 (tileA t.op) ++ s.placesOf (side t.pb t.gb) 0 (tileB t.op)

/-- Every byte that the follow-on reads has landed: no copy up to its own still has a chunk to land there. -/
def State.followReady (s : State) (c : Nat) (f : Follow) : Bool :=
  let ops := s.tilePlaces (sidAt c f.q) f.tile
  (s.cx c).f.copies.all fun x => decide (f.copy < x.id) ||
    ((List.range x.chunks).filter fun i => !x.landed.contains i).all fun i =>
      !placesMeet ops (s.placesOf x.dst (x.edge i) (x.landLen i))

/-- What copies wrote of the operands is visible on path m (R170). -/
def State.followWait (s : State) (c : Nat) (f : Follow) : State :=
  let ops := s.tilePlaces (sidAt c f.q) f.tile
  s.modCo (coreOf c) fun co => co.unhide fun h =>
    h.writer == .k && h.reader == .m && placesMeet ops [(0, coreOf c, h.unit * 16, 16)]

/-- The oldest follow-on of a context goes. -/
def State.followDrop (s : State) (c : Nat) (held : Bool) : State :=
  s.modF c fun f => { f with follows := (f.follows.drop 1).map fun x => if held then { x with held := true } else x }

/-- The copy-completion unit issues the oldest follow-on once its bytes have landed. -/
def execFollowOnIssue (c : Nat) (s : State) : Res :=
  happens s (match (s.cx c).f.follows with | f :: _ => if !f.held && s.followReady c f then some f else none | [] => none) fun f =>
    let k := sidAt c f.q
    let s' := s.followWait c f
    match s'.tileRun k f.tile with
    | .wait _ => s
    | .go t ts => match s'.tilePins c f.tile with
      | none => s
      | some ls => ((t.tileHold k f.tile).tileIssue c 3 f.q ts ls).followDrop c false
    | .trap t =>
      ((s'.followDrop c true).modN c fun n => { n with mc := n.mc - 1 }).post (s.taker c f.q) { t with async := true }

/-! ## Replayable faults (R146) -/

namespace State

/-- The copy that a mover is, with its context, and the header of its fault records (R140): a copy node's has no
instance, so that GEN and SAVEID are 0 (assumption 81). -/
def moverCopy (s : State) (m : Mover) : Option (Copy × W64) :=
  match m with
  | .ctx c id => ((s.cx c).f.copies.find? fun x => x.id == id).map fun x =>
      (x, match s.instOf c with
        | some i => recordHead i.gen (i.saveid.getD 0) (s.cx c).slot.ctxid 1
        | none => recordHead 0 0 (s.cx c).slot.ctxid 1)
  | .node g n => s.sch.graphs.findSome? fun x => if x.hdr == g then
        ((x.nodes[n]?).bind Node.copy).map fun c => (c, recordHead 0 0 x.ctxid 1)
      else none
  | .fill .. => none

/-- The mover's copy changes. -/
def modMover (s : State) (m : Mover) (f : Copy → Copy) : State :=
  match m with
  | .ctx c id => s.modF c fun x => { x with copies := x.copies.map fun y => if y.id == id then f y else y }
  | .node g n => s.modSch fun h => { h with graphs := h.graphs.map fun x => if x.hdr == g then
      { x with nodes := modAt x.nodes n fun y => { y with copy := y.copy.map f } } else x }
  | .fill .. => s

end State

def pieceWrites : PieceAt → Bool
  | .dst _ => true
  | _ => false

/-- Does the copy still need a POOL page? -/
def Copy.poolPage (c : Copy) (p : PieceAt) : Bool :=
  (match c.pageAt p with | some x => x.cc == 6 | none => false) &&
  (List.range c.chunks).any fun i => !c.landed.contains i && (c.needs i).contains p

/-- The entry of a fault record for a page of a range at `va`: REASON and HINT 0 (R146). -/
def pieceEntry (va : W64) (p : PieceAt) : W64 :=
  (FaultEnt.mk (bits (va + BitVec.ofNat 64 (4096 * p.page)) 12 45) 0 false false (pieceWrites p)).word

/-- A record goes to the fault service. -/
def State.toService (s : State) (head entry : W64) : State :=
  s.modSch fun h => { h with service := h.service ++ [(head, entry)] }

/-- The virtual address of a global side. -/
def Side.start : Side → W64
  | .glob va _ => va
  | _ => 0

/-- A POOL page is not present: its piece parks, and a record of it goes to the fault service. -/
def State.parkPiece (s : State) (m : Mover) (p : PieceAt) : Option State :=
  ((s.moverCopy m).filter fun x => x.1.poolPage p && !x.1.parked.contains p && !x.1.lost.contains p).map fun x =>
    (s.modMover m fun c => { c with parked := c.parked ++ [p] }).toService x.2
      (pieceEntry (if pieceWrites p then x.1.dst.start else x.1.src.start) p)

/-- The fault service answers: the piece replays, or its page is lost and its chunks land poisoned. -/
def State.unparkPiece (s : State) (m : Mover) (p : PieceAt) (ok : Bool) : Option State :=
  ((s.moverCopy m).filter fun x => x.1.parked.contains p).map fun _ =>
    s.modMover m fun c => { c with
      parked := c.parked.filter (· != p)
      lost := if ok then c.lost else c.lost ++ [p] }

end Sys2Proof.Machine
end

