-- ==== Sys2Proof/Machine/Offers.lean ====
section
/-! DEFINITION. Offers, declines and finishing (10_offers.md; R378 to R383, R456), leases (R173) and the landing of
replies. -/

namespace Sys2Proof.Machine

/-! ## Replies (R232) -/

def pad (n : Nat) (l : List Byte) : List Byte := (l ++ List.replicate n 0).take n

/-- The 32 bytes of a reply record. -/
def replyBytes (kind reason opc : Nat) (ops e : Bool) (ty : BitVec 4) (ticket : W32) (old val val2 : List Byte) : List Byte :=
  [BitVec.ofNat 8 (kind * 64 + reason), BitVec.ofNat 8 opc, BitVec.ofNat 8 (b2n ops * 128 + b2n e * 64 + ty.toNat), 0] ++
  bvLe 4 ticket ++ pad 8 old ++ pad 8 val ++ pad 8 val2

/-- Words of 8 B that a slot takes, by their keys. -/
def Loc.words (l : Loc) (n len : Nat) : List Nat := (List.range (len / 8)).map fun i => l.key n (8 * i) / 8

def Offer.isRow (o : Offer) : Bool := o.opc == 7 || (o.opc == 8 && o.fopc == 7)
def Offer.slotLen (o : Offer) : Nat := if o.isRow then 32 + o.size else 32

/-- Does an operation in flight name a byte of the slot (R230)? -/
def Ctx.slotBusy (x : Ctx) (n : Nat) (l : Loc) (len : Nat) (p : Nat → Bool) : Bool :=
  let mine := l.words n len
  let hits (ws : List Nat) : Bool := ws.any mine.contains
  (x.f.offers.any fun o => o.fate == .live && p o.q && hits (o.slot.words n o.slotLen)) ||
  (x.f.nms.any fun m => m.fate == .live && p m.q && hits (m.slot.words n 32))

/-- Is a slot of context `c` busy, by an operation of any context of its core: they share some of the kernel window
(R123, R230)? -/
def State.slotBusy (s : State) (c : Nat) (l : Loc) (len : Nat) : Bool :=
  let mine := l.words (ctxnOf c) len
  let hits (ws : List Nat) : Bool := ws.any mine.contains
  (List.range Config.ctxs).any fun n =>
    let x := s.cx (cidAt (coreOf c) n)
    (x.f.offers.any fun o => o.fate == .live && hits (o.slot.words n o.slotLen)) ||
    x.f.nms.any fun m => m.fate == .live && hits (m.slot.words n 32)

/-! ## Reference functions (R235) -/

/-- One lane of `orow.add`. -/
def rowAddLane (t : ElemTy) (a b : Nat) : Nat := t.ff.round ((t.ff.widen a).add .rne (t.ff.widen b)) .rne false

/-- `OpRef`: the new bytes at the home. -/
def opRef (o : Offer) (cur : List Byte) : List Byte :=
  let z := o.size
  let x := leNat cur
  let v := leNat (o.val.take z)
  let int (f : Int → Int → Int) : List Byte :=
    natLe z (wrap (8 * z) (f (intOf o.ty.signed (8 * z) x) (intOf o.ty.signed (8 * z) v)))
  match o.opc with
  | 0 => if o.ty == .fp32 then bvLe 4 (fadd32 (leBv 32 cur) (leBv 32 o.val)) else natLe z (x + v)
  | 1 => natLe z (x &&& v)
  | 2 => natLe z (x ||| v)
  | 3 => if o.ty == .fp32 then bvLe 4 (fmin32 (leBv 32 cur) (leBv 32 o.val)) else int min
  | 4 => if o.ty == .fp32 then bvLe 4 (fmax32 (leBv 32 cur) (leBv 32 o.val)) else int max
  | 5 => natLe z v
  | 6 => if x = v then natLe z (leNat (o.val2.take z)) else cur
  | _ =>
    if o.add then
      let w := o.ty.bytes
      (List.zipWith (rowAddLane o.ty) (elems o.ty (z / w) cur) (elems o.ty (z / w) o.val)).flatMap (natLe w)
    else o.val

/-! ## Issue (R229, R230) -/

/-- What the slot says of the offer that an `ofin` finishes. -/
structure SlotRec where
  kind : Nat
  opc : Nat
  ops : Bool
  ty : Nat
  ticket : W32
  val : List Byte
  val2 : List Byte

def SlotRec.of (b : List Byte) : SlotRec :=
  let at_ (i : Nat) : Nat := (b.getD i 0).toNat
  ⟨at_ 0 / 64, at_ 1, at_ 2 / 128 == 1, at_ 2 % 16, leBv 32 ((b.drop 4).take 4), (b.drop 16).take 8, (b.drop 24).take 8⟩

/-- Step 4 of R230. -/
def finOk (r : SlotRec) (ty : ElemTy) (row : Bool) (region : Nat) : Bool :=
  (r.kind == 1 || r.kind == 2) && r.ops && decide (r.opc < 8) && r.ty == ty.code.toNat && region != 2 && region != 3 &&
  (r.opc == 7) == row

namespace State

/-- Steps 1 and 2 of R230: pG, pR, pV. -/
def offerChks (s : State) (k : Nat) (o : OfferOp) (z vz slotLen : Nat) : Chkd Unit :=
  let pg := (s.r k).ptr o.g.p
  let pr := (s.r k).ptr o.r.p
  let lvl := s.lvlK k
  let (sv, av) := match o.v with
    | .mem p _ =>
      let q := (s.r k).ptr p
      (asTrap (scrCheck q lvl (s.winSize k) vz), trapIf (q.base.toNat % vz != 0) .misalign)
    | _ => (.ok (), .ok ())
  firstOf [asTrap (gSpace pg lvl), asTrap (scrCheck pr lvl (s.winSize k) slotLen), sv,
    trapIf (pg.base.toNat % z != 0) .misalign, trapIf (pr.base.toNat % 32 != 0) .misalign, av]

/-- Steps 3 to 5: the operand's place, and the slot's record. -/
def offerPlace (s : State) (k : Nat) (o : OfferOp) (opc size : Nat) : Chkd (Xl × SlotRec × State) :=
  let pg := (s.r k).ptr o.g.p
  let r := SlotRec.of (pdata (s.scrAt k ((s.r k).ptr o.r.p) 32))
  match s.place1 k pg.base (.offer (opc != 9)) with
  | .error t => .error t
  | .ok (x, s) =>
    match firstOf [trapIf (size != 0 && x.cc != 3) .prot, trapIf (size != 0 && s.rowSize x.ha != size) .prot pg.base,
        -- a slot from elsewhere finishes nothing in another domain (R174, R241, assumption 92)
        trapIf (opc == 8 && (!finOk r o.ty (size != 0) (haRegion x.ha) || s.otherDomain x.ha)) .offer,
        trapIf (opc == 8 && x.cc == 2 && !s.holds (cidOf k) x.ha) .token] with
    | .error t => .error t
    | .ok _ => .ok (x, r, s)

/-- An operation in flight more; `oc` rises. -/
def offerSend (s : State) (c : Nat) (o : Offer) : State :=
  s.modCx c fun x => { x with
    n := { x.n with oc := x.n.oc + 1 }
    f := { x.f with offers := x.f.offers ++ [o] } }

end State

/-- The mould of the offers: `size` is the row size, 0 for a line. -/
def offer (i : Instr) (s : State) (o : OfferOp) (opc : Nat) (add : Bool) (size : Nat) : Res :=
  run i s fun k =>
    let c := cidOf k
    let z := if size ≠ 0 then size else o.ty.bytes
    let vz := if opc = 6 then 16 else z
    let slotLen := if size ≠ 0 then 32 + size else 32
    let slot := s.loc k ((s.r k).ptr o.r.p)
    let va := ((s.r k).ptr o.g.p).base
    attempt s (s.offerChks k o z vz slotLen) fun _ => attempt s (s.offerPlace k o opc size) fun (x, r, t) =>
      if t.slotBusy c slot slotLen then .wait .waitOc t
      else attempt s (t.oval k o.v vz vz) fun v =>
        let (id, s) := t.fresh
        let rec_ : Offer := {
          id := id, q := qOf k, opc := opc, fopc := r.opc, ty := o.ty, e := o.e, add := add, va := va, x := x, size := z
          val := if opc = 6 then v.take 8 else v
          val2 := if opc = 6 then v.drop 8 else if opc = 8 then r.val ++ r.val2 else []
          ticket := if opc = 8 then r.ticket else 0, slot := slot, policy := (s.cx c).reg.opolicy, queued := none, stage := .sent
          fate := .live }
        .done ((s.offerSend c rec_).retireR k ([o.g, o.r] ++ o.v.ptrs) fun r => r)

def execOadd (o : OfferOp) (s : State) : Res := offer (.oadd o) s o 0 false 0
def execOand (o : OfferOp) (s : State) : Res := offer (.oand o) s o 1 false 0
def execOor (o : OfferOp) (s : State) : Res := offer (.oor o) s o 2 false 0
def execOmin (o : OfferOp) (s : State) : Res := offer (.omin o) s o 3 false 0
def execOmax (o : OfferOp) (s : State) : Res := offer (.omax o) s o 4 false 0
def execOxch (o : OfferOp) (s : State) : Res := offer (.oxch o) s o 5 false 0
def execOcas (o : OfferOp) (s : State) : Res := offer (.ocas o) s o 6 false 0
/-- `orow` (R229). -/
def execOrow (o : OfferOp) (add : Bool) (size : W32) (s : State) : Res := offer (.orow o add size) s o 7 add size.toNat
/-- `ofin` (R381). -/
def execOfin (o : OfferOp) (size : W32) (s : State) : Res := offer (.ofin o size) s o 8 false size.toNat
/-- `owait` (R382). -/
def execOwait (o : OfferOp) (s : State) : Res := offer (.owait o) s o 9 false 0

/-! ## `ostat` (R240) -/

/-- The slot's first 16 bytes as the executing sequencer reads its own reply: what its context's commands wrote on
path n needs no `pwait`. -/
def State.statBytes (s : State) (k : Nat) (p : Ptr) : List PByte :=
  let co := (s.co (coreK k)).unhide fun h => h.writer == Path.n && h.cid == cidOf k
  co.bytes (cidOf k) (pathOf (qOf k)) (s.loc k p) 16

def execOstat (t : Bool) (p : BitVec 3) (s : State) : Res :=
  run (.ostat t p) s fun k =>
    let c := cidOf k
    let q := (s.r k).ptr p
    attempt s (s.scrChk k q 32 32 false) fun _ =>
      if (s.cx c).slotBusy (ctxnOf c) (s.loc k q) 32 (fun m => m == qOf k) then .wait .waitOc s
      else attempt s (State.consume (s.statBytes k q)) fun b =>
        let kind := (b.getD 0 0).toNat / 64
        if t && kind == 3 then .trap (precise .offer (leBv 64 (b.drop 8))) s
        else .done (s.modR k fun r => { r with
          s := leBv 64 (b.take 8), fl := ⟨kind == 0, kind == 3, (b.getD 2 0).getLsbD 7, false⟩ })

/-! ## The home: tickets (R236) -/

/-- The CNMU of a line: its device, stack and channel (R244). -/
def cnmuOf (ha : Nat) : Nat := haDev ha * 512 + ha / 2 ^ 36 % 16 * 32 + ha / 4096 % 32

def ticketOf (e : FinEnt) : W32 := BitVec.ofNat 32 (e.epoch.toNat * 4096 + e.idx)

/-- The unreserved entry used least recently. -/
def lruEnt (s : State) (es : List FinEnt) : Option FinEnt :=
  (es.filter fun e => (s.reserver e.line).isNone).foldl (fun m e => match m with
    | some x => if e.tick < x.tick then some e else some x
    | none => some e) none

namespace State

def putFin (s : State) (e : FinEnt) : State :=
  s.modH fun h => { h with fin := e :: h.fin.filter fun f => !(f.cnmu == e.cnmu && f.idx == e.idx) }

/-- The line's entry, made where there is none; none where every entry is reserved. -/
def finEntry (s : State) (line : Nat) : Option (FinEnt × State) :=
  let cn := cnmuOf (line * 64)
  match s.h.fin.find? fun e => e.line == line with
  | some e => let e := { e with tick := s.tick }; some (e, s.putFin e)
  | none =>
    let es := s.h.fin.filter fun e => e.cnmu == cn
    match findFrom (fun i => !es.any fun e => e.idx == i) 0 Config.finishCap with
    | some i => let e : FinEnt := ⟨cn, i, line, 0, s.tick⟩; some (e, s.putFin e)
    | none => match lruEnt s es with
      | some e => let e := { e with line := line, epoch := e.epoch + 1, tick := s.tick }; some (e, s.putFin e)
      | none => none

/-- Is the ticket valid for the line? -/
def ticketValid (s : State) (line : Nat) (t : W32) : Bool :=
  s.h.fin.any fun e => e.line == line && e.idx == fieldN t 0 12 && e.epoch == bits t 12 20

/-! ## Leases (R173) -/

/-- Another device's WRITE leases of a block. -/
def writeLeases (s : State) (block : Nat) : List Lease :=
  s.h.leases.filter fun l => l.block == block && l.write && l.dev != s.pf.fabricId

/-- A borrower's read or write of a block (R173): WRITE stays WRITE. -/
def addLease (s : State) (l : Lease) : State :=
  let w := l.write || s.h.leases.any fun m => m.block == l.block && m.dev == l.dev && m.write
  s.modH fun h => { h with leases := (h.leases.filter fun m => !(m.block == l.block && m.dev == l.dev)) ++ [{ l with write := w }] }

/-- Bytes that are lost and poisoned at their homes (R325). -/
def poisonAt (s : State) (has : List Nat) : State :=
  s.modH fun h => { h with
    poison := (unitsOf has).foldl (fun t u => Tab.set false t u true) h.poison
    mended := (unitsOf has).foldl (fun t u => Tab.erase t u) h.mended }

/-- The home starts to revoke the block's WRITE leases. -/
def startRevoke (s : State) (block : Nat) : State :=
  let new := (s.writeLeases block).filter fun l => !s.h.revoking.contains l
  s.modH fun h => { h with revoking := h.revoking ++ new }

/-! ## Performing an offer (R233, R379, R456) -/

/-- The name under which an operation's context holds tokens and reservations (assumption 26). -/
def offerHolder (c : Nat) (f : Fate) : Nat := match f with | .saved i t => tokName i t | _ => c

def offerLines (o : Offer) : List Nat := (List.range ((o.size + 63) / 64)).map fun i => lineOf o.x.ha + i

def offerCur (s : State) (o : Offer) : List PByte := s.h.bytes o.x o.size

def modOffer (s : State) (c id : Nat) (f : Offer → Offer) : State :=
  s.modF c fun x => { x with offers := x.offers.map fun o => if o.id == id then f o else o }

/-- The home has replied. -/
def offerReply (s : State) (c : Nat) (o : Offer) (bs row : List PByte) : State :=
  s.modOffer c o.id fun o => { o with stage := .replied (bs ++ if o.isRow then row else []) }

/-- The record of an offer that writes its opcode, E and TY; OLD keeps its poison (R329). -/
def rec_ (o : Offer) (kind reason : Nat) (ops : Bool) (ticket : W32) (old : List PByte) (val val2 : List Byte) : List PByte :=
  let b := replyBytes kind reason (if o.opc = 8 then o.fopc else o.opc) ops o.e o.ty.code ticket (pdata old) val val2
  clean (b.take 8) ++ (((b.drop 8).take 8).zip (List.range 8)).map (fun (x, i) => (x, (old.getD i (0, false)).2)) ++ clean (b.drop 16)

/-- A reply without operands (OPS = 0). VAL is the value operand, an `ofin`'s own, and VAL2 the swap value of an `ocas`
alone (assumption 94). -/
def declineBare (s : State) (c : Nat) (o : Offer) (reason : Nat) : State :=
  let cur := s.offerCur o
  s.offerReply c o (if o.isRow then rec_ o 1 reason false 0 [] [] [] else rec_ o 1 reason false 0 cur (o.val.take o.size) (if o.opc = 6 then o.val2.take o.size else [])) cur

/-- A FAULTED reply: OLD is the operand's address, for a row too, and VAL is 0 (assumption 72). The row area of one holds
no stated value. -/
def offerFault (s : State) (c : Nat) (o : Offer) (cause : Nat) : State :=
  s.offerReply c o (rec_ o 3 cause false 0 (clean (bvLe 8 o.va)) [] [])
    (clean ((List.range o.size).map fun i => Config.freeByte (s.free * 1024 + i)))

/-- A reply with operands and a ticket: `kind` 1 or 2. Where no entry is free it is BUSY without them; an escalated offer
and an `ofin` are never declined BUSY, and wait for an entry (R233, R456). -/
def declineWith (s : State) (c : Nat) (o : Offer) (kind reason : Nat) (val val2 : List Byte) : Option State :=
  let cur := s.offerCur o
  if o.isRow then some (s.offerReply c o (rec_ o kind reason true (s.rowVer o.x.ha) [] [] []) cur)
  else match s.finEntry (lineOf o.x.ha) with
    | some (e, s) => some (s.offerReply c o (rec_ o kind reason true (ticketOf e) cur val val2) cur)
    | none => if o.e || o.opc == 8 then none else some (s.declineBare c o 1)

/-- The value operands of an offer, as a decline returns them. -/
def declined (s : State) (c : Nat) (o : Offer) (kind reason : Nat) : Option State :=
  s.declineWith c o kind reason (o.val.take o.size) (if o.opc = 6 then o.val2.take o.size else [])

/-- A row is written: its version rises by 1 (R167). -/
def rowStore (s : State) (x : Xl) (bs : List Byte) : State :=
  let v := s.rowVer x.ha
  (s.homeWrite x (clean bs)).modH fun h => { h with rowVer := Tab.set 0 h.rowVer (s.rowOf x.ha) (v + 1) }

/-- The home executes the offer. -/
def offerExec (s : State) (c : Nat) (o : Offer) : State :=
  let cur := s.offerCur o
  let new := opRef o (pdata cur)
  if o.isRow then
    let s := s.rowStore o.x new
    s.offerReply c o (rec_ o 0 0 false (s.rowVer o.x.ha) [] [] []) cur
  else
    let s := if new = pdata cur then s else s.homeWrite o.x (clean new)
    s.offerReply c o (rec_ o 0 0 false 0 cur new []) []

/-- The line, or the row's lines, are reserved for the issuing context (R237): none where a line finds no entry. -/
def reserve (s : State) (cid : Nat) : List Nat → Option State
  | [] => some s
  | l :: r => match s.finEntry l with
    | some (_, s) => (s.modH fun h => { h with resv := ⟨l, cid⟩ :: h.resv.filter fun x => x.line != l }).reserve cid r
    | none => none

/-- HELD: operands and a reservation. -/
def offerHold (s : State) (c : Nat) (o : Offer) (reason : Nat) : Option State :=
  (s.reserve (offerHolder c o.fate) (offerLines o)).bind fun s => s.declined c o 2 reason

/-- MODE of OPOLICY for the offer (R239). -/
def offerMode (o : Offer) : Nat :=
  let m := fieldN o.policy 0 2
  if m = 3 ∨ !bitN o.policy (8 + o.opc) then 0 else m

/-- An offer to the host window (R241). -/
def offerHost (s : State) (c : Nat) (o : Offer) (reject : Bool) : State :=
  if (o.opc == 0 && o.ty != .fp32) || o.opc == 5 || o.opc == 6 then
    (if reject then s.offerFault c o 5 else if ppoison (s.offerCur o) then s.offerFault c o 13 else s.offerExec c o)
  else s.offerFault c o 14

/-- Step 1 of R456: NOTNEAR without operands; a view page declines so too (R261). -/
def notNear (s : State) (x : Xl) : Bool :=
  x.cc == 6 || haRegion x.ha == 3 || s.otherDomain x.ha || (s.h.viewOf x.ha).isSome

/-- Does another escalated offer to one of the lines wait at their home before this one (R237)? -/
def queuedBefore (s : State) (o : Offer) : Bool :=
  s.ctxs.any fun e => e.2.f.offers.any fun p => p.id != o.id && p.stage == .sent &&
    (offerLines p).any (offerLines o).contains && (match p.queued, o.queued with
    | some a, some b => decide (a < b)
    | some _, none => true
    | none, _ => false)

/-- An escalated offer that nothing declines: executed, held, or waiting in its turn (R237). -/
def escalated (s : State) (c : Nat) (o : Offer) (load : CnmuLoad) : Option State :=
  if (offerLines o).any (fun l => (s.reserver l).isSome) || s.nmOwned (pageOf o.x.ha) || load.busy || s.queuedBefore o then none
  else if offerMode o = 2 then s.offerHold c o 8
  else if load.throttle then s.offerHold c o 6
  else some (s.offerExec c o)

/-- A line offer or `orow` at its home; none where it waits there. -/
def offerAtHome (s : State) (c : Nat) (o : Offer) (load : CnmuLoad) : Option State :=
  let me := offerHolder c o.fate
  let lines := offerLines o
  let mine := lines.any fun l => s.reserver l == some me
  let others := lines.any fun l => match s.reserver l with | some r => r != me | none => false
  let owned := s.nmOwned (pageOf o.x.ha)
  if s.notNear o.x then some (s.declineBare c o 3)
  -- no port leads to the home (R325)
  else if s.h.gone o.x.ha then some (s.offerFault c o 13)
  -- a page that permits offers to the host declines none (R241); OFF = 0 declines them like others (assumption 82)
  else if haRegion o.x.ha == 2 && o.x.off then some (s.offerHost c o load.reject)
  else if o.x.cc == 2 && !s.holds me o.x.ha then some (s.declineBare c o 4)
  else if !(s.writeLeases (blockOf o.x.ha)).isEmpty then
    -- an escalated offer waits for the revocation that it starts
    let s' := s.startRevoke (blockOf o.x.ha)
    some (if o.e then s' else s'.declineBare c o 7)
  else if ppoison (s.offerCur o) then some (s.offerFault c o 13)
  else if !o.x.off then s.declined c o 1 3
  else if o.x.cc == 4 then s.declined c o 1 5
  else if o.add && o.size == 1024 then s.declined c o 1 2
  else if o.e then s.escalated c o load
  else if offerMode o ≠ 0 then s.declined c o 1 8
  else if load.throttle then s.declined c o 1 6
  else if others || owned || load.busy then s.declined c o 1 1
  else if mine then none
  else some (s.offerExec c o)

/-- An offer that waits at its home: an escalated one takes its place in the queue (R237). -/
def offerQueue (s : State) (c : Nat) (o : Offer) : State :=
  if o.e && o.queued.isNone then
    let (t, s) := s.fresh
    s.modOffer c o.id fun o => { o with queued := some t }
  else s

/-! ## `owait` (R238) -/

/-- Entries of a CNMU's wait table. -/
def waiters (s : State) (cnmu : Nat) : Nat :=
  (s.ctxs.map fun (e : Nat × Ctx) => (e.2.f.offers.filter fun o => cnmuOf o.x.ha == cnmu && (match o.stage with
    | .waiting _ => true | _ => false)).length).foldl (· + ·) 0

/-- An `owait`'s reply: OLD is the word, and what its core caches of it is no older (R156). -/
def owaitReply (s : State) (c : Nat) (o : Offer) (kind reason : Nat) (old : List PByte) : State :=
  (s.homeSeen (coreOf c) [lineOf o.x.ha]).offerReply c o (rec_ o kind reason false 0 old (o.val.take o.size) []) []

/-- An `owait` at its home: an NMC page declines LAYOUT, as R134 has every offer there decline (assumption 36). -/
def owaitAtHome (s : State) (c : Nat) (o : Offer) : Option State :=
  let cur := s.offerCur o
  if s.notNear o.x || isLehr o.x.ha then some (s.owaitReply c o 1 3 cur)
  else if s.h.gone o.x.ha then some (s.offerFault c o 13)
  else if haRegion o.x.ha == 2 && o.x.off then some (s.offerFault c o 14)
  else if s.nmOwned (pageOf o.x.ha) then none
  else if ppoison cur then some (s.offerFault c o 13)
  else if !o.x.off then some (s.owaitReply c o 1 3 cur)
  else if o.x.cc == 4 then some (s.owaitReply c o 1 5 cur)
  else if pdata cur ≠ o.val.take o.size then some (s.owaitReply c o 0 0 cur)
  else if Config.waitCap ≤ s.waiters (cnmuOf o.x.ha) then some (s.owaitReply c o 1 1 cur)
  else some (s.modOffer c o.id fun o => { o with stage := .waiting none, val := o.val.take o.size })

/-! ## `ofin` (R237) -/

/-- An `ofin` at its home; none where it waits: for the reservation of another context and for a near-memory command before
LEASE and POISON are looked at (R237 and R456 leave their order open, assumption 99). -/
def ofinAtHome (s : State) (c : Nat) (o : Offer) : Option State :=
  let me := offerHolder c o.fate
  let lines := offerLines o
  let cur := s.offerCur o
  if s.h.gone o.x.ha then some (s.offerFault c o 13)
  else if (lines.any fun l => match s.reserver l with | some r => r != me | none => false) || s.nmOwned (pageOf o.x.ha) then none
  else if !(s.writeLeases (blockOf o.x.ha)).isEmpty then some ((s.startRevoke (blockOf o.x.ha)).declineBare c o 7)
  else if ppoison (s.offerCur o) then some (s.offerFault c o 13)
  else
    let valid := if o.isRow then s.rowVer o.x.ha == o.ticket else s.ticketValid (lineOf o.x.ha) o.ticket
    if !valid then s.declineWith c o 1 9 (o.val2.take 8) (o.val2.drop 8)
    else
      let new := o.val.take o.size
      let s := s.modH fun h => { h with resv := h.resv.filter fun r => !(r.cid == me && lines.contains r.line) }
      if o.isRow then
        let s := s.rowStore o.x new
        some (s.offerReply c o (rec_ o 0 0 false (s.rowVer o.x.ha) [] [] []) cur)
      else
        let s := if new = pdata cur then s else s.homeWrite o.x (clean new)
        some (s.offerReply c o (rec_ o 0 0 false 0 cur new []) [])

/-! ## Order (R231) -/

/-- No older offer of the sequencer to one of the lines is still on its way (R231); to a byte of the offer, no `owait` is
unanswered, every earlier store of the sequencer is accepted, and the earlier loads may read (R156, R158; assumption 98). -/
def offerFirst (s : State) (c : Nat) (o : Offer) : Bool :=
  (s.cx c).f.offers.all (fun p => !(p.q == o.q && decide (p.id < o.id) && p.stage == .sent &&
    (offerLines p).any (offerLines o).contains)) &&
  !s.offersBefore c o.q o.id o.x.ha (max o.size 1) (fun p => p.opc == 9) &&
  !s.storeBefore c o.q o.id o.x.ha (max o.size 1) &&
  (s.overtaken c o.q o.id (overlap o.x.ha (max o.size 1))).all (s.loadFree c)

/-- An operation is performed at its home once the loads that it overtakes have read; the core's later reads do not find
older bytes in the pool (R157). None where it waits there. -/
def offerDone (s : State) (c : Nat) (o : Offer) (f : State → Option State) : Option State :=
  (f (s.captureBefore c o.q o.id (overlap o.x.ha (max o.size 1)))).map fun s => s.noteHomed (coreOf c) (offerLines o)

def offerIn (s : State) (c id : Nat) (p : Offer → Bool) : Option Offer := (s.cx c).f.offers.find? fun o => o.id == id && p o

end State

/-! ## Events -/

/-- The home executes, declines or holds an offer, or takes an `owait`, as one event of `of` (R162, R379). -/
def execOfferPerform (c id : Nat) (load : CnmuLoad) (s : State) : Res :=
  happens s (s.offerIn c id fun o => o.opc != 8 && o.stage == .sent && s.offerFirst c o) fun o =>
    (s.offerDone c o fun s => if o.opc = 9 then s.owaitAtHome c o else s.offerAtHome c o load).getD (s.offerQueue c o)

/-- The home performs an `ofin` (R237). -/
def execFinishCommit (c id : Nat) (s : State) : Res :=
  happens s (s.offerIn c id fun o => o.opc == 8 && o.stage == .sent && s.offerFirst c o) fun o => (s.offerDone c o fun s => s.ofinAtHome c o).getD s

/-- The first write that makes its word differ answers an `owait` (R238). -/
def execOwaitWake (c id : Nat) (s : State) : Res :=
  match s.offerIn c id fun _ => true with
  | some o => (match o.stage with
    | .waiting (some v) => .next (s.owaitReply c o 0 0 v)
    | _ => .next s)
  | none => .next s

/-- 1 ms has passed: TIMEOUT (R238). -/
def execOwaitTimeout (c id : Nat) (s : State) : Res :=
  happens s (s.offerIn c id fun o => o.stage == .waiting none) fun o => s.owaitReply c o 1 10 (s.offerCur o)

/-- Replies of KIND DECLINED or HELD count under their reason (R330). -/
def CtxReg.countReply (g : CtxReg) (bs : List PByte) : CtxReg :=
  let b := ((bs.getD 0 (0, false)).1).toNat
  if (b / 64 = 1 ∨ b / 64 = 2) ∧ 1 ≤ b % 64 ∧ b % 64 ≤ 10 then g.count (53 + b % 64) else g

/-- Bytes land at a place of a save image's window (R296). -/
def Image.land (m : Image) (l : Loc) (bs : List PByte) : Image :=
  let ws := (List.range bs.length).zip bs |>.map fun (j, b) => (swzOff l.swz (l.off + j), b)
  let ws := if l.k then kKept ws else ws
  let put (x : Memory) : Memory := ws.foldl (fun y w => y.write w.1 w.2.1) x
  let mark (t : Tab Bool) : Tab Bool :=
    (unitsOf (ws.map Prod.fst)).foldl (fun t u => Tab.set false t u (unitPoison (Tab.get false t u) ws u)) t
  if l.k then { m with kpriv := put m.kpriv, kpois := mark m.kpois }
  else { m with scr := put m.scr, spois := mark m.spois }

def State.modImage (s : State) (i t : Nat) (f : Image → Image) : State :=
  s.modSch fun h => { h with images := h.images.map fun m => if m.inst == i && m.tidx == t then f m else m }

/-- What an operation writes back lands in its context's window, in a saved window, or nowhere (R284, R296). -/
def State.landAt (s : State) (c : Nat) (fate : Fate) (p : Path) (l : Loc) (bs : List PByte) : State :=
  match fate with
  | .live => s.scrWrite c p l bs
  | .dead => s
  | .saved i t => s.modImage i t fun m => m.land l bs

/-- A reply lands, and `oc` or `nc` falls by `dec` (R170, R296). -/
def State.replyLand (s : State) (c : Nat) (fate : Fate) (p : Path) (slot : Loc) (bs : List PByte) (dec : Counters → Counters) : State :=
  let s := s.landAt c fate p slot bs
  let done (x : Ctx) : Ctx := { x with n := dec x.n, reg := x.reg.countReply bs }
  match fate with
  | .live => s.modCx c done
  | .dead => s
  | .saved i t => s.modImage i t fun m => { m with ctx := done m.ctx }

/-- An offer's reply lands in its slot, whole (R231, R232). -/
def execOfferReplyLanding (c id : Nat) (s : State) : Res :=
  match s.offerIn c id fun _ => true with
  | some o => (match o.stage with
    | .replied bs =>
      let s := s.modF c fun f => { f with offers := f.offers.filter fun p => p.id != id }
      .next (s.replyLand c o.fate (pathOf o.q) o.slot bs fun n => { n with oc := n.oc - 1 })
    | _ => .next s)
  | none => .next s

/-- A reservation ends after 4,096 memory cycles (R237). -/
def execReservationExpiry (line : Nat) (s : State) : Res :=
  .next (s.modH fun h => { h with resv := h.resv.filter fun r => r.line != line })

/-- A borrower has written back its dirty bytes, dropped its copies, and acknowledges (R173): the bytes are stored under
no key and in plain layout (assumption 67), with their poison (R329). The write-back waits while a line of it is reserved or owned. -/
def execLeaseRevocationAck (block dev : Nat) (dirty : List (Nat × PByte)) (s : State) : Res :=
  let ws := dirty.filter fun w => blockOf w.1 == block
  if (s.h.revoking.any fun l => l.block == block && l.dev == dev) && !(ws.any fun w => s.writeHeld (lineOf w.1)) then
    -- without a port toward the borrower its dirty bytes are lost
    let s := if s.h.lost dev then s.poisonAt (ws.map Prod.fst) else s.arriveAll 0 0 ws
    let s := s.modH fun h => { h with
      leases := h.leases.filter fun l => !(l.block == block && l.dev == dev)
      revoking := h.revoking.filter fun l => !(l.block == block && l.dev == dev) }
    -- requests queued for the block are taken up once no revocation of it is left
    .next (if s.h.revoking.any fun l => l.block == block then s
      else (s.h.leaseQ.filter fun l => l.block == block).foldl (fun s l => s.addLease l)
        (s.modH fun h => { h with leaseQ := h.leaseQ.filter fun l => l.block != block }))
  else .next s

end Sys2Proof.Machine
end

