-- ==== Sys2Proof/Machine/NearMem.lean ====
section
/-! DEFINITION. The near-memory commands `oemb`, `oscan`, `orowc` and `ofill` (11_nearmem.md; R384, R385, R457): issue,
what a CNMU does with them, and their replies. -/

namespace Sys2Proof.Machine

/-! ## Records (R254, R258, R246 check 3) -/

abbrev Record := List Byte

/-- The field of `n` bytes at an offset of a record. -/
def fld (r : Record) (off n : Nat) : Nat := leNat ((r.drop off).take n)

/-- The first offset of a list whose field is not as the record's table lists it. -/
def firstBad (l : List (Nat × Bool)) : Option Nat := (l.find? Prod.snd).map Prod.fst

/-- Bytes that must be 0, each a field of its own. -/
def zeroBytes (r : Record) (off n : Nat) : List (Nat × Bool) := (List.range n).map fun i => (off + i, fld r (off + i) 1 != 0)

/-- A lookup record (R254). -/
def embBad (r : Record) : Option Nat :=
  firstBad ([(1, decide (3 < fld r 1 1)), (2, decide (1 < fld r 2 1)),
    (3, decide (8 < fld r 3 1) || (fld r 2 1 == 1 && fld r 3 1 != 0)), (4, decide (1048575 < fld r 4 4)),
    (8, fld r 8 8 % 8 != 0), (16, fld r 16 4 % 64 != 0)] ++ zeroBytes r 20 4 ++ zeroBytes r 88 40)

/-- A bit field of an element: its first bit, then its width. -/
def bitBad (r : Record) (c : Nat) : List (Nat × Bool) :=
  [(c, decide (63 < fld r c 1)), (c + 1, fld r (c + 1) 1 == 0 || decide (64 < fld r c 1 + fld r (c + 1) 1))]

/-- Term t of a scan record; one beyond NT is all zero. -/
def termBad (r : Record) (t : Nat) : List (Nat × Bool) :=
  let o := 32 + 32 * t
  if fld r 12 1 % 4 ≤ t then zeroBytes r o 32
  else bitBad r o ++ [(o + 2, decide (3 < fld r (o + 2) 1))] ++ zeroBytes r (o + 3) 5 ++
    [(o + 16, fld r (o + 2) 1 != 3 && fld r (o + 16) 8 != 0)] ++ zeroBytes r (o + 24) 8

/-- A scan record (R258). -/
def scanBad (r : Record) : Option Nat :=
  firstBad ([(0, fld r 0 8 % 4096 != 0), (8, fld r 8 4 == 0 || decide (65536 < fld r 8 4)),
    (12, fld r 12 1 % 4 == 3 || fld r 12 1 / 16 != 0)] ++ zeroBytes r 13 3 ++ bitBad r 16 ++
    [(18, decide (256 < fld r 18 2)), (20, decide (1 < fld r 20 1))] ++ zeroBytes r 21 3 ++
    [(24, fld r 24 4 % 16 != 0)] ++ zeroBytes r 28 4 ++ termBad r 0 ++ termBad r 1)

/-- Indices that a lookup names, and the bytes of one entry of its list. -/
def embCount (r : Record) : Nat := if fld r 2 1 = 1 then fld r 4 4 else fld r 3 1
def embEntry (r : Record) : Nat := if fld r 1 1 = 3 then 8 else 4
/-- Bytes of the list. -/
def embListLen (r : Record) : Nat := if fld r 2 1 = 1 then fld r 4 4 * embEntry r else 0

/-! ## Issue (R246) -/

namespace State

/-- A command is in flight; `nc` rises. -/
def nmSend (s : State) (c : Nat) (m : NmCmd) : State :=
  s.modCx c fun x => { x with
    n := { x.n with nc := x.n.nc + 1 }
    f := { x.f with nms := x.f.nms ++ [m] } }

/-- What every command of sequencer k has. -/
def nmNew (s : State) (k opc : Nat) (slot : Ptr) : NmCmd × State :=
  let (id, s) := s.fresh
  let sl := (s.cx (cidOf k)).slot
  ({ id := id, q := qOf k, opc := opc, bf16 := false, record := [], recOff := 0, dst := [], src := [], dva := 0, n := 0
     slot := s.loc k slot, win := sl.winBase, limit := sl.winSize, out := none, result := [], dest := 0
     holder := some (cidOf k), part := sl.part, walker := none, fate := .live }, s)

/-- The checks of `oemb` and `oscan` on their operands, and the record. A poisoned byte of it comes after the alignment
and before its fields (assumption 95). -/
def recordOf (s : State) (k : Nat) (pr pv : Ptr) (bad : Record → Option Nat) : Chkd Record :=
  let lvl := s.lvlK k
  match firstOf [asTrap (scrCheck pr lvl (s.winSize k) 32), asTrap (scrCheck pv lvl (s.winSize k) 128),
      trapIf (pr.base.toNat % 32 != 0) .misalign, trapIf (pv.base.toNat % 64 != 0) .misalign] with
  | .error t => .error t
  | .ok _ => match consume (s.scrAt k pv 128) with
    | .error t => .error t
    | .ok r => match bad r with
      | some o => .error (precise .offer (pv.base + BitVec.ofNat 64 o))
      | none => .ok r

/-- Is a slot of 32 B at this place busy? -/
def slotTaken (s : State) (k : Nat) (p : Ptr) : Bool :=
  s.slotBusy (cidOf k) (s.loc k p) 32

end State

/-- `oemb` and `oscan`: their record, the pages that they translate as offers, and the command. `fits` is `oscan`'s check
of its results. -/
def recordCmd (i : Instr) (s : State) (opc : Nat) (bf16 : Bool) (r v : PtrOp) (bad : Record → Option Nat)
    (fits : Record → Nat → Bool) (range : Record → W64 × Nat) : Res :=
  run i s fun k =>
    let pr := (s.r k).ptr r.p
    let pv := (s.r k).ptr v.p
    attempt s (s.recordOf k pr pv bad) fun rec_ =>
      attempt s (trapIf (!fits rec_ (s.winSize k)) .window) fun _ =>
        attempt s (s.pages k (range rec_).1 (range rec_).2 (.offer false)) fun (ps, s) =>
          if s.slotTaken k pr then .wait .waitOc s
          else
            let (m, s) := s.nmNew k opc pr
            let m := { m with
              bf16 := bf16, record := rec_, recOff := pv.base.toNat, src := ps
              dest := fld rec_ (if opc = 0x10 then 16 else 24) 4 }
            .done ((s.nmSend (cidOf k) m).retireR k [r, v] fun x => x)

/-- `oemb` (R253 to R256). -/
def execOemb (bf16 : Bool) (r v : PtrOp) (s : State) : Res :=
  recordCmd (.oemb bf16 r v) s 0x10 bf16 r v embBad (fun _ _ => true) fun rec_ => (BitVec.ofNat 64 (fld rec_ 8 8), embListLen rec_)

/-- `oscan` (R257 to R259): its results must fit at issue. -/
def execOscan (r v : PtrOp) (s : State) : Res :=
  recordCmd (.oscan r v) s 0x11 false r v scanBad (fun x w => decide (fld x 24 4 + 16 * fld x 18 2 ≤ w))
    fun rec_ => (BitVec.ofNat 64 (fld rec_ 0 8), fld rec_ 8 4 * 4096)

/-- The count of `orowc` and `ofill` (R245). -/
def nmCount (n : NmCount) (s : W64) : Nat := match n with | .imm v => v.toNat | .s => fieldN s 0 32

namespace State

/-- Checks 1 and 2 of R246 for `orowc` and `ofill`. -/
def rowChks (s : State) (k : Nat) (pd pr : Ptr) (src : Option Ptr) (v : OVal) (n : Nat) : Chkd Unit :=
  let lvl := s.lvlK k
  let (sv, av) := match v with
    | .mem p _ =>
      let q := (s.r k).ptr p
      (asTrap (scrCheck q lvl (s.winSize k) 8), trapIf (q.base.toNat % 8 != 0) .misalign)
    | _ => (.ok (), .ok ())
  let (ss, as_) := match src with
    | some p => (asTrap (gSpace p lvl), trapIf (p.base.toNat % 1024 != 0) .misalign)
    | none => (.ok (), .ok ())
  firstOf [asTrap (gSpace pd lvl), asTrap (scrCheck pr lvl (s.winSize k) 32), ss, sv,
    trapIf (pr.base.toNat % 32 != 0) .misalign, av, trapIf (pd.base.toNat % 1024 != 0) .misalign, as_,
    trapIf (n % 1024 != 0) .misalign]

/-- Check 4: the destination as write, then the source as read. -/
def rowPages (s : State) (k : Nat) (pd : W64) (src : Option W64) (n : Nat) : Chkd (List Xl × List Xl × State) :=
  match s.pages k pd n (.near true) with
  | .error t => .error t
  | .ok (d, s) => match src with
    | none => .ok (d, [], s)
    | some a => match s.pages k a n (.near false) with
      | .error t => .error t
      | .ok (x, s) => .ok (d, x, s)

end State

/-- `orowc` and `ofill`: `src` is the source pointer of the first, `v` the pattern of the second, whose poison is looked
at after translation and the wait for the slot (assumption 95). -/
def rowCmd (i : Instr) (s : State) (opc : Nat) (d r : PtrOp) (src : Option PtrOp) (v : OVal) (cnt : NmCount) : Res :=
  run i s fun k =>
    let pd := (s.r k).ptr d.p
    let pr := (s.r k).ptr r.p
    let ps := src.map fun o => (s.r k).ptr o.p
    let n := nmCount cnt (s.r k).s
    attempt s (s.rowChks k pd pr ps v n) fun _ =>
      attempt s (s.rowPages k pd.base (ps.map Ptr.base) n) fun (dst, sp, t) =>
        if t.slotTaken k pr then .wait .waitOc t
        else attempt s (t.oval k v 8 8) fun pat =>
          let (m, s) := t.nmNew k opc pr
          let m := { m with
            record := pat ++ (match ps with | some p => bvLe 8 p.base | none => []), dst := dst, src := sp, dva := pd.base
            n := n }
          .done ((s.nmSend (cidOf k) m).retireR k ([d, r] ++ src.toList ++ v.ptrs) fun x => x)

/-- `orowc` (R262). -/
def execOrowc (d r src : PtrOp) (cnt : NmCount) (s : State) : Res :=
  rowCmd (.orowc d r src cnt) s 0x12 d r (some src) (.lit 0) cnt

/-- `ofill` (R262). -/
def execOfill (d r : PtrOp) (v : OVal) (cnt : NmCount) (s : State) : Res :=
  rowCmd (.ofill d r v cnt) s 0x13 d r none v cnt

/-! ## Segments (R262, R129) -/

namespace NmCmd

/-- Virtual addresses of the range that it reads: the source, the list or the pages scanned. -/
def sva (m : NmCmd) : W64 :=
  if m.opc = 0x10 then BitVec.ofNat 64 (fld m.record 8 8)
  else if m.opc = 0x11 then BitVec.ofNat 64 (fld m.record 0 8)
  else BitVec.ofNat 64 (fld m.record 8 8)

/-- `n` bytes from offset `o` on, by page: a node's range may stand at any address (R279). -/
def piecesOf (pages : List Xl) (va : W64) (o n : Nat) : List (Xl × Nat) :=
  let k := 4096 - (va.toNat + o) % 4096
  if n ≤ k then [(xlAt pages va o, n)] else [(xlAt pages va o, k), (xlAt pages va (o + k), n - k)]

/-- The segments of 1 KiB that a row command writes and reads, as pieces. -/
def dstPieces (m : NmCmd) : List (List (Xl × Nat)) := (List.range (m.n / 1024)).map fun i => piecesOf m.dst m.dva (1024 * i) 1024
def srcPieces (m : NmCmd) : List (List (Xl × Nat)) :=
  if m.opc = 0x12 then (List.range (m.n / 1024)).map fun i => piecesOf m.src m.sva (1024 * i) 1024 else []

/-- Where they begin. -/
def dstSegs (m : NmCmd) : List Xl := (List.range (m.n / 1024)).map fun i => xlAt m.dst m.dva (1024 * i)
def srcSegs (m : NmCmd) : List Xl := if m.opc = 0x12 then (List.range (m.n / 1024)).map fun i => xlAt m.src m.sva (1024 * i) else []

end NmCmd

/-- Bank and subarray of an address (R129). -/
def bankOf (a : Nat) : Nat × Nat × Nat × Nat × Nat :=
  (haDev a, a / 2 ^ 36 % 16, a / 4096 % 32, a / 2 ^ 17 % 8, a / 1024 % 4)
def subOf (a : Nat) : Nat := a / 2 ^ 30 % 64

/-- Paths that the segments of a command take: SUB, CHAN and XFER. -/
def rowPaths (dst src : List Xl) : Nat × Nat × Nat :=
  let step (st : (Nat × Nat × Nat) × List Nat × List Xl) (d : Xl) : (Nat × Nat × Nat) × List Nat × List Xl :=
    let (n, seen, rest) := st
    match rest with
    | x :: more =>
      if bankOf d.ha ≠ bankOf x.ha then ((n.1, n.2.1, n.2.2 + 1), seen, more)
      else if subOf d.ha = subOf x.ha then ((n.1 + 1, n.2.1, n.2.2), seen, more)
      else ((n.1, n.2.1 + 1, n.2.2), seen, more)
    | [] =>
      if seen.any fun a => bankOf a == bankOf d.ha && subOf a == subOf d.ha then ((n.1 + 1, n.2.1, n.2.2), seen, [])
      else ((n.1, n.2.1 + 1, n.2.2), d.ha :: seen, [])
  (dst.foldl step ((0, 0, 0), [], src)).1

/-! ## Embedding tables (R253) -/

namespace State

def embTable (s : State) (part id : Nat) : Option EmbTable := s.h.emb.find? fun t => t.part == part && t.id == id

/-- The index list, as it stands. -/
def embList (s : State) (m : NmCmd) : List PByte :=
  (List.range (embListLen m.record)).map fun i => s.h.byte (xlAt m.src m.sva i) 0

/-- Entries of a lookup: index and weight. -/
def embEntries (s : State) (m : NmCmd) : List (Nat × W32) :=
  let r := m.record
  if fld r 2 1 = 1 then
    let l := pdata (s.embList m)
    let z := embEntry r
    (List.range (embCount r)).map fun i => (fld l (z * i) 4, if z = 8 then BitVec.ofNat 32 (fld l (8 * i + 4) 4) else 0)
  else (List.range (embCount r)).map fun i => (fld r (24 + 4 * i) 4, BitVec.ofNat 32 (fld r (56 + 4 * i) 4))

end State

def EmbTable.row (t : EmbTable) (i : Nat) : Xl := xlAt t.pages t.base (i * t.rowsz)
def EmbTable.lanes (t : EmbTable) : Nat := t.rowsz / t.fmt.bytes
def EmbTable.rowVa (t : EmbTable) (i : Nat) : W64 := t.base + BitVec.ofNat 64 (i * t.rowsz)

/-- The lanes of a row, widened. -/
def EmbTable.widened (t : EmbTable) (bs : List Byte) : List W32 := (elems t.fmt t.lanes bs).map fun e => roundFP32 (widenE t.fmt e)

/-- One step of pooling (R86); `first` starts it. -/
def poolStep (op : Nat) (first : Bool) (acc xs : List W32) (w : W32) : List W32 :=
  if first then (if op = 3 then xs.map (fmul32 w) else xs)
  else List.zipWith (fun a x => if op = 3 then fma32 a w x else if op = 2 then fmax32 a x else fadd32 a x) acc xs

/-- The end of pooling: the mean, and the result's bytes. -/
def poolEnd (op n : Nat) (bf16 : Bool) (acc : List W32) : List Byte :=
  let acc := if op = 1 ∧ n ≠ 0 then acc.map fun a => roundFP32 ((ex32 a).div (Ex.ofInt n)) else acc
  acc.flatMap fun a => if bf16 then natLe 2 (Ff.bf16.round (ex32 a) .rne false) else bvLe 4 a

/-! ## Performing a command -/

/-- What a CNMU makes of a command: it waits, or replies with the state after it. -/
inductive NmRes where
  | wait (s : State)
  | reply (kind reason : Nat) (body : List Byte) (result : List Byte) (s : State)

namespace State

/-- Reply bytes that the spec states no value for. -/
def openBytes (s : State) (n : Nat) : List Byte := (List.range n).map fun i => Config.freeByte (s.free * 1024 + i)

/-- Home ranges that a command touches. -/
def nmRanges (s : State) (m : NmCmd) : List (Nat × Nat) :=
  if m.opc = 0x10 then
    ((List.range ((embListLen m.record + 7) / 8)).map fun i => ((xlAt m.src m.sva (8 * i)).ha, 8)) ++
    match s.embTable m.part (fld m.record 0 1) with
    | some t => ((s.embEntries m).filter fun e => decide (e.1 < t.nrows)).map fun e => ((t.row e.1).ha, t.rowsz)
    | none => []
  else if m.opc = 0x11 then m.src.map fun x => (x.ha / 4096 * 4096, 4096)
  else (m.dstPieces ++ m.srcPieces).flatten.map fun p => (p.1.ha, p.2)

def meets (rs : List (Nat × Nat)) (a n : Nat) : Bool := rs.any fun r => overlap r.1 r.2 a n

/-- Does a refreshing macro hold what a command reads (R43)? -/
def nmRefresh (s : State) (m : NmCmd) : Bool :=
  let rs := if m.opc = 0x10 ∨ m.opc = 0x11 then s.nmRanges m else m.srcPieces.flatten.map fun p => (p.1.ha, p.2)
  rs.any fun r => s.refreshing r.1

/-- A command waits for a refreshing macro, for a reservation, and for the revocation of a WRITE lease that it starts
(R43, R251, R173). -/
def nmWaits (s : State) (m : NmCmd) : Option State :=
  if s.nmRefresh m then some s else
  let rs := s.nmRanges m
  let ls := (s.h.leases.filter fun l => l.write && l.dev != s.pf.fabricId && meets rs (l.block * 65536) 65536).map Lease.block
  if ls.isEmpty then (if s.h.resv.any fun r => meets rs (r.line * 64) 64 then some s else none)
  else some (ls.foldl (fun s b => s.startRevoke b) s)

/-- NOTNEAR (R247, R261). -/
def nmFar (s : State) (pool : Bool) (x : Xl) : Bool :=
  !x.off || s.otherDomain x.ha || (s.h.viewOf x.ha).isSome || (pool && (x.cc == 6 || haRegion x.ha == 3))

/-- The first poisoned line of the `n` bytes from offset `o` of a range at `va`, by its address. -/
def poisonedLine (s : State) (pages : List Xl) (va : W64) (o n : Nat) : Option W64 :=
  ((List.range n).find? fun i => (s.h.byte (xlAt pages va (o + i)) 0).2).map fun i => lineVa (va + BitVec.ofNat 64 (o + i))
where
  /-- The line of an address. -/
  lineVa (a : W64) : W64 := a &&& ~~~(63 : W64)

/-- The walk over the entries of a lookup (R255, R457 step 6). -/
def embWalk (s : State) (m : NmCmd) (t : EmbTable) (first : Bool) (acc : List W32) : List (Nat × W32) → Except NmRes (List W32)
  | [] => .ok acc
  | (i, w) :: rest =>
    if t.nrows ≤ i then .error (.reply 3 5 (natLe 8 i ++ s.openBytes 16) [] s)
    else
      let x := t.row i
      if s.nmFar true x then .error (.reply 1 3 (natLe 8 m.recOff ++ s.openBytes 16) [] s)
      else match s.poisonedLine t.pages t.base (i * t.rowsz) t.rowsz with
        | some a => .error (.reply 3 13 (bvLe 8 a ++ s.openBytes 16) [] s)
        | none =>
          let xs := t.widened (pdata (s.h.bytes x t.rowsz))
          s.embWalk m t false (poolStep (fld m.record 1 1) first acc xs w) rest

/-- The channel whose walker takes a lookup: the first row's, or the list's first page's where no row is named (R246,
R255). -/
def embCnmu (s : State) (m : NmCmd) : Nat :=
  match s.embTable m.part (fld m.record 0 1), s.embEntries m with
  | some t, e :: _ => cnmuOf (t.row e.1).ha
  | _, _ => ((m.src.head?).map fun x => cnmuOf x.ha).getD 0

/-- Lookup records that a walker holds: accepted, not replied to (R244). -/
def lookups (s : State) (cnmu : Nat) : Nat :=
  let holds (m : NmCmd) : Bool := m.walker == some cnmu && m.out.isNone
  (s.ctxs.map fun e => (e.2.f.nms.filter holds).length).sum +
    (s.sch.graphs.map fun g => (g.nodes.filter fun n => (n.near.map holds).getD false).length).sum

/-- A lookup that its walker has accepted (R457 steps 3 to 6). -/
def embServe (s : State) (m : NmCmd) : NmRes :=
  let r := m.record
  match s.embTable m.part (fld r 0 1) with
  | none => .reply 3 5 (natLe 8 0 ++ s.openBytes 16) [] s
  | some t =>
    let z := if m.bf16 then 2 else 4
    if m.limit < m.dest + t.lanes * z then .reply 3 6 (natLe 8 m.dest ++ s.openBytes 16) [] s
    else match s.nmWaits m with
      | some s => .wait s
      | none => match s.poisonedLine m.src m.sva 0 (embListLen r) with
        | some a => .reply 3 13 (bvLe 8 a ++ s.openBytes 16) [] s
        | none =>
          let es := s.embEntries m
          match s.embWalk m t true (List.replicate t.lanes 0) es with
          | .error e => e
          | .ok acc => .reply 0 0 (natLe 4 es.length ++ natLe 4 t.lanes ++ List.replicate 16 0)
              (poolEnd (fld r 1 1) es.length m.bf16 acc) s

/-- A command as it now stands takes the place of the one of its name: a context's, or a node's. -/
def putNm (s : State) (m : NmCmd) : State :=
  let put (x : NmCmd) : NmCmd := if x.id == m.id then m else x
  { s with
    ctxs := s.ctxs.map fun e => (e.1, { e.2 with f := { e.2.f with nms := e.2.f.nms.map put } })
    sch := { s.sch with graphs := s.sch.graphs.map fun g => { g with nodes := g.nodes.map fun n => { n with near := n.near.map put } } } }

/-- `oemb` at its CNMU (R255, R457): the walker accepts it where its queue has room (R244), and serves it now or, where
`load` says that it is busy with others, later. -/
def embRun (s : State) (m : NmCmd) (load : CnmuLoad) : NmRes :=
  let decline (reason : Nat) : NmRes := .reply 1 reason (natLe 8 m.recOff ++ s.openBytes 16) [] s
  if m.walker.isSome then (if load.busy then .wait s else s.embServe m)
  else if m.src.any (s.nmFar true) then decline 3
  else if Config.lookupCap ≤ s.lookups (s.embCnmu m) then decline 1
  else if load.throttle then decline 6
  else
    let m := { m with walker := some (s.embCnmu m) }
    let s := s.putNm m
    if load.busy then .wait s else s.embServe m

end State

/-! ## The scan (R257, R259) -/

/-- The element bits that a field names, extended. -/
def scanField (signed : Bool) (c w e : Nat) : Int := intOf signed w (e / 2 ^ c % 2 ^ w)

/-- A term of a scan record on an element. -/
def scanTerm (r : Record) (signed : Bool) (t e : Nat) : Bool :=
  let o := 32 + 32 * t
  let w := fld r (o + 1) 1
  let x := scanField signed (fld r o 1) w e
  let k1 := intOf signed 64 (fld r (o + 8) 8)
  let k2 := intOf signed 64 (fld r (o + 16) 8)
  match fld r (o + 2) 1 with
  | 0 => x == k1
  | 1 => decide (x < k1)
  | 2 => decide (k1 < x)
  | _ => decide (k1 ≤ x) && decide (x ≤ k2)

def scanHit (r : Record) (e : Nat) : Bool :=
  let signed := (fld r 12 1).testBit 3
  match fld r 12 1 % 4 with
  | 0 => true
  | 1 => scanTerm r signed 0 e
  | _ =>
    let a := scanTerm r signed 0 e
    let b := scanTerm r signed 1 e
    if (fld r 12 1).testBit 2 then a || b else a && b

/-- Columns that a scan reads. -/
def scanColumns (r : Record) : List Nat :=
  let span (o : Nat) (b : Nat) : Bool := decide (fld r o 1 ≤ b) && decide (b < fld r o 1 + fld r (o + 1) 1)
  (List.range 64).filter fun b => span 16 b || (List.range (fld r 12 1 % 4)).any fun t => span (32 + 32 * t) b

/-- The entries selected: the greatest or least values first, ties by ascending index. -/
def scanSel (r : Record) (cand : List (Nat × Int)) : List (Nat × Int) :=
  let le (x y : Nat × Int) : Bool :=
    if x.2 = y.2 then decide (x.1 ≤ y.1) else if fld r 20 1 = 0 then decide (y.2 < x.2) else decide (x.2 < y.2)
  (sortBy le cand).take (fld r 18 2)

namespace State

/-- The elements of a page, as stored vertically. -/
def scanPage (s : State) (x : Xl) : List Nat :=
  (List.range 512).map fun j => pnum ((List.range 8).map fun i => s.h.nmcByte x.key (x.ha / 4096 * 4096 + 8 * j + i))

/-- The first poisoned column of the pages. -/
def scanPoison (s : State) (m : NmCmd) : Option W64 :=
  ((List.range m.src.length).zip m.src).findSome? fun (p, x) =>
    ((scanColumns m.record).find? fun b => (List.range 4).any fun u =>
      (s.h.stored x.key (x.ha / 4096 * 4096 + 64 * b + 16 * u)).2).map fun b => m.sva + BitVec.ofNat 64 (4096 * p + 64 * b)

/-- `oscan` at its CNMU. -/
def scanRun (s : State) (m : NmCmd) : NmRes :=
  let r := m.record
  if m.src.any (s.nmFar true) then .reply 1 3 (s.openBytes 24) [] s
  else if m.src.any fun x => x.cc != 4 then .reply 1 5 (s.openBytes 24) [] s
  else match s.nmWaits m with
    | some s => .wait s
    | none => match s.scanPoison m with
      | some a => .reply 3 13 (bvLe 8 a ++ s.openBytes 16) [] s
      | none =>
        let es := m.src.flatMap s.scanPage
        let signed := (fld r 12 1).testBit 3
        let cand := ((List.range es.length).zip es |>.filter fun e => scanHit r e.2).map fun e =>
          (e.1, scanField signed (fld r 16 1) (fld r 17 1) e.2)
        let sel := scanSel r cand
        .reply 0 0 (natLe 4 cand.length ++ natLe 4 sel.length ++ List.replicate 16 0)
          (sel.flatMap fun e => natLe 4 e.1 ++ natLe 4 0 ++ bvLe 8 (BitVec.ofInt 64 e.2)) s

/-! ## Row copy and fill (R262) -/

/-- The stored bytes of a segment. -/
def segBytes (s : State) (ps : List (Xl × Nat)) : List PByte :=
  ps.flatMap fun p => (List.range p.2).map fun i => s.h.raw p.1.key (p.1.ha + i)

/-- A segment is written on stored bits. -/
def segWrite (s : State) : List (Xl × Nat) → List PByte → State
  | [], _ => s
  | p :: r, bs =>
    (s.arriveAll p.1.key 0 ((List.range p.2).zip bs |>.map fun (i, b) => (p.1.ha + i, b))).segWrite r (bs.drop p.2)

/-- One segment copied: where the command has written its source, either value may arrive. -/
def segCopy (old s : State) (j : Nat) (d x : List (Xl × Nat)) : State :=
  let a := old.segBytes x
  let b := s.segBytes x
  s.segWrite d ((List.range 1024).zip (a.zip b) |>.map fun (i, p) =>
    if Config.freeChoice (old.free * 0x100000000 + 1024 * j + i) then p.1 else p.2)

/-- The segments of a command are written, in ascending destination order. -/
def rowWrite (s : State) (m : NmCmd) : State :=
  if m.opc = 0x12 then
    ((List.range (m.n / 1024)).zip (m.dstPieces.zip m.srcPieces)).foldl (fun t p => s.segCopy t p.1 p.2.1 p.2.2) s
  else
    let pat := (List.replicate 128 (m.record.take 8)).flatten
    m.dstPieces.foldl (fun t d => t.segWrite d (clean pat)) s

/-- `orowc` and `ofill` at their home. -/
def rowRun (s : State) (m : NmCmd) : NmRes :=
  if m.n = 0 then .reply 0 0 (List.replicate 24 0) [] s
  else if (m.dst ++ m.src).any (s.nmFar false) then .reply 1 3 (s.openBytes 24) [] s
  else if m.dst.any fun x => x.cc == 2 && !(match m.holder with
      | some c => s.holds (offerHolder c m.fate) x.ha
      | none => false) then .reply 1 4 (s.openBytes 24) [] s
  else match s.nmWaits m with
    | some s => .wait s
    | none =>
      let (a, b, c) := rowPaths m.dstSegs m.srcSegs
      .reply 0 0 (natLe 4 a ++ natLe 4 b ++ natLe 4 c ++ natLe 4 m.dstSegs.length ++ List.replicate 8 0) [] (s.rowWrite m)

def nmRun (s : State) (m : NmCmd) (load : CnmuLoad) : NmRes :=
  if m.opc = 0x10 then s.embRun m load else if m.opc = 0x11 then s.scanRun m else s.rowRun m

/-! ## Commands by name -/

/-- The near node that runs a command (R279). -/
def nodeNear (s : State) (id : Nat) : Option (W64 × Nat × Nat × NmCmd) :=
  s.sch.graphs.findSome? fun g => ((List.range g.nodes.length).zip g.nodes).findSome? fun (i, n) =>
    match n.near with
    | some c => if c.id == id then some (g.hdr, g.ctxid, i, c) else none
    | none => none

def nmIn (s : State) (c id : Nat) : Option NmCmd := (s.cx c).f.nms.find? fun m => m.id == id

/-- The command of a name: a context's, or a node's. -/
def nmOf (s : State) (c id : Nat) : Option NmCmd :=
  match s.nmIn c id with
  | some m => some m
  | none => (s.nodeNear id).map fun x => x.2.2.2

/-- The home has replied to a command. -/
def nmReplied (s : State) (c : Nat) (m : NmCmd) (kind reason : Nat) (body result : List Byte) : State :=
  let ty : BitVec 4 := if m.opc = 0x10 then (if m.bf16 then 8 else 9) else 0
  let m := { m with
    out := some (clean ((replyBytes kind reason m.opc false false ty 0 [] [] []).take 8 ++ pad 24 body)), result := result }
  let s := s.modF c fun f => { f with nms := f.nms.map fun x => if x.id == m.id then m else x }
  match s.nodeNear m.id with
  | some (hdr, ctxid, i, _) => s.modNode ctxid hdr i fun n => { n with near := some m }
  | none => s

/-- Do two commands of a context write a byte of the scratchpad in common: the result of one, which ends at most at its
limit, and the result or the slot of the other? -/
def nmMeet (n : Nat) (p m : NmCmd) : Bool :=
  let dest (a : NmCmd) : List (Nat × Nat) :=
    let len := if a.out.isSome then a.result.length else a.limit - a.dest
    if (a.opc = 0x10 ∨ a.opc = 0x11) ∧ 0 < len then [(a.win + a.dest, len)] else []
  let hits (a b : NmCmd) : Bool := (List.range 32).any fun i => meets (dest a) (b.slot.key n i) 1
  (dest m).any (fun r => meets (dest p) r.1 r.2) || hits p m || hits m p

/-- No older command of the sequencer whose ranges meet the command's is unperformed (R249). -/
def nmFirst (s : State) (c : Nat) (m : NmCmd) : Bool :=
  (s.cx c).f.nms.all fun p => !(p.q == m.q && decide (p.id < m.id) && p.out.isNone &&
    ((s.nmRanges m).any (fun r => meets (s.nmRanges p) r.1 r.2) || nmMeet (ctxnOf c) p m))

/-- No older command of the sequencer that writes what the command writes has yet to land (R249). -/
def nmLands (s : State) (c : Nat) (m : NmCmd) : Bool :=
  (s.cx c).f.nms.all fun p => !(p.q == m.q && decide (p.id < m.id) && nmMeet (ctxnOf c) p m)

end State

/-! ## Events -/

/-- A command is performed, declined or faulted at its home, or waits there. -/
def execNmCommandPerform (c id : Nat) (load : CnmuLoad) (s : State) : Res :=
  happens s ((s.nmOf c id).filter fun m => m.out.isNone && s.nmFirst c m) fun m =>
    match s.nmRun m load with
    | .wait s => s
    | .reply kind reason body result s => s.nmReplied c m kind reason body result

/-- The end of a node's command: DONE, or FAULTED where it was declined (SRC 3) or faulted (SRC 4). -/
def State.nodeNearEnd (s : State) (hdr : W64) (ctxid i : Nat) (m : NmCmd) (bs : List PByte) : State :=
  let b := ((bs.getD 0 (0, false)).1).toNat
  let s := s.modNode ctxid hdr i fun n => { n with near := none }
  if b / 64 = 0 then s.nodeDone ctxid hdr i
  else s.nodeFail ctxid hdr i (faultWord (if b / 64 = 1 then 3 else 4) (b % 64) 0) m.dva

/-- The lines of a record or row command's destination. -/
def NmCmd.dstLines (m : NmCmd) : List Nat :=
  m.dstPieces.flatten.flatMap fun p => (List.range ((p.1.ha % 64 + p.2 + 63) / 64)).map (lineOf p.1.ha + ·)

/-- A reply lands: DEST first, then the slot (R384); `nc` falls.  The issuing core's cached copies of the
destination stay as they are (R251: a clean one goes on being read until an open). -/
def execNmReplyLanding (c id : Nat) (s : State) : Res :=
  match s.nmOf c id with
  | none => .next s
  | some m => match m.out with
    | none => .next s
    | some bs => match s.nodeNear id with
      | some (hdr, ctxid, i, _) => .next (s.nodeNearEnd hdr ctxid i m bs)
      | none => if !s.nmLands c m then .next s else
        let s := s.modF c fun f => { f with nms := f.nms.filter fun x => x.id != id }
        let s := if m.opc = 0x10 ∨ m.opc = 0x11 then s else s.noteHomed (coreOf c) m.dstLines
        let s := if m.result.isEmpty then s
          else s.landAt c m.fate .n ⟨false, m.win, m.dest, 0⟩ (clean m.result)
        .next (s.replyLand c m.fate .n m.slot bs fun n => { n with nc := n.nc - 1 })

end Sys2Proof.Machine
end

