-- ==== Sys2Proof/Machine/Turns.lean ====
section
/-! DEFINITION. Whose step is next, and what it does before its instruction executes: which sequencers and awls may
issue (R46, R61 to R63, R67, R68, R138, R228), what they fetch, and the order of the turns (assumption 6). -/

namespace Sys2Proof.Machine

/-- What a turn comes to: an instruction to execute, a state without one, or an agent that the part does not have. -/
inductive Ready where
  | inst (i : Instr) (s : State)
  | done (s : State)
  | absent
  deriving DecidableEq, Repr

/-- Entries of a follower's forwarding buffer (R68). -/
def fwdCap : Nat := 16

namespace State

/-- No sequencer of the context runs ahead (R138). -/
def noRunahead (s : State) (c : Nat) : Bool := (List.range 3).all fun q => (s.sq (sidAt c q)).ra.isNone

/-- May sequencer k issue now? A `joins` that has issued runs on while the handler of another sequencer runs (R63). -/
def mayIssue (s : State) (k : Nat) : Bool :=
  let c := cidOf k
  let q := s.sq k
  let x := s.cx c
  x.slot.state == .running && s.pf.pstate == .d0 && q.run && s.noRunahead c &&
  (x.handler.isNone || x.handler == some k || q.joins.isSome) &&
  (q.waiting.isNone || q.released || !q.pend.isEmpty) &&
  (s.lvlK k || (match s.nextMember k with
    | some n => decide ((s.sq n).fwd.length < fwdCap)
    | none => true))

/-- The words decode, or raise ILLEGAL (R116 steps 2 to 6). An instruction that has stalled has issued: it is forwarded
before it is tried again (R67). -/
def decoded (s : State) (k : Nat) (ws : List W32) : Ready :=
  match decode ws with
  | .ok i => .inst i (if (s.sq k).stalled.isSome then s.passAhead k i else s)
  | .bad _ => .done (s.raise k (precise .illegal))

/-- A follower takes the head of its forwarding buffer; an entry that its handler has passed over goes (R68). -/
def followed (s : State) (k : Nat) : Ready :=
  match (s.sq k).fwd with
  | [] => .done s
  | e :: rest =>
    if e.pc != (s.r k).pc && e.npc == (s.r k).pc then .done (s.modSq k fun q => { q with fwd := rest })
    else (s.modR k fun r => { r with pc := e.pc, rep := e.rep }).decoded k e.words

/-- The asynchronous traps that may be taken now: a `gbar` that has departed completes first, and the handler of another
sequencer returns first. -/
def pendNow (s : State) (k : Nat) : List TrapInfo :=
  let q := s.sq k
  if s.barred k || q.released && q.waiting == some .gbar then [] else q.pend

/-- A sequencer's turn: a pending trap at the boundary (R411), or its next instruction. -/
def seqTurn (s : State) (k : Nat) : Ready :=
  if seqCount ≤ k then .absent
  else if !s.mayIssue k then .done s
  else match s.pendNow k with
    | t :: rest => .done ((s.modSq k fun q => { q with pend := rest }).takeTrap k t)
    | [] =>
      if s.follows k then s.followed k
      else match s.fetch k with
        | .error t => .done (match t.hold with
          | some c => s.stall k c
          | none => if s.barred k then s else s.takeTrap k t)
        | .ok (ws, s) => s.decoded k ws

/-- Does the walk yield now: after every 4,096 instructions, where another walk is queued (R228), and does not
wait for room in its queue (R447)? -/
def yields (s : State) (b : Nat) (w : Walk) : Bool :=
  !w.full && w.sinceYield != 0 && w.sinceYield % Config.walkYield == 0 && decide (1 < (s.be b).walks.length)

/-- May the awl execute its walk's next word (R227, R228)? -/
def awlReady (s : State) (b : Nat) (w : Walk) : Bool :=
  w.started && !w.ended && (s.cx w.cid).slot.state == .running && decide (w.steps < Config.walkLimit) && !s.yields b w

/-- An awl's turn: where a literal word lies on a page of its own and fails, that word's address is reported (R95, R227). -/
def awlTurn (s : State) (b : Nat) : Ready :=
  if Config.benches ≤ b then .absent
  else match s.walk b with
    | none => .done s
    | some w =>
      if !s.awlReady b w then .done s
      else match s.awlWords w w.pc maxWords [] with
        | .error e => match e.hold with
          | some c => .done (s.awlStall b c)
          | none => .done (s.walkFail b (if e.va.toNat / 4096 = w.pc.toNat / 4096 then w.pc else e.va))
        | .ok (ws, s) => match decode ws with
          | .ok i => .inst i s
          | .bad _ => .done (s.walkFail b w.pc)

/-! ## Round robin -/

def turnKey : Turn → Nat
  | .seq k => k
  | .awl b => seqCount + b
  | .engine => seqCount + Config.benches

def turnAt (n : Nat) : Turn :=
  if n < seqCount then .seq n else if n < seqCount + Config.benches then .awl (n - seqCount) else .engine

/-- The turns that have something to do: running sequencers, benches with a walk, the engines. -/
def turnKeys (s : State) : List Nat :=
  (s.seqs.filter fun e => e.2.run && decide (e.1 < seqCount)).map Prod.fst ++
  ((s.benches.filter fun e => !e.2.walks.isEmpty && decide (e.1 < Config.benches)).map fun e => turnKey (.awl e.1)) ++
  [turnKey .engine]

/-- The least number of a list that `p` admits. -/
def least (p : Nat → Bool) (l : List Nat) : Option Nat :=
  l.foldl (fun m n => if p n then (match m with | some x => some (min x n) | none => some n) else m) none

/-- The turn after `t`. -/
def turnAfter (s : State) (t : Turn) : Turn :=
  match least (fun n => decide (turnKey t < n)) s.turnKeys with
  | some n => turnAt n
  | none => turnAt ((least (fun _ => true) s.turnKeys).getD (turnKey .engine))

/-- The step of a turn is over. -/
def rotate (s : State) (t : Turn) : State := { s with turn := s.turnAfter t, tick := s.tick + 1 }

end State

/-- A turn's outcome, after which the next turn comes. -/
def rotated (t : Turn) (r : Res) : Res :=
  match r with
  | .next s => .next (s.rotate t)
  | .fault f => .fault f
  | .refused f => .refused f

/-! ## A program's place -/

/-- The virtual address and the home address at which `withFetchWord` stores its instruction. -/
def placeVa : W64 := 0x40000000
def placeHa : Nat := 0

/-- The page entry that maps it: V, R, W, X, U, A, D. -/
def placePte : W64 := 0xDF

namespace State

/-- The words stand in DRAM, and the translation cache maps them for the context. -/
def placeCode (s : State) (c : Nat) (ws : List W32) : State :=
  let sl := (s.cx c).slot
  s.modH fun h =>
    let bs := ws.flatMap wordBytes
    let h := h.put 0 ((List.range bs.length).zip (clean bs) |>.map fun (i, b) => (placeHa + i, b))
    { h with tlb := ⟨dieOf (coreOf c), tslice placeVa sl.asid, sl.asid, sl.part, placeVa.toNat / 4096, 12, placePte⟩ :: h.tlb }

/-- Context c runs, alone. -/
def occupy (s : State) (c : Nat) : State :=
  let s := s.modPf fun p => { p with pstate := .d0, gated := false }
  let s := s.modCx c fun x => { x with handler := none, slot := { x.slot with state := .running, inst := s.nextId } }
  (List.range 3).foldl (fun s q => s.modSq (sidAt c q) fun x => { x with ra := none }) s

/-- Sequencer k issues next, at the placed words. -/
def issueAt (s : State) (k : Nat) : State :=
  let s := s.modSq k fun q => { q with
    r := { q.r with pc := placeVa, rep := Rep.init }
    run := true, stalled := none, waiting := none, released := false, pend := [], pre := [], fwd := [] }
  { s with turn := .seq k, agenda := [] }

/-- The awl of bench b executes the placed words next, for context c. -/
def walkAt (s : State) (b c : Nat) : State :=
  let w : Walk := {
    started := true, cid := c, q := 0, w := List.replicate 8 0, fl := Flags.init, pc := placeVa, steps := 0
    sinceYield := 0, full := false, chunk := 0, chunkBytes := 0, partialEnt := [], qsel := 1, map := 0, done := 0, doneEn := false
    rows := [], ended := false }
  let s := s.modBe b fun x => { x with walks := [w] }
  { s with turn := .awl b, agenda := [] }

/-- The words placed where the next step fetches: the compute sequencer of context 0 of core 0, or, for a W-class
word, the awl of bench 0. -/
def placed (s : State) (ws : List W32) : State :=
  let s := (s.occupy 0).placeCode 0 ws
  if wCls (ws.headD 0) = 5 then s.walkAt 0 0 else s.issueAt 0

end State

end Sys2Proof.Machine
end

