-- ==== Sys2Proof/Machine/Awl.lean ====
section
/-! DEFINITION. The awls: `wrun` and the walks that it queues (R221 to R228, R453), the W-class instructions (R439 to
R449), and the events of a walk. -/

namespace Sys2Proof.Machine

/-! ## `wrun` (R222, R453) -/

/-- Does a start block hold values that R222 lists? -/
def blockOk (b : List Byte) : Bool :=
  fld b 0 8 % 4 == 0 && decide (fld b 56 1 ≤ 2) && decide (fld b 57 1 < 16) && decide (fld b 58 1 < 64) &&
  decide (fld b 59 1 < 2) && fld b 60 4 == 0

/-- The walk of a start block, for sequencer q of context c. -/
def walkOf (c q : Nat) (b : List Byte) : Walk :=
  { started := false, cid := c, q := q
    w := ((List.range 6).map fun i => BitVec.ofNat 64 (fld b (8 + 8 * i) 8)) ++ [0, 0]
    fl := Flags.init, pc := BitVec.ofNat 64 (fld b 0 8), steps := 0, sinceYield := 0, full := false, chunk := 0, chunkBytes := 0
    partialEnt := [], qsel := fld b 56 1, map := BitVec.ofNat 4 (fld b 57 1), done := fld b 58 1
    doneEn := fld b 59 1 == 1, rows := [], ended := false }

/-- Walks of a bench that wait for the awl. -/
def Bench.queued (b : Bench) : Nat := (b.walks.drop (match b.walks with | w :: _ => b2n w.started | [] => 0)).length

/-- The walk that a `wrun` which waits has read: the first execution reads its block and checks it (R453). -/
def State.wrunWalk (s : State) (k : Nat) (p : BitVec 3) : Chkd Walk :=
  match (s.sq k).wrun with
  | some w => .ok w
  | none => match s.scrVal k ((s.r k).ptr p) 64 64 false with
    | .error t => .error t
    | .ok b => if blockOk b then .ok (walkOf (cidOf k) (qOf k) b) else .error (precise .illegal)

def execWrun (p : BitVec 3) (s : State) : Res :=
  run (.wrun p) s fun k => attempt s (s.wrunWalk k p) fun w =>
    let bn := benchOf (coreK k)
    if decide (Config.walkCap ≤ (s.be bn).queued) || (s.be bn).walks.any fun x => x.cid == cidOf k then
      .wait .qFull (s.modSq k fun q => { q with wrun := some w })
    else .done ((s.modSq k fun q => { q with wrun := none }).modBe bn fun x => { x with walks := x.walks ++ [w] })

/-! ## The mould of a W-class instruction (R439, R441) -/

/-- What a W-class instruction comes to: the next word, another word, the end of the walk, WALKER, or a wait. -/
inductive WOut where
  | done (w : Walk) (s : State)
  | jump (pc : W64) (w : Walk) (s : State)
  | fail
  | wait (c : Cause)

/-- An instruction counted (R441). -/
def Walk.stepped (w : Walk) (pc : W64) : Walk :=
  { w with pc := pc, steps := w.steps + 1, sinceYield := w.sinceYield + 1, full := false }

/-- An awl's instruction waits: for a read, or for room in the walk's queue (R330, R447). -/
def State.awlWait (s : State) (b : Nat) (w : Walk) (c : Cause) : State :=
  (s.setWalk b { w with full := c == .qFull }).awlStall b c

/-- A W-class instruction on the awl whose turn it is; a sequencer that meets it raises ILLEGAL (R116 step 4). -/
def awl (i : Instr) (s : State) (body : Walk → WOut) : Res :=
  match s.turn with
  | .awl b => match s.walk b with
    | none => .next s
    | some w => match body w with
      | .done w' s' => .next (s'.setWalk b (w'.stepped (w.pc + BitVec.ofNat 64 i.bytes)))
      | .jump pc w' s' => .next (s'.setWalk b (w'.stepped pc))
      | .fail => .next (s.walkFail b w.pc)
      | .wait c => .next (s.awlWait b w c)
  | _ => run i s fun _ => .done s

def Walk.get (w : Walk) (r : BitVec 3) : W64 := w.w.getD r.toNat 0
def Walk.set (w : Walk) (r : BitVec 3) (v : W64) : Walk := { w with w := setAt w.w r.toNat v }
def Walk.src (w : Walk) (y : WSrc) : W64 := match y with | .reg r => w.get r | .lit v => v

/-- For whom a walk translates: level U, whatever the level of its `wrun` (R223). -/
def State.whoWalk (s : State) (w : Walk) : Who := { s.who (sidAt w.cid 0) with lvlK := false }

/-! ## Reads (R223) -/

/-- A read at the home: bytes, a failure, or a wait (R251, R131). -/
inductive WRead where
  | ok (b : List Byte) (s : State)
  | fail
  | wait (c : Cause)

/-- `n` naturally aligned bytes at a global address. -/
def State.walkRead (s : State) (w : Walk) (a : W64) (n : Nat) : WRead :=
  match s.translateOne (s.whoWalk w) a .read with
  | .error e => match e.hold with
    | some c => .wait c
    | none => .fail
  | .ok (x, s) => match s.readHeld x.ha with
    | some c => .wait c
    | none =>
      let b := s.h.bytes x n
      if ppoison b then .fail else .ok (pdata b) s

/-! ## Registers (R442 to R446) -/

/-- `wld` (R442): the increment is lost where it is the register loaded. -/
def execWld (d a : BitVec 3) (inc : Bool) (t : ElemTy) (s : State) : Res :=
  awl (.wld d a inc t) s fun w =>
    let p := w.get a
    if p.toNat % t.bytes ≠ 0 then .fail
    else match s.walkRead w p t.bytes with
      | .fail => .fail
      | .wait c => .wait c
      | .ok b s => .done ((if inc then w.set a (p + BitVec.ofNat 64 t.bytes) else w).set d (extTy t (leNat b))) s

/-- `wldi` (R443). -/
def execWldi (d : BitVec 3) (i : W16) (s : State) : Res := awl (.wldi d i) s fun w => .done (w.set d (sx64 i)) s
/-- `wldi.sh` (R443). -/
def execWldiSh (d : BitVec 3) (i : W16) (s : State) : Res :=
  awl (.wldiSh d i) s fun w => .done (w.set d (w.get d <<< 16 ||| zx64 i)) s

/-- `wadd` (R444). -/
def execWadd (d : BitVec 3) (y : WSrc) (s : State) : Res :=
  awl (.wadd d y) s fun w => .done (w.set d (w.get d + w.src y)) s
/-- `wsub` (R444). -/
def execWsub (d : BitVec 3) (y : WSrc) (s : State) : Res :=
  awl (.wsub d y) s fun w => .done (w.set d (w.get d - w.src y)) s
/-- `wand` (R444). -/
def execWand (d : BitVec 3) (y : WSrc) (s : State) : Res :=
  awl (.wand d y) s fun w => .done (w.set d (w.get d &&& w.src y)) s

/-- The shift of `wshr` by y[6:0], signed (R444). -/
def walkShift (arith : Bool) (v y : W64) : W64 :=
  let d := (bits y 0 7).toInt
  if d < 0 then v <<< (-d).toNat else if arith then v.sshiftRight d.toNat else v >>> d.toNat

/-- `wshr` (R444). -/
def execWshr (arith : Bool) (d : BitVec 3) (y : WSrc) (s : State) : Res :=
  awl (.wshr arith d y) s fun w => .done (w.set d (walkShift arith (w.get d) (w.src y))) s

/-- `wcmp` (R445). -/
def execWcmp (x : BitVec 3) (y : WSrc) (s : State) : Res :=
  awl (.wcmp x y) s fun w => .done { w with fl := subFlags (w.get x) (w.src y) } s

/-- `wbr` (R446). -/
def execWbr (c : Cond) (off : BitVec 17) (s : State) : Res :=
  awl (.wbr c off) s fun w => if c.holds w.fl then .jump (targetOf w.pc (.rel off)) w s else .done w s
/-- `wjmp` (R446). -/
def execWjmp (off : BitVec 17) (s : State) : Res := awl (.wjmp off) s fun w => .jump (targetOf w.pc (.rel off)) w s

/-! ## Output (R447 to R449) -/

/-- A 16 B tuple (R212). -/
def tupleBytes (t : W32 × W32 × W32) (last : Bool) : List Byte :=
  bvLe 4 t.1 ++ bvLe 4 t.2.1 ++ bvLe 4 t.2.2 ++ natLe 4 (b2n last)

/-- The queue that a walk feeds. -/
def Walk.queue (w : Walk) : Queue := if w.qsel = 2 then .am else .ac

/-- Push an entry for a walk. Where the queue and its quarter of the ring are both full, the walk waits (R447, R449); where
R66 would raise QUOTA for KQUOTA, or PAGE, it ends with WALKER (R224). A spill is translated at level U, as the walk's
reads are (assumption 91). -/
def State.walkPush (s : State) (w : Walk) (bs : List Byte) (f : State → WOut) : WOut :=
  match s.push (s.whoWalk w) w.cid w.queue ⟨ofBytes bs, 0⟩ with
  | .ok s => f s
  | .full => .wait .qFull
  | .held c => .wait c
  | .quota true => .wait .qFull
  | .quota false => .fail
  | .page _ => .fail

/-- `wemit` (R447, R224). -/
def execWemit (i k v : BitVec 3) (s : State) : Res :=
  awl (.wemit i k v) s fun w =>
    let ts := w.partialEnt ++ [(bits (w.get i) 0 32, bits (w.get k) 0 32, bits (w.get v) 0 32)]
    if w.qsel = 0 then .fail
    else if ts.length < 4 then .done { w with partialEnt := ts } s
    else s.walkPush w (ts.flatMap fun t => tupleBytes t false) fun s => .done { w with partialEnt := [] } s

/-- A row in flight, with its chunk; each 512 B complete one (R225). -/
def Walk.addRow (w : Walk) (o : Nat) (row : List Byte) : Walk :=
  let n := w.chunkBytes + 64
  { w with
    rows := w.rows ++ [(o, clean row, w.chunk)]
    chunk := if n = 512 then w.chunk + 1 else w.chunk
    chunkBytes := if n = 512 then 0 else n }

/-- Does a row fit the starting instance's window (R448)? -/
def State.rowFits (s : State) (w : Walk) (o : W64) : Bool :=
  o.toNat % 64 == 0 && decide (o.toNat + 64 ≤ (s.cx w.cid).slot.winSize)

/-- `wtile` (R448). -/
def execWtile (o a : BitVec 3) (inc : Bool) (s : State) : Res :=
  awl (.wtile o a inc) s fun w =>
    let p := w.get a
    if !s.rowFits w (w.get o) || p.toNat % 64 != 0 then .fail
    else match s.walkRead w p 64 with
      | .fail => .fail
      | .wait c => .wait c
      | .ok b s => .done ((if inc then w.set a (p + 64) else w).addRow (w.get o).toNat b) s

/-- The elements that the mask names, from `q` on (R448): the row's bytes and the address after the last. -/
def State.expandFrom (s : State) (w : Walk) (z : Nat) (mask : W64) (q : W64) : (n j : Nat) → List Byte → Option WRead × W64
  | 0, _, acc => (some (.ok acc s), q)
  | n + 1, j, acc =>
    if !mask.getLsbD j then s.expandFrom w z mask q n (j + 1) (acc ++ List.replicate z 0)
    else match s.walkRead w q z with
      | .ok b s => s.expandFrom w z mask (q + BitVec.ofNat 64 z) n (j + 1) (acc ++ b)
      | r => (some r, q)

/-- `wtile.ty` (R448). -/
def execWtileExpand (o a : BitVec 3) (inc : Bool) (t : ElemTy) (m : BitVec 3) (s : State) : Res :=
  awl (.wtileExpand o a inc t m) s fun w =>
    let p := w.get a
    if !s.rowFits w (w.get o) || p.toNat % t.bytes != 0 then .fail
    else match s.expandFrom w t.bytes (w.get m) p (64 / t.bytes) 0 [] with
      | (some (.ok b s), q) => .done ((if inc then w.set a q else w).addRow (w.get o).toNat b) s
      | (some (.wait c), _) => .wait c
      | _ => .fail

/-! ## The end of a walk (R226, R449) -/

/-- The walk's bits that its landed rows set: a chunk is complete where a later one has begun (R225). -/
def State.rowLanded (s : State) (w : Walk) (chunk : Nat) : State :=
  if decide (chunk < w.chunk) && !w.rows.any fun r => r.2.2 == chunk then
    s.modReg w.cid fun g => g.smSet w.map (chunk % 64) 0
  else s

/-- A walk that has ended and has no row in flight leaves the awl; DONE is set (R226). -/
def State.walkClose (s : State) (b : Nat) : State :=
  match s.walk b with
  | none => s
  | some w =>
    if w.ended && w.rows.isEmpty then
      let s := if w.doneEn then s.modReg w.cid fun g => g.smSet w.map w.done 0 else s
      s.modBe b fun x => { x with walks := x.walks.drop 1 }
    else s

/-- The entry that `wend` pushes: what follows the END tuple is open. -/
def lastEntry (f : Nat) (ts : List (W32 × W32 × W32)) : List Byte :=
  let bs := (ts.flatMap fun t => tupleBytes t false) ++ tupleBytes (0, 0, 0) true
  bs ++ (List.range (64 - bs.length)).map fun i => Config.freeByte (f * 64 + i)

/-- A partly written chunk is complete at `wend`: where its rows have landed its bit is set at once (R225). -/
def State.walkEnd (s : State) (b : Nat) (w : Walk) : State :=
  let last := w.chunk
  let w := { w with
    ended := true, partialEnt := [], steps := w.steps + 1
    chunk := if w.chunkBytes = 0 then w.chunk else w.chunk + 1, chunkBytes := 0 }
  ((s.rowLanded w last).setWalk b w).walkClose b

/-- `wend` (R449). -/
def execWend (s : State) : Res :=
  match s.turn with
  | .awl b => match s.walk b with
    | none => .next s
    | some w =>
      if w.qsel = 0 then .next (s.walkEnd b w)
      else match s.push (s.whoWalk w) w.cid w.queue ⟨ofBytes (lastEntry s.free w.partialEnt), 0⟩ with
        | .ok s => .next (s.walkEnd b w)
        | .full => .next (s.awlWait b w .qFull)
        | .held c => .next (s.awlWait b w c)
        | .quota true => .next (s.awlWait b w .qFull)
        | .quota false => .next (s.walkFail b w.pc)
        | .page _ => .next (s.walkFail b w.pc)
  | _ => run .wend s fun _ => .done s

/-! ## Events -/

/-- The awl takes the walk at the head of its queue (R228). -/
def execWalkStart (bench : Nat) (s : State) : Res :=
  happens s ((s.walk bench).filter fun w => !w.started) fun w => s.setWalk bench { w with started := true }

/-- A walk without a `wend` in 16,777,216 instructions fails (R227). -/
def execWalkStepLimit (bench : Nat) (s : State) : Res :=
  happens s ((s.walk bench).filter fun w => !w.ended && decide (Config.walkLimit ≤ w.steps)) fun w => s.walkFail bench w.pc

/-- A row of a walk lands on path w; a later row at the same offset lands later (R448). -/
def State.landRow (s : State) (b : Nat) (w : Walk) (idx : Nat) (r : Nat × List PByte × Nat) : State :=
  let s := s.scrWrite w.cid .w ⟨false, (s.cx w.cid).slot.winBase, r.1, 0⟩ r.2.1
  let w := { w with rows := w.rows.take idx ++ w.rows.drop (idx + 1) }
  ((s.rowLanded w r.2.2).setWalk b w).walkClose b

def execWtileRowLanding (bench idx : Nat) (s : State) : Res :=
  match s.walk bench with
  | none => .next s
  | some w => happens s ((w.rows[idx]?).filter fun r => !(w.rows.take idx).any fun x => x.1 == r.1) fun r =>
      s.landRow bench w idx r

/-- Every row of a bench's walks of a context lands (R294). -/
def State.landRows (s : State) (b : Nat) : Nat → State
  | 0 => s
  | n + 1 => match s.walk b with
    | some w => match w.rows with
      | r :: _ => (s.landRow b w 0 r).landRows b n
      | [] => s
    | none => s

/-- A walk yields to a queued one, and goes to the back of the queue (R228); its rows have landed. -/
def execWalkYield (bench : Nat) (s : State) : Res :=
  happens s ((s.walk bench).filter fun w => !w.ended && s.yields bench w) fun w =>
    (s.landRows bench w.rows.length).modBe bench fun x => { x with
      walks := x.walks.drop 1 ++ ((x.walks.take 1).map fun w => { w with sinceYield := 0 }) }

end Sys2Proof.Machine
end

