-- ==== Sys2Proof/Machine/Launch.lean ====
section
/-! DEFINITION. The launch of a graph: the records it reads (R276, R277, R279, R319), its checks in their order (R280,
R282), and its start (R283); and signals to event nodes (R285, R299). -/

namespace Sys2Proof.Machine

/-- Why a launch is refused: the ERR codes of R282. -/
inductive LaunchErr where
  | translation | header | node | running | tooMany
  deriving DecidableEq, Repr

def LaunchErr.code : LaunchErr → Nat
  | .translation => 1 | .header => 2 | .node => 3 | .running => 4 | .tooMany => 5

/-- What the device reads for a launch, and the state after its translations: each sets A (R132). -/
abbrev Read (α : Type) := Except LaunchErr α × State

/-- The first error ends the reading. -/
def Read.next {α β : Type} (r : Read α) (f : α → State → Read β) : Read β :=
  match r.1 with
  | .error e => (.error e, r.2)
  | .ok a => f a r.2

/-- The header's checks (R276): CTX is the context's. -/
def headerOk (h : Record) (ctxid : Nat) : Bool :=
  fld h 0 1 == 15 && fld h 2 2 == ctxid % 65536 && decide (1 ≤ fld h 4 4) && decide (fld h 4 4 ≤ 65535) &&
  fld h 12 4 == 0 && (h.drop 24).all (· == 0)

/-- A node record's fields (R277). -/
def nodeOk (r : Record) : Bool :=
  let task := fld r 0 1 == 1
  decide (fld r 0 1 ≤ 4) && decide (fld r 1 1 < 64) &&
  (if task then decide (1 ≤ fld r 2 1) && decide (fld r 2 1 ≤ 48) else fld r 2 1 == 1) &&
  (if task then decide (1 ≤ fld r 3 1) && decide (fld r 3 1 ≤ 16) else fld r 3 1 == 0) &&
  (if task then fld r 12 2 != 0 && fld r 14 2 != 0 else fld r 12 2 == 1 && fld r 14 2 == 1) &&
  (fld r 0 1 != 4 || fld r 16 8 == 0) && (if task then fld r 24 8 % 64 == 0 else fld r 24 8 == 0) &&
  fld r 32 8 % 4 == 0 && decide (fld r 40 4 ≤ 65535) && decide (fld r 44 4 < 2 ^ 20)

/-- The node that a launch makes of a record. -/
def nodeOf (r : Record) (succ : List Nat) (desc : Record) : Node :=
  let fl := fld r 1 1
  { kind := fld r 0 1, prio := fl % 8, coop := fl.testBit 3, mig := fl.testBit 4, lf := fl.testBit 5, team := fld r 2 1
    lsize := fld r 3 1, npred := fld r 4 4, gx := fld r 12 2, gy := fld r 14 2, target := BitVec.ofNat 64 (fld r 16 8)
    args := BitVec.ofNat 64 (fld r 24 8), succ := succ, aff := BitVec.ofNat 32 (fld r 44 4)
    geo3 := BitVec.ofNat 64 (fld r 48 8), pcnt := fld r 4 4, state := .waiting, donei := 0, barc := 0, fault := 0
    fva := 0, finst := 0, doneInst := [], cancelled := [], readyTick := 0, readyNs := 0, swapIn := [], desc := desc, copy := none, near := none }

namespace State

/-- Why a read by the device waits, where it does: the walk of one of its pages, or what holds a page at its home (R43,
R131, R251). -/
def devHeld (s : State) (w : Who) (va : W64) (n : Nat) (k : XKind) : Option Cause :=
  match s.translateAll { w with waits := true } va n k with
  | .error e => e.hold
  | .ok (ps, _) => ps.findSome? fun x => s.readHeld x.ha

/-- What the engines cannot do yet comes again behind their turn. -/
def later (s : State) (i : Instr) : State := { s with agenda := .go .engine :: .ev i :: s.agenda }

/-- Bytes that the device reads at their homes for a context: none where they do not translate or are poisoned. -/
def devRead (s : State) (ctxid : Nat) (va : W64) (n : Nat) : Read Record :=
  match s.translateAll (s.whoCtx ctxid true) va n .read with
  | .error _ => (.error .translation, s)
  | .ok (ps, s) =>
    let b := (List.range n).map fun i => s.h.byte (xlAt ps va i) 0
    (if ppoison b then .error .translation else .ok (pdata b), s)

/-- The 256 B ARGS block of a task translates as a read (R280). -/
def argsOk (s : State) (ctxid : Nat) (r : Record) : Read Unit :=
  if fld r 0 1 = 1 then
    match s.translateAll (s.whoCtx ctxid false) (BitVec.ofNat 64 (fld r 24 8)) 256 .read with
    | .error _ => (.error .translation, s)
    | .ok (_, s) => (.ok (), s)
  else (.ok (), s)

/-- The descriptor of a copy, near or layer node. -/
def descRead (s : State) (ctxid : Nat) (r : Record) : Read Record :=
  if fld r 0 1 = 0 ∨ fld r 0 1 = 2 ∨ fld r 0 1 = 3 then s.devRead ctxid (BitVec.ofNat 64 (fld r 16 8)) 32 else (.ok [], s)

/-- A descriptor's fields (R279, R319). -/
def descOk (s : State) (ctxid kind : Nat) (d : Record) : Bool :=
  match kind with
  | 0 => decide (1 ≤ fld d 16 4) && decide (fld d 16 4 ≤ 536870911) && (d.drop 20).all (· == 0)
  | 2 => (fld d 0 1 == 0x12 || fld d 0 1 == 0x13) && fld d 1 7 == 0 && fld d 24 4 % 1024 == 0 && fld d 28 4 == 0
  | 3 => fld d 1 1 == 0 && (d.drop 4).all (· == 0) && (match s.model (s.cpart ctxid) (fld d 0 1) with
    | some m => decide (fld d 2 2 < m.nlayers)
    | none => false)
  | _ => true

/-- Node i: its record, then its ARGS block, its descriptor and its list (R282 step 5). -/
def readNode (s : State) (ctxid : Nat) (hdr : W64) (count i : Nat) : Read Node :=
  (s.devRead ctxid (nodeVa hdr i) 128).next fun r s =>
    if !nodeOk r then (.error .node, s)
    else (s.argsOk ctxid r).next fun _ s => (s.descRead ctxid r).next fun d s =>
      (s.devRead ctxid (BitVec.ofNat 64 (fld r 32 8)) (4 * fld r 40 4)).next fun l s =>
        let succ := (List.range (fld r 40 4)).map fun j => fld l (4 * j) 4
        (if succ.all (fun j => decide (j < count)) && s.descOk ctxid (fld r 0 1) d then .ok (nodeOf r succ d) else .error .node, s)

def readNodes (s : State) (ctxid : Nat) (hdr : W64) (count : Nat) : List Nat → Read (List Node)
  | [] => (.ok [], s)
  | i :: r => (s.readNode ctxid hdr count i).next fun n s =>
    (s.readNodes ctxid hdr count r).next fun ns s => (.ok (n :: ns), s)

end State

/-- NPRED against the edges into each node (R280). -/
def predsOk (ns : List Node) : Bool :=
  ((List.range ns.length).zip ns).all fun (i, n) =>
    let into := (ns.map fun m => m.succ.count i).foldl (· + ·) 0
    if n.kind = 4 then decide (into ≤ n.npred) else into == n.npred

namespace State

/-- The home address of a graph's header or record, as its context maps it. -/
def homeAt (s : State) (ctxid : Nat) (va : W64) : Option Nat :=
  match s.translateOne (s.whoCtx ctxid true) va .read with
  | .ok (x, _) => some x.ha
  | .error _ => none

/-- Is the graph whose header stands there RUNNING, under whichever address (R280, R299)? -/
def runsAt (s : State) (ctxid : Nat) (hdr : W64) : Bool :=
  s.sch.graphs.any fun g => g.ctxid == ctxid && (g.hdr == hdr || s.homeAt ctxid g.hdr == s.homeAt ctxid hdr)

/-- The header of a launch (R282 steps 1 and 2). -/
def readHeader (s : State) (ctxid : Nat) (hdr : W64) : Read Record :=
  (s.devRead ctxid hdr 64).next fun h s => (if headerOk h ctxid then .ok h else .error .header, s)

/-- The graph that a header's records make (R282 step 5). -/
def readGraph (s : State) (ctxid : Nat) (hdr : W64) (h : Record) : Read Graph :=
  (s.readNodes ctxid hdr (fld h 4 4) (List.range (fld h 4 4))).next fun ns s =>
    (if predsOk ns then .ok ⟨hdr, ctxid, ns, ns.length⟩ else .error .node, s)

/-- The two checks of what is RUNNING (R280; R282 steps 3 and 4). -/
def runningErr (s : State) (ctxid : Nat) (hdr : W64) : Option LaunchErr :=
  if s.runsAt ctxid hdr then some .running
  else if Config.graphCap ≤ (s.sch.graphs.filter fun g => g.ctxid == ctxid).length then some .tooMany
  else none

/-- Why the reads for node i wait, where they do: its record's, then its ARGS block's walk, its descriptor's and its
list's. -/
def nodeHeld (s : State) (ctxid : Nat) (hdr : W64) (i : Nat) : Option Cause :=
  let held (va : W64) (n : Nat) : Option Cause := s.devHeld (s.whoCtx ctxid true) va n .read
  (held (nodeVa hdr i) 128).or (match s.devRead ctxid (nodeVa hdr i) 128 with
    | (.ok r, _) => ((if fld r 0 1 = 1 then s.walkHeld (s.whoCtx ctxid false) (BitVec.ofNat 64 (fld r 24 8)) 256 .read else none).or
        (if fld r 0 1 = 0 ∨ fld r 0 1 = 2 ∨ fld r 0 1 = 3 then held (BitVec.ofNat 64 (fld r 16 8)) 32 else none)).or
        (held (BitVec.ofNat 64 (fld r 32 8)) (4 * fld r 40 4))
    | (.error _, _) => none)

/-- Why a launch waits before it reads, where it does (R43). -/
def launchHeld (s : State) (ctxid : Nat) (hdr : W64) : Option Cause :=
  (s.devHeld (s.whoCtx ctxid true) hdr 64 .read).or (match s.readHeader ctxid hdr with
    | (.ok h, _) => (List.range (fld h 4 4)).findSome? (s.nodeHeld ctxid hdr)
    | (.error _, _) => none)

/-- The graph that the host's launch of the header at `hdr` makes, or ERR (R280, R282). -/
def launchCheck (s : State) (ctxid : Nat) (hdr : W64) : Read Graph :=
  (s.readHeader ctxid hdr).next fun h s => match s.runningErr ctxid hdr with
    | some e => (.error e, s)
    | none => s.readGraph ctxid hdr h

/-- The graph that `tsig s` launches: its records are checked before what is RUNNING (R299). -/
def sigCheck (s : State) (ctxid : Nat) (hdr : W64) : Read Graph :=
  (s.readHeader ctxid hdr).next fun h s => (s.readGraph ctxid hdr h).next fun g s =>
    (match s.runningErr ctxid hdr with | some e => .error e | none => .ok g, s)

/-- A node that has no predecessor left becomes READY; an event node is complete at once (R279). -/
def release (s : State) (ctxid : Nat) (hdr : W64) (i : Nat) : State :=
  match s.node ctxid hdr i with
  | none => s
  | some n =>
    if n.state != .waiting then s
    else if n.kind = 4 then s.nodeDone ctxid hdr i else s.makeReady ctxid hdr i

/-- The fields that the device writes as a node starts (R277, R283): PCNT, no instance complete, no arrival at a
barrier, WAITING, and no fault. -/
def nodeFresh (s : State) (ctxid : Nat) (hdr : W64) (i npred : Nat) : State :=
  ((s.nodeWrite ctxid hdr i 8 (natLe 4 npred)).nodeWrite ctxid hdr i 56 (natLe 8 0)).nodeWrite ctxid hdr i 64
    (List.replicate 64 0)

/-- An accepted launch (R283). -/
def startGraph (s : State) (g : Graph) : State :=
  let s := s.modSch fun h => { h with graphs := h.graphs ++ [g] }
  let s := (s.fieldWrite g.ctxid (g.hdr + 1) (natLe 1 1)).fieldWrite g.ctxid (g.hdr + 8) (natLe 4 g.left)
  let idx := (List.range g.nodes.length).zip g.nodes
  let s := idx.foldl (fun s p => s.nodeFresh g.ctxid g.hdr p.1 p.2.npred) s
  idx.foldl (fun s p => if p.2.npred = 0 then s.release g.ctxid g.hdr p.1 else s) s

/-! ## Signals (R285, R299) -/

/-- Signal an event node: the new state, or none where the signal has no effect. -/
def signal (s : State) (ctxid : Nat) (hdr : W64) (i : Nat) : Option State :=
  match s.node ctxid hdr i with
  | none => none
  | some n =>
    if n.pcnt = 0 then none
    else
      let (s, ev) := s.countDown ctxid hdr i
      some (if ev then s.nodeDone ctxid hdr i else s)

/-- The RUNNING graph that has a record at a home address, and the node's index (R299). -/
def recordAt (s : State) (ha : Nat) : Option (Graph × Nat) :=
  s.sch.graphs.findSome? fun g =>
    ((List.range g.nodes.length).find? fun i => s.homeAt g.ctxid (nodeVa g.hdr i) == some ha).map fun i => (g, i)

end State

end Sys2Proof.Machine
end

