-- ==== Sys2Proof/Machine/Scalar.lean ====
section
/-! DEFINITION. The scalar instructions: the mould of two operands (R333 to R335), `li`, `sel`, `ldl`, `stl`, `cvt`
and `geo`. -/

namespace Sys2Proof.Machine

/-! ## The sixteen operations (R334, R72) -/

/-- A result in s, flags unchanged. -/
def Seq.result (r : Seq) (v : W64) : Seq := { r with s := v }

/-- A result in s with its flags. -/
def Seq.flagged (r : Seq) (v : W64) (f : Flags) : Seq := { r with s := v, fl := f }

def shlVal (a b : W64) : W64 := a <<< (bits b 0 6).toNat
def shrVal (a b : W64) : W64 := a >>> (bits b 0 6).toNat
def sarVal (a b : W64) : W64 := a.sshiftRight (bits b 0 6).toNat

/-- The high half of the product. -/
def mulhVal (u : Bool) (a b : W64) : W64 :=
  if u then BitVec.ofNat 64 (a.toNat * b.toNat / 2 ^ 64) else BitVec.ofInt 64 (a.toInt * b.toInt / 2 ^ 64)

/-- Quotient and remainder by R72. -/
def divVal (u : Bool) (a b : W64) : W64 :=
  if b = 0 then BitVec.allOnes 64
  else if u then BitVec.ofNat 64 (a.toNat / b.toNat) else BitVec.ofInt 64 (a.toInt.tdiv b.toInt)

def remVal (u : Bool) (a b : W64) : W64 :=
  if b = 0 then a
  else if u then BitVec.ofNat 64 (a.toNat % b.toNat) else BitVec.ofInt 64 (a.toInt.tmod b.toInt)

def ltVal (u : Bool) (a b : W64) : Bool := if u then a.ult b else a.slt b
def minVal (u : Bool) (a b : W64) : W64 := if ltVal u b a then b else a
def maxVal (u : Bool) (a b : W64) : W64 := if ltVal u a b then b else a

/-- `div.fp32` on the low words. -/
def divFp (fz : Bool) (a b : W64) : W64 := zx64 (flush32 fz (roundFP32 ((ex32 (bits a 0 32)).div (ex32 (bits b 0 32)))))

/-- The A form of the mould: `f` takes the registers and the source. -/
def aluA (i : Instr) (s : State) (x : Opnd) (t : ElemTy) (f : Seq → W64 → Seq) : Res :=
  run i s fun k => attempt s (s.srcVal k x t) fun b => .done (s.retireR k x.ptrs fun r => f r b)

/-- The I form. -/
def aluI (i : Instr) (s : State) (im : Imm) (f : Seq → W64 → Seq) : Res :=
  run i s fun k => .done (s.modR k fun r => f r im.sx)

def opAdd (r : Seq) (b : W64) : Seq := r.flagged (r.s + b) (addFlags r.s b)
def opSub (r : Seq) (b : W64) : Seq := r.flagged (r.s - b) (subFlags r.s b)
def opAnd (r : Seq) (b : W64) : Seq := r.flagged (r.s &&& b) (logicFlags (r.s &&& b))
def opOr (r : Seq) (b : W64) : Seq := r.flagged (r.s ||| b) (logicFlags (r.s ||| b))
def opXor (r : Seq) (b : W64) : Seq := r.flagged (r.s ^^^ b) (logicFlags (r.s ^^^ b))
def opShl (r : Seq) (b : W64) : Seq := r.result (shlVal r.s b)
def opShr (r : Seq) (b : W64) : Seq := r.result (shrVal r.s b)
def opSar (r : Seq) (b : W64) : Seq := r.result (sarVal r.s b)
def opMul (r : Seq) (b : W64) : Seq := r.result (r.s * b)
def opMulh (u : Bool) (r : Seq) (b : W64) : Seq := r.result (mulhVal u r.s b)
def opDiv (u : Bool) (r : Seq) (b : W64) : Seq := r.result (divVal u r.s b)
def opRem (u : Bool) (r : Seq) (b : W64) : Seq := r.result (remVal u r.s b)
def opMin (u : Bool) (r : Seq) (b : W64) : Seq := r.result (minVal u r.s b)
def opMax (u : Bool) (r : Seq) (b : W64) : Seq := r.result (maxVal u r.s b)
def opCmp (r : Seq) (b : W64) : Seq := { r with fl := subFlags r.s b }
def opTst (r : Seq) (b : W64) : Seq := { r with fl := logicFlags (r.s &&& b) }

def execAdd (x : Opnd) (t : ElemTy) (s : State) : Res := aluA (.add x t) s x t opAdd
def execAddImm (i : Imm) (s : State) : Res := aluI (.addImm i) s i opAdd
def execSub (x : Opnd) (t : ElemTy) (s : State) : Res := aluA (.sub x t) s x t opSub
def execSubImm (i : Imm) (s : State) : Res := aluI (.subImm i) s i opSub
def execAnd (x : Opnd) (t : ElemTy) (s : State) : Res := aluA (.and x t) s x t opAnd
def execAndImm (i : Imm) (s : State) : Res := aluI (.andImm i) s i opAnd
def execOr (x : Opnd) (t : ElemTy) (s : State) : Res := aluA (.or x t) s x t opOr
def execOrImm (i : Imm) (s : State) : Res := aluI (.orImm i) s i opOr
def execXor (x : Opnd) (t : ElemTy) (s : State) : Res := aluA (.xor x t) s x t opXor
def execXorImm (i : Imm) (s : State) : Res := aluI (.xorImm i) s i opXor
def execShl (x : Opnd) (t : ElemTy) (s : State) : Res := aluA (.shl x t) s x t opShl
def execShlImm (i : Imm) (s : State) : Res := aluI (.shlImm i) s i opShl
def execShr (x : Opnd) (t : ElemTy) (s : State) : Res := aluA (.shr x t) s x t opShr
def execShrImm (i : Imm) (s : State) : Res := aluI (.shrImm i) s i opShr
def execSar (x : Opnd) (t : ElemTy) (s : State) : Res := aluA (.sar x t) s x t opSar
def execSarImm (i : Imm) (s : State) : Res := aluI (.sarImm i) s i opSar
def execMul (x : Opnd) (t : ElemTy) (s : State) : Res := aluA (.mul x t) s x t opMul
def execMulImm (i : Imm) (s : State) : Res := aluI (.mulImm i) s i opMul
def execMulh (u : Bool) (x : Opnd) (t : ElemTy) (s : State) : Res := aluA (.mulh u x t) s x t (opMulh u)
def execMulhImm (u : Bool) (i : Imm) (s : State) : Res := aluI (.mulhImm u i) s i (opMulh u)

/-- `div`; `div.fp32` divides the low words (R334). -/
def execDiv (u : Bool) (x : Opnd) (t : ElemTy) (s : State) : Res :=
  if t = .fp32 then
    run (.div u x t) s fun k => attempt s (s.srcVal k x t) fun b =>
      .done (s.retireR k x.ptrs fun r => r.result (divFp (s.fz k) r.s b))
  else aluA (.div u x t) s x t (opDiv u)

def execDivImm (u : Bool) (i : Imm) (s : State) : Res := aluI (.divImm u i) s i (opDiv u)
def execRem (u : Bool) (x : Opnd) (t : ElemTy) (s : State) : Res := aluA (.rem u x t) s x t (opRem u)
def execRemImm (u : Bool) (i : Imm) (s : State) : Res := aluI (.remImm u i) s i (opRem u)
def execMin (u : Bool) (x : Opnd) (t : ElemTy) (s : State) : Res := aluA (.min u x t) s x t (opMin u)
def execMinImm (u : Bool) (i : Imm) (s : State) : Res := aluI (.minImm u i) s i (opMin u)
def execMax (u : Bool) (x : Opnd) (t : ElemTy) (s : State) : Res := aluA (.max u x t) s x t (opMax u)
def execMaxImm (u : Bool) (i : Imm) (s : State) : Res := aluI (.maxImm u i) s i (opMax u)
def execCmp (x : Opnd) (t : ElemTy) (s : State) : Res := aluA (.cmp x t) s x t opCmp
def execCmpImm (i : Imm) (s : State) : Res := aluI (.cmpImm i) s i opCmp
def execTst (x : Opnd) (t : ElemTy) (s : State) : Res := aluA (.tst x t) s x t opTst
def execTstImm (i : Imm) (s : State) : Res := aluI (.tstImm i) s i opTst

/-! ## The others -/

/-- `li` (R374). -/
def execLi (i : Imm) (s : State) : Res := aluI (.li i) s i Seq.result

/-- `sel` (R397): both sources are read whatever the condition holds. -/
def execSel (c : SelCond) (x y : Opnd) (t : ElemTy) (s : State) : Res :=
  run (.sel c x y t) s fun k =>
    attempt s (s.srcVal k x t) fun a => attempt s (s.srcVal k y t) fun b =>
      .done (s.retireR k (x.ptrs ++ y.ptrs) fun r => r.result (if c.cond.holds r.fl then a else b))

/-- `ldl` (R371). -/
def execLdl (p : PtrOp) (t : ElemTy) (s : State) : Res :=
  run (.ldl p t) s fun k =>
    attempt s (s.srcVal k (.mem p.p p.inc) t) fun v => .done (s.retireR k [p] fun r => r.result v)

/-- `stl` (R403). -/
def execStl (p : PtrOp) (y : Opnd) (t : ElemTy) (s : State) : Res :=
  run (.stl p y t) s fun k =>
    let q := (s.r k).ptr p.p
    attempt s (s.scrChk k q t.bytes t.bytes true) fun _ => attempt s (s.srcVal k y .i64) fun v =>
      .done ((s.scrPut k q (clean (bvLe t.bytes v))).retireR k [p] id)

/-- The value of `cvt` (R343). -/
def cvtVal (fz : Bool) (d t : ElemTy) (md : Modes) (enc : Nat) : W64 :=
  let x := widenE t enc
  if d.isFloat then BitVec.ofNat 64 (d.ff.flush fz (d.ff.round x md.rnd md.sat))
  else if t.isFloat || md.sat then extTy d (narrowSat x d md.rnd)
  else extTy d (wrap (8 * d.bytes) (intOf t.signed (8 * t.bytes) enc))

/-- `cvt` (R343). -/
def execCvt (dty sty : ElemTy) (x : Opnd) (md : Modes) (s : State) : Res :=
  run (.cvt dty sty x md) s fun k => attempt s (s.srcVal k x sty) fun v =>
    .done (s.retireR k x.ptrs fun r => r.result (cvtVal (s.fz k) dty sty md (v.toNat % 2 ^ (8 * sty.bytes))))

/-! ## Geometry registers (R194, R352) -/

/-- RSV bits of GEO0 to GEO3 are ignored on a write and read 0 (R6, R194). -/
def geoMask (g : Nat) : W64 := if g = 2 then 0xFFFF else 0xFFFFFFFFFFFFFFFF

def CtxReg.geo (c : CtxReg) (g : Nat) : W64 :=
  match g with
  | 0 => c.geo0 | 1 => c.geo1 | 2 => c.geo2 | _ => c.geo3

def CtxReg.setGeo (c : CtxReg) (g : Nat) (v : W64) : CtxReg :=
  let v := v &&& geoMask g
  match g with
  | 0 => { c with geo0 := v } | 1 => { c with geo1 := v } | 2 => { c with geo2 := v } | _ => { c with geo3 := v }

/-- `geo` (R352). -/
def execGeo (g : BitVec 2) (v : GeoVal) (s : State) : Res :=
  run (.geo g v) s fun k =>
    let x := match v with
      | .s => (s.r k).s
      | .val l => l
    .done (s.modReg (cidOf k) fun c => c.setGeo g.toNat x)

end Sys2Proof.Machine
end

