-- ==== Sys2Proof/Machine/System.lean ====
section
/-! DEFINITION. The Y class but for the layer instructions: traps and their return (R345, R412), the system registers
(R118, R400), the sequencers of a context (R61, R62, R393, R404), signals, barriers and quanta (R299, R351, R455),
`idle`, `iflush`, `tinv` (R353, R354, R406); and the events of traps, run-ahead and the fault service (R138 to R140). -/

namespace Sys2Proof.Machine

/-! ## Traps -/

/-- `trap` (R412): it has retired when the trap is taken, so that EPC and the frame name what comes after it. -/
def execTrap (n : W16) (s : State) : Res :=
  run (.trap n) s fun k =>
    let s' := s.modSq k fun q => (q.retire 4 1).issued q.r.pc 4
    .trap ⟨.trap, 0, false, n, [], none, none⟩ (s.forward s' k (.trap n))

/-- `eret` (R345); it stalls while a word that it has to read is held. -/
def execEret (s : State) : Res := run .eret s fun k => match s.returnHeld k with
  | some c => .wait c s
  | none => .jump (s.trapReturn k)

/-! ## System registers (R118, R400) -/

/-- STATUS (R344). -/
def Seq.status (r : Seq) : W64 := BitVec.ofNat 64 (b2n r.ppl * 4 + b2n r.pl * 2)

/-- Writable bits of a context's registers. -/
def sysMask (n : Nat) : W64 :=
  match n with
  | 0x001 => 0x01FFFFFFFFFFFFFD
  | 0x002 => 0xFFFF0FFF
  | 0x008 => 1
  | 0x012 => 0x01FFFFFFFFFFF0FF
  | 0x030 => 0xFF03
  | 0x031 => 0xFFFFFFFFFF
  | _ => 0xFFFFFFFFFFFFFFFF

/-- REFWIN (R131): windows of 1,500 ns begin every 3,000 ns. The position in the rotation is free where no refresh is
under way. -/
def State.refwin (s : State) (die : Nat) : W64 :=
  let m := Tab.get 0 s.h.refresh die
  let word (next rem act m : Nat) : W64 := BitVec.ofNat 64 (next * 2 ^ 32 + rem * 65536 + act * 16 + m % 16)
  if m = 0 then word (Config.refNext s.free % 1501) 0 0 (Config.refMacro s.free)
  else if 17 ≤ m then word (Config.refNext s.free % 1501) 0 0 m
  else let rem := Config.refRem s.free % 1501
       word (rem + 1500) rem 1 (m - 1)

/-- The value of a system register as sequencer k reads it. -/
def State.sysRead (s : State) (k : Nat) (n : Nat) : W64 :=
  let x := s.cx (cidOf k)
  let g := x.reg
  match n with
  | 0x000 => (s.r k).status
  | 0x001 => g.kvec
  | 0x002 => g.cause
  | 0x003 => g.epc
  | 0x004 => g.faddr
  | 0x008 => g.fpctl
  | 0x010 => (s.co (coreK k)).lsplit
  | 0x011 => (s.be (benchOf (coreK k))).bpool
  | 0x012 => g.kring
  | 0x013 => g.kquota
  | 0x020 => g.geo0
  | 0x021 => g.geo1
  | 0x022 => g.geo2
  | 0x023 => g.geo3
  | 0x028 => (s.be (benchOf (coreK k))).bload
  | 0x029 => s.refwin (dieOf (coreK k))
  | 0x030 => g.opolicy
  | 0x031 => g.stale
  | 0x038 => BitVec.ofNat 64 x.slot.ctxid
  | 0x039 => BitVec.ofNat 64 x.slot.asid
  | _ => Tab.get 0 g.cnt (n - 0x40)

/-- `srr` (R400). -/
def execSrr (r : BitVec 12) (s : State) : Res :=
  run (.srr r) s fun k => .done (s.modR k fun q => { q with s := s.sysRead k r.toNat })

/-- A context's register written, with its RSV bits ignored. -/
def CtxReg.sysSet (g : CtxReg) (n : Nat) (v : W64) : CtxReg :=
  let v := v &&& sysMask n
  match n with
  | 0x001 => { g with kvec := v }
  | 0x002 => { g with cause := v }
  | 0x003 => { g with epc := v }
  | 0x004 => { g with faddr := v }
  | 0x008 => { g with fpctl := v }
  | 0x012 => { g with kring := v }
  | 0x013 => { g with kquota := v }
  | 0x020 => g.setGeo 0 v
  | 0x021 => g.setGeo 1 v
  | 0x022 => g.setGeo 2 v
  | 0x023 => g.setGeo 3 v
  | 0x030 => { g with opolicy := v }
  | 0x031 => { g with stale := v }
  | n => if 0x40 ≤ n ∧ n < 0x80 then { g with cnt := Tab.set 0 g.cnt (n - 0x40) v } else g

/-- The SRAM of a core under a new split (R125): what lies above either limit is lost; a B tile held by reference goes
(R190). -/
def Core.split (co : Core) (v : W64) : Core :=
  let lim := min (scrLimit co.lsplit) (scrLimit v)
  let gone (key : Nat) : Bool := decide (lim ≤ key) && decide (key < kBase)
  { co with
    lsplit := v, cache := [], bhold := none
    scr := co.scr.filter fun (e : Nat × Byte) => !gone e.1
    spois := co.spois.filter fun (e : Nat × Bool) => !gone (16 * e.1)
    hidden := co.hidden.filter fun (h : Hidden) => !gone (16 * h.unit) }

/-- The pool of a bench whose portions have changed: it keeps what it has room for, or, where no pool is left, writes
its dirty lines to their homes and empties (assumption 64). -/
def State.poolSplit (s : State) (b : Nat) : State :=
  if s.hasPool b then s.poolFit b else (s.backPool b fun _ => true).modBe b fun x => { x with pool := [] }

/-- A write of LSPLIT (R125). -/
def State.setLsplit (s : State) (core : Nat) (v : W64) : Out :=
  let v := v &&& 3
  let b := benchOf core
  let dirty := (s.co core).cache.filter CLine.isDirty
  let stays := (s.modCo core fun co => co.split v).hasPool b
  if (s.windows core).any fun w => decide (scrLimit v < w.1 + w.2) then .trap (precise .prot) s
  else if (!(s.hasPool b && stays) && dirty.any fun l => s.writeHeld l.line) ||
      (!stays && (s.be b).pool.any fun l => l.c.isDirty && s.writeHeld l.c.line) then .wait .phaseDrain s
  else .done (((dirty.foldl (fun s l => s.backLine core false l) s).modCo core fun co => co.split v).poolSplit b)

/-- A write of BPOOL (R126). -/
def State.setBpool (s : State) (b : Nat) (v : W64) : Out :=
  if (s.be b).pool.any fun l => l.c.isDirty && s.writeHeld l.c.line then .wait .phaseDrain s
  else .done ((s.backPool b fun _ => true).modBe b fun x => { x with bpool := v &&& 0xFFFFFFFFFFFF, pool := [] })

/-- `srw` (R400). -/
def execSrw (r : BitVec 12) (s : State) : Res :=
  run (.srw r) s fun k =>
    let v := (s.r k).s
    let c := cidOf k
    match r.toNat with
    | 0x000 => .done (s.modR k fun q => { q with ppl := bitN v 2 })
    | 0x010 => s.setLsplit (coreK k) v
    | 0x011 => s.setBpool (benchOf (coreK k)) v
    | 0x012 => if (s.queues c).spilled ≠ 0 then .trap (precise .quota) s else .done (s.modReg c fun g => g.sysSet 0x012 v)
    | n => .done (s.modReg c fun g => g.sysSet n v)

/-! ## Sequencers (R61, R62) -/

/-- Start sequencer q of the compute sequencer k's context. -/
def State.startSeq (s : State) (k q : Nat) (pc : W64) : State :=
  let r := s.r k
  s.modSq (sidAt (cidOf k) q) fun x => { SeqSt.init with
    r := { r with pc := pc, rep := Rep.init }
    run := true, fwd := x.fwd }

def State.stopped (s : State) (c q : Nat) : Bool := !(s.sq (sidAt c q)).run

/-- `fork.m`, `fork.a` (R350). -/
def execFork (access : Bool) (off : BitVec 17) (s : State) : Res :=
  run (.fork access off) s fun k =>
    let q := if access then 2 else 1
    if !s.stopped (cidOf k) q then .trap (precise .illegal) s
    else .done (s.startSeq k q ((s.r k).pc + sx64 off * 4))

/-- `fork.ma` (R350). -/
def execForkBoth (offM : BitVec 17) (offA : W32) (s : State) : Res :=
  run (.forkBoth offM offA) s fun k =>
    let c := cidOf k
    if !s.stopped c 1 || !s.stopped c 2 then .trap (precise .illegal) s
    else .done ((s.startSeq k 1 ((s.r k).pc + sx64 offM * 4)).startSeq k 2 ((s.r k).pc + sx64 offA * 4))

end Sys2Proof.Machine

namespace Sys2Proof

/-- Does a set name sequencer q? -/
def SeqSet.has (x : SeqSet) (q : Nat) : Bool := if q = 0 then x.c else if q = 1 then x.m else x.a
def SeqSet.list (x : SeqSet) : List Nat := (List.range 3).filter x.has

end Sys2Proof

namespace Sys2Proof.Machine

namespace State

/-- Stopped, or at the `tdone` that counts as the compute sequencer's stop (R404). -/
def rdvGone (s : State) (c q : Nat) : Bool := s.stopped c q || (s.sq (sidAt c q)).waiting == some .tdone

/-- The set of the `rdv` at which a sequencer waits. -/
def rdvOf (s : State) (c q : Nat) : Option SeqSet :=
  match (s.sq (sidAt c q)).waiting with
  | some (.rdv x) => some x
  | _ => none

/-- ILLEGAL for every waiting `rdv` that can no longer complete (R62). -/
def rdvCheck (s : State) (c : Nat) : State :=
  let live := (List.range 3).filter fun q => !s.rdvGone c q
  let stuck := !live.isEmpty && live.all fun q => (s.rdvOf c q).isSome
  live.foldl (fun s q => match s.rdvOf c q with
    | some x =>
      let t := precise .illegal
      if (stuck || x.list.any (s.rdvGone c)) && !(s.sq (sidAt c q)).pend.contains t then s.post (sidAt c q) t else s
    | none => s) s

/-- A waiting sequencer retires its `rdv`. -/
def rdvRetire (s : State) (i : Instr) (k : Nat) : State :=
  s.forward (s.modSq k fun q => (q.retire 4 1).issued q.r.pc 4) k i

end State

/-- `rdv` (R62, R393). -/
def execRdv (set : SeqSet) (s : State) : Res :=
  run (.rdv set) s fun k =>
    let c := cidOf k
    let others := set.list.filter (· != qOf k)
    if !set.has (qOf k) || others.any (s.rdvGone c) then .trap (precise .illegal) s
    else if others.all fun q => s.rdvOf c q == some set then
      .done (others.foldl (fun s q => s.rdvRetire (.rdv set) (sidAt c q)) s)
    else .hold (.rdv set) ((s.modSq k fun q => { q with waiting := some (.rdv set) }).rdvCheck c)

/-! ## `tdone` (R404) -/

/-- The cause of the first counter that is not 0. -/
def Counters.busy (n : Counters) : Option Cause :=
  ([Ctr.lc, .sc, .cc, .oc, .nc, .mc].find? fun c => n.get c != 0).map waitCause

namespace State

/-- A sequencer stops; a `tdone` of the compute sequencer that waits for it goes on. -/
def stopSeq (s : State) (k : Nat) : State :=
  let c := cidOf k
  let s := s.modSq k fun q => { q with run := false, pend := [] }
  let s := if s.stopped c 1 && s.stopped c 2 then
      s.modSq (sidAt c 0) fun q => if q.waiting == some .tdone then { q with released := true } else q
    else s
  s.rdvCheck c

/-- What a member of a completed instance releases (R404). -/
def memberRelease (s : State) (c : Nat) : State :=
  ((((s.jafRelease c).pinsDrop c).tokDrop c).walksDrop c).freeSlot c

/-- Does a token of the context wait for its block's bytes? -/
def tokensBusy (s : State) (c : Nat) : Bool := s.h.tok.any fun e => e.2.holder == some c && s.tokBusy c e.1

/-- The member is complete, and with the last one the instance. Until then it waits at its `tdone`, which a WALKER or a
SPILL still finds there: one that is pending on another member is taken first (R227, R404). -/
def memberDone (s : State) (k : Nat) (i : Inst) : Out :=
  let done := if i.doneMembers.contains (coreK k) then i.doneMembers else coreK k :: i.doneMembers
  if i.members.all done.contains && (State.cids i).all fun c => (s.sq (sidAt c 0)).pend.isEmpty then
    if (State.cids i).any s.tokensBusy then .wait .phaseDrain s
    else .done (((State.cids i).foldl (fun s c => s.memberRelease c) s).instComplete i.id)
  else
    .hold .tdone ((s.modInst i.id fun x => { x with doneMembers := done }).passAhead k .tdone)

end State

/-- `tdone`. -/
def execTdone (s : State) : Res :=
  run .tdone s fun k =>
    let c := cidOf k
    if qOf k ≠ 0 then .done (s.stopSeq k)
    else if !s.stopped c 1 || !s.stopped c 2 then
      .hold .tdone ((s.modSq k fun q => { q with waiting := some .tdone }).rdvCheck c)
    else match (s.cx c).n.busy with
      | some w => .wait w s
      | none => match s.instOf c with
        | some i => s.memberDone k i
        | none => if s.tokensBusy c then .wait .phaseDrain s else .done (s.memberRelease c)

/-! ## `tsig` (R299, R413) -/

def State.sigFlags (s : State) (k : Nat) (z : Bool) : State := s.modR k fun r => { r with fl := ⟨z, false, false, false⟩ }

/-- A signal that has an effect or has none. -/
def State.signalled (s : State) (k : Nat) (o : Option State) : Out :=
  match o with
  | some s => .done (s.sigFlags k false)
  | none => .done (s.sigFlags k true)

/-- `tsig #n`. -/
def execTsig (n : W16) (s : State) : Res :=
  run (.tsig n) s fun k =>
    match s.instOf (cidOf k) with
    | none => .trap (precise .prot (nodeVa 0 n.toNat)) s
    | some i => match s.node i.ctxid i.hdr n.toNat with
      | some x => if x.kind = 4 then s.signalled k (s.signal i.ctxid i.hdr n.toNat)
        else .trap (precise .prot (nodeVa i.hdr n.toNat)) s
      | none => .trap (precise .prot (nodeVa i.hdr n.toNat)) s

/-- `tsig s` with a graph header. -/
def State.sigLaunch (s : State) (k : Nat) (va : W64) : Out :=
  match s.launchHeld (s.cx (cidOf k)).slot.ctxid va with
  | some c => .wait c s
  | none => match s.sigCheck (s.cx (cidOf k)).slot.ctxid va with
  | (.ok g, s) => .done ((s.startGraph g).sigFlags k false)
  | (.error .running, s) => .done (s.sigFlags k true)
  | (.error .tooMany, s) => .done (s.sigFlags k true)
  | (.error _, _) => .trap (precise .prot va) s

/-- `tsig s` with a node record at its home address, whose first byte is `kind`. -/
def State.sigRecord (s : State) (k kind : Nat) (va : W64) (ha : Nat) : Out :=
  let ctxid := (s.cx (cidOf k)).slot.ctxid
  match s.recordAt ha with
  | some (g, i) =>
    if (match g.nodes[i]? with | some n => n.kind != 4 | none => true) || g.ctxid != ctxid then .trap (precise .prot va) s
    else s.signalled k (s.signal g.ctxid g.hdr i)
  | none => if kind ≠ 4 then .trap (precise .prot va) s else s.signalled k none

/-- A trap leaves the state as it was before the instruction (R9). -/
def Out.undoing (old : State) (o : Out) : Out :=
  match o with
  | .trap t _ => .trap t old
  | o => o

/-- `tsig s`. -/
def execTsigS (s : State) : Res :=
  run .tsigS s fun k =>
    let va := (s.r k).s
    attempt s (trapIf (va &&& 63 != 0) .misalign) fun _ => attempt s (s.pages k va 64 .read) fun (ps, t) =>
      let b := t.h.byte (xlAt ps va 0) 0
      match t.readHeld (xlAt ps va 0).ha with
      | some c => .wait c t
      | none =>
        if b.2 then .trap (precise .poison) s
        else if b.1 = 15 then (t.sigLaunch k va).undoing s
        else attempt s (s.pages k va 128 .read) fun (ps, t) => (t.sigRecord k b.1.toNat va (xlAt ps va 0).ha).undoing s

/-! ## `gbar` (R292, R351) -/

def execGbar (s : State) : Res :=
  run .gbar s fun k =>
    let c := cidOf k
    match s.instOf c with
    | none => .trap (precise .illegal) s
    | some i => match s.node i.ctxid i.hdr i.node with
      | none => .trap (precise .illegal) s
      | some n =>
        if !n.coop then .trap (precise .illegal) s
        else if (s.sq k).released || (s.cx c).slot.departed then .done (s.modSlot c fun x => { x with departed := false })
        else if (s.cx c).slot.arrived then .hold .gbar (s.passAhead k .gbar)
        else
          let b := n.barc + 1
          let s := ((s.modNode i.ctxid i.hdr i.node fun n => { n with barc := b }).nodeWrite i.ctxid i.hdr i.node 60 (natLe 4 b)).modSlot c
            fun x => { x with arrived := true }
          let s := s.barDepart i.ctxid i.hdr i.node
          if (s.cx c).slot.arrived then .hold .gbar (s.passAhead k .gbar) else .done (s.modSlot c fun x => { x with departed := false })

/-! ## `yield` (R455) -/

namespace State

/-- The lowest instance of a node that is neither bound nor complete nor cancelled. -/
def nextUnbound (s : State) (ctxid : Nat) (hdr : W64) (i : Nat) (n : Node) : Option Nat :=
  let mine := (s.sch.insts.filter fun x => x.ctxid == ctxid && x.hdr == hdr && x.node == i).map Inst.inst
  let used := mine ++ n.doneInst ++ n.cancelled
  findFrom (fun j => !used.contains j) 0 (min n.count (used.length + 1))

/-- Swapped-out instances of a node, and when each was swapped out. -/
def savedOf (s : State) (ctxid : Nat) (hdr : W64) (i : Nat) : List Inst :=
  s.sch.insts.filter fun x => x.state == .saved && x.ctxid == ctxid && x.hdr == hdr && x.node == i

/-- Task nodes with work to bind, each with its graph and index: unbound or swapped-out instances. -/
def waitingNodes (s : State) : List (Graph × Nat × Node) :=
  s.sch.graphs.flatMap fun g => ((List.range g.nodes.length).zip g.nodes).filterMap fun (i, n) =>
    if n.kind == 1 && (n.state == .ready || n.state == .running) &&
        ((s.nextUnbound g.ctxid g.hdr i n).isSome || !(s.savedOf g.ctxid g.hdr i).isEmpty)
    then some (g, i, n) else none

def imagesOf (s : State) (id : Nat) : List Image := s.sch.images.filter fun m => m.inst == id

/-- May the saved partitions of a team stand on a core: all 256 buckets alone, and no other beside them (R210)? -/
def jafFits (s : State) (id core : Nat) : Bool :=
  let here := (List.range Config.ctxs).filterMap fun n => (s.cx (cidAt core n)).j.part
  let mine := (s.imagesOf id).filterMap fun m => m.ctx.j.part
  mine.all fun p => if p.all then here.isEmpty else here.all fun h => !h.all

/-- May an instance be bound: neither bound nor complete nor cancelled? -/
def bindable (s : State) (g : Graph) (i : Nat) (n : Node) (num : Nat) : Bool :=
  decide (num < n.count) && !n.doneInst.contains num && !n.cancelled.contains num &&
  (match s.findInst g.ctxid g.hdr i num with | some x => x.state == .saved | none => true)

end State

/-- Waiting work: since when, its effective priority, its node and its instance (R289, R290). -/
structure Work where
  since : Nat
  prio : Nat
  g : Graph
  i : Nat
  n : Node
  num : Nat

namespace State

/-- The instances of a node that wait for a placement: the swapped-out ones, the lowest unbound one, and those that a
rotation swaps in (R289, R293). -/
def nodeWork (s : State) (g : Graph) (i : Nat) (n : Node) : List Work :=
  let fresh (j : Nat) : Work := ⟨n.readyTick, effective n n.readyNs s.ns, g, i, n, j⟩
  let saved := s.savedOf g.ctxid g.hdr i
  saved.map (fun x => ⟨x.startTick, s.instPrio x, g, i, n, x.inst⟩) ++
  (match s.nextUnbound g.ctxid g.hdr i n with
    | some j => (j :: n.swapIn.filter fun k => s.bindable g i n k && k != j && !saved.any fun x => x.inst == k).map fresh
    | none => [])

def work (s : State) : List Work := s.waitingNodes.flatMap fun (g, i, n) => s.nodeWork g i n

/-- Its placement. -/
def workPlace (s : State) (w : Work) : Option (Nat × List Nat) :=
  let fit : Nat → Bool := match s.findInst w.g.ctxid w.g.hdr w.i w.num with | some x => s.jafFits x.id | none => fun _ => true
  s.placementFor fit w.n.aff w.n.team w.n.lsize

/-- Does READY work of equal or higher effective priority need the instance's slots: has it no placement, and would it
have one with them (R290, R455, assumption 46)? -/
def needed (s : State) (x : Inst) : Bool :=
  s.work.any fun w => decide (s.instPrio x ≤ w.prio) && (s.workPlace w).isNone && ((s.without [x]).workPlace w).isSome

/-- The end of an instance's quantum: it is swapped out, or a new quantum starts, at boundaries that the model takes as
events (assumption 46). -/
def endQuantum (s : State) (i : Inst) : State := if s.needed i then s.quiesce i.id else s

end State

def execYield (s : State) : Res :=
  run .yield s fun k => match s.instOf (cidOf k) with
    | some i => .done (s.endQuantum i)
    | none => .done s

/-! ## `idle` (R353) -/

def execIdle (n : W16) (s : State) : Res :=
  run (.idle n) s fun k => if (s.sq k).released then .done s else .hold .idle s

/-- An `idle` ends: its time has elapsed, or earlier. -/
def execIdleTimeout (sid : Nat) (s : State) : Res :=
  if (s.sq sid).waiting = some .idle then .next (s.modSq sid fun q => { q with released := true }) else .next s

/-- What ends the `idle`s of a context: a counter falls, a map's bit is set, a queue of which the sequencer is the
consumer receives an entry. -/
def idleEnds (old new : Ctx) (q : Nat) : Bool :=
  ([Ctr.lc, .sc, .cc, .oc, .nc, .mc].any fun c => decide (new.n.get c < old.n.get c)) ||
  (new.reg.sm.any fun e => e.2 &&& ~~~(Tab.get 0 old.reg.sm e.1) != 0) ||
  ([Queue.ac, .cm, .am, .mc].any fun w => consumer w == q && decide ((old.q.get w).length < (new.q.get w).length))

/-- Has a step ended the `idle` or the `wait` at which a sequencer stands? -/
def SeqSt.freed (q : SeqSt) (old new : Ctx) (n : Nat) : Bool :=
  q.waiting == some .idle && idleEnds old new n ||
  match q.waitAt with
  | some (c, m) => decide (new.n.get c ≤ m)
  | none => false

/-- The `idle`s and `wait`s that a step has ended. -/
def State.rouse (old new : State) : State :=
  if new.seqs.any fun e => (e.2.waiting == some .idle || e.2.waitAt.isSome) && !e.2.released then
    { new with seqs := new.seqs.map fun (e : Nat × SeqSt) =>
        if e.2.freed (old.cx (cidOf e.1)) (new.cx (cidOf e.1)) (qOf e.1) then (e.1, { e.2 with released := true }) else e }
  else new

/-- A step's outcome, with the `idle`s and `wait`s that it has ended (R353, R451). -/
def woken (old : State) (r : Res) : Res :=
  match r with
  | .next s => .next (old.rouse s)
  | .fault f => .fault f
  | .refused f => .refused f

/-! ## `iflush` (R354) -/

/-- A buffer drops its copy at the end of the current pass (R60). -/
def RepBuf.flag (b : RepBuf) : RepBuf := { b with refetch := true }

/-- The repetition buffers of a sequencer, those beneath its handlers among them, of which `p` holds (R60). -/
def SeqSt.flag (q : SeqSt) (p : RepBuf → Bool) : SeqSt :=
  { q with
    buf := if q.r.rep.act && p q.buf then q.buf.flag else q.buf
    traps := q.traps.map fun t => if p t.buf then { t with buf := t.buf.flag } else t }

def execIflush (s : State) : Res :=
  run .iflush s fun k =>
    .done ((List.range 3).foldl (fun s q => s.modSq (sidAt (cidOf k) q) fun x => { x.flag fun _ => true with pre := [] }) s)

/-! ## `tinv` (R406) -/

namespace State

/-- Home ranges of the pages that entries map. -/
def tlbRanges (s : State) (k : Nat) (es : List TlbEnt) : List (Nat × Nat) :=
  es.filterMap fun t => (s.place (s.who k).peers (Pte.ppn t.pte * 4096 / 2 ^ t.bits * 2 ^ t.bits)).map fun a => (a, 2 ^ t.bits)

/-- Accesses of a context under way to these ranges, that have not reached their homes. -/
def underWay (rs : List (Nat × Nat)) (f : Flight) : Bool :=
  let pages (l : List Xl) : Bool := l.any fun x => meets rs (x.ha / 4096 * 4096) 4096
  let side (d : Side) : Bool := match d with | .glob _ ps => pages ps | .scr .. => false | .ben .. => false
  (f.loads.any fun l => meets rs l.x.ha l.n) || (f.stores.any fun t => t.writes.any fun w => meets rs w.1 w.2.length) ||
  (f.copying.any fun c => side c.dst || side c.src) ||
  (f.follows.any fun c => pages c.tile.ga || pages c.tile.gb) ||
  (f.offers.any fun o => o.stage == .sent && meets rs o.x.ha o.size) ||
  (f.nms.any fun m => m.out.isNone && (pages m.dst || pages m.src))

/-- Words of the dropped pages are discarded; a repetition buffer that holds one refetches. -/
def dropWords (s : State) (es : List TlbEnt) : State :=
  { s with seqs := s.seqs.map fun (e : Nat × SeqSt) =>
      let w := s.who e.1
      let hit (a : W64) : Bool := es.any fun t => t.covers w a
      (e.1, { e.2.flag fun b => b.words.any fun x => hit x.1 with pre := e.2.pre.filter fun x => !hit x.1 }) }

/-- Is an access of a context or of a node to these ranges under way? -/
def anyUnderWay (s : State) (rs : List (Nat × Nat)) : Bool :=
  (s.ctxs.any fun e => underWay rs e.2.f) ||
  s.sch.graphs.any fun g => g.nodes.any fun n =>
    (match n.copy with | some c => underWay rs { Flight.init with copies := [c] } | none => false) ||
    (match n.near with | some m => underWay rs { Flight.init with nms := [m] } | none => false)

/-- `tinv` of the entries that `p` names, those that have left a full slice among them (R406). -/
def tinv (s : State) (k : Nat) (p : TlbEnt → Bool) : Out :=
  let es := (s.h.tlb ++ s.h.tlbOld).filter p
  let rs := s.tlbRanges k es
  let ls := (s.h.leases.filter fun l => l.write && l.dev != s.pf.fabricId && meets rs (l.block * 65536) 65536).map Lease.block
  if !ls.isEmpty then .wait .phaseDrain (ls.foldl (fun s b => s.startRevoke b) s)
  else if s.anyUnderWay rs then .wait .phaseDrain s
  else .done ((s.dropWords es).modH fun h => { h with
    tlb := h.tlb.filter fun t => !p t, tlbOld := h.tlbOld.filter fun t => !p t })

end State

/-- `tinv (pN)`. -/
def execTinv (p : BitVec 3) (s : State) : Res :=
  run (.tinv p) s fun k =>
    let g := (s.r k).ptr p
    let w := s.who k
    attempt s (trapIf (g.space != .g) .illegal) fun _ =>
      s.tinv k fun t => t.covers w g.base

/-- `tinv.asid`. -/
def execTinvAsid (s : State) : Res :=
  run .tinvAsid s fun k =>
    let w := s.who k
    s.tinv k fun t => t.part == w.part && t.asid == w.asid && !Pte.g t.pte

/-- `tinv.all`. -/
def execTinvAll (s : State) : Res :=
  run .tinvAll s fun k => s.tinv k fun t => t.part == (s.who k).part

/-! ## Events -/

/-- A pending asynchronous trap is taken at the next instruction boundary (R411). -/
def execTrapEntry (sid : Nat) (s : State) : Res :=
  match s.pendNow sid with
  | [] => .next s
  | t :: rest => if s.mayIssue sid then .next ((s.modSq sid fun q => { q with pend := rest }).takeTrap sid t) else .next s

/-- Run-ahead ends where it has met what ends it: its effects go, and PAGE is raised at the original instruction with
the demand's entry and the batch (R138, R140). -/
def execRunaheadEnd (c q : Nat) (s : State) : Res :=
  let sid := sidAt c q
  happens s ((s.sq sid).ra.filter Ahead.isOver) fun a => s.takeTrap sid { a.trap with record := a.trap.record ++ a.batch }

/-- A reply of the fault service: to the resident team, to its save area, or discarded with an old GEN (R140, R296). -/
def execFaultReply (ctxid saveid gen q : Nat) (word : W64) (s : State) : Res :=
  happens s (s.sch.insts.find? fun i => i.ctxid % 65536 == ctxid % 65536 && i.saveid.getD 0 == saveid && i.gen % 65536 == gen) fun i =>
    if s.sch.images.any fun m => m.inst == i.id then
      let s := (List.range i.members.length).foldl (fun s t => s.saveWord i t (1 + q % 3) word) s
      s.modSch fun h => { h with images := h.images.map fun (m : Image) =>
        if m.inst == i.id then { m with ctx := { m.ctx with reply := (q, word) :: m.ctx.reply.filter fun e => e.1 != q } } else m }
    else (State.cids i).foldl (fun s c => s.modCx c fun x => { x with reply := (q, word) :: x.reply.filter fun e => e.1 != q }) s

end Sys2Proof.Machine
end

