-- ==== Sys2Proof/Machine/Sched.lean ====
section
/-! DEFINITION. Dispatch: launches and cancellations (R282, R284), copy, near and fill nodes (R279, R319), binding (R287
to R289), the start of an instance (R46 to R48, R288), rotation (R293), swaps and resumption (R294 to R298), and the
migration of threads (R69, R70). -/

namespace Sys2Proof.Machine

/-! ## LAUNCH and CANCEL (R282, R323) -/

/-- The header's address that a write to LAUNCH or CANCEL gives. -/
def hdrOf (v : W64) : W64 := (bits v 6 51 ++ (0 : BitVec 6)).signExtend 64

namespace State

def setCwin (s : State) (ctxid off : Nat) (v : W64) : State :=
  s.modPf fun p => { p with cwin := Tab.set 0 p.cwin (cwinKey ctxid off) v }

/-- A write of `v` to a context's LAUNCH. -/
def launch (s : State) (ctxid : Nat) (v : W64) : State :=
  let reg (s : State) (err : Nat) : State := s.setCwin ctxid 0 (v &&& 0x01FFFFFFFFFFFFC0 ||| BitVec.ofNat 64 err)
  match s.launchCheck ctxid (hdrOf v) with
  | (.ok g, s) => reg (s.startGraph g) 0
  | (.error e, s) => reg s e.code

/-- A write of `v` to a context's CANCEL; a graph that is not RUNNING is unaffected. -/
def cancel (s : State) (ctxid : Nat) (v : W64) : State := s.cancelGraph ctxid (hdrOf v)

/-- May a master issue partition commands, launches and power requests: the owner alone (R328)? A core's write through
MMIO comes from no master. -/
def mayCommand (s : State) (by_ : Option Master) : Bool := by_.isNone || s.pf.owner == by_

end State

/-- A launch; where its reads wait, the engines go on and it comes again (R43). -/
def execLaunch (w : Via) (g : W64) (s : State) : Res :=
  .next (if !s.mayCommand w.by_ then s
    else if (s.launchHeld w.win (hdrOf g)).isSome then s.later (.launch w g)
    else s.launch w.win g)
def execCancel (w : Via) (g : W64) (s : State) : Res :=
  .next (if s.mayCommand w.by_ then s.cancel w.win g else s)

/-! ## Copy, near and fill nodes (R279, R319) -/

/-- Node i of a RUNNING graph at `g`, of a kind and in a state, with its context. -/
def State.nodeAt (s : State) (g : W64) (i kind : Nat) (st : NodeState) : Option (Nat × Node) :=
  s.sch.graphs.findSome? fun x => if x.hdr == g then
      (x.nodes[i]?).bind fun n => if n.kind == kind && n.state == st then some (x.ctxid, n) else none
    else none

def Node.dst (n : Node) : W64 := BitVec.ofNat 64 (fld n.desc (if n.kind = 0 then 0 else 8) 8)
def Node.src (n : Node) : W64 := BitVec.ofNat 64 (fld n.desc (if n.kind = 0 then 8 else 16) 8)

/-- The failure of a copy or near node: SRC 2, the cause's code, and the failing address. -/
def State.nodeXErr (s : State) (ctxid : Nat) (g : W64) (i : Nat) (e : XErr) : State :=
  s.nodeFail ctxid g i (faultWord 2 0 (BitVec.ofNat 32 e.code.num)) e.va

/-- The operation that a copy node's copy is. -/
def nodeCpy (n : Nat) : CpyOp := ⟨⟨0, false⟩, ⟨0, false⟩, 0, false, false, BitVec.ofNat 29 n, 0⟩

/-- A copy node starts once no walk for its ranges waits (R131, R251). -/
def execCopyNodeStart (g : W64) (node : Nat) (s : State) : Res :=
  happens s ((s.nodeAt g node 0 .ready).filter fun (ctxid, n) =>
      ((s.walkHeld (s.whoCtx ctxid false) n.dst (fld n.desc 16 4) .copyWrite).or
        (s.walkHeld (s.whoCtx ctxid false) n.src (fld n.desc 16 4) .copyRead)).isNone) fun (ctxid, n) =>
    let len := fld n.desc 16 4
    let w := s.whoCtx ctxid false
    let s := s.setNode ctxid g node .running
    match s.translateAll w n.dst len .copyWrite with
    | .error e => s.nodeXErr ctxid g node e
    | .ok (ds, s) => match s.translateAll w n.src len .copyRead with
      | .error e => s.nodeXErr ctxid g node e
      | .ok (xs, s) =>
        let (id, s) := s.fresh
        s.modNode ctxid g node fun n => { n with
          copy := some ⟨id, 0, nodeCpy len, len, .glob n.dst ds, .glob n.src xs, [], [], 0, [], [], [], 0⟩ }

/-- The command of a near node; no context holds a token for it. -/
def nearCmd (n : Node) (id part : Nat) (ds xs : List Xl) : NmCmd :=
  { id := id, q := 0, opc := fld n.desc 0 1, bf16 := false
    record := if fld n.desc 0 1 = 0x12 then List.replicate 8 0 ++ bvLe 8 n.src else bvLe 8 n.src
    recOff := 0, dst := ds, src := xs, dva := n.dst, n := fld n.desc 24 4, slot := ⟨false, 0, 0, 0⟩, win := 0
    limit := 0, out := none, result := [], dest := 0, holder := none, part := part, walker := none, fate := .live }

/-- A near node starts once no walk for its ranges waits. -/
def execNearNodeStart (g : W64) (node : Nat) (s : State) : Res :=
  happens s ((s.nodeAt g node 2 .ready).filter fun (ctxid, n) =>
      ((s.walkHeld (s.whoCtx ctxid false) n.dst (fld n.desc 24 4) (.near true)).or
        (if fld n.desc 0 1 = 0x12 then s.walkHeld (s.whoCtx ctxid false) n.src (fld n.desc 24 4) (.near false) else none)).isNone) fun (ctxid, n) =>
    let len := fld n.desc 24 4
    let w := s.whoCtx ctxid false
    let s := s.setNode ctxid g node .running
    match s.translateAll w n.dst len (.near true) with
    | .error e => s.nodeXErr ctxid g node e
    | .ok (ds, s) => match (if fld n.desc 0 1 = 0x12 then s.translateAll w n.src len (.near false) else .ok ([], s)) with
      | .error e => s.nodeXErr ctxid g node e
      | .ok (xs, s) =>
        let (id, s) := s.fresh
        s.modNode ctxid g node fun m => { m with near := some (nearCmd n id (s.cpart ctxid) ds xs) }

namespace State

/-- A demand request for a layer, once in the loader's queue (R306, R314). -/
def demand (s : State) (part mid l : Nat) : State :=
  if s.sch.demand.contains (part, mid, l) then s else s.modSch fun h => { h with demand := h.demand ++ [(part, mid, l)] }

/-- A fill node acts on its layer's state: it completes, fails, or waits, asking for a fill where none is under way. -/
def fillNode (s : State) (ctxid : Nat) (g : W64) (i : Nat) (n : Node) : State :=
  let mid := fld n.desc 0 1
  let l := fld n.desc 2 2
  match s.model (s.cpart ctxid) mid with
  | none => s.nodeFail ctxid g i (faultWord 5 4 0) 0
  | some m =>
    let flag := s.layFlag m l
    if flag = lfResident then s.nodeDone ctxid g i
    else if flag = lfFaulted then s.nodeFail ctxid g i (faultWord 5 (s.mdNat m (recOff l + 1) 1) 0) 0
    else if flag = lfFilling then s
    else s.demand m.part mid l

end State

def execFillNodeStart (g : W64) (node : Nat) (s : State) : Res :=
  happens s (s.nodeAt g node 3 .ready) fun (ctxid, n) => (s.setNode ctxid g node .running).fillNode ctxid g node n

/-! ## Binding (R287, R289) -/

/-- Members in ring order from the leader, as device-wide cores (R30, R67). -/
def ringFrom (bench leader : Nat) (mem : BitVec 48) : List Nat :=
  ((List.range Config.benchCores).map fun i => (leader + i) % Config.benchCores).filter (fun c => mem.getLsbD c) |>.map
    (bench * Config.benchCores + ·)

namespace State

/-- An instance is bound: its slots are BOUND, with their windows (R286, R288). -/
def bindTo (s : State) (g : Graph) (i : Nat) (n : Node) (num ctxn : Nat) (members : List Nat) : State :=
  let leader := members.headD 0
  let (now, s) := s.fresh
  let (id, s) := match s.findInst g.ctxid g.hdr i num with
    | some x => (x.id, s.modInst x.id fun y => { y with state := .bound, ctxn := ctxn, leader := leader, members := members })
    | none =>
      let (id, s) := s.fresh
      (id, s.modSch fun h => { h with
        nextGen := h.nextGen + 1
        insts := h.insts ++ [({
          id := id, hdr := g.hdr, node := i, inst := num, ctxn := ctxn, leader := leader, members := members
          ctxid := g.ctxid, part := s.cpart g.ctxid, gen := h.nextGen, saveid := none, state := .bound, begun := now, startTick := now, outNs := none
          doneMembers := [], preempt := false, lf := n.lf, migrated := false } : Inst)] })
  let s := (s.modNode g.ctxid g.hdr i fun n => { n with swapIn := n.swapIn.filter (· != num) }).modPf fun p => { p with gated := false }
  ((List.range members.length).zip members).foldl (fun s (p : Nat × Nat) => s.modSlot (cidAt p.2 ctxn) fun sl => { sl with
    state := .bound, inst := id, tidx := p.1, winBase := (s.freeWindow p.2 n.lsize).getD 0, winSize := n.lsize * 65536
    complete := false, arrived := false, departed := false }) s

/-- The node that a record of a partition names. -/
def recordNode (s : State) (r : BindRec) : Option (Graph × Nat × Node) :=
  s.sch.graphs.findSome? fun g => if s.cpart g.ctxid == r.part then
      ((List.range g.nodes.length).zip g.nodes).findSome? fun (i, n) =>
        if nodeVa g.hdr i == r.node && n.kind == 1 then some (g, i, n) else none
    else none

/-- A record with no effect is counted. -/
def reject (s : State) : State := s.modPf fun p => { p with rejected := p.rejected + 1 }

/-- The checks of a BIND record that remain once its node is known. -/
def bindOk (s : State) (bench : Nat) (r : BindRec) (g : Graph) (i : Nat) (n : Node) : Bool :=
  let ms := ringFrom bench r.leader r.mem
  let id := ((s.findInst g.ctxid g.hdr i r.inst).map Inst.id)
  decide (bench < Config.benches) && (n.state == .ready || n.state == .running) && s.bindable g i n r.inst &&
  ms.length == n.team && r.mem.getLsbD r.leader && decide (r.leader < 48) && decide (r.ctxn < Config.ctxs) &&
  decide (r.part < 16) && ms.all (fun c => s.canTake c r.ctxn n.lsize) &&
  (match id with | some id => ms.all (s.jafFits id) | none => true)

end State

def execBind (bench : Nat) (r : BindRec) (s : State) : Res :=
  match s.recordNode r with
  | some (g, i, n) =>
    if r.op = 0 ∧ s.bindOk bench r g i n then .next (s.bindTo g i n r.inst r.ctxn (ringFrom bench r.leader r.mem)) else .next s.reject
  | none => .next s.reject

/-- A PREEMPT record: its instance is swapped out at the next quantum boundary. A record of another OP has no effect and
is counted. -/
def execPreempt (_bench : Nat) (r : BindRec) (s : State) : Res :=
  match s.sch.insts.find? fun x => nodeVa x.hdr x.node == r.node && x.inst == r.inst && x.part == r.part &&
      x.state == .running && r.op == 1 with
  | some x => .next (s.modInst x.id fun y => { y with preempt := true })
  | none => .next s.reject

/-! ## The start of an instance (R46 to R48, R288) -/

/-- Registers "as left", zero after another ASID or a migration (R47, R70). -/
def Seq.asLeft (r : Seq) (zero : Bool) : Seq := { (if zero then Seq.init else r) with rep := Rep.init, ppl := false, pl := false }

/-- The context's registers at the start (R46 to R48, R194). -/
def CtxReg.start (g : CtxReg) (zero other : Bool) (kvec : W64) (n : Node) (inst tidx : Nat) : CtxReg :=
  { g with
    a0 := if zero then 0 else g.a0, a1 := if zero then 0 else g.a1, a2 := if zero then 0 else g.a2
    a3 := if zero then 0 else g.a3, m := 0xFFFF, fpctl := 0, cause := 0, epc := 0, faddr := 0
    kvec := kvec &&& sysMask 1, kring := if other then 0 else g.kring, kquota := if other then 0 else g.kquota
    opolicy := if other then 0 else g.opolicy, geo0 := BitVec.ofNat 64 (n.gy * 2 ^ 32 + n.gx)
    geo1 := BitVec.ofNat 64 (inst / n.gx * 2 ^ 32 + inst % n.gx), geo2 := BitVec.ofNat 64 (n.team * 256 + tidx)
    geo3 := n.geo3, sm := [], smSeq := [] }

/-- Bytes at table keys of a core, without a path: what the device itself puts there. A B tile held by reference goes
with its bytes (R190). -/
def Core.putAt (co : Core) (ws : List (Nat × PByte)) : Core :=
  { co with
    bhold := match co.bhold with
      | some b => if ws.any fun w => b.hit w.1 then none else some b
      | none => none
    scr := ws.foldl (fun m w => m.write w.1 w.2.1) co.scr
    spois := (unitsOf (ws.map Prod.fst)).foldl (fun t u => Tab.set false t u (unitPoison (Tab.get false t u) ws u)) co.spois }

/-- What is still hidden in a context's window and private area, or was written by it, is visible from now on. -/
def Core.reveal (co : Core) (c winBase winSize : Nat) : Core :=
  co.unhide fun h => h.cid == c || (winBase ≤ h.unit * 16 && h.unit * 16 < winBase + winSize) ||
    (kKey (ctxnOf c) 0 ≤ h.unit * 16 && h.unit * 16 < kKey (ctxnOf c) 0x400)

namespace State

/-- The member `tidx` of an instance starts on its context. -/
def startMember (s : State) (i : Inst) (n : Node) (tidx c : Nat) : State :=
  let x := s.cx c
  let other := x.slot.lastAsid != s.asidOf i.ctxid
  let zero := other || i.migrated
  let reg := x.reg.start zero other (s.cwin i.ctxid 0x38) n i.inst tidx
  let seq (q : Nat) : SeqSt := { SeqSt.init with r := ((s.r (sidAt c q)).asLeft zero) }
  let s := s.setCx c { Ctx.init with
    reg := reg
    f := { Flight.init with offers := x.f.offers, nms := x.f.nms }
    slot := { x.slot with
      state := .running, ctxid := i.ctxid, asid := s.asidOf i.ctxid, root := s.rootOf i.ctxid
      peers := s.peersOf i.ctxid, part := i.part } }
  let s := ((s.setSq (sidAt c 0) { seq 0 with r := { (seq 0).r with pc := n.target }, run := true }).setSq
    (sidAt c 1) (seq 1)).setSq (sidAt c 2) (seq 2)
  let s := s.modCo (coreOf c) fun co =>
    let co := co.reveal c x.slot.winBase x.slot.winSize
    if x.slot.lastPart = i.part then co
    else co.putAt ((List.range 0x400).map fun o => (kKey (ctxnOf c) o, (0, false)))
  s.openPhase c true

/-- ARGS at L offset 0 of a member. -/
def putArgs (s : State) (c : Nat) (args : List PByte) : State :=
  s.modCo (coreOf c) fun co => co.putAt ((List.range args.length).zip args |>.map fun (j, b) => ((s.cx c).slot.winBase + j, b))

/-- Why the read of an instance's ARGS waits, where it does (R43). -/
def argsHeld (s : State) (i : Inst) (n : Node) : Option Cause := s.devHeld (s.whoCtx i.ctxid false) n.args 256 .read

/-- The 256 bytes at ARGS, read for the context that launched the graph. -/
def readArgs (s : State) (i : Inst) (n : Node) : Except XErr (List PByte × State) :=
  match s.translateAll (s.whoCtx i.ctxid false) n.args 256 .read with
  | .error e => .error e
  | .ok (ps, s) => .ok ((List.range 256).map (fun j => s.h.byte (xlAt ps n.args j) 0), s)

/-- An instance starts on every member at once; where ARGS cannot be read it is cancelled. -/
def startInst (s : State) (i : Inst) (n : Node) (args : Except XErr (List PByte)) : State :=
  let s := if n.state == .ready then s.setNode i.ctxid i.hdr i.node .running else s
  let cs := cids i
  let s := ((List.range cs.length).zip cs).foldl (fun s p => s.startMember i n p.1 p.2) s
  let (now, s) := s.fresh
  let s := s.modInst i.id fun x => { x with state := .running, begun := now, startTick := now }
  match args with
  | .error e => s.cancelTrap i.id (BitVec.ofNat 32 e.code.num) e.va
  | .ok b => cs.foldl (fun s c => s.putArgs c b) s

/-- An instance of a RUNNING graph at `g`, in one of the states. -/
def instAt (s : State) (g : W64) (node num : Nat) (p : Inst → Bool) : Option Inst :=
  s.sch.insts.find? fun x => x.hdr == g && x.node == node && x.inst == num && p x

/-- Bound, not started before, and not in a message. -/
def unstarted (s : State) (x : Inst) : Bool :=
  x.state == .bound && (s.imagesOf x.id).isEmpty && !(s.sch.migs.any fun m => m.inst == x.id)

end State

def execInstanceStart (g : W64) (node inst : Nat) (s : State) : Res :=
  happens s ((s.instAt g node inst s.unstarted).bind fun i => ((s.node i.ctxid i.hdr i.node).filter fun n =>
      (s.argsHeld i n).isNone).map fun n => (i, n)) fun (i, n) =>
    match s.readArgs i n with
    | .error e => s.startInst i n (.error e)
    | .ok (b, s) => s.startInst i n (.ok b)

/-! ## Dispatch binds by itself (R289, R291, R293) -/

namespace State

/-- What waits to be bound, in the order in which it became READY or was swapped out. -/
def workByAge (s : State) : List Work := sortBy (fun x y => decide (x.since ≤ y.since)) s.work

/-- The ready list: by effective priority, then by age (R290). -/
def readyList (s : State) : List Work := sortBy (fun x y => decide (y.prio ≤ x.prio)) s.workByAge

/-- The first of some work that has a placement is bound (R289). -/
def bindFirst (s : State) (ws : List Work) : Option State :=
  (ws.findSome? fun w => (s.workPlace w).map fun p => (w, p)).map fun (w, p) =>
    s.bindTo w.g w.i w.n w.num p.1 p.2

/-- Dispatch binds by itself: the oldest work first (R289). -/
def selfBind (s : State) : Option State := s.bindFirst s.workByAge

/-- Where a pre-emption has made room, the urgent instance is bound there (R291). -/
def bindUrgent (s : State) : State := (s.bindFirst (s.readyList.filter fun w => w.n.prio == 7)).getD s

/-- Where a rotation has made room, the next instance that it swaps in is bound there (R293). -/
def bindRotated (s : State) : State :=
  (s.bindFirst (s.sch.graphs.flatMap fun g => ((List.range g.nodes.length).zip g.nodes).flatMap fun (i, n) =>
    n.swapIn.filterMap fun j => (s.nodeWork g i n).find? fun w => w.num == j)).getD s

end State

def execDispatchSelfBind (s : State) : Res :=
  happens s s.selfBind fun s => s

/-! ## Quanta and rotation (R287, R293) -/

/-- A quantum's end: a pre-emption that is asked for is taken. -/
def execQuantumBoundary (g : W64) (node inst : Nat) (s : State) : Res :=
  happens s (s.instAt g node inst fun x => x.state == .running && x.preempt) fun i => s.quiesce i.id

namespace State

/-- Have all members of an instance arrived at the barrier? -/
def instArrived (s : State) (i : Inst) : Bool :=
  let ms := s.imagesOf i.id
  if ms.isEmpty then (cids i).all fun c => (s.cx c).slot.arrived else ms.all fun m => m.ctx.slot.arrived

/-- The instances of a node that wait for residence and have not arrived at its barrier: swapped out longest first, then
unstarted ones in order. -/
def coopWaiting (s : State) (g : Graph) (i : Nat) (n : Node) (k : Nat) : List Nat :=
  let mine := s.sch.insts.filter fun x => x.ctxid == g.ctxid && x.hdr == g.hdr && x.node == i
  let saved := (sortBy (fun (x y : Inst) => decide (x.startTick ≤ y.startTick)) (mine.filter fun x =>
    x.state == .saved && !s.instArrived x)).map Inst.inst
  let used := mine.map Inst.inst ++ n.doneInst ++ n.cancelled
  (saved ++ (List.range (min n.count (used.length + k))).filter fun j => !used.contains j).take k

/-- A rotation of a COOP node. -/
def rotateCoop (s : State) (g : Graph) (i : Nat) (n : Node) : State :=
  let mine := s.sch.insts.filter fun x => x.ctxid == g.ctxid && x.hdr == g.hdr && x.node == i
  let unstarted := n.count - (mine.length + n.doneInst.length + n.cancelled.length)
  let k := unstarted + (mine.filter fun x => x.state == .saved && !s.instArrived x).length
  let res := mine.filter fun x => x.state == .running
  let at_ := sortBy (fun (x y : Inst) => decide (x.inst ≤ y.inst)) (res.filter s.instArrived)
  let rest := sortBy (fun (x y : Inst) => decide (x.startTick ≤ y.startTick)) (res.filter fun x => !s.instArrived x)
  let out := (at_ ++ rest).take k
  let waiting := s.coopWaiting g i n out.length
  let s := out.foldl (fun s x => s.quiesce x.id) s
  s.modNode g.ctxid g.hdr i fun n => { n with swapIn := waiting }

end State

def execCoopRotation (g : W64) (node : Nat) (s : State) : Res :=
  happens s (s.sch.graphs.findSome? fun x => if x.hdr == g then (x.nodes[node]?).bind fun n =>
      if n.coop && n.kind == 1 && n.state == .running then some (x, n) else none else none) fun (x, n) => s.rotateCoop x node n

/-! ## Swapping a team (R294 to R296) -/

/-- A copy on the reissue list: every chunk lands again; of its scale words, those that have not entered (R145, R148). -/
def Copy.reissue (c : Copy) : Copy := { c with landed := [], scales := [], held := [], parked := [], lost := [] }

/-- The offset or address of a copy's side, as its pointer gave it. -/
def Side.base : Side → W64
  | .glob va _ => va
  | .scr _ _ l => BitVec.ofNat 64 l.off
  | .ben _ _ b _ => BitVec.ofNat 64 b

/-- An entry of the reissue list (R296), with the copy's follow-on. -/
def reissueEnt (c : Copy) (fo : Option Follow) : List Byte :=
  bvLe 8 c.dst.base ++ bvLe 8 c.src.base ++ natLe 4 c.n ++ [BitVec.ofNat 8 c.op.map.toNat] ++
  natLe 1 (b2n c.op.sc + 2 * b2n fo.isSome) ++ bvLe 2 c.op.seq ++
  pad 40 (match fo with | some f => (encode (.mtile f.tile.op)).flatMap (bvLe 4) | none => [])

/-- A sequencer as it is saved (R294): its words and the bodies of its repetitions are fetched afresh (R60), a stalled
instruction has not executed, and an `idle` is complete (R353). -/
def SeqSt.saved (q : SeqSt) : SeqSt :=
  { q with
    stalled := none, pre := [], ra := none, waitAt := none, wrun := none, lacq := none, released := q.released || q.waiting == some .idle
    buf := if q.r.rep.act then RepBuf.drop q.r.rep.body else RepBuf.init
    traps := q.traps.map fun t => { t with buf := RepBuf.drop t.buf.body } }

/-- The private area or window of a core from a key on, by offset. -/
def Core.cut (co : Core) (base n : Nat) : Memory × Tab Bool :=
  (co.scr.filterMap fun (e : Nat × Byte) => if base ≤ e.1 && e.1 < base + n then some (e.1 - base, e.2) else none,
   co.spois.filterMap fun (e : Nat × Bool) => if base ≤ e.1 * 16 && e.1 * 16 < base + n then some (e.1 - base / 16, e.2) else none)

namespace State

/-- Matrix commands past their checks complete; the walk's rows land; unfinished copies go onto the reissue list (R210,
R228, R294). -/
def drain (s : State) (c : Nat) : State :=
  let s := s.jafFlush c (s.jafPending c)
  let b := benchOf (coreOf c)
  let s := match s.walk b with
    | some w => if w.cid = c then s.landRows b w.rows.length else s
    | none => s
  s.modCx c fun x => { x with
    n := { x.n with cc := x.n.cc - x.f.copying.length }
    f := { x.f with copies := x.f.copies.map fun c => if c.finished then c else c.reissue } }

/-- The image of a drained member (R295). -/
def imageOf (s : State) (id tidx c : Nat) : Image :=
  let x := s.cx c
  let co := s.co (coreOf c)
  let (scr, sp) := co.cut x.slot.winBase x.slot.winSize
  let (kp, ks) := co.cut (kKey (ctxnOf c) 0) 0x400
  let base := match x.j.part with | some p => p.base (ctxnOf c) | none => 0
  let inPart (b : Nat) : Bool := match x.j.part with | some p => base ≤ b && b < base + p.count | none => false
  { inst := id, tidx := tidx
    ctx := { x with f := { x.f with loads := [], stores := [], offers := [], nms := [] }, tpins := [], rowReads := [] }
    sq0 := (s.sq (sidAt c 0)).saved, sq1 := (s.sq (sidAt c 1)).saved, sq2 := (s.sq (sidAt c 2)).saved
    scr := scr, spois := sp, kpriv := kp, kpois := ks
    jaf := co.jaf.filterMap fun (e : Nat × Option Way) => if inPart (e.1 / 4) then some (e.1 - 4 * base, e.2) else none
    ovf := co.ovf.filterMap fun (e : Nat × Bool) => if inPart e.1 then some (e.1 - base, e.2) else none
    walk := (s.be (benchOf (coreOf c))).walks.find? fun w => w.cid == c
    seen := Tab.get 0 s.pf.staleSeen c }

/-- The record area of an image (R296). -/
def writeImage (s : State) (i : Inst) (m : Image) : State :=
  let reply (q : Nat) : W64 := ((m.ctx.reply.find? fun e => e.1 % 3 == q).map Prod.snd).getD 0
  let head := BitVec.ofNat 64 (i.gen % 65536 * 2 ^ 48 + i.saveid.getD 0 * 2 ^ 32 + i.ctxid % 65536 * 65536 + m.ctx.f.copying.length)
  let s := ([head, reply 0, reply 1, reply 2, 0, 0, 0, 0].zip (List.range 8)).foldl (fun s (p : W64 × Nat) => s.saveWord i m.tidx p.2 p.1) s
  ((List.range m.ctx.f.copying.length).zip m.ctx.f.copying).foldl (fun s (p : Nat × Copy) =>
    s.fieldWrite i.ctxid (s.swapVa i m.tidx + BitVec.ofNat 64 (0x40 + 64 * p.1))
      (reissueEnt p.2 (m.ctx.f.follows.find? fun f => f.copy == p.2.id))) s

/-- What STALEP has counted of a context's STALE (R330). -/
def seenStale (s : State) (c : Nat) (v : W64) : State := s.modPf fun p => { p with staleSeen := Tab.set 0 p.staleSeen c v }

/-- A drained member is saved after its device-scope phase, and its slot becomes FREE; a B tile held by reference goes
(R190). -/
def saveMember (s : State) (i : Inst) (tidx c : Nat) : State :=
  let s := (s.close c true).openPhase c true
  let m := s.imageOf i.id tidx c
  let s := (s.modSch fun h => { h with images := h.images ++ [m] }).writeImage i m
  let s := (s.reFate c (.saved i.id tidx)).tokRename c (tokName i.id tidx)
  let s := (((s.resvDrop c).jafDrop c).walksDrop c).modCx c fun x => { x with pins := [] }
  let s := s.seenStale c (s.cx c).reg.stale
  (s.modCo (coreOf c) fun co =>
    { co.reveal c (s.cx c).slot.winBase (s.cx c).slot.winSize with bhold := none }).freeSlot c

/-- The save of a quiescing team; none while a load or a store of a member is in flight (R156), a window is held (R124),
or a home holds a byte of the phase back. -/
def saveTeam (s : State) (i : Inst) : Option State :=
  let cs := cids i
  if cs.any fun c => !(s.cx c).f.loads.isEmpty || !(s.cx c).f.stores.isEmpty then none else
  let s := cs.foldl (fun s c => s.drain c) s
  let away : State := cs.foldl (fun s c => s.modF c fun f => { f with copies := [] }) s
  if cs.any (fun c => away.held (coreOf c) (ctxnOf c)) || cs.any (fun c => (s.closeHome (coreOf c) true).any s.writeHeld) then none
  else
    let s := ((List.range cs.length).zip cs).foldl (fun s p => s.saveMember i p.1 p.2) s
    let (now, s) := s.fresh
    some (s.modInst i.id fun x => { x with state := .saved, startTick := now, outNs := some s.ns, migrated := false })

end State

/-- The drain of a quiescing team ends, and it is saved; urgent work, or what a rotation swaps in, takes its place (R291,
R293). -/
def execSwapDrainTimeout (g : W64) (node inst : Nat) (s : State) : Res :=
  happens s ((s.instAt g node inst fun x => x.state == .quiescing).bind s.saveTeam) fun s => s.bindUrgent.bindRotated

/-! ## Resumption (R297) -/

/-- A place of a context that has moved. -/
def Loc.moved (l : Loc) (win : Nat) : Loc := { l with win := win }

namespace State

/-- Pages translated afresh where they still translate. -/
def rePages (s : State) (c : Nat) (va : W64) (n : Nat) (k : XKind) (old : List Xl) : List Xl × State :=
  match s.translateAll { s.who (sidAt c 0) with lvlK := true, waits := false } va n k with
  | .ok r => r
  | .error _ => (old, s)

/-- The side of a reissued copy, on the context that its team occupies now. -/
def reSide (s : State) (c n : Nat) (k : XKind) (sd : Side) : Side × State :=
  match sd with
  | .glob va ps => let (ps, s) := s.rePages c va n k ps; (.glob va ps, s)
  | .scr _ _ l => (.scr (coreOf c) (ctxnOf c) (l.moved (s.cx c).slot.winBase), s)
  | .ben _ _ b z => (.ben (benchOf (coreOf c)) (ctxnOf c) b z, s)

/-- Does a copy's side lie in space B where the context may not reach it (R124)? -/
def benLost (s : State) (c : Nat) (sd : Side) (n : Nat) : Bool :=
  match sd with
  | .ben _ _ b _ => !s.benRange c b n
  | _ => false

/-- A reissued copy that the check of R124 refuses now: WINDOW becomes pending on its sequencer with the
`cpy` in EPC, and it goes, with its follow-on (assumption 96). -/
def reCheck (s : State) (c : Nat) : State :=
  ((s.cx c).f.copying.filter fun y => s.benLost c y.dst y.n || s.benLost c y.src (cpySrcLen y.op y.n)).foldl (fun s y =>
    let fo := (s.cx c).f.follows.filter fun f => f.copy == y.id
    (s.modCx c fun x => { x with
      n := { x.n with cc := x.n.cc - 1, mc := x.n.mc - fo.length }
      f := { x.f with copies := x.f.copies.filter fun z => z.id != y.id, follows := x.f.follows.filter fun f => f.copy != y.id } }).post
      (sidAt c y.q) { precise .window with epc := some y.pc }) s

/-- The reissue list is issued whole, in its order, with the follow-ons; a copy of which only scale words are left keeps
its place. -/
def reissueAll (s : State) (c : Nat) (cs : List Copy) : State :=
  cs.foldl (fun s y =>
    if y.finished then s.modF c fun f => { f with copies := f.copies ++ [y] } else
    let (d, s) := s.reSide c y.n .copyWrite y.dst
    let (x, s) := s.reSide c (cpySrcLen y.op y.n) .copyRead y.src
    s.modCx c fun z => { z with
      n := { z.n with cc := z.n.cc + 1 }
      f := { z.f with copies := z.f.copies ++ [{ y with dst := d, src := x }] } }) s

/-- What its follow-ons read, by the translations of now. -/
def reFollow (s : State) (c : Nat) (f : Follow) : Follow × State :=
  let (ga, s) := s.rePages c f.tile.pa.base (tileA f.tile.op) .tile f.tile.ga
  let (gb, s) := s.rePages c f.tile.pb.base (tileB f.tile.op) .tile f.tile.gb
  ({ f with tile := { f.tile with
    ga := if f.tile.ga.isEmpty then [] else ga
    gb := if f.tile.gb.isEmpty then [] else gb } }, s)

def reFollows (s : State) (c : Nat) (fs : List Follow) : State :=
  fs.foldl (fun s f =>
    let (f, s) := s.reFollow c f
    s.modF c fun x => { x with follows := x.follows ++ [f] }) s

/-- Operations whose replies a saved member awaits go with it, to context `c`. -/
def takeReplies (s : State) (id tidx c : Nat) : State :=
  let mine (f : Fate) : Bool := f == .saved id tidx
  let win := (s.cx c).slot.winBase
  let os := s.ctxs.flatMap fun (e : Nat × Ctx) => (e.2.f.offers.filter fun o => mine o.fate).map fun (o : Offer) =>
    { o with fate := .live, slot := o.slot.moved win }
  let ms := s.ctxs.flatMap fun (e : Nat × Ctx) => (e.2.f.nms.filter fun o => mine o.fate).map fun (o : NmCmd) =>
    { o with fate := .live, slot := o.slot.moved win, win := win, holder := o.holder.map fun _ => c }
  let s := { s with ctxs := s.ctxs.map fun (e : Nat × Ctx) => (e.1, { e.2 with f := { e.2.f with
    offers := e.2.f.offers.filter fun o => !mine o.fate, nms := e.2.f.nms.filter fun o => !mine o.fate } }) }
  s.modF c fun f => { f with offers := f.offers ++ os, nms := f.nms ++ ms }

/-- What a member held in its core's storage is restored there, in the same relative buckets (R210). -/
def putImage (s : State) (c : Nat) (m : Image) : State :=
  let base := match m.ctx.j.part with | some p => p.base (ctxnOf c) | none => 0
  let win := (s.cx c).slot.winBase
  let size := (s.cx c).slot.winSize
  let k := kKey (ctxnOf c) 0
  s.modCo (coreOf c) fun co =>
    let co := co.reveal c win size
    let inWin (a : Nat) : Bool := (win ≤ a && a < win + size) || (k ≤ a && a < k + 0x400)
    let scr := co.scr.filter fun (e : Nat × Byte) => !inWin e.1
    let sp := co.spois.filter fun (e : Nat × Bool) => !inWin (16 * e.1)
    { co with
      bhold := none
      scr := m.kpriv.foldl (fun t e => t.write (k + e.1) e.2) (m.scr.foldl (fun t e => t.write (win + e.1) e.2) scr)
      spois := m.kpois.foldl (fun t e => Tab.set false t (k / 16 + e.1) e.2)
        (m.spois.foldl (fun t e => Tab.set false t (win / 16 + e.1) e.2) sp)
      jaf := m.jaf.foldl (fun t e => Tab.set none t (4 * base + e.1) e.2) co.jaf
      ovf := m.ovf.foldl (fun t e => Tab.set false t (base + e.1) e.2) co.ovf }

/-- A member is restored on its context, its copies are reissued and its walk resumes, at the back of its bench's queue
(assumption 71). -/
def resumeMember (s : State) (id : Nat) (c : Nat) (m : Image) : State :=
  let x := s.cx c
  let y := m.ctx
  let s := s.setCx c { y with
    f := { x.f with loads := [], stores := [], copies := [], follows := [] }
    slot := { x.slot with
      state := .running, ctxid := y.slot.ctxid, asid := y.slot.asid, root := y.slot.root, peers := y.slot.peers
      part := y.slot.part, arrived := y.slot.arrived, departed := y.slot.departed }
    handler := y.handler.map fun k => sidAt c (qOf k) }
  let s := ((s.setSq (sidAt c 0) m.sq0).setSq (sidAt c 1) m.sq1).setSq (sidAt c 2) m.sq2
  let s := s.seenStale c m.seen
  let s := ((s.putImage c m).tokRename (tokName id m.tidx) c).takeReplies id m.tidx c
  let s := ((s.openPhase c true).reissueAll c y.f.copies).reFollows c y.f.follows
  match m.walk with
  | some w => s.modBe (benchOf (coreOf c)) fun b => { b with walks := b.walks ++ [{ w with cid := c }] }
  | none => s

/-- A saved team that has been bound again is restored on every member. -/
def resume (s : State) (i : Inst) : State :=
  let ms := s.imagesOf i.id
  let cs := cids i
  let s := ms.foldl (fun s m => s.resumeMember i.id (cs.getD m.tidx 0) m) s
  let s := cs.foldl reCheck s
  let (now, s) := s.fresh
  (s.modInst i.id fun x => { x with state := .running, startTick := now }).modSch fun h =>
    { h with images := h.images.filter fun m => m.inst != i.id }

end State

/-- Does a walk for what a member's reissue list or its follow-ons read or write wait on context `c` (R251)? -/
def State.imageHeld (s : State) (c : Nat) (m : Image) : Bool :=
  let sl := m.ctx.slot
  let held (va : W64) (n : Nat) (k : XKind) : Bool :=
    (s.walkHeld ⟨dieOf (coreOf c), sl.asid, sl.root, sl.part, sl.peers, true, some c, true⟩ va n k).isSome
  let side (sd : Side) (n : Nat) (k : XKind) : Bool := match sd with | .glob va _ => held va n k | .scr .. => false | .ben .. => false
  (m.ctx.f.copying.any fun y => side y.dst y.n .copyWrite || side y.src (cpySrcLen y.op y.n) .copyRead) ||
  m.ctx.f.follows.any fun f => !f.tile.ga.isEmpty && held f.tile.pa.base (tileA f.tile.op) .tile ||
    !f.tile.gb.isEmpty && held f.tile.pb.base (tileB f.tile.op) .tile

def execTeamResume (g : W64) (node inst : Nat) (s : State) : Res :=
  happens s (s.instAt g node inst fun x => x.state == .bound && !(s.imagesOf x.id).isEmpty && x.members.all (s.jafFits x.id) &&
    (s.imagesOf x.id).all fun m => !s.imageHeld ((State.cids x).getD m.tidx 0) m) s.resume

/-! ## Migration (R69, R70) -/

namespace State

/-- The core that a migration from core `core` goes to. -/
def migTarget (s : State) (core : Nat) : Option Nat :=
  let b := (s.be (benchOf core)).bload
  let dst := benchOf core * Config.benchCores + fieldN b 0 6
  if fieldN b 8 8 = 0 ∨ 48 ≤ fieldN b 0 6 ∨ dst = core then none else some dst

/-- The instance of context `c`, where the core's thread engine may migrate it. -/
def migrates (s : State) (c : Nat) : Option (Inst × Node × Nat) :=
  match s.instOf c with
  | none => none
  | some i => match s.node i.ctxid i.hdr i.node, s.migTarget (coreOf c) with
    | some n, some dst =>
      if (s.cx c).slot.state == .bound && s.unstarted i && i.members.length == 1 && n.mig &&
          (List.range Config.ctxs).all (fun k => (s.cx (cidAt (coreOf c) k)).slot.state != .free) && (s.argsHeld i n).isNone
      then some (i, n, dst) else none
    | _, _ => none

end State

/-- A bound instance leaves its core in a message, with its ARGS. -/
def execThreadMigration (c : Nat) (s : State) : Res :=
  happens s (s.migrates c) fun (i, n, dst) =>
    match s.readArgs i n with
    | .error _ => s
    | .ok (b, s) => s.modSch fun h => { h with migs := h.migs ++ [⟨i.id, coreOf c, dst, b⟩] }

namespace State

/-- The slot of an instance that has left its core without starting there. -/
def unbind (s : State) (c : Nat) : State :=
  s.modSlot c fun sl => { sl with state := .free, winSize := 0 }

/-- A message arrives: the instance starts in a free context, or stays bound to its first core. -/
def migArrive (s : State) (m : Mig) : State :=
  match s.inst m.inst with
  | none => s
  | some i => match s.graph i.ctxid i.hdr, s.node i.ctxid i.hdr i.node with
    | some g, some n =>
      (match (List.range Config.ctxs).find? fun k => s.canTake m.dst k n.lsize with
      | none => s
      | some k =>
        let s := (cids i).foldl (fun s c => s.unbind c) s
        let s := (s.bindTo g i.node n i.inst k [m.dst]).modInst i.id fun x => { x with migrated := true }
        match s.inst i.id with
        | some i => s.startInst i n (.ok m.args)
        | none => s)
    | _, _ => s

end State

def execMigrationMessage (idx : Nat) (s : State) : Res :=
  happens s (s.sch.migs[idx]?) fun m =>
    (s.modSch fun h => { h with migs := h.migs.eraseIdx idx }).migArrive m

/-- BLOAD (R69): the core with the most free contexts. -/
def State.bload (s : State) (bench : Nat) : W64 :=
  let free (c : Nat) : Nat := ((List.range Config.ctxs).filter fun n =>
    (s.cx (cidAt (bench * Config.benchCores + c) n)).slot.state == .free).length
  let (c, n) := (List.range Config.benchCores).foldl (fun (b : Nat × Nat) c => if b.2 < free c then (c, free c) else b) (63, 0)
  BitVec.ofNat 64 (n * 256 + c)

def execBloadRefresh (bench : Nat) (s : State) : Res :=
  if bench < Config.benches then .next (s.modBe bench fun b => { b with bload := s.bload bench }) else .next s

end Sys2Proof.Machine
end

