-- ==== Sys2Proof/Machine/Sha3.lean ====
section
/-! DEFINITION. SHA3-256 (R303, R307, R326): Keccak-f[1600] with rate 136 and suffix 0x06. -/

namespace Sys2Proof.Machine.Sha3

def lane (s : List W64) (x y : Nat) : W64 := s.getD (x % 5 + 5 * (y % 5)) 0

/-- The 25 lanes of a function of (x, y), in order x + 5y. -/
def lanes (f : Nat → Nat → W64) : List W64 := (List.range 25).map fun i => f (i % 5) (i / 5)

/-- Rotation offsets, in order x + 5y. -/
def rotc : List Nat :=
  [0, 1, 62, 28, 27, 36, 44, 6, 55, 20, 3, 10, 43, 25, 39, 41, 45, 15, 21, 8, 18, 2, 61, 56, 14]

def roundConsts : List W64 :=
  [0x0000000000000001, 0x0000000000008082, 0x800000000000808A, 0x8000000080008000, 0x000000000000808B,
   0x0000000080000001, 0x8000000080008081, 0x8000000000008009, 0x000000000000008A, 0x0000000000000088,
   0x0000000080008009, 0x000000008000000A] ++
  [0x000000008000808B, 0x800000000000008B, 0x8000000000008089, 0x8000000000008003, 0x8000000000008002,
   0x8000000000000080, 0x000000000000800A, 0x800000008000000A, 0x8000000080008081, 0x8000000000008080,
   0x0000000080000001, 0x8000000080008008]

def round (s : List W64) (rc : W64) : List W64 :=
  let c := (List.range 5).map fun x => lane s x 0 ^^^ lane s x 1 ^^^ lane s x 2 ^^^ lane s x 3 ^^^ lane s x 4
  let d (x : Nat) : W64 := c.getD ((x + 4) % 5) 0 ^^^ (c.getD ((x + 1) % 5) 0).rotateLeft 1
  let t := lanes fun x y => lane s x y ^^^ d x
  -- ρ and π: lane (x, y) of the result comes from (x + 3y, x)
  let b := lanes fun x y => (lane t (x + 3 * y) x).rotateLeft (rotc.getD ((x + 3 * y) % 5 + 5 * x) 0)
  match lanes fun x y => lane b x y ^^^ (~~~ lane b (x + 1) y &&& lane b (x + 2) y) with
  | l :: r => (l ^^^ rc) :: r
  | [] => []

def keccak (s : List W64) : List W64 := roundConsts.foldl round s

/-- Bytes as lanes. -/
def toLanes : Nat → List Byte → List W64
  | 0, _ => []
  | n + 1, bs => leBv 64 (bs.take 8) :: toLanes n (bs.drop 8)

def rate : Nat := 136

/-- Absorb blocks of the padded message. -/
def absorb : Nat → List W64 → List Byte → List W64
  | 0, s, _ => s
  | n + 1, s, bs =>
    let blk := toLanes 25 (bs.take rate)
    absorb n (keccak (List.zipWith (· ^^^ ·) s blk)) (bs.drop rate)

/-- The message with its padding. -/
def padded (m : List Byte) : List Byte :=
  let k := rate - m.length % rate
  m ++ if k = 1 then [0x86] else (0x06 : Byte) :: (List.replicate (k - 2) 0 ++ [0x80])

/-- SHA3-256. -/
def sha3_256 (m : List Byte) : List Byte :=
  let p := padded m
  let s := absorb (p.length / rate) (List.replicate 25 0) p
  (s.take 4).flatMap (bvLe 8)

end Sys2Proof.Machine.Sha3
end

