-- ==== Sys2Proof/Machine/Layers.lean ====
section
/-! DEFINITION. Model contexts and layer residency (14_models.md): the layer instructions (R311 to R317, R366), the
layer loader's fills and evictions (R305 to R309), and the commands MODREG, MODUNREG and LAYPOOL (R301, R324). -/

namespace Sys2Proof.Machine

/-- Bytes of a unit of the pools (R305). -/
def unitBytes : Nat := 0x200000

/-- The die whose loader serves a model (R306). -/
def Model.die (m : Model) : Nat := match m.pages with | x :: _ => dieHome x.ha | [] => 0

namespace State

def pool (s : State) (part : Nat) : Pool := Tab.get ⟨0, 0, 0, 0⟩ s.sch.pools part

/-- Units of the pool that a target names, and the physical address of unit u (R130, R305). -/
def poolUnits (s : State) (part tgt : Nat) : Nat := if tgt = 0 then (s.pool part).slots else (s.pool part).arenaUnits
def unitPa (s : State) (part tgt u : Nat) : Nat :=
  if tgt = 0 then 2 ^ 40 + ((s.pool part).slot0 + u) * unitBytes else (s.pool part).arena + u * unitBytes

/-- The home address at which a fill writes: its units, or its register's stored range (R305). -/
def fillHa (s : State) (f : Fill) : Nat :=
  if f.tgt = 2 then (s.h.frrAt f.frri).src else s.unitPa f.part f.tgt f.unit

def lookWin (s : State) (m : Model) : Nat := s.mdNat m 4 2
def cursor (s : State) (m : Model) : Nat := s.mdNat m 6 2

/-- The distance of a layer in its model (R306). -/
def layDist (s : State) (m : Model) (l : Nat) : Nat := (l + m.nlayers - s.cursor m % m.nlayers) % m.nlayers

/-! ## The layer instructions (R312 to R317) -/

/-- The operand: MID and layer (or w). -/
def layOp (s : State) (k : Nat) (o : ImmOrS) : Nat × Nat :=
  match o with
  | .imm v => (fieldN (s.cwin (s.cx (cidOf k)).slot.ctxid 0x30) 0 8, v.toNat)
  | .s => (fieldN (s.r k).s 16 8, fieldN (s.r k).s 0 12)

/-- Checks 1 and 2 of R313: the model. `layer` says that the operand names a layer. FADDR's MID of an immediate form
without a default model is DMODEL[7:0] as it stands (assumption 107). -/
def layModel (s : State) (k : Nat) (o : ImmOrS) (layer : Bool) : Chkd Model :=
  let (mid, l) := s.layOp k o
  let bad : TrapInfo := precise .prot (BitVec.ofNat 64 (mid * 65536 + l))
  let given := match o with
    | .imm _ => bitN (s.cwin (s.cx (cidOf k)).slot.ctxid 0x30) 8
    | .s => fieldN (s.r k).s 12 4 == 0 && fieldN (s.r k).s 24 40 == 0
  match (if given then s.model (s.cx (cidOf k)).slot.part mid else none) with
  | none => .error bad
  | some m => if layer && decide (m.nlayers ≤ l) then .error bad else .ok m

/-- The layer record's address. -/
def layVa (m : Model) (l : Nat) : W64 := m.desc + BitVec.ofNat 64 (recOff l)

/-- Check 3 of R313: room in the pin table. -/
def pinRoom (x : Ctx) (m : Model) (l : Nat) : Bool :=
  match x.pins.find? fun p => p.mid == m.mid && p.layer == l with
  | some p => decide (p.count < 65535)
  | none => decide (x.pins.length < 16)

/-- A pin more of the member (R311). -/
def Ctx.addPin (x : Ctx) (mid l : Nat) : Ctx :=
  if x.pins.any fun p => p.mid == mid && p.layer == l then
    { x with pins := x.pins.map fun (p : Pin) => if p.mid == mid && p.layer == l then { p with count := p.count + 1 } else p }
  else { x with pins := x.pins ++ [⟨mid, l, 1⟩] }

/-- A pin less; an entry that reaches 0 goes. -/
def Ctx.dropPin (x : Ctx) (mid l : Nat) : Ctx :=
  let ps := x.pins.map fun (p : Pin) => if p.mid == mid && p.layer == l then { p with count := p.count - 1 } else p
  { x with pins := ps.filter fun p => p.count != 0 }

/-- Home ranges of a layer's bytes as programs read them: its units, or its register's view. -/
def layRanges (s : State) (f : Fill) : List (Nat × Nat) :=
  if f.tgt = 2 then
    let r := s.h.frrAt f.frri
    (List.range r.npg).map fun i => (r.view + i * 0x20000, 4096)
  else [(s.fillHa f, f.units * unitBytes)]

/-- The layer address (R305). -/
def layAddr (s : State) (ctxid : Nat) (f : Fill) : W64 :=
  match f.tgt with
  | 0 => s.cwin ctxid 0x20 + BitVec.ofNat 64 (f.unit * unitBytes)
  | 1 => s.cwin ctxid 0x28 + BitVec.ofNat 64 (f.unit * unitBytes)
  | _ => Config.viewVa ctxid f.frri

/-- The open of device scope on ranges: clean lines of the core and of its bench's pool go. -/
def openRanges (s : State) (core : Nat) (rs : List (Nat × Nat)) : State :=
  let inR (l : CLine) : Bool := meets rs (l.line * 64) 64
  (s.dropClean core inR).modBe (benchOf core) fun b => { b with pool := b.pool.filter fun l => l.c.isDirty || !inR l.c }

/-- A RESIDENT layer is acquired, in one event with the check that finds it so (R314). -/
def acquire (s : State) (k : Nat) (m : Model) (l : Nat) : State :=
  let c := cidOf k
  let s := (s.setPin m l (s.layPin m l + 1)).modCx c fun x => Ctx.addPin x m.mid l
  let s := s.mdWrite m 6 (natLe 2 l)
  match s.sch.residents.find? fun f => f.part == m.part && f.mid == m.mid && f.layer == l with
  | some f => (s.openRanges (coreK k) (s.layRanges f)).modR k fun r => { r with s := s.layAddr (s.cx c).slot.ctxid f }
  | none => s

/-! ## Waiting `lacq`s (R313, R318) -/

/-- What is done with a sequencer that stalls at a `lacq` of one of these layers, also one of a team that is QUIESCING
(assumption 106). -/
def lacqWaiters (s : State) (m : Model) (p : Nat → Bool) (f : State → Nat → Lacq → State) : State :=
  s.seqs.foldl (fun s (e : Nat × SeqSt) => match e.2.lacq with
    | some w => if w.mid == m.mid && p w.layer && (s.cx (cidOf e.1)).slot.part == m.part then f s e.1 w else s
    | none => s) s

/-- A trap of a waiting `lacq`, taken before it executes again and before what is pending already. -/
def lacqTrap (s : State) (k : Nat) (t : TrapInfo) : State := s.modSq k fun q => { q with lacq := none, pend := t :: q.pend }

/-- A layer has become RESIDENT: each waiter pins it, and its `lacq` retires; one without room in its pin table checks
again (R318). -/
def lacqEnd (s : State) (m : Model) (l : Nat) : State :=
  s.lacqWaiters m (· == l) fun s k w =>
    if pinRoom (s.cx (cidOf k)) m l then
      let i : Instr := .lacq w.op
      deliver s k i (.done (s.acquire k m l))
    else s

end State

/-- `lacq`. -/
def execLacq (o : ImmOrS) (s : State) : Res :=
  run (.lacq o) s fun k =>
    attempt s (s.layModel k o true) fun m =>
      let l := (s.layOp k o).2
      attempt s (firstOf [trapIf (!State.pinRoom (s.cx (cidOf k)) m l) .quota (State.layVa m l),
          trapIf (s.layFlag m l == lfFaulted) .swap (State.layVa m l)]) fun _ =>
        let flag := s.layFlag m l
        if flag = lfResident then .done (s.acquire k m l)
        else .wait .lacqAbsent ((if flag = lfFilling then s else s.demand m.part m.mid l).modSq k fun q =>
          { q with lacq := some ⟨o, m.mid, l⟩ })

/-- The wait for counters to reach 0, in order. -/
def waitZero (s : State) (k : Nat) (cs : List Ctr) (f : Unit → Out) : Out :=
  match cs.find? fun c => (s.cx (cidOf k)).n.get c != 0 with
  | some c => .wait (waitCause c) s
  | none => f ()

/-- `lrel`. -/
def execLrel (o : ImmOrS) (s : State) : Res :=
  run (.lrel o) s fun k =>
    attempt s (s.layModel k o true) fun m => waitZero s k [.lc, .cc, .mc] fun _ =>
      let l := (s.layOp k o).2
      if (s.cx (cidOf k)).pins.any fun p => p.mid == m.mid && p.layer == l then
        .done (((s.setPin m l (s.layPin m l - 1)).modCx (cidOf k) fun x => State.Ctx.dropPin x m.mid l).sigFlags k false)
      else .done (s.sigFlags k true)

/-- `lhint`. -/
def execLhint (o : ImmOrS) (s : State) : Res :=
  run (.lhint o) s fun k =>
    attempt s (s.layModel k o false) fun m => .done (s.mdWrite m 4 (natLe 2 (min (s.layOp k o).2 m.nlayers)))

/-- `lreset`. -/
def execLreset (o : ImmOrS) (s : State) : Res :=
  run (.lreset o) s fun k =>
    attempt s (s.layModel k o true) fun m => waitZero s k [.sc] fun _ =>
      let l := (s.layOp k o).2
      if s.layFlag m l = lfFaulted then .done ((s.mdWrite m (recOff l) (natLe 2 lfAbsent)).sigFlags k false)
      else .done (s.sigFlags k true)

namespace State

/-! ## Units and evictions (R305, R307, R309) -/

/-- What the layers of a partition hold of a pool. -/
def holdings (s : State) (part tgt : Nat) : List Fill :=
  (s.sch.fills ++ s.sch.residents).filter fun f => f.part == part && f.tgt == tgt

/-- The lowest run of k free units. -/
def freeRun (s : State) (part tgt k : Nat) : Option Nat :=
  let hs := s.holdings part tgt
  let n := s.poolUnits part tgt
  if n < k then none else findFrom (fun u => !hs.any fun f => overlap u k f.unit f.units) 0 (n + 1 - k)

/-- Is an eviction of the pool under way? -/
def evictingIn (s : State) (part tgt : Nat) : Bool :=
  s.sch.evicting.any fun e => (s.holdings part tgt).any fun f => f.part == e.1 && f.mid == e.2.1 && f.layer == e.2.2

/-- The layers that a fill of model m, layer l, may evict, the first to go first (R309). -/
def victims (s : State) (m : Model) (l tgt : Nat) (dem : Bool) : List (Model × Nat) :=
  let may (o : Model) (ol : Nat) : Bool :=
    s.layFlag o ol == lfResident && s.layPin o ol == 0 &&
    (if dem then decide (o.prio ≤ m.prio)
     else decide (o.prio < m.prio) || (o.mid == m.mid && decide (s.layDist m l < s.layDist o ol)))
  let key (x : Model × Nat) : Nat × Nat × Nat × Nat := (x.1.prio, 4096 - s.layDist x.1 x.2, x.1.mid, 4096 - x.2)
  let le (x y : Model × Nat) : Bool :=
    let (a, b, c, d) := key x
    let (e, f, g, h) := key y
    decide (a < e) || (a == e && (decide (b < f) || (b == f && (decide (c < g) || (c == g && decide (d ≤ h))))))
  sortBy le ((s.sch.residents.filter fun f => f.part == m.part && f.tgt == tgt).filterMap fun f =>
    match s.model f.part f.mid with
    | some o => if may o f.layer then some (o, f.layer) else none
    | none => none)

/-- A layer becomes EVICTING. -/
def evictLayer (s : State) (m : Model) (l : Nat) : State :=
  (s.setFlag m l lfEvicting).modSch fun h => { h with evicting := h.evicting ++ [(m.part, m.mid, l)] }

/-! ## Requests (R306) -/

/-- The requests of a die's loader in their order: model, layer, and whether it is a demand. -/
def requests (s : State) (die : Nat) : List (Model × Nat × Bool) :=
  let dem := s.sch.demand.filterMap fun d => (s.model d.1 d.2.1).map fun m => (m, d.2.2, true)
  let look := s.sch.models.flatMap fun m => ((List.range (min (s.lookWin m) m.nlayers)).map fun i => (m, (s.cursor m + i) % m.nlayers, false)).filter
    fun x => !s.sch.demand.contains (m.part, m.mid, x.2.1)
  let le (x y : Model × Nat × Bool) : Bool :=
    decide (y.1.prio < x.1.prio) || (x.1.prio == y.1.prio &&
      (decide (s.layDist x.1 x.2.1 < s.layDist y.1 y.2.1) || (s.layDist x.1 x.2.1 == s.layDist y.1 y.2.1 && decide (x.1.mid ≤ y.1.mid))))
  (dem ++ sortBy le look).filter fun x => x.1.die == die && s.layFlag x.1 x.2.1 == lfAbsent

/-- A request leaves the queue. -/
def undemand (s : State) (p : Nat × Nat × Nat → Bool) : State :=
  s.modSch fun h => { h with demand := h.demand.filter fun d => !p d }

/-- Does a line wait at its home: it is held, or has writes that wait (R237, R251)? -/
def lineWaits (s : State) (line : Nat) : Bool := s.writeHeld line || s.h.late.any fun l => l.line == line

/-- Bytes of a line that a fill writes at its target. -/
def loaderLine (s : State) (line : Nat) (ws : List (Nat × PByte)) : State :=
  if s.lineWaits line then s.modH fun h => { h with late := h.late ++ [⟨0, 0, line, ws⟩] }
  else ((s.modH fun h => (h.put 0 ws).advanceEpoch line).bumpRow (line * 64)).wake line

/-- Bytes that a fill writes at its target (R307): no store of a program. -/
def loaderPut (s : State) (ha : Nat) (bs : List Byte) : State :=
  let ws := (List.range bs.length).zip (clean bs) |>.map fun (i, b) => (ha + i, b)
  ((ws.map fun w => lineOf w.1).eraseDups).foldl (fun s l => s.loaderLine l (ws.filter fun w => lineOf w.1 == l)) s

/-- Does a line of a fill's target wait (R237)? -/
def targetWaits (s : State) (f : Fill) : Bool :=
  (List.range ((f.bytes + 63) / 64)).any fun i => s.lineWaits (lineOf (s.fillHa f) + i)

/-- Bytes of the target that are not defined (R305, R308; assumption 20). -/
def targetOpen (s : State) (f : Fill) : State :=
  { (s.loaderPut (s.fillHa f) ((List.range f.bytes).map fun i => Config.freeByte (s.free * 2 ^ 30 + i))) with free := s.free + 1 }

/-- A fill starts: its units are held, and FLAG is FILLING. -/
def fillBegin (s : State) (m : Model) (l : Nat) (f : Fill) : State :=
  let s := s.undemand fun d => d == (m.part, m.mid, l)
  ((s.setFlag m l lfFilling).targetOpen f).modSch fun h => { h with fills := h.fills ++ [f] }

/-- What a request comes to: nothing yet, or a fill or an eviction. -/
def serve (s : State) (m : Model) (l : Nat) (dem : Bool) : Option State :=
  let rd (off n : Nat) : Nat := s.mdNat m (recOff l + off) n
  let tgt := rd 2 1
  let bytes := rd 16 4
  let f : Fill := ⟨m.part, m.mid, l, BitVec.ofNat 64 (rd 8 8), bytes, tgt, rd 3 1, 0, (bytes + unitBytes - 1) / unitBytes, []⟩
  if tgt = 2 then
    let same := (s.sch.fills ++ s.sch.residents).filter fun o => o.tgt == 2 && o.frri == f.frri
    match same.find? fun _ => true with
    | none => some (s.fillBegin m l { f with units := 0 })
    | some o => match s.model o.part o.mid with
      | some om => if s.layFlag om o.layer = lfResident ∧ s.layPin om o.layer = 0 then some (s.evictLayer om o.layer) else none
      | none => none
  else match s.freeRun m.part tgt f.units with
    | some u => some (s.fillBegin m l { f with unit := u })
    | none =>
      if s.evictingIn m.part tgt then none
      else match s.victims m l tgt dem with
        | (o, ol) :: _ => some (s.evictLayer o ol)
        | [] => none

end State

/-- A die's loader takes the first request that can go on. -/
def execLayerFillStart (die : Nat) (s : State) : Res :=
  if Config.fillCap ≤ (s.sch.fills.filter fun f => match s.model f.part f.mid with | some m => m.die == die | none => false).length then
    .next s
  else happens s ((s.requests die).findSome? fun r => s.serve r.1 r.2.1 r.2.2) fun s => s

/-- The target lines of an EVICTING layer are invalidated: it is ABSENT, and its units are free. -/
def execEvictionDone (part mid l : Nat) (s : State) : Res :=
  happens s (if s.sch.evicting.contains (part, mid, l) then s.model part mid else none) fun m =>
    (s.setFlag m l lfAbsent).modSch fun h => { h with
      evicting := h.evicting.filter fun e => e != (part, mid, l)
      residents := h.residents.filter fun f => !(f.part == part && f.mid == mid && f.layer == l) }

namespace State

/-! ## The end of a fill (R307) -/

/-- Fill nodes that wait on a layer of a model. -/
def waitingFills (s : State) (part mid : Nat) (p : Nat → Bool) : List (Nat × W64 × Nat) :=
  s.sch.graphs.flatMap fun g => if s.cpart g.ctxid == part then
      ((List.range g.nodes.length).zip g.nodes).filterMap fun (i, n) =>
        if n.kind == 3 && n.state == .running && fld n.desc 0 1 == mid && p (fld n.desc 2 2) then some (g.ctxid, g.hdr, i) else none
    else []

/-- Does the read of a fill's source wait (R43)? -/
def fillHeld (s : State) (m : Model) (f : Fill) : Bool := (s.devHeld (s.whoCtx m.ctxid true) f.src f.bytes .copyRead).isSome

/-- The source bytes, or the FCAUSE that ends the fill. -/
def fillSource (s : State) (m : Model) (f : Fill) (lost : Bool) : Except Nat (List Byte) × State :=
  match s.translateAll (s.whoCtx m.ctxid true) f.src f.bytes .copyRead with
  | .error _ => (.error 2, s)
  | .ok (ps, s) =>
    let bs := (List.range f.bytes).map fun i => s.h.byte (xlAt ps f.src i) 0
    (if lost || ppoison bs then .error 3 else .ok (pdata bs), s)

/-- A fill fails: the layer is FAULTED, each waiting `lacq` raises SWAP (R318), and fill nodes end FAULTED. -/
def fillFail (s : State) (m : Model) (f : Fill) (cause : Nat) : State :=
  let s := ((s.targetOpen f).mdWrite m (recOff f.layer + 1) (natLe 1 cause)).setFlag m f.layer lfFaulted
  let s := s.lacqWaiters m (· == f.layer) fun s k _ => s.lacqTrap k (precise .swap (layVa m f.layer))
  (s.waitingFills m.part m.mid (· == f.layer)).foldl (fun s x => s.nodeFail x.1 x.2.1 x.2.2 (faultWord 5 cause 0) 0) s

def fillDone (s : State) (m : Model) (f : Fill) (bs : List Byte) : State :=
  let r := recOff f.layer
  let s := (s.loaderPut (s.fillHa f) bs).modSch fun h => { h with residents := h.residents ++ [f] }
  let s := ((s.mdWrite m (r + 24) (natLe 4 f.unit)).setFlag m f.layer lfResident).mdWrite m (r + 32)
    (natLe 8 (s.mdNat m (r + 32) 8 + 1))
  let s := s.lacqEnd m f.layer
  (s.waitingFills m.part m.mid (· == f.layer)).foldl (fun s x => s.nodeDone x.1 x.2.1 x.2.2) s

/-- The fill of a layer, with its model. -/
def fillOf (s : State) (part mid l : Nat) : Option (Fill × Model) :=
  (s.sch.fills.find? fun f => f.part == part && f.mid == mid && f.layer == l).bind fun f => (s.model part mid).map fun m => (f, m)

def modFill (s : State) (part mid l : Nat) (g : Fill → Fill) : State :=
  s.modSch fun h => { h with fills := h.fills.map fun f => if f.part == part && f.mid == mid && f.layer == l then g f else f }

/-- The fill leaves the loader. -/
def fillOut (s : State) (f : Fill) : State :=
  s.modSch fun h => { h with fills := h.fills.filter fun g => !(g.part == f.part && g.mid == f.mid && g.layer == f.layer) }

end State

/-- A fill ends; a parked one does not, nor one whose source or target is held. -/
def execLayerFillEnd (part mid l : Nat) (lost : Bool) (s : State) : Res :=
  happens s ((s.fillOf part mid l).filter fun x => x.1.parked.isEmpty && !s.fillHeld x.2 x.1 && !s.targetWaits x.1) fun (f, m) =>
    match (s.fillOut f).fillSource m f lost with
    | (.error e, s) => s.fillFail m f e
    | (.ok bs, s) =>
      if Sha3.sha3_256 bs = s.mdRead m (recOff l + 64) 32 then s.fillDone m f bs else s.fillFail m f 1

/-! ## Replayable faults (R146, R307) -/

namespace State

/-- Does page p of a fill's source lie in the pool? -/
def fillPool (s : State) (m : Model) (f : Fill) (p : PieceAt) : Bool :=
  match p, s.translateAll (s.whoCtx m.ctxid true) f.src f.bytes .copyRead with
  | .src n, .ok (ps, _) => (match ps[n]? with | some x => x.cc == 6 | none => false)
  | _, _ => false

/-- A POOL page of a fill's source is not present: the fill parks, and a record goes to the fault service (assumption
81). -/
def parkFill (s : State) (part mid l : Nat) (p : PieceAt) : Option State :=
  ((s.fillOf part mid l).filter fun x => s.fillPool x.2 x.1 p && !x.1.parked.contains p).map fun x =>
    (s.modFill part mid l fun f => { f with parked := f.parked ++ [p] }).toService (recordHead 0 0 x.2.ctxid 1) (pieceEntry x.1.src p)

/-- The fault service answers: the fill goes on, or it ends LOST. -/
def unparkFill (s : State) (part mid l : Nat) (p : PieceAt) (ok : Bool) : Option State :=
  ((s.fillOf part mid l).filter fun x => x.1.parked.contains p).map fun x =>
    if ok then s.modFill part mid l fun f => { f with parked := f.parked.filter (· != p) } else (s.fillOut x.1).fillFail x.2 x.1 3

end State

/-- A POOL page of a copy's piece, or of a fill's source, is not present at its pool device. -/
def execReplayableFault (m : Mover) (side : PieceSide) (page : Nat) (s : State) : Res :=
  let page := side.piece page
  happens s (match m with | .fill part mid l => s.parkFill part mid l page | m => s.parkPiece m page) fun s => s

/-- The fault service's answer: the page is present again, or it is unrecoverable. -/
def execPoolFaultReply (m : Mover) (side : PieceSide) (page : Nat) (ok : Bool) (s : State) : Res :=
  let page := side.piece page
  happens s (match m with | .fill part mid l => s.unparkFill part mid l page ok | m => s.unparkPiece m page ok) fun s => s

/-! ## Commands of the partition window (R324) -/

/-- A command's status: 0 done, 1 refused. -/
def State.status (s : State) (part n : Nat) : State := s.modPf fun p => { p with status := Tab.set 0 p.status part n }

/-- A command in the window of one of the 16 partitions (R1) is carried out, or refused without effect, as is one that
does not come from the owner (R328). A master's command is ignored while the window is busy with a core's (R324). -/
def command (s : State) (w : Via) (o : Option State) : Res :=
  let part := w.win
  if 16 ≤ part ∨ (w.by_.isSome ∧ Tab.get 0 s.pf.status part = 2) then .next s
  else match (if s.mayCommand w.by_ then o else none) with
    | some s => .next (s.status part 0)
    | none => .next (s.status part 1)

/-- Would the window take the command now, whatever it comes to? -/
def State.takes (s : State) (w : Via) : Bool :=
  decide (w.win < 16) && !(w.by_.isSome && Tab.get 0 s.pf.status w.win == 2) && s.mayCommand w.by_

/-- A descriptor's header (R302) and a layer's record (R303). -/
def modelOk (h : Record) : Bool :=
  decide (1 ≤ fld h 0 2) && decide (fld h 0 2 ≤ 4096) && decide (fld h 2 1 < 8) && fld h 3 1 == 0 && (h.drop 9).all (· == 0)

def layerOk (r : Record) : Bool :=
  let tgt := fld r 2 1
  let ty := fld r 20 1
  decide (tgt < 3) && (tgt == 2 || fld r 3 1 == 0) && decide (1 ≤ fld r 16 4) && decide (fld r 16 4 ≤ 2 ^ 30) &&
  ((decide (7 ≤ ty) && decide (ty ≤ 12)) || (ty == 13 && tgt == 2)) && fld r 21 3 == 0 && fld r 28 4 == 0 &&
  ((r.drop 40).take 24).all (· == 0) && ((r.drop 96).take 32).all (· == 0)

namespace State

/-- The descriptor's pages, where they are UNCACHED with U = 0 and a read at level K succeeds. -/
def descPages (s : State) (ctxid : Nat) (va : W64) (n : Nat) : Option (List Xl × State) :=
  let kernelOnly (a : W64) : Bool := match s.translateOne (s.whoCtx ctxid false) a .read with
    | .error e => e.code == .prot
    | .ok _ => false
  match s.translateAll (s.whoCtx ctxid true) va n .read with
  | .error _ => none
  | .ok (ps, t) =>
    if ps.all (fun x => x.cc == 5) && (List.range ps.length).all fun i => kernelOnly (va + BitVec.ofNat 64 (i * 4096)) then some (ps, t)
    else none

/-- Does a read of the descriptor, or a walk for it, wait (R131, R251)? -/
def modelHeld (s : State) (ctxid : Nat) (desc : W64) : Bool :=
  (s.devHeld (s.whoCtx ctxid true) desc 64 .read).isSome || (match s.devRead ctxid desc 64 with
    | (.ok h, _) => modelOk h && (s.devHeld (s.whoCtx ctxid true) desc (64 + 128 * fld h 0 2) .read).isSome
    | (.error _, _) => false)

/-- The model that MODREG makes, where it does not refuse. NLAYERS and PRIO are read this once (assumption 105). -/
def modelAt (s : State) (part ctxid : Nat) (desc : W64) (mid : Nat) : Option (Model × State) :=
  if desc &&& 63 != 0 || decide (256 ≤ mid) || (s.model part mid).isSome || s.cpart ctxid != part then none
  else (s.descPages ctxid desc 64).bind fun (ps, s) =>
    let rd (ps : List Xl) (off n : Nat) : List PByte := (List.range n).map fun i => s.h.byte (xlAt ps desc (off + i)) 0
    let h := rd ps 0 64
    let n := fld (pdata h) 0 2
    if ppoison h || !modelOk (pdata h) then none
    else (s.descPages ctxid desc (64 + 128 * n)).bind fun (ps, s) =>
      if (List.range n).all fun l => let r := rd ps (recOff l) 128; !ppoison r && layerOk (pdata r) then
        some (⟨part, mid, ctxid, desc, ps, n, fld (pdata h) 2 1⟩, s)
      else none

/-- Registration: MID, WIN and CURSOR in the header; every layer ABSENT, its other device fields 0. -/
def register (s : State) (m : Model) : State :=
  let s := (s.mdWrite m 4 (natLe 4 0)).mdWrite m 8 (natLe 1 m.mid)
  let s := (List.range m.nlayers).foldl (fun s l =>
    let r := recOff l
    (((s.mdWrite m r (natLe 2 0)).mdWrite m (r + 4) (natLe 4 0)).mdWrite m (r + 24) (natLe 4 0)).mdWrite m (r + 32) (natLe 8 0)) s
  s.modSch fun h => { h with models := h.models ++ [m] }

/-- MODUNREG: requests are withdrawn, units freed, a stalled `lacq` raises PROT (R313), and waiting fill nodes end
FAULTED. -/
def unregister (s : State) (m : Model) : State :=
  let s := (s.undemand fun d => d.1 == m.part && d.2.1 == m.mid).modSch fun h => { h with
    models := h.models.filter fun x => !(x.part == m.part && x.mid == m.mid)
    residents := h.residents.filter fun f => !(f.part == m.part && f.mid == m.mid) }
  let s := s.lacqWaiters m (fun _ => true) fun s k w => s.lacqTrap k (precise .prot (BitVec.ofNat 64 (m.mid * 65536 + w.layer)))
  (s.waitingFills m.part m.mid fun _ => true).foldl (fun s x => s.nodeFail x.1 x.2.1 x.2.2 (faultWord 5 4 0) 0) s

end State

def execModreg (w : Via) (ctxid : Nat) (desc : W64) (mid : Nat) (s : State) : Res :=
  if s.takes w && s.modelHeld ctxid desc then .next (s.later (.modreg w ctxid desc mid))
  else command s w ((s.modelAt w.win ctxid desc mid).map fun (m, s) => s.register m)

def execModunreg (w : Via) (mid : Nat) (s : State) : Res :=
  command s w (match s.model w.win mid with
    | some m =>
      if (List.range m.nlayers).any fun l => s.layPin m l != 0 || s.layFlag m l == lfFilling || s.layFlag m l == lfEvicting then none
      else some (s.unregister m)
    | none => none)

namespace State

/-- A hold under a new pool: its first unit, or none where a unit leaves. -/
def rehold (s : State) (new : Pool) (f : Fill) : Option Nat :=
  let pa := s.unitPa f.part f.tgt f.unit
  let base := if f.tgt = 0 then 2 ^ 40 + new.slot0 * unitBytes else new.arena
  let n := if f.tgt = 0 then new.slots else new.arenaUnits
  if f.tgt = 2 then some f.unit
  else if base ≤ pa ∧ pa + f.units * unitBytes ≤ base + n * unitBytes then some ((pa - base) / unitBytes) else none

/-- Does LAYPOOL refuse the pool? -/
def poolOk (s : State) (part : Nat) (p : Pool) : Bool :=
  decide (p.slot0 + p.slots ≤ 2048) && p.arena % unitBytes == 0 &&
  (List.range p.arenaUnits).all (fun i => decide ((p.arena + i * unitBytes) / 2 ^ 40 = 0) && paAssigned (p.arena + i * unitBytes) &&
    paAssigned (p.arena + i * unitBytes + unitBytes - 1)) && decide (p.arena / 2 ^ 40 = 0) &&
  (s.sch.pools.all fun e => e.1 == part || !(
    (p.slots != 0 && e.2.slots != 0 && overlap p.slot0 p.slots e.2.slot0 e.2.slots) ||
    (p.arenaUnits != 0 && e.2.arenaUnits != 0 &&
      overlap p.arena (p.arenaUnits * unitBytes) e.2.arena (e.2.arenaUnits * unitBytes)))) &&
  ((s.sch.fills ++ s.sch.residents).filter fun f => f.part == part).all fun f => (s.rehold p f).isSome

/-- LAYPOOL: units keep their places, and UNIT of a RESIDENT layer counts from the new start. -/
def setPool (s : State) (part : Nat) (p : Pool) : State :=
  let re (f : Fill) : Fill := if f.part = part then { f with unit := (s.rehold p f).getD f.unit } else f
  let s' := s.modSch fun h => { h with
    pools := Tab.set ⟨0, 0, 0, 0⟩ h.pools part p, fills := h.fills.map re, residents := h.residents.map re }
  (s'.sch.residents.filter fun f => f.part == part).foldl (fun s f => match s.model f.part f.mid with
    | some m => s.mdWrite m (recOff f.layer + 24) (natLe 4 f.unit)
    | none => s) s'

end State

def execLaypool (w : Via) (slot slots arena units : Nat) (s : State) : Res :=
  let p : Pool := ⟨slot, slots, arena, units⟩
  command s w (if s.poolOk w.win p then some (s.setPool w.win p) else none)

end Sys2Proof.Machine
end

