-- ==== Sys2Proof/Machine/Platform.lean ====
section
/-! DEFINITION. Host, fabric, trust, integrity, counters and power (15_system.md; R131, R172 to R174, R260, R284): the
commands of the partition windows but for the models', the context registers, ownership and bring-up, links, the host's
accesses, soft errors, clocks and power, the clearing of a partition, and leases. -/

namespace Sys2Proof.Machine

/-! ## Commands (R324) -/

/-- Row sizes (R167). -/
def rowSizes : List Nat := [64, 128, 256, 512, 1024]

/-- ROWREG: the row size of a 64 KiB block; refused where another is registered. -/
def execRowreg (w : Via) (pa size : Nat) (s : State) : Res :=
  command s w (if rowSizes.contains size && (s.rowSize pa == 0 || s.rowSize pa == size) then
    some (s.modH fun h => { h with rowSize := Tab.set 0 h.rowSize (blockOf pa) size })
  else none)

namespace State

/-- Is a walk of an embedding table in flight? -/
def tableBusy (s : State) (part id : Nat) : Bool :=
  s.ctxs.any fun e => e.2.f.nms.any fun m => m.opc == 0x10 && m.out.isNone && m.part == part && fld m.record 0 1 == id

/-- The table that EMBREG makes (R253) of pages that are pinned, where it does not refuse; it refuses a context of another
partition (assumption 52). -/
def tableOf (s : State) (part ctxid id : Nat) (base : W64) (rowsz nrows fmt : Nat) : Option (EmbTable × State) :=
  match ElemTy.ofCode (BitVec.ofNat 4 fmt) with
  | none => none
  | some t =>
    if !([ElemTy.fp32, .bf16, .e4m3, .i8].contains t) || decide (16 ≤ fmt) || !rowSizes.contains rowsz || nrows == 0 ||
        base.toNat % rowsz != 0 || decide (256 ≤ id) || s.cpart ctxid != part then none
    else match s.translateAll (s.whoCtx ctxid true) base (nrows * rowsz) .read with
      | .error _ => none
      | .ok (ps, s) =>
        if ps.all fun x => x.cc == 3 && s.rowSize x.ha == rowsz then some (⟨part, id, ctxid, base, rowsz, nrows, t, ps⟩, s) else none

def dropTable (s : State) (part id : Nat) : State :=
  s.modH fun h => { h with emb := h.emb.filter fun t => !(t.part == part && t.id == id) }

end State

/-- EMBREG: its operand says whether the driver has pinned the pages, which no register or page entry shows (assumption
83). -/
def execEmbreg (w : Via) (ctxid id : Nat) (base : W64) (rowsz nrows : Nat) (fmt : EmbFmt) (s : State) : Res :=
  if s.takes w && (s.walkHeld (s.whoCtx ctxid true) base (nrows * rowsz) .read).isSome then
    .next (s.later (.embreg w ctxid id base rowsz nrows fmt))
  else command s w (if s.tableBusy w.win id || !fmt.pinned then none else (s.tableOf w.win ctxid id base rowsz nrows fmt.code).map fun (t, s) =>
    (s.dropTable w.win id).modH fun h => { h with emb := h.emb ++ [t] })

/-- EMBUNREG. -/
def execEmbunreg (w : Via) (id : Nat) (s : State) : Res :=
  command s w (if s.tableBusy w.win id then none else some (s.dropTable w.win id))

/-! ### Format range registers (R38, R260) -/

/-- The register's words with RSV bits 0. -/
def frrMask : List W64 := [0x800FFFFFFFFFFF0F, 0xFFFFFFFF, 0x000FFFFFFFFFFFFF, 0x000FFFFFFFFFFFFF]

/-- Do the view pages of two registers meet? -/
def viewsMeet (f g : Frr) : Bool :=
  decide (f.view < g.view + g.npg * 0x20000) && decide (g.view < f.view + f.npg * 0x20000) &&
  f.view / 4096 % 32 == g.view / 4096 % 32

/-- The values of R260 that are not refused, for a register of stack `stack`. -/
def frrOk (f : Frr) (stack : Nat) : Bool :=
  let inStack (pa : Nat) : Bool := pa / 2 ^ 36 == stack
  (f.out == 0 || f.out == 8 || f.out == 10 || (f.out == 12 && f.fmt == 2)) && decide (f.fmt < 3) && f.npg != 0 &&
  (f.view / 4096 % 32 == 0 || f.view / 4096 % 32 == 16) && inStack f.view && inStack (f.view + (f.npg - 1) * 0x20000) &&
  inStack f.src && (inStack f.scl || (f.fmt == 2 && f.out == 12))

namespace State

/-- May register `reg` take the words? -/
def frrTakes (s : State) (reg : Nat) (f : Frr) : Bool :=
  decide (reg < 256) && frrOk f (reg / 16) &&
  (!f.en || (List.range 256).all fun i => i == reg || !(s.h.frrAt i).en || !viewsMeet f (s.h.frrAt i)) &&
  !s.sch.residents.any fun r => r.tgt == 2 && r.frri == reg && !s.sch.evicting.contains (r.part, r.mid, r.layer)

end State

/-- FRRREQ: the root stage writes the register, or refuses. -/
def execFrrreq (w : Via) (reg : Nat) (w0 w1 w2 w3 : W64) (s : State) : Res :=
  let ws := List.zipWith (· &&& ·) [w0, w1, w2, w3] frrMask
  let f := frrOf (ws.getD 0 0) (ws.getD 1 0) (ws.getD 2 0) (ws.getD 3 0)
  command s w (if s.frrTakes reg f then
    some (s.modH fun h => { h with frr := ((List.range 4).zip ws).foldl (fun t p => Tab.set 0 t (4 * reg + p.1) p.2) h.frr })
  else none)

/-- KEYREQ: a key id of 1 to 4,095 is bound to a partition; an installed one only after its partition is cleared
(assumption 97). An access of the policy firmware to what only the root stage reaches is refused and logged (R40). -/
def execKeyreq (w : Via) (key : KeyOp) (s : State) : Res :=
  match key with
  | .bind k part => command s w
    (if decide (1 ≤ k) && decide (k < 4096) && decide (part < 16) && !Tab.get false s.pf.keyUsed k then
      some (s.modPf fun p => { p with keyPart := Tab.set 0 p.keyPart k (part + 1), keyUsed := Tab.set false p.keyUsed k true })
    else none)
  | .policy t => .next (s.modPf fun p => { p with refusals := p.refusals ++ [t] })

/-! ## Context registers (R323) -/

/-- A write to a register of a context window; unlisted offsets ignore it. -/
def State.ctxWrite (s : State) (ctxid off : Nat) (v : W64) : State :=
  if off = 0 then s.launch ctxid v
  else if off = 0x840 then s.cancel ctxid v
  else if cwinListed off then s.setCwin ctxid off (v &&& cwinMask off)
  else s

/-- A master's write launches or cancels only where it is the owner's (R328). -/
def execRegisterWrite (w : Via) (off : Nat) (v : W64) (s : State) : Res :=
  .next (if !s.mayCommand w.by_ then s
    else if off = 0 ∧ (s.launchHeld w.win (hdrOf v)).isSome then s.later (.registerWrite w off v)
    else s.ctxWrite w.win off v)

/-! ## Ownership and bring-up (R326, R328) -/

def Master.num : Master → Nat | .port0 => 0 | .port1 => 1 | .fabric => 2 | .board => 3

/-- The present master of highest fused priority. -/
def elect (present : List Master) : Option Master :=
  present.foldl (fun o m => match o with
    | some x => if Config.masterPrio (Master.num x) < Config.masterPrio (Master.num m) then some m else some x
    | none => some m) none

/-- The owner names a present successor; another's HANDOVER is refused. -/
def execHandover (h : Handover) (s : State) : Res :=
  .next (if s.pf.owner == some h.by_ && s.pf.present.contains h.heir then s.modPf fun p => { p with owner := some h.heir } else s)

/-- One second after the owner's link is lost. -/
def execOwnerLinkLoss (s : State) : Res :=
  match s.pf.owner with
  | some o =>
    let left := s.pf.present.filter (· != o)
    .next (s.modPf fun p => { p with present := left, owner := elect left })
  | none => .next s

/-- Is the address in the device's own stacked DRAM or lehr? -/
def ownMemory (ha : Nat) : Bool := haDev ha == 0 && haRegion ha < 2

/-- Bring-up; a root stage that does not verify is not started. -/
def execBringUp (verified : Bool) (present : List Master) (s : State) : Res :=
  if !verified || s.pf.ready then .next s
  else
    let s := s.modPf fun p => { p with
      mlog := (List.range 64).map Config.measured, present := present, owner := elect present, ready := true }
    .next (s.modH fun h => { h with
      mem := h.mem.filter fun (e : Nat × Byte) => !ownMemory e.1
      poison := h.poison.filter fun (e : Nat × Bool) => !ownMemory (16 * e.1)
      keys := h.keys.filter fun (e : Nat × Nat) => !ownMemory (16 * e.1) })

/-- The attestation report: measurement log, fused device id, nonce and ownership state, signed. -/
def State.report (s : State) (nonce : BitVec 256) : List Byte :=
  let b := s.pf.mlog ++ Config.fusedId ++ bvLe 32 nonce ++ natLe 1 (match s.pf.owner with | some m => Master.num m + 1 | none => 0)
  b ++ Config.signature b

def execAttestationReport (master : Master) (nonce : BitVec 256) (s : State) : Res :=
  .next (if s.pf.present.contains master then s.modPf fun p => { p with reports := p.reports ++ [s.report nonce] } else s)

/-! ## Refresh (R131) -/

/-- Where in a page of its source a read of a copy from offset `off` on begins. -/
def Copy.readsAt (c : Copy) (off page : Nat) : Nat :=
  match c.src with
  | .glob va _ => if (va.toNat % 4096 + off) / 4096 = page then (va.toNat % 4096 + off) % 4096 else 0
  | _ => 0

/-- The streamer of a line: its home slice's (R143). -/
def streamerOf (ha : Nat) : StallUnit := .streamer ((homeOf ha).1 * Config.slices + (homeOf ha).2)

/-- Units whose reads a refreshing macro holds: the streamer of a copy's chunk, the CNMU of a command that its walker or
home has yet to perform, the loader of a fill (R43). -/
def State.refreshed (s : State) : List StallUnit :=
  let read (y : Option Xl) (o : Nat) : Option StallUnit := y.bind fun x =>
    if s.refreshing x.ha then some (streamerOf (x.ha + o)) else none
  let chunk (x : Copy) : List StallUnit := (List.range x.chunks).flatMap fun i => if x.landed.contains i then [] else
    (x.needs i).filterMap fun p => match p with
      | .dst _ => none
      | .src n => read (x.src.page n) (x.readsAt (x.edge i) n)
      | .scale n => read (x.src.page n) (x.readsAt (x.n + 4 * i) n)
  let near (m : NmCmd) : List StallUnit := if m.out.isNone && s.nmRefresh m then [.cnmu (s.embCnmu m)] else []
  s.ctxs.flatMap (fun e => e.2.f.copies.flatMap chunk ++ e.2.f.nms.flatMap near) ++
  s.sch.graphs.flatMap (fun g => g.nodes.flatMap fun n => n.copy.toList.flatMap chunk ++ n.near.toList.flatMap near) ++
  s.sch.fills.flatMap fun f => match s.model f.part f.mid with
    | some m => if s.devHeld (s.whoCtx m.ctxid true) f.src f.bytes .copyRead == some .refresh then [.loader m.die] else []
    | none => []

/-- Sequencers whose context's oldest follow-on a refreshing macro holds, and that do not stall themselves (R43, R330). -/
def State.followsHeld (s : State) : List Nat :=
  s.ctxs.filterMap fun (e : Nat × Ctx) => match e.2.f.follows with
    | f :: _ =>
      let k := sidAt e.1 f.q
      if !f.held && s.followReady e.1 f && (s.sq k).stalled.isNone && (match s.tileRun k f.tile with | .wait c => c == .refresh | _ => false)
      then some k else none
    | [] => none

/-- A refresh window of a die's lehr starts or ends, in the fixed rotation; where it ends, the units that it has held, and
the sequencers whose follow-ons it has held, count REFRESH (R43, R330, assumption 78). -/
def execRefreshWindow (die : Nat) (s : State) : Res :=
  let m := Tab.get 0 s.h.refresh die
  let u := s.modH fun h => { h with refresh := [(die, m)] }
  let (us, ks) := if 1 ≤ m ∧ m < 17 then (u.refreshed, u.followsHeld) else ([], [])
  let s := us.foldl (fun s u => s.unitStall u .refresh) s
  let s := ks.foldl (fun s k => s.modReg (cidOf k) fun g => g.count (qOf k * 18 + Cause.num .refresh)) s
  let next := if m = 0 then 1 + Config.refMacro s.free % 16 else if m < 17 then m + 16 else 1 + m % 16
  .next (if die < Config.dies then s.modH fun h => { h with refresh := Tab.set 0 h.refresh die next } else s)

/-! ## Links (R322, R325) -/

/-- A port's link goes down; its traffic moves to the ports that remain toward the same peer, and a peer to which none
remains is out of reach (Homes.lost). -/
def State.portFails (s : State) (port : Nat) : State := s.modH fun h => { h with portDown := Tab.set false h.portDown port true }

/-- A flit is replayed and counted; with the eighth replay that fails in a row the link goes down. -/
def execFlitReplay (r : Replay) (s : State) : Res :=
  let port := r.port
  if Config.ports ≤ port then .next s
  else
    let n := if r.failed then Tab.get 0 s.pf.failed port + 1 else 0
    let s := s.modPf fun p => { p with
      replays := Tab.set 0 p.replays port (Tab.get 0 p.replays port + 1), failed := Tab.set 0 p.failed port n }
    .next (if Config.replayCap ≤ n then s.portFails port else s)

/-- A link goes down. -/
def execLinkDown (port : Nat) (s : State) : Res := .next (if port < Config.ports then s.portFails port else s)

/-- Pages of a copy that stand at a pool device. -/
def Copy.parkedAt (c : Copy) (dev : Nat) : List PieceAt :=
  c.parked.filter fun p => match c.pageAt p with
    | some x => haDev x.ha == 0 && Config.poolDevice (x.ha % 2 ^ 40 / 4096) == dev
    | none => false

/-- Does a parked fill wait for a page of a pool device? -/
def State.fillParkedAt (s : State) (f : Fill) (m : Model) (dev : Nat) : Bool :=
  match s.translateAll (s.whoCtx m.ctxid true) f.src f.bytes .copyRead with
  | .ok (ps, _) => f.parked.any fun p => match ps[p.page]? with
    | some x => Config.poolDevice (x.ha % 2 ^ 40 / 4096) == dev
    | none => false
  | .error _ => false

/-- The link to a pool device, one that a free value names, has failed for 10 ms: its pieces land poisoned, parked ones too, and parked fills from it
fault LOST. -/
def execPoolLinkFailure (s : State) : Res :=
  let dev := Config.poolFails s.free
  let free (c : Copy) : Copy := { c with lost := c.lost ++ c.parkedAt dev, parked := c.parked.filter fun p => !(c.parkedAt dev).contains p }
  let s := { s with
    h := { s.h with poolCut := Tab.set false s.h.poolCut dev true }
    ctxs := s.ctxs.map fun (e : Nat × Ctx) => (e.1, { e.2 with f := { e.2.f with copies := e.2.f.copies.map free } })
    sch := { s.sch with graphs := s.sch.graphs.map fun (g : Graph) => { g with nodes := g.nodes.map fun (n : Node) =>
      { n with copy := n.copy.map free } } } }
  .next (s.sch.fills.foldl (fun s f => match s.model f.part f.mid with
    | some m => if s.fillParkedAt f m dev then (s.fillOut f).fillFail m f 3 else s
    | none => s) s)

/-! ## The host (R172, R321) -/

/-- Does the host's access reach the bytes: the device ready, and its own DRAM? -/
def State.hostTakes (s : State) (ha n : Nat) : Bool :=
  s.pf.ready && (List.range n).all fun i => haDev (ha + i) == 0 && haRegion (ha + i) == 0 && paAssigned (ha + i)

/-- A write through BAR2 arrives at its home, or waits there where a line is held (R237). -/
def execHostWindowWrite (part ha : Nat) (bytes : List Byte) (s : State) : Res :=
  .next (if part < 16 ∧ s.hostTakes ha bytes.length then s.homeSend ⟨ha, 0, false, 0⟩ (clean bytes) else s)

/-- The word that an AtomicOp leaves. -/
def HostOp.result (op : HostOp) (size old v c : Nat) : Nat :=
  match op with
  | .fetchAdd => (old + v) % 2 ^ (8 * size)
  | .swap => v % 2 ^ (8 * size)
  | .cas => if old = c % 2 ^ (8 * size) then v % 2 ^ (8 * size) else old

/-- An AtomicOp through BAR2 is performed, one event at the home, which a held line puts off (R237); a CAS of 16 B is
unsupported. -/
def execHostAtomicop (part : Nat) (op : HostOp) (ha size : Nat) (v c : W64) (s : State) : Res :=
  .next (if part < 16 ∧ (size = 4 ∨ size = 8) ∧ ha % size = 0 ∧ s.hostTakes ha size ∧
      !s.writeHeld (lineOf ha) then
      s.homeWrite ⟨ha, 0, false, 0⟩ (clean (natLe size (HostOp.result op size (pnum (s.h.bytes ⟨ha, 0, false, 0⟩ size)) v.toNat c.toNat)))
    else s)

/-- An ATS invalidation of a host page completes once no access through it is under way: no slice holds its translation
any more. -/
def execAtsInvalidation (ha : Nat) (s : State) : Res :=
  .next (if s.anyUnderWay [(ha / 4096 * 4096, 4096)] then s
    else (s.modPf fun p => { p with atsDone := p.atsDone + 1 }).modH fun h => { h with ats := h.ats.filter (· != pageOf ha) })

/-! ## Integrity (R329) -/

def MemUnit.num : MemUnit → Nat
  | .scratchpad => 0 | .kernel => 1 | .l2 => 2 | .msc => 3 | .lehr => 4 | .dram => 5

/-- Is the unit a core's own storage? -/
def MemUnit.inCore : MemUnit → Bool
  | .scratchpad | .kernel => true
  | _ => false

/-- The 16 B unit of a core's scratchpad, at an offset, or of its kernel windows, that an error strikes. -/
def MemUnit.unit (u : MemUnit) (addr : Nat) : Option Nat :=
  match u with
  | .scratchpad => if addr < kBase then some (addr / 16) else none
  | .kernel => if addr < 0x50000 then some ((kBase + addr) / 16) else none
  | _ => none

/-- An error that cannot be corrected poisons its data where it lies. -/
def State.strike (s : State) (u : MemUnit) (core addr : Nat) : State :=
  if MemUnit.inCore u then match MemUnit.unit u addr with
    | some n => s.modCo core fun co => { co with spois := Tab.set false co.spois n true }
    | none => s
  else s.poisonAt [addr]

/-- A soft error is corrected and counted by die and unit, or poisons its 16 B unit. -/
def execMemoryError (e : MemSite) (corrected : Bool) (s : State) : Res :=
  if MemUnit.inCore e.unit && Config.cores ≤ e.core then .next s
  else if corrected then
    let n := (if MemUnit.inCore e.unit then dieOf e.core else dieHome e.addr) * 8 + MemUnit.num e.unit
    .next (s.modPf fun p => { p with corrected := Tab.set 0 p.corrected n (Tab.get 0 p.corrected n + 1) })
  else .next (s.strike e.unit e.core e.addr)

/-! ## Counters and power (R330, R331) -/

/-- STALEP takes each context's increase in STALE. -/
def execStalepUpdate (s : State) : Res :=
  .next (s.ctxs.foldl (fun s e =>
    let now := e.2.reg.stale
    let was := Tab.get 0 s.pf.staleSeen e.1
    let d := if was ≤ now then now - was else 0
    (s.modPf fun p => { p with stalep := Tab.set 0 p.stalep e.2.slot.part (Tab.get 0 p.stalep e.2.slot.part + d) }).seenStale e.1 now) s)

/-- The clock steps of R42. -/
def clockSteps : List Nat := [800, 700, 600, 500, 400]

/-- A clock step, which waits while an exchange phase is open. -/
def execClockStepChange (mhz : Nat) (s : State) : Res :=
  .next (if clockSteps.contains mhz && !(s.cores.any fun e => match e.2.xch with | some x => x.opened | none => false) then
    s.modPf fun p => { p with clock := mhz } else s)

def State.noSlotBound (s : State) : Bool := s.ctxs.all fun e => e.2.slot.state == .free

/-- After 1 ms with no bound slot the clocks are gated, until a bind. -/
def execClockGating (s : State) : Res :=
  .next (if s.noSlotBound && s.pf.pstate == .d0 then s.modPf fun p => { p with gated := true } else s)

/-- The owner's power request; D3hot requires that no instance and no graph is RUNNING. -/
def execPowerRequest (master : Master) (d3hot : Bool) (s : State) : Res :=
  .next (if s.pf.owner != some master then s
    else if !d3hot then s.modPf fun p => { p with pstate := .d0 }
    else if s.sch.graphs.isEmpty && !(s.sch.insts.any fun i => i.state == .running) then
      s.modPf fun p => { p with pstate := .d3hot, gated := false }
    else s)

/-! ## The clearing of a partition (R284, R327) -/

namespace State

/-- Lines under some keys leave the cores' caches and the pools, their dirty bytes for their homes. -/
def flushKeys (s : State) (p : Nat → Bool) : State :=
  let s := s.cores.foldl (fun s e => (s.backLines e.1 fun l => p l.key).dropClean e.1 fun l => p l.key) s
  s.benches.foldl (fun s e => (s.backPool e.1 fun l => p l.key).modBe e.1 fun b =>
    { b with pool := b.pool.filter fun l => !p l.c.key }) s

/-- The partition's keys are free: what was written under one of them is no longer its plain text, in memory and on its
way there. -/
def freeKeys (s : State) (part : Nat) : State :=
  let mine (k : Nat) : Bool := k != 0 && Tab.get 0 s.pf.keyPart k == part + 1
  let (id, s) := (s.flushKeys mine).fresh
  let old (k : Nat) : Nat := if mine k then k + 4096 * (id + 1) else k
  let oldX (x : Xl) : Xl := { x with key := old x.key }
  let s := s.modH fun h => { h with
    keys := h.keys.map fun (e : Nat × Nat) => (e.1, old e.2)
    late := h.late.map fun (l : Late) => { l with key := old l.key }
    emb := h.emb.map fun (t : EmbTable) => { t with pages := t.pages.map oldX } }
  let s := s.modSch fun h => { h with models := h.models.map fun (m : Model) => { m with pages := m.pages.map oldX } }
  let s := { s with ctxs := s.ctxs.map fun (e : Nat × Ctx) => (e.1, { e.2 with f := { e.2.f with
    offers := e.2.f.offers.map fun (o : Offer) => if o.fate == Fate.live then o else { o with x := oldX o.x }
    nms := e.2.f.nms.map fun (m : NmCmd) => if m.fate == Fate.live then m else { m with dst := m.dst.map oldX, src := m.src.map oldX } } }) }
  s.modPf fun p => { p with
    keyPart := p.keyPart.filter fun (e : Nat × Nat) => e.2 != part + 1
    keyUsed := p.keyUsed.filter fun (e : Nat × Bool) => !mine e.1 }

end State

def execPartitionClear (part : Nat) (s : State) : Res :=
  let gs := s.sch.graphs.filter fun g => s.cpart g.ctxid == part
  .next ((gs.foldl (fun s g => s.cancelGraph g.ctxid g.hdr) s).freeKeys part)

/-! ## Leases (R173) -/

/-- As a borrower this device writes back a block's dirty bytes, drops its copies and acknowledges. -/
def State.giveBack (s : State) (b : Nat) : Option State :=
  let mine (l : CLine) : Bool := blockOf (l.line * 64) == b
  let held := (s.cores.any fun e => e.2.cache.any fun l => mine l && l.isDirty && s.writeHeld l.line) ||
    s.benches.any fun e => e.2.pool.any fun l => mine l.c && l.c.isDirty && s.writeHeld l.c.line
  if held then none
  else
    let s := s.cores.foldl (fun s e => (s.backLines e.1 mine).dropClean e.1 mine) s
    some (s.benches.foldl (fun s e => (s.backPool e.1 mine).modBe e.1 fun b => { b with pool := b.pool.filter fun l => !mine l.c }) s)

def execRevocationRequest (dev block : Nat) (s : State) : Res :=
  happens s (s.giveBack ((dev + 1) * (devBit / 65536) + block)) fun s => s

/-- A borrower of this domain reads or writes a block for the first time; a revocation of the block queues it. -/
def execLeaseRequest (block dev : Nat) (write : Bool) (s : State) : Res :=
  .next (if dev / 65536 != s.pf.domain || dev == s.pf.fabricId then s
    else if s.h.revoking.any fun l => l.block == block then s.modH fun h => { h with leaseQ := h.leaseQ ++ [⟨block, dev, write⟩] }
    else s.addLease ⟨block, dev, write⟩)

end Sys2Proof.Machine
end

