-- ==== Sys2Proof/Machine/Pointer.lean ====
section
/-! DEFINITION. The pointer instructions (R49, R50, R387). -/

namespace Sys2Proof.Machine

/-- Change one pointer of the executing sequencer. -/
def ptrOp (i : Instr) (s : State) (p : BitVec 3) (f : Seq → Ptr → Ptr) : Res :=
  run i s fun k => .done (s.modR k fun r => r.setPtr p (f r (r.ptr p)))

/-- `pset pN, sp, #imm`. -/
def execPset (p : BitVec 3) (sp : Space) (i : Imm) (s : State) : Res :=
  ptrOp (.pset p sp i) s p fun _ _ => ⟨i.zx, 0, 0, sp, 0⟩

/-- `pset pN, sp, s`. -/
def execPsetS (p : BitVec 3) (sp : Space) (s : State) : Res :=
  ptrOp (.psetS p sp) s p fun r _ => ⟨r.s, 0, 0, sp, 0⟩

def execPstr (p : BitVec 3) (i : Imm) (s : State) : Res :=
  ptrOp (.pstr p i) s p fun _ q => { q with stride := bits i.sx 0 32 }

def execPlim (p : BitVec 3) (i : Imm) (s : State) : Res :=
  ptrOp (.plim p i) s p fun _ q => { q with limit := bits i.zx 0 32 }

def execPswz (p : BitVec 3) (z : BitVec 2) (s : State) : Res :=
  ptrOp (.pswz p z) s p fun _ q => { q with swz := z }

/-- `padd`: the limit does not wrap the base. -/
def execPadd (p : BitVec 3) (i : Imm) (s : State) : Res :=
  ptrOp (.padd p i) s p fun _ q => { q with base := q.base + i.sx }

/-- The four views of a pointer (R49, R50). -/
def Ptr.view (q : Ptr) (f : BitVec 2) : W64 :=
  match f.toNat with
  | 0 => q.base
  | 1 => sx64 q.stride
  | 2 => zx64 q.limit
  | _ => zx64 (q.swz ++ q.space.code)

def execPget (p : BitVec 3) (f : BitVec 2) (s : State) : Res :=
  run (.pget p f) s fun k => .done (s.modR k fun r => { r with s := (r.ptr p).view f })

end Sys2Proof.Machine
end

