-- ==== Sys2Proof/Machine/Vector.lean ====
section
/-! DEFINITION. The vector instructions (19_ref_v.md; R219, R220 for `vcprs` and `vmeta`). -/

namespace Sys2Proof.Machine

/-! ## Moving lanes (R421 to R425) -/

/-- `vld` (R421): a misaligned base follows R141. -/
def execVld (a : BitVec 2) (p : PtrOp) (t : ElemTy) (s : State) : Res :=
  run (.vld a p t) s fun k => attempt s (s.vmem k p.p t true) fun es =>
    .done (s.retireV k a (es.map (toLane t)) [p])

/-- The element that `vst` stores of a lane (R422). -/
def storeElem (fz : Bool) (t : ElemTy) (md : Modes) (w : W32) : Nat :=
  if t.isFloat then
    if t == .fp32 then w.toNat else t.ff.flush fz (t.ff.round (ex32 w) md.rnd md.sat)
  else if md.sat then wrap (8 * t.bytes) (satInt t.signed (8 * t.bytes) (laneInt t w))
  else w.toNat % 2 ^ (8 * t.bytes)

/-- `vst` (R422): the bytes of the lanes that `m` selects. -/
def execVst (p : PtrOp) (y : Opnd) (t : ElemTy) (md : Modes) (s : State) : Res :=
  run (.vst p y t md) s fun k =>
    let q := (s.r k).ptr p.p
    attempt s (s.scrChk k q (16 * t.bytes) (16 * t.bytes) true) fun _ => attempt s (s.vsrc k y t) fun ys =>
      let c := cidOf k
      let m := (s.cx c).reg.m
      let l := s.loc k q
      let ws := (List.range 16).flatMap fun i =>
        (List.range t.bytes).zip (natLe t.bytes (storeElem (s.fz k) t md (ys.getD i 0))) |>.map fun (j, b) =>
          (m.getLsbD i, l.key (ctxnOf c) (t.bytes * i + j), (b, false))
      let gs := (pieces (16 - l.off % 16) ws).map fun g => (g.filter Prod.fst).map Prod.snd
      .done ((s.modCo (coreOf c) fun co => co.store c .c (gs.map (kWrites (ctxnOf c)))).retireR k [p] id)

/-- `vbcast` (R423): a kind-0 operand is one element. -/
def execVbcast (a : BitVec 2) (x : Opnd) (t : ElemTy) (s : State) : Res :=
  run (.vbcast a x t) s fun k =>
    let v : Chkd (List W32) := match x with
      | .mem p _ => match s.scrVal k ((s.r k).ptr p) t.bytes t.bytes false with
        | .error e => .error e
        | .ok b => .ok (List.replicate 16 (toLane t (leNat b)))
      | y => s.vsrc k y t
    attempt s v fun ls => .done (s.retireV k a ls x.ptrs)

/-- `vsel` (R424). -/
def execVsel (a : BitVec 2) (x : Opnd) (t : ElemTy) (s : State) : Res := vec1 (.vsel a x t) s a x t fun _ v => v

/-- The 16 lane indices of `vperm` (R425). -/
def State.permIdx (s : State) (k : Nat) (y : Opnd) : List Nat :=
  match y with
  | .acc a => (s.accOf k a).map fun w => w.toNat % 16
  | .lit v => (List.range 16).map fun l => fieldN v (4 * l) 4
  | _ => (List.range 16).map fun l => fieldN (s.r k).s (4 * l) 4

/-- `vperm` (R425). -/
def execVperm (a : BitVec 2) (x y : Opnd) (t : ElemTy) (s : State) : Res :=
  run (.vperm a x y t) s fun k => attempt s (s.vsrc k x t) fun xs =>
    .done (s.retireV k a ((s.permIdx k y).map fun j => xs.getD j 0) x.ptrs)

/-! ## Arithmetic (R426 to R429) -/

def addLane (t : ElemTy) (md : Modes) (fz : Bool) (_ x y : W32) : W32 :=
  if t.isFloat then flLane fz md ((ex32 x).add md.rnd (ex32 y)) else intLane t md.sat (laneInt t x + laneInt t y)

def subLane (t : ElemTy) (md : Modes) (fz : Bool) (_ x y : W32) : W32 :=
  if t.isFloat then flLane fz md ((ex32 x).add md.rnd (ex32 y).neg) else intLane t md.sat (laneInt t x - laneInt t y)

def mulLane (t : ElemTy) (md : Modes) (fz : Bool) (_ x y : W32) : W32 :=
  if t.isFloat then flLane fz md ((ex32 x).mul (ex32 y)) else intLane t md.sat (laneInt t x * laneInt t y)

/-- The addend and the exact product, rounded once. -/
def macLane (t : ElemTy) (md : Modes) (fz : Bool) (d x y : W32) : W32 :=
  if t.isFloat then flLane fz md ((ex32 d).add md.rnd ((ex32 x).mul (ex32 y)))
  else intLane t md.sat (laneInt t d + laneInt t x * laneInt t y)

def minLane (t : ElemTy) (fz : Bool) (_ x y : W32) : W32 :=
  if t.isFloat then flush32 fz (fmin32 x y) else if laneInt t x ≤ laneInt t y then x else y

def maxLane (t : ElemTy) (fz : Bool) (_ x y : W32) : W32 :=
  if t.isFloat then flush32 fz (fmax32 x y) else if laneInt t x ≤ laneInt t y then y else x

def absLane (t : ElemTy) (sat fz : Bool) (x : W32) : W32 :=
  if t.isFloat then flush32 fz (if isNan32 x then nan32 else x &&& 0x7FFFFFFF)
  else intLane t sat (laneInt t x).natAbs

def negLane (t : ElemTy) (sat fz : Bool) (x : W32) : W32 :=
  if t.isFloat then flush32 fz (if isNan32 x then nan32 else x ^^^ 0x80000000) else intLane t sat (-laneInt t x)

def execVadd (a : BitVec 2) (x y : Opnd) (t : ElemTy) (md : Modes) (s : State) : Res :=
  vec2 (.vadd a x y t md) s a x y t (addLane t md)
def execVsub (a : BitVec 2) (x y : Opnd) (t : ElemTy) (md : Modes) (s : State) : Res :=
  vec2 (.vsub a x y t md) s a x y t (subLane t md)
def execVmul (a : BitVec 2) (x y : Opnd) (t : ElemTy) (md : Modes) (s : State) : Res :=
  vec2 (.vmul a x y t md) s a x y t (mulLane t md)
def execVmac (a : BitVec 2) (x y : Opnd) (t : ElemTy) (md : Modes) (s : State) : Res :=
  vec2 (.vmac a x y t md) s a x y t (macLane t md)
def execVmin (a : BitVec 2) (x y : Opnd) (t : ElemTy) (s : State) : Res := vec2 (.vmin a x y t) s a x y t (minLane t)
def execVmax (a : BitVec 2) (x y : Opnd) (t : ElemTy) (s : State) : Res := vec2 (.vmax a x y t) s a x y t (maxLane t)
def execVabs (a : BitVec 2) (x : Opnd) (t : ElemTy) (sat : Bool) (s : State) : Res :=
  vec1 (.vabs a x t sat) s a x t (absLane t sat)
def execVneg (a : BitVec 2) (x : Opnd) (t : ElemTy) (sat : Bool) (s : State) : Res :=
  vec1 (.vneg a x t sat) s a x t (negLane t sat)

/-- Bitwise operations and shifts on 32-bit lanes (R427). -/
def execVand (a : BitVec 2) (x y : Opnd) (t : ElemTy) (s : State) : Res :=
  vec2 (.vand a x y t) s a x y t fun _ _ v w => v &&& w
def execVor (a : BitVec 2) (x y : Opnd) (t : ElemTy) (s : State) : Res :=
  vec2 (.vor a x y t) s a x y t fun _ _ v w => v ||| w
def execVxor (a : BitVec 2) (x y : Opnd) (t : ElemTy) (s : State) : Res :=
  vec2 (.vxor a x y t) s a x y t fun _ _ v w => v ^^^ w
def execVshl (a : BitVec 2) (x y : Opnd) (t : ElemTy) (s : State) : Res :=
  vec2 (.vshl a x y t) s a x y t fun _ _ v w => v <<< (w.toNat % 32)

def shrLane (t : ElemTy) (v w : W32) : W32 := if t.signed then v.sshiftRight (w.toNat % 32) else v >>> (w.toNat % 32)

def execVshr (a : BitVec 2) (x y : Opnd) (t : ElemTy) (s : State) : Res :=
  vec2 (.vshr a x y t) s a x y t fun _ _ v w => shrLane t v w

/-- x × 2^n (R428). -/
def scaleLane (md : Modes) (fz : Bool) (x y : W32) : W32 := flLane fz md ((ex32 x).scale y.toInt)

def execVscale (a : BitVec 2) (x y : Opnd) (t : ElemTy) (md : Modes) (s : State) : Res :=
  vec2 (.vscale a x y t md) s a x y t fun fz _ v w => scaleLane md fz v w

/-- The transcendentals ignore MOD (R429). -/
def execVexp2 (a : BitVec 2) (x : Opnd) (t : ElemTy) (md : Modes) (s : State) : Res :=
  vec1 (.vexp2 a x t md) s a x t fun fz v => flush32 fz (Transc.exp2 v)
def execVrcp (a : BitVec 2) (x : Opnd) (t : ElemTy) (md : Modes) (s : State) : Res :=
  vec1 (.vrcp a x t md) s a x t fun fz v => flush32 fz (Transc.rcp v)
def execVrsq (a : BitVec 2) (x : Opnd) (t : ElemTy) (md : Modes) (s : State) : Res :=
  vec1 (.vrsq a x t md) s a x t fun fz v => flush32 fz (Transc.rsq v)

/-! ## Conversion (R430) -/

/-- A lane read as the lane type of a type. -/
def laneEx (t : ElemTy) (w : W32) : Ex := if t.isFloat then ex32 w else Ex.ofInt (laneInt t w)

def cvtLane (d t : ElemTy) (md : Modes) (fz : Bool) (w : W32) : W32 :=
  let x := laneEx t w
  let ext (n : Nat) : W32 := BitVec.ofInt 32 (intOf d.signed (8 * d.bytes) n)
  if d.isFloat then
    let e := d.ff.flush fz (d.ff.round x md.rnd md.sat)
    if d == .fp32 then BitVec.ofNat 32 e else widen32 d e
  else if t.isFloat || md.sat then ext (narrowSat x d md.rnd)
  else ext (wrap (8 * d.bytes) (laneInt t w))

def execVcvt (a : BitVec 2) (dty sty : ElemTy) (x : Opnd) (md : Modes) (s : State) : Res :=
  vec1 (.vcvt a dty sty x md) s a x sty (cvtLane dty sty md)

/-! ## Reductions and lane tests (R431 to R434) -/

def redVal (t : ElemTy) (rnd : RMode) (fz : Bool) (l : List W32) : W64 :=
  if t.isFloat then zx64 (flush32 fz (pairTree rnd 4 l))
  else BitVec.ofInt 64 ((l.map (laneInt t)).foldl (· + ·) 0)

def execVred (x : Opnd) (t : ElemTy) (rnd : RMode) (s : State) : Res :=
  run (.vred x t rnd) s fun k => attempt s (s.vsrc k x t) fun l =>
    .done (s.retireR k x.ptrs fun r => { r with s := redVal t rnd (s.fz k) l })

/-- The predicate of `vcmp` on a lane (R432, R82). -/
def cmpLane (pred : BitVec 2) (t : ElemTy) (x y : W32) : Bool :=
  let nan := t.isFloat && (isNan32 x || isNan32 y)
  let a := if t.isFloat then val32 x else laneInt t x
  let b := if t.isFloat then val32 y else laneInt t y
  match pred.toNat with
  | 0 => !nan && a == b
  | 1 => !nan && decide (a < b)
  | 2 => !nan && decide (a ≤ b)
  | _ => nan || a != b

def execVcmp (pred : BitVec 2) (x y : Opnd) (t : ElemTy) (s : State) : Res :=
  run (.vcmp pred x y t) s fun k =>
    attempt s (s.vsrc k x t) fun xs => attempt s (s.vsrc k y t) fun ys =>
      .done ((s.setMask k (maskBits (List.zipWith (cmpLane pred t) xs ys))).retireR k (x.ptrs ++ y.ptrs) id)

/-- `vmaxi` (R434): NaN above every number, −0 below +0, ties to the lower index. -/
def rankLane (t : ElemTy) (w : W32) : Int :=
  if t.isFloat then (if isNan32 w then 2 ^ 33 else ord32 w) else laneInt t w

/-- Index and value of the greatest lane. -/
def maxIndex (t : ElemTy) (l : List W32) : Nat × W32 :=
  ((List.range l.length).zip l).foldl (fun b e => if rankLane t b.2 < rankLane t e.2 then e else b) (0, l.headD 0)

/-- `vmaxi`: the greatest lane's 32 bits as they stand, a NaN's payload among them (R434; assumption 93). -/
def execVmaxi (x : Opnd) (t : ElemTy) (s : State) : Res :=
  run (.vmaxi x t) s fun k => attempt s (s.vsrc k x t) fun l =>
    let b := maxIndex t l
    .done (s.retireR k x.ptrs fun r => { r with s := BitVec.ofNat 64 (b.1 * 2 ^ 32 + b.2.toNat) })

/-- Which elements are nonzero: stored encodings of a kind-0 operand, lanes of a kind-1 one. -/
def State.nzElems (s : State) (k : Nat) (x : Opnd) (t : ElemTy) : Chkd (List Bool) :=
  vtest s k x t (nonZero t.isFloat (8 * t.bytes)) (laneNonZero t)

def execVpop (x : Opnd) (t : ElemTy) (s : State) : Res :=
  run (.vpop x t) s fun k => attempt s (s.nzElems k x t) fun l =>
    let n := (l.filter id).length
    .done (s.retireR k x.ptrs fun r => { r with s := BitVec.ofNat 64 n, fl := ⟨n == 0, false, false, false⟩ })

/-! ## `vmset` (R433) -/

def execVmset (x : Opnd) (s : State) : Res :=
  run (.vmset x) s fun k => attempt s (s.srcVal k x .i64) fun v => .done (s.setMask k (bits v 0 16))

def execVmsetNz (x : Opnd) (t : ElemTy) (s : State) : Res :=
  run (.vmsetNz x t) s fun k => attempt s (s.nzElems k x t) fun l =>
    .done ((s.setMask k (maskBits l)).retireR k x.ptrs id)

def execVmsetRead (s : State) : Res :=
  run .vmsetRead s fun k => .done (s.modR k fun r => { r with s := zx64 (s.cx (cidOf k)).reg.m })

def execVmsetNot (s : State) : Res := run .vmsetNot s fun k => .done (s.setMask k (~~~(s.cx (cidOf k)).reg.m))

/-! ## Sparsity metadata (R219, R220) -/

/-- The four indices of a group of 8 elements with the largest Mag, the lower first among equals, ascending. -/
def keepFour (t : ElemTy) (g : List Nat) : List Nat :=
  let idx := (List.range 8).filter fun b =>
    decide (((List.range 8).filter fun c =>
      let mb := mag t (g.getD b 0)
      let mc := mag t (g.getD c 0)
      decide (mb < mc) || (mc == mb && decide (c < b))).length < 4)
  idx

/-- The kept bytes and the masks of four groups. -/
def compress (t : ElemTy) (e : List Byte) : List Byte × W32 :=
  let gs := (List.range 4).map fun g => (e.drop (8 * g)).take 8
  let keeps := gs.map fun g => keepFour t (g.map BitVec.toNat)
  let vals := (gs.zip keeps).flatMap fun (g, ks) => ks.map fun b => g.getD b 0
  let mk (ks : List Nat) : Nat := (ks.map (2 ^ ·)).foldl (· + ·) 0
  (vals, BitVec.ofNat 32 (((List.range 4).zip keeps).foldl (fun a x => a + mk x.2 * 256 ^ x.1) 0))

def execVcprs (a : BitVec 2) (v src : PtrOp) (t : ElemTy) (s : State) : Res :=
  run (.vcprs a v src t) s fun k =>
    let pv := (s.r k).ptr v.p
    let ps := (s.r k).ptr src.p
    let c1 := asTrap (scrCheck pv (s.lvlK k) (s.winSize k) 16)
    let c2 := asTrap (scrCheck ps (s.lvlK k) (s.winSize k) 32)
    let c3 := trapIf (ps.base.toNat % 32 != 0 || pv.base.toNat % 16 != 0) .misalign
    attempt s (firstOf [c1, c2, c3]) fun _ => attempt s (State.consume (s.scrAt k ps 32)) fun e =>
      let (vals, w) := compress t e
      let old := s.accOf k a
      .done (((s.scrPut k pv (clean vals)).accWrite k a (old.drop 1 ++ [w])).retireR k [v, src] id)

/-- Population count of a byte of a lane. -/
def popByte (w : W32) (g : Nat) : Nat := ((List.range 8).filter fun i => w.getLsbD (8 * g + i)).length

/-- Has a lane a group whose mask is not valid? -/
def badMask (w : W32) : Bool := (List.range 4).any fun g => popByte w g != 4

def execVmeta (a : BitVec 2) (sel : W16) (s : State) : Res :=
  run (.vmeta a sel) s fun k =>
    let bad := maskBits (((List.range 16).zip (s.accOf k a)).map fun (l, w) => sel.getLsbD l && badMask w)
    .done (s.modR k fun r => { r with s := zx64 bad, fl := ⟨bad == 0, false, false, false⟩ })

/-! ## Ternary packing (R436, R437) -/

/-- The trit of a source byte, or none where it is no trit. -/
def tritOf (sat : Bool) (b : Byte) : Option Int :=
  let v := b.toInt
  if sat then some v.sign else if v = -1 ∨ v = 0 ∨ v = 1 then some v else none

/-- Pack trits, five to a byte. -/
def packTrits : Nat → List Int → List Byte
  | 0, _ => []
  | n + 1, ts => BitVec.ofNat 8 (((List.range 5).zip ts).foldl (fun a x => a + tritCode x.2 * 3 ^ x.1) 0) ::
      packTrits n (ts.drop 5)

/-- The checks of R417 on a destination and a source that are both 16-byte aligned. -/
def State.packChk (s : State) (k : Nat) (pd ps : Ptr) (nd ns : Nat) : Chkd (List Byte) :=
  match s.scrChk k pd nd 16 false with
  | .error e => .error e
  | .ok _ => s.scrVal k ps ns 16 false

def execVpackt (d src : PtrOp) (sat : Bool) (s : State) : Res :=
  run (.vpackt d src sat) s fun k =>
    let pd := (s.r k).ptr d.p
    let ps := (s.r k).ptr src.p
    attempt s (s.packChk k pd ps 16 80) fun bs =>
      let ts := bs.map (tritOf sat)
      let chk := match ts.findIdx? Option.isNone with
        | some i => trapIf true .metaErr (ps.base + BitVec.ofNat 64 i)
        | none => .ok ()
      attempt s chk fun _ =>
        .done ((s.scrPut k pd (clean (packTrits 16 (ts.map (Option.getD · 0))))).retireR k [d, src] id)

def execVunpkt (d src : PtrOp) (s : State) : Res :=
  run (.vunpkt d src) s fun k =>
    let pd := (s.r k).ptr d.p
    let ps := (s.r k).ptr src.p
    attempt s (s.packChk k pd ps 80 16) fun bs =>
      let ts := bs.map fun b => tritDecode b.toNat
      let chk := match ts.findIdx? Option.isNone with
        | some i => trapIf true .metaErr (ps.base + BitVec.ofNat 64 i)
        | none => .ok ()
      attempt s chk fun _ =>
        .done ((s.scrPut k pd (clean (ts.flatMap fun t => (t.getD []).map (BitVec.ofInt 8)))).retireR k [d, src] id)

end Sys2Proof.Machine
end

