-- ==== Sys2Proof/Machine/Dispatch.lean ====
section
/-! DEFINITION. One arm for every constructor of Instr: a direct call of its meaning. -/

namespace Sys2Proof.Machine

def exec (i : Instr) (s : State) : Host.Outcome State Fault Refusal :=
  match i with
  | .add x t => Sys2Proof.Machine.execAdd x t s
  | .addImm i' => Sys2Proof.Machine.execAddImm i' s
  | .sub x t => Sys2Proof.Machine.execSub x t s
  | .subImm i' => Sys2Proof.Machine.execSubImm i' s
  | .and x t => Sys2Proof.Machine.execAnd x t s
  | .andImm i' => Sys2Proof.Machine.execAndImm i' s
  | .or x t => Sys2Proof.Machine.execOr x t s
  | .orImm i' => Sys2Proof.Machine.execOrImm i' s
  | .xor x t => Sys2Proof.Machine.execXor x t s
  | .xorImm i' => Sys2Proof.Machine.execXorImm i' s
  | .shl x t => Sys2Proof.Machine.execShl x t s
  | .shlImm i' => Sys2Proof.Machine.execShlImm i' s
  | .shr x t => Sys2Proof.Machine.execShr x t s
  | .shrImm i' => Sys2Proof.Machine.execShrImm i' s
  | .sar x t => Sys2Proof.Machine.execSar x t s
  | .sarImm i' => Sys2Proof.Machine.execSarImm i' s
  | .mul x t => Sys2Proof.Machine.execMul x t s
  | .mulImm i' => Sys2Proof.Machine.execMulImm i' s
  | .mulh u x t => Sys2Proof.Machine.execMulh u x t s
  | .mulhImm u i' => Sys2Proof.Machine.execMulhImm u i' s
  | .div u x t => Sys2Proof.Machine.execDiv u x t s
  | .divImm u i' => Sys2Proof.Machine.execDivImm u i' s
  | .rem u x t => Sys2Proof.Machine.execRem u x t s
  | .remImm u i' => Sys2Proof.Machine.execRemImm u i' s
  | .min u x t => Sys2Proof.Machine.execMin u x t s
  | .minImm u i' => Sys2Proof.Machine.execMinImm u i' s
  | .max u x t => Sys2Proof.Machine.execMax u x t s
  | .maxImm u i' => Sys2Proof.Machine.execMaxImm u i' s
  | .cmp x t => Sys2Proof.Machine.execCmp x t s
  | .cmpImm i' => Sys2Proof.Machine.execCmpImm i' s
  | .tst x t => Sys2Proof.Machine.execTst x t s
  | .tstImm i' => Sys2Proof.Machine.execTstImm i' s
  | .li i' => Sys2Proof.Machine.execLi i' s
  | .sel c x y t => Sys2Proof.Machine.execSel c x y t s
  | .ldl p t => Sys2Proof.Machine.execLdl p t s
  | .stl p y t => Sys2Proof.Machine.execStl p y t s
  | .cvt dty sty x md => Sys2Proof.Machine.execCvt dty sty x md s
  | .geo g v => Sys2Proof.Machine.execGeo g v s
  | .pset p sp i' => Sys2Proof.Machine.execPset p sp i' s
  | .psetS p sp => Sys2Proof.Machine.execPsetS p sp s
  | .pstr p i' => Sys2Proof.Machine.execPstr p i' s
  | .plim p i' => Sys2Proof.Machine.execPlim p i' s
  | .pswz p z => Sys2Proof.Machine.execPswz p z s
  | .padd p i' => Sys2Proof.Machine.execPadd p i' s
  | .pget p f => Sys2Proof.Machine.execPget p f s
  | .br c t => Sys2Proof.Machine.execBr c t s
  | .jmp t => Sys2Proof.Machine.execJmp t s
  | .call t => Sys2Proof.Machine.execCall t s
  | .ret => Sys2Proof.Machine.execRet s
  | .brx x => Sys2Proof.Machine.execBrx x s
  | .rep stag nm1 cnt => Sys2Proof.Machine.execRep stag nm1 cnt s
  | .vld a p t => Sys2Proof.Machine.execVld a p t s
  | .vst p y t md => Sys2Proof.Machine.execVst p y t md s
  | .vbcast a x t => Sys2Proof.Machine.execVbcast a x t s
  | .vadd a x y t md => Sys2Proof.Machine.execVadd a x y t md s
  | .vsub a x y t md => Sys2Proof.Machine.execVsub a x y t md s
  | .vmul a x y t md => Sys2Proof.Machine.execVmul a x y t md s
  | .vmac a x y t md => Sys2Proof.Machine.execVmac a x y t md s
  | .vmin a x y t => Sys2Proof.Machine.execVmin a x y t s
  | .vmax a x y t => Sys2Proof.Machine.execVmax a x y t s
  | .vabs a x t sat => Sys2Proof.Machine.execVabs a x t sat s
  | .vneg a x t sat => Sys2Proof.Machine.execVneg a x t sat s
  | .vand a x y t => Sys2Proof.Machine.execVand a x y t s
  | .vor a x y t => Sys2Proof.Machine.execVor a x y t s
  | .vxor a x y t => Sys2Proof.Machine.execVxor a x y t s
  | .vshl a x y t => Sys2Proof.Machine.execVshl a x y t s
  | .vshr a x y t => Sys2Proof.Machine.execVshr a x y t s
  | .vcmp pred x y t => Sys2Proof.Machine.execVcmp pred x y t s
  | .vsel a x t => Sys2Proof.Machine.execVsel a x t s
  | .vcvt a dty sty x md => Sys2Proof.Machine.execVcvt a dty sty x md s
  | .vred x t rnd => Sys2Proof.Machine.execVred x t rnd s
  | .vperm a x y t => Sys2Proof.Machine.execVperm a x y t s
  | .vscale a x y t md => Sys2Proof.Machine.execVscale a x y t md s
  | .vexp2 a x t md => Sys2Proof.Machine.execVexp2 a x t md s
  | .vrcp a x t md => Sys2Proof.Machine.execVrcp a x t md s
  | .vrsq a x t md => Sys2Proof.Machine.execVrsq a x t md s
  | .vmaxi x t => Sys2Proof.Machine.execVmaxi x t s
  | .vpop x t => Sys2Proof.Machine.execVpop x t s
  | .vmset x => Sys2Proof.Machine.execVmset x s
  | .vmsetNz x t => Sys2Proof.Machine.execVmsetNz x t s
  | .vmsetRead => Sys2Proof.Machine.execVmsetRead s
  | .vmsetNot => Sys2Proof.Machine.execVmsetNot s
  | .vcprs a v src t => Sys2Proof.Machine.execVcprs a v src t s
  | .vmeta a sel => Sys2Proof.Machine.execVmeta a sel s
  | .vpackt d src sat => Sys2Proof.Machine.execVpackt d src sat s
  | .vunpkt d src => Sys2Proof.Machine.execVunpkt d src s
  | .ldg w d src => Sys2Proof.Machine.execLdg w d src s
  | .stg w g y => Sys2Proof.Machine.execStg w g y s
  | .ldh w d src => Sys2Proof.Machine.execLdh w d src s
  | .ldrow ver d g => Sys2Proof.Machine.execLdrow ver d g s
  | .cpy c fo => Sys2Proof.Machine.execCpy c fo s
  | .smwait map mask => Sys2Proof.Machine.execSmwait map mask s
  | .smtest map mask => Sys2Proof.Machine.execSmtest map mask s
  | .smclr map mask => Sys2Proof.Machine.execSmclr map mask s
  | .wait c n => Sys2Proof.Machine.execWait c n s
  | .pwait src dst => Sys2Proof.Machine.execPwait src dst s
  | .phase sc => Sys2Proof.Machine.execPhase sc s
  | .rwb p len => Sys2Proof.Machine.execRwb p len s
  | .rinv p len => Sys2Proof.Machine.execRinv p len s
  | .tokacq p => Sys2Proof.Machine.execTokacq p s
  | .tokpass p => Sys2Proof.Machine.execTokpass p s
  | .qpush q x => Sys2Proof.Machine.execQpush q x s
  | .qpop q x => Sys2Proof.Machine.execQpop q x s
  | .qstat q => Sys2Proof.Machine.execQstat q s
  | .exo o => Sys2Proof.Machine.execExo o s
  | .exs p slot => Sys2Proof.Machine.execExs p slot s
  | .exr p slot => Sys2Proof.Machine.execExr p slot s
  | .exred bint p slot => Sys2Proof.Machine.execExred bint p slot s
  | .exc => Sys2Proof.Machine.execExc s
  | .mtile o => Sys2Proof.Machine.execMtile o s
  | .tfetch p n => Sys2Proof.Machine.execTfetch p n s
  | .trel p n => Sys2Proof.Machine.execTrel p n s
  | .jinit all i32 => Sys2Proof.Machine.execJinit all i32 s
  | .jadd a p t => Sys2Proof.Machine.execJadd a p t s
  | .joins qx qy t => Sys2Proof.Machine.execJoins qx qy t s
  | .jget a p t => Sys2Proof.Machine.execJget a p t s
  | .jdrainT p => Sys2Proof.Machine.execJdrainT p s
  | .jdrainD p shape => Sys2Proof.Machine.execJdrainD p shape s
  | .jstat => Sys2Proof.Machine.execJstat s
  | .jspill p => Sys2Proof.Machine.execJspill p s
  | .wrun p => Sys2Proof.Machine.execWrun p s
  | .oadd o => Sys2Proof.Machine.execOadd o s
  | .oand o => Sys2Proof.Machine.execOand o s
  | .oor o => Sys2Proof.Machine.execOor o s
  | .omin o => Sys2Proof.Machine.execOmin o s
  | .omax o => Sys2Proof.Machine.execOmax o s
  | .oxch o => Sys2Proof.Machine.execOxch o s
  | .ocas o => Sys2Proof.Machine.execOcas o s
  | .orow o add size => Sys2Proof.Machine.execOrow o add size s
  | .ofin o size => Sys2Proof.Machine.execOfin o size s
  | .owait o => Sys2Proof.Machine.execOwait o s
  | .oemb bf16 r v => Sys2Proof.Machine.execOemb bf16 r v s
  | .oscan r v => Sys2Proof.Machine.execOscan r v s
  | .orowc d r src cnt => Sys2Proof.Machine.execOrowc d r src cnt s
  | .ofill d r v cnt => Sys2Proof.Machine.execOfill d r v cnt s
  | .ostat t p => Sys2Proof.Machine.execOstat t p s
  | .wld d a inc t => Sys2Proof.Machine.execWld d a inc t s
  | .wldi d i' => Sys2Proof.Machine.execWldi d i' s
  | .wldiSh d i' => Sys2Proof.Machine.execWldiSh d i' s
  | .wadd d y => Sys2Proof.Machine.execWadd d y s
  | .wsub d y => Sys2Proof.Machine.execWsub d y s
  | .wand d y => Sys2Proof.Machine.execWand d y s
  | .wshr arith d y => Sys2Proof.Machine.execWshr arith d y s
  | .wcmp x y => Sys2Proof.Machine.execWcmp x y s
  | .wbr c off => Sys2Proof.Machine.execWbr c off s
  | .wjmp off => Sys2Proof.Machine.execWjmp off s
  | .wemit i' k v => Sys2Proof.Machine.execWemit i' k v s
  | .wtile o a inc => Sys2Proof.Machine.execWtile o a inc s
  | .wtileExpand o a inc t m => Sys2Proof.Machine.execWtileExpand o a inc t m s
  | .wend => Sys2Proof.Machine.execWend s
  | .trap n => Sys2Proof.Machine.execTrap n s
  | .eret => Sys2Proof.Machine.execEret s
  | .srr r => Sys2Proof.Machine.execSrr r s
  | .srw r => Sys2Proof.Machine.execSrw r s
  | .fork access off => Sys2Proof.Machine.execFork access off s
  | .forkBoth offM offA => Sys2Proof.Machine.execForkBoth offM offA s
  | .rdv set => Sys2Proof.Machine.execRdv set s
  | .tdone => Sys2Proof.Machine.execTdone s
  | .tsig n => Sys2Proof.Machine.execTsig n s
  | .tsigS => Sys2Proof.Machine.execTsigS s
  | .gbar => Sys2Proof.Machine.execGbar s
  | .yield => Sys2Proof.Machine.execYield s
  | .idle n => Sys2Proof.Machine.execIdle n s
  | .iflush => Sys2Proof.Machine.execIflush s
  | .lacq l => Sys2Proof.Machine.execLacq l s
  | .lrel l => Sys2Proof.Machine.execLrel l s
  | .lhint w => Sys2Proof.Machine.execLhint w s
  | .lreset l => Sys2Proof.Machine.execLreset l s
  | .tinv p => Sys2Proof.Machine.execTinv p s
  | .tinvAsid => Sys2Proof.Machine.execTinvAsid s
  | .tinvAll => Sys2Proof.Machine.execTinvAll s
  | .loadLanding c id => Sys2Proof.Machine.execLoadLanding c id s
  | .storeAcceptance c id => Sys2Proof.Machine.execStoreAcceptance c id s
  | .lineEviction core line => Sys2Proof.Machine.execLineEviction core line s
  | .homeWriteArrival ha bytes => Sys2Proof.Machine.execHomeWriteArrival ha bytes s
  | .pageWalk c va fetch => Sys2Proof.Machine.execPageWalk c va fetch s
  | .runaheadEnd c q => Sys2Proof.Machine.execRunaheadEnd c q s
  | .faultReply ctxid saveid gen q word => Sys2Proof.Machine.execFaultReply ctxid saveid gen q word s
  | .replayableFault m side page => Sys2Proof.Machine.execReplayableFault m side page s
  | .poolFaultReply m side page ok => Sys2Proof.Machine.execPoolFaultReply m side page ok s
  | .copyChunkLanding c id chunk => Sys2Proof.Machine.execCopyChunkLanding c id chunk s
  | .scaleWordEntry c => Sys2Proof.Machine.execScaleWordEntry c s
  | .followOnIssue c => Sys2Proof.Machine.execFollowOnIssue c s
  | .jafTupleApply c src => Sys2Proof.Machine.execJafTupleApply c src s
  | .trapEntry sid => Sys2Proof.Machine.execTrapEntry sid s
  | .offerPerform c id load => Sys2Proof.Machine.execOfferPerform c id load s
  | .leaseRevocationAck block dev dirty => Sys2Proof.Machine.execLeaseRevocationAck block dev dirty s
  | .finishCommit c id => Sys2Proof.Machine.execFinishCommit c id s
  | .offerReplyLanding c id => Sys2Proof.Machine.execOfferReplyLanding c id s
  | .owaitWake c id => Sys2Proof.Machine.execOwaitWake c id s
  | .owaitTimeout c id => Sys2Proof.Machine.execOwaitTimeout c id s
  | .reservationExpiry line => Sys2Proof.Machine.execReservationExpiry line s
  | .nmCommandPerform c id load => Sys2Proof.Machine.execNmCommandPerform c id load s
  | .nmReplyLanding c id => Sys2Proof.Machine.execNmReplyLanding c id s
  | .tokenGrant block => Sys2Proof.Machine.execTokenGrant block s
  | .exchangeT0 core => Sys2Proof.Machine.execExchangeT0 core s
  | .slotWindowStart core => Sys2Proof.Machine.execSlotWindowStart core s
  | .exchangeTransferLanding core slot => Sys2Proof.Machine.execExchangeTransferLanding core slot s
  | .exchangeReduction core slot => Sys2Proof.Machine.execExchangeReduction core slot s
  | .walkStart bench => Sys2Proof.Machine.execWalkStart bench s
  | .walkYield bench => Sys2Proof.Machine.execWalkYield bench s
  | .walkStepLimit bench => Sys2Proof.Machine.execWalkStepLimit bench s
  | .wtileRowLanding bench idx => Sys2Proof.Machine.execWtileRowLanding bench idx s
  | .launch w g => Sys2Proof.Machine.execLaunch w g s
  | .cancel w g => Sys2Proof.Machine.execCancel w g s
  | .copyNodeStart g node => Sys2Proof.Machine.execCopyNodeStart g node s
  | .nearNodeStart g node => Sys2Proof.Machine.execNearNodeStart g node s
  | .fillNodeStart g node => Sys2Proof.Machine.execFillNodeStart g node s
  | .bind bench r => Sys2Proof.Machine.execBind bench r s
  | .preempt bench r => Sys2Proof.Machine.execPreempt bench r s
  | .instanceStart g node inst => Sys2Proof.Machine.execInstanceStart g node inst s
  | .dispatchSelfBind => Sys2Proof.Machine.execDispatchSelfBind s
  | .quantumBoundary g node inst => Sys2Proof.Machine.execQuantumBoundary g node inst s
  | .coopRotation g node => Sys2Proof.Machine.execCoopRotation g node s
  | .swapDrainTimeout g node inst => Sys2Proof.Machine.execSwapDrainTimeout g node inst s
  | .teamResume g node inst => Sys2Proof.Machine.execTeamResume g node inst s
  | .threadMigration c => Sys2Proof.Machine.execThreadMigration c s
  | .migrationMessage idx => Sys2Proof.Machine.execMigrationMessage idx s
  | .bloadRefresh bench => Sys2Proof.Machine.execBloadRefresh bench s
  | .idleTimeout sid => Sys2Proof.Machine.execIdleTimeout sid s
  | .layerFillStart die => Sys2Proof.Machine.execLayerFillStart die s
  | .evictionDone part mid l => Sys2Proof.Machine.execEvictionDone part mid l s
  | .layerFillEnd part mid l lost => Sys2Proof.Machine.execLayerFillEnd part mid l lost s
  | .rowreg w pa size => Sys2Proof.Machine.execRowreg w pa size s
  | .embreg w ctxid id base rowsz nrows fmt => Sys2Proof.Machine.execEmbreg w ctxid id base rowsz nrows fmt s
  | .embunreg w id => Sys2Proof.Machine.execEmbunreg w id s
  | .modreg w ctxid desc mid => Sys2Proof.Machine.execModreg w ctxid desc mid s
  | .modunreg w mid => Sys2Proof.Machine.execModunreg w mid s
  | .frrreq w reg w0 w1 w2 w3 => Sys2Proof.Machine.execFrrreq w reg w0 w1 w2 w3 s
  | .keyreq w key => Sys2Proof.Machine.execKeyreq w key s
  | .laypool w slot slots arena units => Sys2Proof.Machine.execLaypool w slot slots arena units s
  | .registerWrite w off v => Sys2Proof.Machine.execRegisterWrite w off v s
  | .handover h => Sys2Proof.Machine.execHandover h s
  | .ownerLinkLoss => Sys2Proof.Machine.execOwnerLinkLoss s
  | .bringUp verified present => Sys2Proof.Machine.execBringUp verified present s
  | .refreshWindow die => Sys2Proof.Machine.execRefreshWindow die s
  | .flitReplay r => Sys2Proof.Machine.execFlitReplay r s
  | .linkDown port => Sys2Proof.Machine.execLinkDown port s
  | .poolLinkFailure => Sys2Proof.Machine.execPoolLinkFailure s
  | .hostWindowWrite part ha bytes => Sys2Proof.Machine.execHostWindowWrite part ha bytes s
  | .hostAtomicop part op ha size v c => Sys2Proof.Machine.execHostAtomicop part op ha size v c s
  | .atsInvalidation ha => Sys2Proof.Machine.execAtsInvalidation ha s
  | .memoryError e corrected => Sys2Proof.Machine.execMemoryError e corrected s
  | .clockStepChange mhz => Sys2Proof.Machine.execClockStepChange mhz s
  | .clockGating => Sys2Proof.Machine.execClockGating s
  | .stalepUpdate => Sys2Proof.Machine.execStalepUpdate s
  | .powerRequest master d3hot => Sys2Proof.Machine.execPowerRequest master d3hot s
  | .partitionClear part => Sys2Proof.Machine.execPartitionClear part s
  | .revocationRequest dev block => Sys2Proof.Machine.execRevocationRequest dev block s
  | .leaseRequest block dev write => Sys2Proof.Machine.execLeaseRequest block dev write s
  | .attestationReport master nonce => Sys2Proof.Machine.execAttestationReport master nonce s

end Sys2Proof.Machine
end

