-- ==== Sys2Proof/Machine/Runahead.lean ====
section
/-! DEFINITION. Fault run-ahead (R120, R138 to R140): a sequencer whose access has failed with PAGE executes on over a
shadow of the state, and collects the pages that fail to translate. Nothing of it stays but the batch. -/

namespace Sys2Proof

/-! ## Registers, numbered: `p0` to `p7`, s (8), the flags (9), `a0` to `a3` (10 to 13), m (14) -/

def Machine.Rep.accNo (r : Machine.Rep) (a : BitVec 2) : Nat := 10 + (r.rename a).toNat

def Opnd.regs (r : Machine.Rep) : Opnd → List Nat
  | .mem p _ => [p.toNat]
  | .acc a => [r.accNo a]
  | .s => [8]
  | .lit _ => []

/-- Registers on which what an instruction does depends: those of the classes that run-ahead executes. -/
def Instr.uses (r : Machine.Rep) : Instr → List Nat
  | .add x _ | .sub x _ | .and x _ | .or x _ | .xor x _ | .shl x _ | .shr x _ | .sar x _ | .mul x _ | .mulh _ x _
  | .div _ x _ | .rem _ x _ | .min _ x _ | .max _ x _ | .cmp x _ | .tst x _ => 8 :: x.regs r
  | .addImm _ | .subImm _ | .andImm _ | .orImm _ | .xorImm _ | .shlImm _ | .shrImm _ | .sarImm _ | .mulImm _
  | .mulhImm .. | .divImm .. | .remImm .. | .minImm .. | .maxImm .. | .cmpImm _ | .tstImm _ => [8]
  | .sel _ x y _ => 9 :: x.regs r ++ y.regs r
  | .ldl p _ => [p.p.toNat]
  | .stl p y _ => p.p.toNat :: y.regs r
  | .cvt _ _ x _ | .brx x => x.regs r
  | .geo _ .s | .psetS .. | .rep _ _ .s => [8]
  | .pstr p _ | .plim p _ | .pswz p _ | .padd p _ | .pget p _ => [p.toNat]
  | .br .al _ => []
  | .br .. => [9]
  | .ret => [7]
  | .vld a p _ => [14, r.accNo a, p.p.toNat]
  | .vst p y _ _ => 14 :: p.p.toNat :: y.regs r
  | .vbcast a x _ | .vabs a x _ _ | .vneg a x _ _ | .vsel a x _ | .vcvt a _ _ x _ | .vexp2 a x _ _ | .vrcp a x _ _
  | .vrsq a x _ _ => 14 :: r.accNo a :: x.regs r
  | .vadd a x y _ _ | .vsub a x y _ _ | .vmul a x y _ _ | .vmac a x y _ _ | .vmin a x y _ | .vmax a x y _ | .vand a x y _
  | .vor a x y _ | .vxor a x y _ | .vshl a x y _ | .vshr a x y _ | .vperm a x y _ | .vscale a x y _ _ =>
    14 :: r.accNo a :: x.regs r ++ y.regs r
  | .vcmp _ x y _ => x.regs r ++ y.regs r
  | .vred x _ _ | .vmaxi x _ | .vpop x _ | .vmset x | .vmsetNz x _ => x.regs r
  | .vmsetRead | .vmsetNot => [14]
  | .vcprs a v x _ => [14, r.accNo a, v.p.toNat, x.p.toNat]
  | .vmeta a _ => [r.accNo a]
  | .vpackt d x _ | .vunpkt d x | .ldg _ d x | .ldh _ d x | .ldrow _ d x => [d.p.toNat, x.p.toNat]
  | .stg _ g y => g.p.toNat :: y.regs r
  | _ => []

/-- Registers that it writes, but for pointers that advance. -/
def Instr.sets (r : Machine.Rep) : Instr → List Nat
  | .add .. | .sub .. | .and .. | .or .. | .xor .. | .addImm _ | .subImm _ | .andImm _ | .orImm _ | .xorImm _ | .vpop ..
  | .vmeta .. | .smtest .. => [8, 9]
  | .shl .. | .shr .. | .sar .. | .mul .. | .mulh .. | .div .. | .rem .. | .min .. | .max .. | .shlImm _ | .shrImm _
  | .sarImm _ | .mulImm _ | .mulhImm .. | .divImm .. | .remImm .. | .minImm .. | .maxImm .. | .li _ | .sel .. | .ldl ..
  | .cvt .. | .pget .. | .vred .. | .vmaxi .. | .vmsetRead => [8]
  | .cmp .. | .tst .. | .cmpImm _ | .tstImm _ => [9]
  | .pset p .. | .psetS p .. | .pstr p _ | .plim p _ | .pswz p _ | .padd p _ => [p.toNat]
  | .call _ => [7]
  | .vld a .. | .vbcast a .. | .vabs a .. | .vneg a .. | .vsel a .. | .vcvt a .. | .vexp2 a .. | .vrcp a .. | .vrsq a ..
  | .vadd a .. | .vsub a .. | .vmul a .. | .vmac a .. | .vmin a .. | .vmax a .. | .vand a .. | .vor a .. | .vxor a ..
  | .vshl a .. | .vshr a .. | .vperm a .. | .vscale a .. | .vcprs a .. => [r.accNo a]
  | .vcmp .. | .vmset _ | .vmsetNz .. | .vmsetNot => [14, 9]
  | _ => []

/-- The scratchpad bytes that it writes: the pointer, and how many from it on. A row is 1 KiB at most (R167). -/
def Instr.scrDst : Instr → Option (PtrOp × Nat)
  | .stl p _ t => some (p, t.bytes)
  | .vst p _ t _ => some (p, 16 * t.bytes)
  | .vcprs _ v _ _ => some (v, 16)
  | .vpackt d _ _ => some (d, 16)
  | .vunpkt d _ => some (d, 80)
  | .ldg w d _ | .ldh w d _ => some (d, w.bytes)
  | .ldrow ver d _ => some (d, if ver then 1032 else 1024)
  | _ => none

def Instr.isRep : Instr → Bool
  | .rep .. => true
  | _ => false

/-- Does it end run-ahead before it takes effect (R138)? What is no load, store, stitch-map instruction or wait of M
class, and every class but S and V. -/
def Instr.endsAhead : Instr → Bool
  | .ldg .. | .stg .. | .ldh .. | .ldrow .. | .smwait .. | .smtest .. | .smclr .. | .wait .. | .pwait .. => false
  | i => decide (1 < (wCls ((encode i).headD 0)).toNat)

end Sys2Proof

namespace Sys2Proof.Machine

/-- Instructions of a run-ahead (R138). -/
def aheadCap : Nat := 512

namespace Ahead

/-- Pages that do not translate join the batch as hints, each once; it is full with 32 distinct pages (R138, R139). -/
def add (a : Ahead) (es : List FaultEnt) : Ahead :=
  let known := (a.trap.record ++ a.batch).map FaultEnt.vpn
  let b := a.batch ++ (es.filter fun e => !known.contains e.vpn).map fun e => { e with hint := true }
  { a with batch := b, isOver := a.isOver || decide (Config.batchCap ≤ a.trap.record.length + b.length) }

def stop (a : Ahead) : Ahead := { a with isOver := true }

/-- An instruction without further effect: what it would have written depends on poison where `poison` says so. -/
def suppress (a : Ahead) (i : Instr) (poison : Bool) : Ahead :=
  { a with r := a.r.next i.bytes (slotsOf i), bad := if poison then (a.bad ++ i.sets a.r.rep).eraseDups else a.bad }

/-- What an instruction has done to the shadow stays for the next one. -/
def take (a : Ahead) (k : Nat) (i : Instr) (t : State) : Ahead :=
  let co := t.co (coreK k)
  { a with
    r := t.r k, reg := (t.cx (cidOf k)).reg, scr := co.scr, spois := co.spois, hidden := co.hidden
    bad := a.bad.filter fun n => !(i.sets a.r.rep).contains n }

end Ahead

namespace State

/-- The state as the run-ahead of sequencer k sees it; a trap in it reaches a handler. -/
def shadow (s : State) (k : Nat) (a : Ahead) : State :=
  let s := s.modSq k fun q => { q with
    r := a.r, ra := none, traps := [], pend := [], waiting := none, stalled := none
    buf := if a.r.rep.body = q.buf.body then { q.buf with dropped := false } else RepBuf.init }
  let s := s.modReg (cidOf k) fun _ => { a.reg with kvec := a.reg.kvec ||| 1 }
  let s := s.modCo (coreK k) fun co => { co with scr := a.scr, spois := a.spois, hidden := a.hidden }
  { s with turn := .seq k }

/-- How many of `n` bytes at a scratchpad pointer lie in its space. -/
def scrFit (s : State) (k : Nat) (p : Ptr) (n : Nat) : Nat :=
  ((List.range n).takeWhile fun i => (rangeChk p (s.winSize k) (i + 1)).isNone).length

/-- An instruction without further effect that depends on poison: so do its destinations, those in scratchpad among them
(R138, R419). -/
def aheadPoison (s : State) (k : Nat) (a : Ahead) (i : Instr) : Ahead :=
  let a' := a.suppress i true
  match i.scrDst with
  | none => a'
  | some (d, n) =>
    let p := (s.r k).ptr d.p
    if a.bad.contains d.p.toNat || (spaceChk p (s.lvlK k)).isSome then a'
    else
      let co := (s.scrPut k p (List.replicate (s.scrFit k p n) (0, true))).co (coreK k)
      { a' with scr := co.scr, spois := co.spois, hidden := co.hidden }

/-- A byte that a load hits: in the speculative buffer or, for a plain load, in the core cache. -/
def aheadByte (s : State) (k : Nat) (a : Ahead) (x : Xl) (plain : Bool) (i : Nat) : Option PByte :=
  match a.stores.find? fun e => e.1 == x.ha + i with
  | some e => some e.2
  | none => match (if plain then (s.co (coreK k)).find (lineOf (x.ha + i)) else none) with
    | some l => if !l.alias x && (l.filled || l.dirty.getLsbD ((x.ha + i) % 64)) then some (l.byte ((x.ha + i) % 64)) else none
    | none => none

/-- A load's bytes: poison where one of them is missed (R138). -/
def aheadBytes (s : State) (k : Nat) (a : Ahead) (x : Xl) (plain : Bool) (n : Nat) : List PByte :=
  let bs := (List.range n).map (s.aheadByte k a x plain)
  if bs.all Option.isSome then bs.filterMap id else List.replicate n (0, true)

/-- The checks of a global access in run-ahead: a page that does not translate joins the batch, and the access is a
miss; another trap's condition suppresses the instruction. -/
def aheadAccess (s : State) (k : Nat) (a : Ahead) (i : Instr) (c : Chkd (Xl × State)) (miss : Ahead → Ahead) (f : Xl → Ahead) : Ahead :=
  match c with
  | .ok (x, _) => f x
  | .error t =>
    if t.hold.isSome then miss a
    else if t.code == .page then miss (a.add t.record)
    else if t.code == .poison then s.aheadPoison k a i
    else a.suppress i false

/-- A load in run-ahead. -/
def aheadLoad (s : State) (k : Nat) (a : Ahead) (i : Instr) (c : Chkd (Xl × State)) (d src : PtrOp) (n : Nat)
    (plain : Bool) : Ahead :=
  let put (a : Ahead) (bs : List PByte) : Ahead :=
    a.take k i (deliver s k i (.done ((s.scrPut k ((s.r k).ptr d.p) bs).retireR k [d, src] id)))
  s.aheadAccess k a i c (put · (List.replicate n (0, true))) fun x => put a (s.aheadBytes k a x plain n)

/-- A store in run-ahead goes to the speculative buffer. -/
def aheadStore (s : State) (k : Nat) (a : Ahead) (i : Instr) (c : Chkd (Xl × State)) (g : PtrOp) (y : Opnd) (n : Nat) : Ahead :=
  let next (a : Ahead) : Ahead := a.take k i (deliver s k i (.done (s.retireR k (g :: y.ptrs) id)))
  s.aheadAccess k a i c next fun x =>
    next { a with stores := ((List.range n).zip (s.stgVal k y n) |>.map fun (j, b) => (x.ha + j, b)).reverse ++ a.stores }

/-- The row that an `ldrow` of a run-ahead reads. -/
def aheadRow (s : State) (k : Nat) (ver : Bool) (d g : PtrOp) : Chkd (Xl × State) :=
  let pd := (s.r k).ptr d.p
  let pg := (s.r k).ptr g.p
  match firstOf [asTrap (spaceChk pd (s.lvlK k)), asTrap (gSpace pg (s.lvlK k)), trapIf (pd.base.toNat % 64 != 0) .misalign] with
  | .error t => .error t
  | .ok _ => match s.place1 k pg.base .rowRead with
    | .error t => .error t
    | .ok (x, s') =>
      let n := s.rowSize x.ha
      match firstOf [trapIf (n == 0) .prot, asTrap (rangeChk pd (s.winSize k) (if ver then n + 8 else n))] with
      | .error t => .error t
      | .ok _ => .ok ({ x with ha := s.rowOf x.ha }, s')

/-- Any other instruction, on the shadow: one that would wait ends the run-ahead (assumption 84), one that traps is
suppressed. -/
def aheadExec (s : State) (k : Nat) (a : Ahead) (i : Instr) : Ahead :=
  match exec i s with
  | .next t =>
    if (t.sq k).stalled.isSome || (t.sq k).waiting.isSome then a.stop
    else match (t.sq k).traps with
      | x :: _ => if x.code == .poison then s.aheadPoison k a i else a.suppress i false
      | [] => a.take k i t
  | _ => a.stop

/-- A `rep` in run-ahead: where the body that a count of 0 skips cannot be fetched, the run-ahead ends, and its page joins
the batch. -/
def aheadRep (s : State) (k : Nat) (a : Ahead) (i : Instr) (nm1 : BitVec 4) (cnt : ImmOrS) : Ahead :=
  match (if cnt.count (s.r k).s = 0 then s.skipBody k (nm1.toNat + 1) ((s.r k).pc + 4) else .ok (0, s)) with
  | .error e => let t := e.trap true false
                (if t.hold.isNone then a.add t.record else a).stop
  | .ok _ => s.aheadExec k a i

/-- The instruction that a run-ahead has decoded, which passes the checks of R116. `wait` and `pwait` neither stall nor act
(R389, R451), nor does what a `smwait` would make visible, and a `rep` whose count depends on poison ends the run-ahead
(R395). -/
def aheadInstr (s : State) (k : Nat) (a : Ahead) (i : Instr) : Ahead :=
  if (i.uses a.r.rep).any a.bad.contains then (if i.isRep then a.stop else s.aheadPoison k a i)
  else match i with
    | .wait .. | .pwait .. => a.suppress i false
    | .smwait m mask =>
      if (s.cx (cidOf k)).reg.map m &&& mask.bits = mask.bits then a.suppress i false else a.stop
    | .rep _ nm1 cnt => s.aheadRep k a i nm1 cnt
    | .ldg w d x => s.aheadLoad k a i (s.gAccess k (some ((s.r k).ptr d.p)) ((s.r k).ptr x.p) w.bytes .read false) d x w.bytes true
    | .ldh w d x => s.aheadLoad k a i (s.gAccess k (some ((s.r k).ptr d.p)) ((s.r k).ptr x.p) w.bytes .read false) d x w.bytes false
    | .ldrow ver d g =>
      let c := s.aheadRow k ver d g
      let n := match c with
        | .ok (x, _) => s.rowSize x.ha + (if ver then 8 else 0)
        -- the size of a row whose page does not translate is not known: 1 KiB (assumption 84)
        | .error _ => s.scrFit k ((s.r k).ptr d.p) (if ver then 1032 else 1024)
      s.aheadLoad k a i c d g n false
    | .stg w g y =>
      let scr := match y with | .mem p _ => some ((s.r k).ptr p) | _ => none
      s.aheadStore k a i (s.gAccess k scr ((s.r k).ptr g.p) w.bytes .write true) g y w.bytes
    | i => s.aheadExec k a i

/-- One instruction of a run-ahead: a word that cannot be fetched or that a check of R116 refuses ends it (R120), and so
do an instruction that R138 names and the 512th. A follower fetches nothing of its own (R67). -/
def aheadStep (s : State) (k : Nat) (a : Ahead) : Ahead :=
  if a.isOver || s.follows k then a.stop
  else
    let s := s.shadow k a
    match s.fetch k with
    | .error t => (if t.hold.isNone then a.add t.record else a).stop
    | .ok (ws, s) => match decode ws with
      | .bad _ => a.stop
      | .ok i =>
        if (s.refuses k i).isSome || i.endsAhead then a.stop
        else
          let a := (s.aheadInstr k { a with count := a.count + 1 } i)
          if aheadCap ≤ a.count then a.stop else a

/-- A turn of a sequencer that runs ahead: an instruction more, where its context runs; it counts RUNAHEAD (R138). -/
def aheadTurn (s : State) (k : Nat) (a : Ahead) : State :=
  if (s.cx (cidOf k)).slot.state == .running && s.pf.pstate == .d0 then
    (s.modSq k fun q => { q with ra := some (s.aheadStep k a) }).stall k .runahead
  else s

/-- A sequencer's turn, which may lie in a run-ahead. -/
def seqReady (s : State) (k : Nat) : Ready :=
  match (s.sq k).ra with
  | some a => if seqCount ≤ k then .absent else .done (s.aheadTurn k a)
  | none => s.seqTurn k

end State

end Sys2Proof.Machine
end

