-- ==== Sys2Proof/Machine/Due.lean ====
section
/-! DEFINITION. What the engines do when the agenda asks for nothing: the first event, in a fixed order, that changes
something; what only time brings about comes when every sequencer waits, or now and then (assumption 6). -/

namespace Sys2Proof.Machine

namespace State

/-- Does an event change anything now? -/
def acts (s : State) (i : Instr) : Bool := match exec i s with | .next t => t != s | .fault _ => true | .refused _ => true

/-- Chunks of a copy that have not landed. -/
def copyEvents (c : Nat) (x : Copy) : List Instr :=
  ((List.range x.chunks).filter fun i => !x.landed.contains i).map fun i => .copyChunkLanding c x.id i

/-- A CNMU that is neither busy nor throttled, a host that rejects nothing. -/
def calm : CnmuLoad := ⟨false, false, false⟩

/-- What is in flight for a context, oldest first by kind. -/
def ctxEvents (c : Nat) (x : Ctx) : List Instr :=
  x.f.loads.map (fun l => .loadLanding c l.id) ++ x.f.stores.map (fun t => .storeAcceptance c t.id) ++
  x.f.copies.flatMap (copyEvents c) ++ [.scaleWordEntry c, .followOnIssue c] ++
  (List.range 4).map (fun i => .jafTupleApply c i) ++
  x.f.offers.flatMap (fun o => [.offerPerform c o.id calm, .finishCommit c o.id, .owaitWake c o.id, .offerReplyLanding c o.id]) ++
  x.f.nms.flatMap (fun m => [.nmCommandPerform c m.id calm, .nmReplyLanding c m.id])

/-- A core's exchange. -/
def coreEvents (s : State) (k : Nat) (co : Core) : List Instr :=
  match co.xch with
  | none => []
  | some _ => [.exchangeT0 k, .slotWindowStart k] ++
      s.sch.xfers.flatMap fun x => [.exchangeReduction k x.slot, .exchangeTransferLanding k x.slot]

def walkEvents (b : Nat) (x : Bench) : List Instr :=
  if x.walks.isEmpty then [] else [.walkStart b, .wtileRowLanding b 0, .walkYield b, .walkStepLimit b]

/-- The nodes of the RUNNING graphs. -/
def nodeEvents (g : Graph) : List Instr :=
  ((List.range g.nodes.length).zip g.nodes).flatMap fun (i, n) =>
    (if n.state == .ready then [.copyNodeStart g.hdr i, .nearNodeStart g.hdr i, .fillNodeStart g.hdr i] else []) ++
    (match n.copy with | some x => copyEvents 0 x | none => []) ++
    (match n.near with | some m => [.nmCommandPerform 0 m.id calm, .nmReplyLanding 0 m.id] | none => [])

def instEvents (i : Inst) : List Instr :=
  [.instanceStart i.hdr i.node i.inst, .teamResume i.hdr i.node i.inst, .quantumBoundary i.hdr i.node i.inst,
   .swapDrainTimeout i.hdr i.node i.inst]

/-- The events that come about by themselves. -/
def events (s : State) : List Instr :=
  s.ctxs.flatMap (fun e => ctxEvents e.1 e.2) ++ s.h.tok.map (fun e => .tokenGrant e.1) ++
  s.cores.flatMap (fun e => s.coreEvents e.1 e.2) ++ s.benches.flatMap (fun e => walkEvents e.1 e.2) ++
  s.sch.graphs.flatMap nodeEvents ++ s.sch.evicting.map (fun e => .evictionDone e.1 e.2.1 e.2.2) ++
  s.sch.fills.map (fun f => .layerFillEnd f.part f.mid f.layer false) ++
  (if s.sch.models.isEmpty then [] else (List.range Config.dies).map .layerFillStart) ++
  s.ctxs.map (fun e => .threadMigration e.1) ++ s.sch.migs.map (fun _ => .migrationMessage 0) ++
  s.sch.insts.flatMap instEvents ++ s.benches.map (fun e => .bloadRefresh e.1) ++
  (s.seqs.filter fun e => e.2.ra.isSome).map fun e => .runaheadEnd (cidOf e.1) (qOf e.1)

/-- The events that time or another party brings about. -/
def lateEvents (s : State) : List Instr :=
  s.h.revoking.map (fun l => .leaseRevocationAck l.block l.dev []) ++
  s.ctxs.flatMap (fun e => e.2.f.copies.flatMap fun x => x.parked.map fun p => .poolFaultReply (.ctx e.1 x.id) p.side p.page true) ++
  s.sch.graphs.flatMap (fun g => ((List.range g.nodes.length).zip g.nodes).flatMap fun (i, n) =>
    n.copy.toList.flatMap fun x => x.parked.map fun p => .poolFaultReply (.node g.hdr i) p.side p.page true) ++
  s.sch.fills.flatMap (fun f => f.parked.map fun p => .poolFaultReply (.fill f.part f.mid f.layer) p.side p.page true) ++
  ((s.h.refresh.filter fun e => decide (e.2 < 17)).map fun e => .refreshWindow e.1) ++
  s.h.resv.map (fun r => .reservationExpiry r.line) ++
  s.ctxs.flatMap (fun e => e.2.f.offers.map fun o => .owaitTimeout e.1 o.id) ++ [.dispatchSelfBind] ++
  s.sch.graphs.flatMap (fun g => ((List.range g.nodes.length).zip g.nodes).filterMap fun (i, n) =>
    if n.coop then some (.coopRotation g.hdr i) else none) ++
  (s.seqs.filter fun e => e.2.waiting == some .idle).map fun e => .idleTimeout e.1

/-- Every sequencer that may issue is stalled. -/
def allWait (s : State) : Bool := s.seqs.all fun e => !s.mayIssue e.1 || e.2.stalled.isSome

/-- Time passes while sequencers run on, too: one turn of the engines in 4,096 turns or so. -/
def lateTurn (s : State) : Bool := decide (s.tick % 4096 < s.turnKeys.length)

/-- The event that the engines perform next, if there is one. -/
def dueEvent (s : State) : Option Instr :=
  match s.events.find? s.acts with
  | some i => some i
  | none => if s.allWait || s.lateTurn then s.lateEvents.find? s.acts else none

/-- The engines' turn: a field that waited is written, or the next event comes about. -/
def engineTurn (s : State) : Ready :=
  match s.fieldNext with
  | some t => .done t
  | none => match s.dueEvent with
    | some i => .inst i s
    | none => .done s

end State

end Sys2Proof.Machine
end

