-- ==== Sys2Proof/Machine/Step.lean ====
section
/-! DEFINITION. One step of the device: free visibility settles (R164), then the agenda's first item, or the turn of
a sequencer, an awl or the engines (assumption 6). -/

namespace Sys2Proof.Machine

/-- A turn: the instruction that it executes, or what happens instead. -/
def takeTurn (t : Turn) (r : Ready) : Host.Outcome State Fault Refusal :=
  match r with
  | .inst i s => exec i { s with turn := t }
  | .done s => .next s
  | .absent => .fault .noSuchAgent

/-- The turn of an agent. -/
def turnStep (t : Turn) (s : State) : Host.Outcome State Fault Refusal :=
  match t with
  | .seq k => takeTurn t (s.seqReady k)
  | .awl b => takeTurn t (s.awlTurn b)
  | .engine => takeTurn t s.engineTurn

/-- An item of the agenda. -/
def agendaStep (a : Agendum) (s : State) : Host.Outcome State Fault Refusal :=
  match a with
  | .ev i => if i.isEvent then exec i s else .next s
  | .go t => turnStep t s
  | .prefetch k a => .next (s.prefetch k a)

/-- The agenda's first item, or the turn that comes. -/
def stepFrom (s : State) : Host.Outcome State Fault Refusal :=
  match s.agenda with
  | a :: rest => agendaStep a ({ s with agenda := rest } : State).settle
  | [] => rotated s.turn (turnStep s.turn s.settle)

def step (s : State) : Host.Outcome State Fault Refusal := woken s (stepFrom s)

/-- `s` with an instruction stored where the next step fetches. -/
def State.withFetchWord (s : State) (nbits w : Nat) : State := s.placed (Sys2Proof.tableWords nbits w)

end Sys2Proof.Machine
end

