-- ==== Sys2Proof/Safety.lean ====
section
/-! DEFINITION. The terms of the claims: a safe run is one in which every step answers a next state, from a state
whose memories have their canonical form; and what it means that an instruction runs on a sequencer, retires or jumps
there and leaves the rest alone. -/

namespace Sys2Proof

open Machine

/-- Every memory of the device has its canonical form: home memory, the scratchpad and kernel windows of every core,
and those of the save images. -/
def Machine.State.memOk (s : State) : Prop :=
  s.h.mem.wf = true ∧ (∀ c, (s.co c).scr.wf = true) ∧ ∀ i ∈ s.sch.images, i.scr.wf = true ∧ i.kpriv.wf = true

/-- A step goes on. -/
def Goes (r : Host.Outcome State Fault Refusal) : Prop := ∃ t, r = .next t

/-- Sequencer k executes the decoded instruction now: the turn is its own, and none of the checks of steps 4, 7 and 8
of R116 and of R269 stops it. -/
abbrev Runs (s : State) (k : Nat) (i : Instr) : Prop := s.turn = .seq k ∧ s.refuses k i = none

/-- The pc and REPSTATE that follow an instruction of `bytes` bytes which takes `n` places of the body (R57 to R60). -/
def follow (r : Seq) (bytes n : Nat) : W64 × Rep :=
  if r.rep.act = false then (r.pc + BitVec.ofNat 64 bytes, r.rep)
  else if r.rep.pos.toNat + n ≤ r.rep.nm1.toNat then
    (r.pc + BitVec.ofNat 64 bytes, { r.rep with pos := r.rep.pos + BitVec.ofNat 4 n })
  else if r.rep.pass + 1 < r.rep.count then (r.rep.body, { r.rep with pass := r.rep.pass + 1, pos := 0 })
  else (r.pc + BitVec.ofNat 64 bytes, ⟨false, 0, 0, 0, 0, 0, 0⟩)

/-- What an instruction on sequencer k may change of a sequencer j: of k, its registers and how far it has fetched,
forwarded and stalled; of the others, the forwarding buffer of the team's next member (R67). -/
def SeqFrame (s t : State) (k j : Nat) : Prop :=
  if j = k then
    { t.sq k with
      r := (s.sq k).r, stalled := (s.sq k).stalled, waiting := (s.sq k).waiting, released := (s.sq k).released
      tokq := (s.sq k).tokq, lacq := (s.sq k).lacq, buf := (s.sq k).buf, pre := (s.sq k).pre
      fwd := (s.sq k).fwd, passed := (s.sq k).passed, waitAt := (s.sq k).waitAt } = s.sq k
  else { t.sq j with fwd := (s.sq j).fwd } = s.sq j ∧ (s.nextMember k ≠ some j → t.sq j = s.sq j)

/-- The instruction retires on k: `f` is what it does to the registers itself; the pc and REPSTATE follow R57 to R60,
or the stream in a follower (R67). -/
structure Retires (s t : State) (k : Nat) (i : Instr) (f : Seq → Seq) : Prop where
  regs : { t.r k with pc := (s.r k).pc, rep := (s.r k).rep } = f (s.r k)
  next : s.follows k = false → ((t.r k).pc, (t.r k).rep) = follow (s.r k) (4 * (encode i).length) (slotsOf i)
  frame : ∀ j, SeqFrame s t k j

/-- The instruction retires on k and has set the pc: `f` is what it does to the registers. -/
structure Jumps (s t : State) (k : Nat) (f : Seq → Seq) : Prop where
  regs : { t.r k with pc := (f (s.r k)).pc, rep := (f (s.r k)).rep } = f (s.r k)
  next : s.follows k = false → t.r k = f (s.r k)
  frame : ∀ j, SeqFrame s t k j

/-- Nothing but sequencers has changed. -/
structure OnlySeqs (s t : State) : Prop where
  rest : { t with seqs := s.seqs } = s

/-- Nothing but sequencers and context c has changed (and the counter that names operations), and of the context only
what `f` changes. -/
structure OnlyCtx (s t : State) (c : Nat) (f : Ctx → Ctx) : Prop where
  rest : { t with seqs := s.seqs, ctxs := s.ctxs, nextId := s.nextId } = s
  ctx : ∀ d, t.cx d = if d = c then f (s.cx c) else s.cx d

/-- Nothing but sequencers, context c and core m has changed, and of the context only what `f` changes. -/
structure OnlyCtxCore (s t : State) (c m : Nat) (f : Ctx → Ctx) : Prop where
  rest : { t with seqs := s.seqs, ctxs := s.ctxs, cores := s.cores, nextId := s.nextId } = s
  ctx : ∀ d, t.cx d = if d = c then f (s.cx c) else s.cx d
  core : ∀ d, d ≠ m → t.co d = s.co d

/-- The byte that the last of a list of writes leaves at an address, or `d` where none writes it. -/
def lastByte (ws : List (Nat × PByte)) (a : Nat) (d : Byte) : Byte :=
  match ws.reverse.find? fun w => w.1 == a with
  | some w => w.2.1
  | none => d

/-- Only translating has touched the state: at the homes, page-table entries and translation caches (R132, R135), and
of the contexts, offers that wait there for a write. -/
structure Touched (s u : State) : Prop where
  rest : { u with ctxs := s.ctxs, h := s.h, pf := s.pf } = s
  pf : { u.pf with discarded := s.pf.discarded } = s.pf
  homes : { u.h with
    mem := s.h.mem, poison := s.h.poison, keys := s.h.keys, tlb := s.h.tlb, tlbOld := s.h.tlbOld, ats := s.h.ats
    fin := s.h.fin, late := s.h.late, rowVer := s.h.rowVer, mended := s.h.mended } = s.h
  ctx : ∀ d, { u.cx d with f := { (u.cx d).f with offers := (s.cx d).f.offers } } = s.cx d

/-- Bytes have been stored at their homes under a key: reads under it give them back; units of 16 bytes that hold none
of them stand as before. -/
structure AtHome (h h' : Homes) (key : Nat) (ws : List (Nat × PByte)) : Prop where
  read : ∀ a, (h'.raw key a).1 = lastByte ws a (h.raw key a).1
  frame : ∀ a, (∀ w ∈ ws, w.1 / 16 ≠ a / 16) →
    h'.mem.read a = h.mem.read a ∧ Tab.get 0 h'.keys (a / 16) = Tab.get 0 h.keys (a / 16)

/-- What a program's store of bytes at a place of context `n` writes: nothing at K 0x18 to 0x3F and in the fault record,
and the RSV bits of the trap frame's word 1 stay 0 (R6, R59, R123, R140). -/
abbrev kept (l : Loc) (n : Nat) (bs : List PByte) : List (Nat × PByte) := kWrites n (l.writes n bs)

/-- Path p of context c has stored these bytes into core m: it reads them back at once, every path reads every other
byte as before, and nothing else of the core has changed but poison, what is hidden, and the B hold. -/
structure Stored (s t : State) (m c : Nat) (p : Path) (ws : List (Nat × PByte)) : Prop where
  raw : ∀ a, (t.co m).scr.read a = lastByte ws a ((s.co m).scr.read a)
  own : ∀ a, ((t.co m).byte c p a).1 = lastByte ws a ((s.co m).byte c p a).1
  others : ∀ d q a, (∀ w ∈ ws, w.1 ≠ a) → ((t.co m).byte d q a).1 = ((s.co m).byte d q a).1
  rest : { t.co m with
    scr := (s.co m).scr, spois := (s.co m).spois, hidden := (s.co m).hidden, bhold := (s.co m).bhold } = s.co m

end Sys2Proof
end

