-- ==== Sys2Proof/Certificates/Slice0/Obligations.lean ====
section
/-! DEFINITION. The statements for the provers. `Runs s k i` says that sequencer k executes i now; `Retires`, `Jumps`
and the `Only…` frames say what becomes of the registers, the pc and the rest (Safety.lean). A statement about an
event holds in every state in which what it acts on is pending. -/

open Sys2Proof Sys2Proof.Machine

/-! ## Scalar instructions -/

namespace Sys2Proof.Says

/-- What the sixteen operations of R334 leave in s and the flags, for a = s and b = the source; those that take `.u`
stand twice, signed and unsigned. -/
def aluRow (r : Seq) (b : W64) (add sub and or xor shl shr sar mul mulh mulhu div divu rem remu min minu max maxu cmp
    tst : Instr) : List (Instr × W64 × Flags) :=
  let a := r.s
  let zn (v : W64) (c o : Bool) : Flags := ⟨v == 0, v.getLsbD 63, c, o⟩
  [(add, a + b, zn (a + b) (BitVec.uaddOverflow a b) (BitVec.saddOverflow a b)),
   (sub, a - b, zn (a - b) (BitVec.usubOverflow a b) (BitVec.ssubOverflow a b)),
   (and, a &&& b, zn (a &&& b) false false), (or, a ||| b, zn (a ||| b) false false),
   (xor, a ^^^ b, zn (a ^^^ b) false false),
   (shl, a <<< (b.toNat % 64), r.fl), (shr, a >>> (b.toNat % 64), r.fl), (sar, a.sshiftRight (b.toNat % 64), r.fl),
   (mul, a * b, r.fl),
   (mulh, (a.signExtend 128 * b.signExtend 128).extractLsb' 64 64, r.fl),
   (mulhu, (a.zeroExtend 128 * b.zeroExtend 128).extractLsb' 64 64, r.fl),
   (div, if b = 0 then BitVec.allOnes 64 else a.sdiv b, r.fl), (divu, if b = 0 then BitVec.allOnes 64 else a / b, r.fl),
   (rem, if b = 0 then a else a.srem b, r.fl), (remu, if b = 0 then a else a % b, r.fl),
   (min, if b.slt a then b else a, r.fl), (minu, if b.ult a then b else a, r.fl),
   (max, if a.slt b then b else a, r.fl), (maxu, if a.ult b then b else a, r.fl),
   (cmp, a, zn (a - b) (BitVec.usubOverflow a b) (BitVec.ssubOverflow a b)), (tst, a, zn (a &&& b) false false)]

/-- A w-byte value extended by its type (R333). -/
def ext (t : ElemTy) (v : W64) : W64 :=
  if t.signed then (v.setWidth (8 * t.bytes)).signExtend 64 else (v.setWidth (8 * t.bytes)).zeroExtend 64

end Sys2Proof.Says

/-- R334, R374, R98: the I forms complete in every state in which they run, with these results and flags, and change
nothing else. -/
def Sys2Proof.Part.ScalarImmediateResults : Prop :=
  ∀ (s : State) (k : Nat) (im : Imm),
    let b : W64 := match im with | .short v => v.signExtend 64 | .long v => v
    ∀ e ∈ Says.aluRow (s.r k) b (.addImm im) (.subImm im) (.andImm im) (.orImm im) (.xorImm im) (.shlImm im)
        (.shrImm im) (.sarImm im) (.mulImm im) (.mulhImm false im) (.mulhImm true im) (.divImm false im)
        (.divImm true im) (.remImm false im) (.remImm true im) (.minImm false im) (.minImm true im) (.maxImm false im)
        (.maxImm true im) (.cmpImm im) (.tstImm im) ++ [(.li im, b, (s.r k).fl)],
      Runs s k e.1 → ∃ t, exec e.1 s = .next t ∧ OnlySeqs s t ∧
        Retires s t k e.1 fun r => { r with s := e.2.1, fl := e.2.2 }

/-- R334, R333, R397: the A forms complete wherever the source can be read (`State.srcVal`, of which
`ScalarSourceValues` speaks), with these results and flags; so does `sel` with its two sources; a `(pN+)` source
advances its pointer last; nothing else changes. -/
def Sys2Proof.Part.ScalarOperandResults : Prop :=
  ∀ (s : State) (k : Nat) (x : Opnd) (ty : ElemTy) (b : W64), ty.isInt = true → s.srcVal k x ty = .ok b →
    (∀ e ∈ Says.aluRow (s.r k) b (.add x ty) (.sub x ty) (.and x ty) (.or x ty) (.xor x ty) (.shl x ty) (.shr x ty)
        (.sar x ty) (.mul x ty) (.mulh false x ty) (.mulh true x ty) (.div false x ty) (.div true x ty)
        (.rem false x ty) (.rem true x ty) (.min false x ty) (.min true x ty) (.max false x ty) (.max true x ty)
        (.cmp x ty) (.tst x ty),
      Runs s k e.1 → ∃ t, exec e.1 s = .next t ∧ OnlySeqs s t ∧
        Retires s t k e.1 fun r => ({ r with s := e.2.1, fl := e.2.2 } : Seq).advance x.ptrs) ∧
    ∀ (c : SelCond) (y : Opnd) (d : W64), s.srcVal k y ty = .ok d → Runs s k (.sel c x y ty) →
      ∃ t, exec (.sel c x y ty) s = .next t ∧ OnlySeqs s t ∧
        Retires s t k (.sel c x y ty) fun r =>
          ({ r with s := if c.cond.holds r.fl then b else d } : Seq).advance (x.ptrs ++ y.ptrs)

/-- R333, R335, R52, R141, R329: what a source of the scalar mould is. From s or the literal, the low w bytes,
extended; from a pointer, the w bytes there on the sequencer's path, extended, unless a check fails: K at level U
raises PRIV, spaces B and G raise WINDOW; a misaligned access raises MISALIGN where it lies in its window; a poisoned
byte raises POISON. -/
def Sys2Proof.Part.ScalarSourceValues : Prop :=
  ∀ (s : State) (k : Nat) (ty : ElemTy), ty.isScalar = true →
    s.srcVal k .s ty = .ok (Says.ext ty (s.r k).s) ∧
    (∀ v : W64, s.srcVal k (.lit v) ty = .ok (Says.ext ty v)) ∧
    ∀ (n : BitVec 3) (i : Bool),
      let p := (s.r k).ptr n
      let x := s.srcVal k (.mem n i) ty
      (p.space = .k → s.lvlK k = false → x = .error (precise .priv)) ∧
      (p.space = .b ∨ p.space = .g → x = .error (precise .window)) ∧
      (p.space = .l → p.base.toNat + ty.bytes ≤ s.winSize k →
        (p.base.toNat % ty.bytes ≠ 0 → x = .error (precise .misalign)) ∧
        (p.base.toNat % ty.bytes = 0 →
          let bs := (List.range ty.bytes).map fun j =>
            (s.co (coreK k)).byte (cidOf k) (pathOf (qOf k)) ((s.cx (cidOf k)).slot.winBase + swzOff p.swz (p.base.toNat + j))
          (bs.any (·.2) = true → x = .error (precise .poison)) ∧
          (bs.any (·.2) = false → x = .ok (Says.ext ty (BitVec.ofNat 64 (leNat (bs.map (·.1))))))))

/-- The two-operand scalar instructions complete with the results and flags of their rules: with an immediate, with a
source operand, and what each form of source operand gives. -/
def Obligations.ScalarArithmeticResults : Prop := Part.ScalarImmediateResults ∧ Part.ScalarOperandResults ∧ Part.ScalarSourceValues

/-- R371, R403, R343, R334, R352: `ldl`, `stl`, `cvt`, `div.fp32` and `geo` complete wherever their operands can be
read or written, with these effects and no other. -/
def Obligations.ScalarMoveResults : Prop :=
  (∀ (s : State) (k : Nat) (p : PtrOp) (ty : ElemTy) (v : W64), s.srcVal k (.mem p.p p.inc) ty = .ok v →
    Runs s k (.ldl p ty) → ∃ t, exec (.ldl p ty) s = .next t ∧ OnlySeqs s t ∧
      Retires s t k (.ldl p ty) fun r => ({ r with s := v } : Seq).advance [p]) ∧
  (∀ (s : State) (k : Nat) (p : PtrOp) (y : Opnd) (ty : ElemTy) (v : W64),
    s.scrChk k ((s.r k).ptr p.p) ty.bytes ty.bytes true = .ok () → s.srcVal k y .i64 = .ok v →
    Runs s k (.stl p y ty) → ∃ t, exec (.stl p y ty) s = .next t ∧ OnlyCtxCore s t (cidOf k) (coreK k) id ∧
      Stored s t (coreK k) (cidOf k) (pathOf (qOf k))
        (kept (locOf ((s.r k).ptr p.p) (s.winBase k)) (ctxnK k) ((natLe ty.bytes v.toNat).map fun b => (b, false))) ∧
      Retires s t k (.stl p y ty) fun r => r.advance [p]) ∧
  (∀ (s : State) (k : Nat) (d ty : ElemTy) (x : Opnd) (md : Modes) (v : W64), s.srcVal k x ty = .ok v →
    Runs s k (.cvt d ty x md) → ∃ t, exec (.cvt d ty x md) s = .next t ∧ OnlySeqs s t ∧
      Retires s t k (.cvt d ty x md) fun r =>
        ({ r with s := cvtVal ((s.cx (cidOf k)).reg.fpctl.getLsbD 0) d ty md (v.toNat % 2 ^ (8 * ty.bytes)) } : Seq).advance x.ptrs) ∧
  (∀ (s : State) (k : Nat) (u : Bool) (x : Opnd) (v : W64), s.srcVal k x .fp32 = .ok v →
    Runs s k (.div u x .fp32) → ∃ t, exec (.div u x .fp32) s = .next t ∧ OnlySeqs s t ∧
      Retires s t k (.div u x .fp32) fun r =>
        ({ r with s := divFp ((s.cx (cidOf k)).reg.fpctl.getLsbD 0) r.s v } : Seq).advance x.ptrs) ∧
  (∀ (s : State) (k : Nat) (g : BitVec 2) (v : GeoVal), Runs s k (.geo g v) →
    let x : W64 := match v with | .s => (s.r k).s | .val l => l
    ∃ t, exec (.geo g v) s = .next t ∧ Retires s t k (.geo g v) id ∧
      OnlyCtx s t (cidOf k) fun c => { c with reg := match g.toNat with
        | 0 => { c.reg with geo0 := x } | 1 => { c.reg with geo1 := x }
        | 2 => { c.reg with geo2 := x &&& 0xFFFF } | _ => { c.reg with geo3 := x } })

/-! ## Pointers and control flow -/

/-- R51: an advance adds the stride, or steps inside the limit-aligned window that holds the base, mod 2^64; it changes
no other field; an operand without `+` leaves its pointer alone, and every other pointer stays. -/
def Obligations.PointerAdvanceWraps : Prop :=
  (∀ p : Ptr, p.limit = 0 → p.advance = { p with base := p.base + p.stride.signExtend 64 }) ∧
  (∀ p : Ptr, p.limit ≠ 0 →
    let w : Nat := p.base.toNat - p.base.toNat % p.limit.toNat
    p.advance = { p with base := BitVec.ofInt 64 (w + ((p.base.toNat : Int) - w + p.stride.toInt) % p.limit.toNat) }) ∧
  ∀ (r : Seq) (o : PtrOp),
    (o.inc = false → r.advance [o] = r) ∧
    (o.inc = true → ∀ n : BitVec 3, (r.advance [o]).ptr n = if n = o.p then (r.ptr n).advance else r.ptr n)

/-- R387, R49, R50, R52: the pointer instructions complete in every state in which they run, at either level; the
pointer's other fields, the other pointers, the flags and everything else stay. -/
def Obligations.PointerResults : Prop :=
  ∀ (s : State) (k : Nat) (n : BitVec 3) (sp : Space) (im : Imm) (z f : BitVec 2),
    let q := (s.r k).ptr n
    let zx : W64 := match im with | .short v => v.zeroExtend 64 | .long v => v
    let sx : W64 := match im with | .short v => v.signExtend 64 | .long v => v
    (∀ e ∈ [(Instr.pset n sp im, (⟨zx, 0, 0, sp, 0⟩ : Ptr)), (.psetS n sp, ⟨(s.r k).s, 0, 0, sp, 0⟩),
        (.pstr n im, { q with stride := sx.extractLsb' 0 32 }), (.plim n im, { q with limit := zx.extractLsb' 0 32 }),
        (.pswz n z, { q with swz := z }), (.padd n im, { q with base := q.base + sx })],
      Runs s k e.1 → ∃ t, exec e.1 s = .next t ∧ OnlySeqs s t ∧ Retires s t k e.1 fun r => r.setPtr n e.2) ∧
    (Runs s k (.pget n f) → ∃ t, exec (.pget n f) s = .next t ∧ OnlySeqs s t ∧
      Retires s t k (.pget n f) fun r => { r with s := match f.toNat with
        | 0 => q.base | 1 => q.stride.signExtend 64 | 2 => q.limit.zeroExtend 64
        | _ => BitVec.ofNat 64 (4 * q.swz.toNat + match q.space with | .l => 0 | .b => 1 | .g => 2 | .k => 3) })

/-- R21: a comparison or subtraction sets C to its borrow; `br` goes to its target exactly when the flags meet its
condition, as R21 tabulates it, and otherwise retires to the next instruction; where a sequencer fetches a word of
`br` that holds COND 15, it raises ILLEGAL. -/
def Obligations.BranchConditions : Prop :=
  (∀ (s : State) (k : Nat) (v : W64), ∀ i ∈ [Instr.cmpImm (.long v), .subImm (.long v)], Runs s k i →
    ∃ t, exec i s = .next t ∧ (t.r k).fl.c = (s.r k).s.ult v) ∧
  (∀ f : Flags, ∀ e ∈ [(Cond.eq, f.z), (.ne, !f.z), (.lt, f.n != f.v), (.ge, f.n == f.v), (.gt, !f.z && f.n == f.v),
      (.le, f.z || f.n != f.v), (.ltu, f.c), (.geu, !f.c), (.gtu, !f.c && !f.z), (.leu, f.c || f.z), (.mi, f.n),
      (.pl, !f.n), (.vs, f.v), (.vc, !f.v), (.al, true)], e.1.holds f = e.2) ∧
  (∀ (c : Cond) (s : State) (k : Nat) (o : BitVec 17), Runs s k (.br c (.rel o)) →
    ∃ t, exec (.br c (.rel o)) s = .next t ∧ OnlySeqs s t ∧
      (c.holds (s.r k).fl = true → Jumps s t k fun r => { r with pc := r.pc + o.signExtend 64 * 4 }) ∧
      (c.holds (s.r k).fl = false → Retires s t k (.br c (.rel o)) id)) ∧
  ∀ (v : BitVec 17) (len : BitVec 2) (ws : List W32) (s u : State) (k : Nat),
    let w : W32 := (0 : BitVec 3) ++ (0x30 : BitVec 6) ++ (15 : BitVec 4) ++ v ++ len
    let p := s.settle
    s.agenda = [] → s.turn = .seq k → k < 4608 * 4 * 3 → p.mayIssue k = true → p.pendNow k = [] → p.follows k = false →
    p.fetch k = .ok (w :: ws, u) → step s = woken s (.next ((u.raise k (precise .illegal)).rotate (.seq k)))

/-- R99, R336, R337, R338, R361: `jmp`, `call`, `ret` and `brx`, and `br` with a literal, complete wherever the target
is a multiple of 4 (and `brx`'s can be read); `call` leaves the next instruction's address in p7's base; a `br`
whose condition does not hold goes on to the next instruction, past its literal. -/
def Sys2Proof.Part.JumpTargets : Prop :=
  ∀ (s : State) (k : Nat) (tg : Target) (a : W64),
    (match tg with | .rel o => a = (s.r k).pc + o.signExtend 64 * 4 | .abs v => a = v ∧ v &&& 3 = 0) →
    (Runs s k (.jmp tg) → ∃ t, exec (.jmp tg) s = .next t ∧ OnlySeqs s t ∧ Jumps s t k fun r => { r with pc := a }) ∧
    (Runs s k (.call tg) → ∃ t, exec (.call tg) s = .next t ∧ OnlySeqs s t ∧
      Jumps s t k fun r => { r with
        pc := a, p7 := { r.p7 with base := r.pc + match tg with | .rel _ => 4 | .abs _ => 12 } }) ∧
    (∀ c : Cond, Runs s k (.br c tg) → c.holds (s.r k).fl = true →
      ∃ t, exec (.br c tg) s = .next t ∧ OnlySeqs s t ∧ Jumps s t k fun r => { r with pc := a }) ∧
    (∀ c : Cond, Runs s k (.br c tg) → c.holds (s.r k).fl = false →
      ∃ t, exec (.br c tg) s = .next t ∧ OnlySeqs s t ∧ Retires s t k (.br c tg) id) ∧
    (Runs s k .ret → (s.r k).p7.base &&& 3 = 0 →
      ∃ t, exec .ret s = .next t ∧ OnlySeqs s t ∧ Jumps s t k fun r => { r with pc := r.p7.base }) ∧
    ∀ (x : Opnd) (v : W64), s.brxVal k x = .ok v → v &&& 3 = 0 → Runs s k (.brx x) →
      ∃ t, exec (.brx x) s = .next t ∧ OnlySeqs s t ∧ Jumps s t k fun r => ({ r with pc := v } : Seq).advance x.ptrs

/-- R99, R337, R338: a target that is not a multiple of 4 raises MISALIGN at the branch, whatever the condition holds;
`brx` gives the target in FADDR. No control is transferred: the trap is taken in the state as it was. -/
def Sys2Proof.Part.MisalignedTargetTraps : Prop :=
  ∀ (s : State) (k : Nat) (v : W64), v &&& 3 ≠ 0 →
    (∀ i ∈ [Instr.jmp (.abs v), .call (.abs v)], Runs s k i → exec i s = .next (s.takeTrap k (precise .misalign))) ∧
    (∀ c : Cond, Runs s k (.br c (.abs v)) → exec (.br c (.abs v)) s = .next (s.takeTrap k (precise .misalign))) ∧
    ((s.r k).p7.base = v → Runs s k .ret → exec .ret s = .next (s.takeTrap k (precise .misalign))) ∧
    ∀ x : Opnd, s.brxVal k x = .ok v → Runs s k (.brx x) → exec (.brx x) s = .next (s.takeTrap k (precise .misalign v))

/-- The jumps go to their targets, and those whose target is not a multiple of 4 trap. -/
def Obligations.JumpResults : Prop := Part.JumpTargets ∧ Part.MisalignedTargetTraps

/-- R395, R57, R60: `rep` with a count other than 0 starts its body in pass 0, and captures what of the body can be
fetched; with the count 0 it goes on after the body, where the body's first words can be fetched. Nothing else changes,
but for what translating leaves. -/
def Sys2Proof.Part.RepStarts : Prop :=
  ∀ (s : State) (k : Nat) (stag : BitVec 2) (nm1 : BitVec 4) (cnt : ImmOrS),
    let n : W32 := match cnt with | .imm v => v.zeroExtend 32 | .s => (s.r k).s.extractLsb' 0 32
    Runs s k (.rep stag nm1 cnt) →
    (n ≠ 0 → ∃ u t, exec (.rep stag nm1 cnt) s = .next t ∧ Touched s u ∧ OnlySeqs u t ∧
      (t.sq k).buf.body = (s.r k).pc + 4 ∧ (t.sq k).buf.dropped = false ∧
      Jumps s t k fun r => { r with pc := r.pc + 4, rep := ⟨true, 0, n, nm1, 0, stag, r.pc + 4⟩ }) ∧
    ∀ a u, n = 0 → s.skipBody k (nm1.toNat + 1) ((s.r k).pc + 4) = .ok (a, u) →
      ∃ t, exec (.rep stag nm1 cnt) s = .next t ∧ Touched s u ∧ OnlySeqs u t ∧ Jumps s t k fun r => { r with pc := a }

/-- R57 to R60: after an instruction of the body, the next position; after the last, the next pass at BODY; after the
last pass, the instruction after the body with REPSTATE inactive. Outside a `rep`, the next instruction. That a
`cpy` with its follow-on takes two positions is the model's reading (assumption 31). -/
def Sys2Proof.Part.RepetitionOrder : Prop :=
  ∀ (s u : State) (k : Nat) (i : Instr), s.follows k = false → u.sq k = s.sq k →
    let r := s.r k
    let n := match i with | .cpy _ (some _) => 2 | _ => 1
    let next := r.pc + BitVec.ofNat 64 (4 * (encode i).length)
    let r' := (deliver s k i (.done u)).r k
    (r.rep.act = false → r'.pc = next ∧ r'.rep = r.rep) ∧
    (r.rep.act = true →
      (r.rep.pos.toNat + n ≤ r.rep.nm1.toNat → r'.pc = next ∧ r'.rep = { r.rep with pos := r.rep.pos + BitVec.ofNat 4 n }) ∧
      (r.rep.nm1.toNat < r.rep.pos.toNat + n →
        (r.rep.pass + 1 < r.rep.count → r'.pc = r.rep.body ∧ r'.rep = { r.rep with pass := r.rep.pass + 1, pos := 0 }) ∧
        (¬ r.rep.pass + 1 < r.rep.count → r'.pc = next ∧ r'.rep.act = false)))

/-- `rep` starts a repetition, and instructions retire through its positions and passes. That a `cpy` with its follow-on
takes two positions is the model's reading (assumption 31). -/
def Obligations.RepetitionResults : Prop := Part.RepStarts ∧ Part.RepetitionOrder

/-! ## Vector instructions -/

namespace Sys2Proof.Says

/-- FPCTL.FZ and the mask of the executing context. -/
def fz (s : State) (k : Nat) : Bool := (s.cx (cidOf k)).reg.fpctl.getLsbD 0
def maskOf (s : State) (k : Nat) : W16 := (s.cx (cidOf k)).reg.m

/-- The accumulator that a field names: under `rep`, (field + pass x stag) mod 4 (R58). -/
def accNum (s : State) (k : Nat) (a : BitVec 2) : BitVec 2 :=
  let p := (s.r k).rep
  if p.act then BitVec.ofNat 2 (a.toNat + p.pass.toNat * p.stag.toNat) else a

/-- Lane l of the accumulator that a field names. -/
def accLane (s : State) (k : Nat) (a : BitVec 2) (l : Nat) : W32 := lane ((s.cx (cidOf k)).reg.acc (accNum s k a)) l

/-- The context's only change is that the lanes which `m` selects of the named accumulator hold `new` (R416); the
sequencer's registers change as `f` says, then the pc advances. -/
def Lanes (s t : State) (k : Nat) (i : Instr) (a : BitVec 2) (new : Nat → W32) (f : Seq → Seq) : Prop :=
  Retires s t k i f ∧ ∃ v : Line,
    (∀ l < 16, lane v l = if (maskOf s k).getLsbD l then new l else accLane s k a l) ∧
    OnlyCtx s t (cidOf k) fun c => { c with reg := c.reg.setAcc (accNum s k a) v }

/-- The context's only change is its mask; Z tells whether it is zero, N, C and V are 0. -/
def MaskSet (s t : State) (k : Nat) (i : Instr) (new : Nat → Bool) (ps : List PtrOp) : Prop :=
  ∃ m : W16, (∀ l < 16, m.getLsbD l = new l) ∧
    OnlyCtx s t (cidOf k) (fun c => { c with reg := { c.reg with m := m } }) ∧
    Retires s t k i fun r => ({ r with fl := ⟨m == 0, false, false, false⟩ } : Seq).advance ps

/-- An integer result in a lane: modulo 2^32, or clamped to the lane type (R71). -/
def intRes (t : ElemTy) (sat : Bool) (i : Int) : W32 :=
  BitVec.ofInt 32 (if sat then (if t.signed then max (-2147483648) (min 2147483647 i) else max 0 (min 4294967295 i)) else i)

/-- A lane as an integer of its lane type. -/
def laneVal (t : ElemTy) (w : W32) : Int := if t.signed then w.toInt else w.toNat

/-- A lane as a result of FP32 arithmetic on exact values: rounded once, then flushed (R79, R80, R82). -/
def fpRes (fz : Bool) (md : Modes) (x : Ex) : W32 := flush32 fz (roundFP32 x md.rnd md.sat)

/-- The two-source operations on lanes (R426 to R428): the destination's old lane, both source lanes. -/
def vecRow (t : ElemTy) (md : Modes) (fz : Bool) (a : BitVec 2) (x y : Opnd) : List (Instr × (W32 → W32 → W32 → W32)) :=
  let fl := t.isFloat
  let v := laneVal t
  let e := ex32
  [(.vadd a x y t md, fun _ p q => if fl then fpRes fz md ((e p).add md.rnd (e q)) else intRes t md.sat (v p + v q)),
   (.vsub a x y t md, fun _ p q => if fl then fpRes fz md ((e p).add md.rnd (e q).neg) else intRes t md.sat (v p - v q)),
   (.vmul a x y t md, fun _ p q => if fl then fpRes fz md ((e p).mul (e q)) else intRes t md.sat (v p * v q)),
   (.vmac a x y t md, fun d p q =>
      if fl then fpRes fz md ((e d).add md.rnd ((e p).mul (e q))) else intRes t md.sat (v d + v p * v q)),
   (.vmin a x y t, fun _ p q => if fl then flush32 fz (fmin32 p q) else if v p ≤ v q then p else q),
   (.vmax a x y t, fun _ p q => if fl then flush32 fz (fmax32 p q) else if v p ≤ v q then q else p),
   (.vand a x y t, fun _ p q => p &&& q), (.vor a x y t, fun _ p q => p ||| q), (.vxor a x y t, fun _ p q => p ^^^ q),
   (.vshl a x y t, fun _ p q => p <<< (q.toNat % 32)),
   (.vshr a x y t, fun _ p q => if t.signed then p.sshiftRight (q.toNat % 32) else p >>> (q.toNat % 32)),
   (.vscale a x y t md, fun _ p q => fpRes fz md ((e p).scale q.toInt))]

/-- The one-source operations on lanes (R424, R426, R429, R430). -/
def unRow (t d : ElemTy) (md : Modes) (fz : Bool) (a : BitVec 2) (x : Opnd) : List (Instr × (W32 → W32)) :=
  let fl := t.isFloat
  [(.vsel a x t, id),
   (.vabs a x t md.sat, fun p => if fl then flush32 fz (if isNan32 p then 0x7FC00000 else p &&& 0x7FFFFFFF)
      else intRes t md.sat (laneVal t p).natAbs),
   (.vneg a x t md.sat, fun p => if fl then flush32 fz (if isNan32 p then 0x7FC00000 else p ^^^ 0x80000000)
      else intRes t md.sat (-laneVal t p)),
   (.vexp2 a x t md, fun p => flush32 fz (Transc.exp2 p)), (.vrcp a x t md, fun p => flush32 fz (Transc.rcp p)),
   (.vrsq a x t md, fun p => flush32 fz (Transc.rsq p)), (.vcvt a d t x md, cvtLane d t md fz)]

end Sys2Proof.Says

/-- R415, R417, R58: what a vector source is: 16 elements at an aligned pointer, widened to lanes; an accumulator's
lanes; s or the literal in every lane. A misaligned pointer into the window raises MISALIGN, a poisoned byte POISON. -/
def Sys2Proof.Part.VectorSourceValues : Prop :=
  ∀ (s : State) (k : Nat) (ty : ElemTy), ty.isVector = true →
    (∀ a, s.vsrc k (.acc a) ty = .ok ((List.range 16).map (Says.accLane s k a))) ∧
    s.vsrc k .s ty = .ok (List.replicate 16 ((s.r k).s.extractLsb' 0 32)) ∧
    (∀ v, s.vsrc k (.lit v) ty = .ok (List.replicate 16 (v.extractLsb' 0 32))) ∧
    ∀ (n : BitVec 3) (i : Bool),
      let p := (s.r k).ptr n
      let x := s.vsrc k (.mem n i) ty
      (p.space = .k → s.lvlK k = false → x = .error (precise .priv)) ∧
      (p.space = .b ∨ p.space = .g → x = .error (precise .window)) ∧
      (p.space = .l → p.base.toNat + 16 * ty.bytes ≤ s.winSize k →
        (p.base.toNat % (16 * ty.bytes) ≠ 0 → x = .error (precise .misalign)) ∧
        (p.base.toNat % (16 * ty.bytes) = 0 →
          let at_ (j : Nat) := (s.co (coreK k)).byte (cidOf k) (pathOf (qOf k))
            ((s.cx (cidOf k)).slot.winBase + swzOff p.swz (p.base.toNat + j))
          ((∃ j < 16 * ty.bytes, (at_ j).2 = true) → x = .error (precise .poison)) ∧
          ((∀ j < 16 * ty.bytes, (at_ j).2 = false) → x = .ok ((List.range 16).map fun l =>
            toLane ty (leNat ((List.range ty.bytes).map fun j => (at_ (l * ty.bytes + j)).1)))))) ∧
      (p.space = .l → s.winSize k < p.base.toNat + 16 * ty.bytes → x = .error (precise .window))

/-- R416, R426 to R428, R425: the two-source vector instructions complete wherever both sources can be read, in the
lanes that `m` selects, and change nothing else but an advanced pointer. -/
def Sys2Proof.Part.VectorTwoSources : Prop :=
  ∀ (s : State) (k : Nat) (a : BitVec 2) (x y : Opnd) (ty : ElemTy) (md : Modes) (xs ys : List W32),
    s.vsrc k x ty = .ok xs → s.vsrc k y ty = .ok ys →
    ∀ e ∈ Says.vecRow ty md (Says.fz s k) a x y, Runs s k e.1 →
      ∃ t, exec e.1 s = .next t ∧
        Says.Lanes s t k e.1 a (fun l => e.2 (Says.accLane s k a l) (xs.getD l 0) (ys.getD l 0))
          fun r => r.advance (x.ptrs ++ y.ptrs)

/-- The vector instructions with two sources complete with the results of their rules, and what each form of source
gives. -/
def Obligations.VectorTwoSourceResults : Prop := Part.VectorSourceValues ∧ Part.VectorTwoSources

/-- R423 to R426, R429, R430, R425: the one-source vector instructions, `vbcast` and `vperm`. -/
def Sys2Proof.Part.VectorOneSource : Prop :=
  ∀ (s : State) (k : Nat) (a : BitVec 2) (x : Opnd) (ty d : ElemTy) (md : Modes) (xs : List W32),
    (s.vsrc k x ty = .ok xs → ∀ e ∈ Says.unRow ty d md (Says.fz s k) a x, Runs s k e.1 → ∃ t, exec e.1 s = .next t ∧
      Says.Lanes s t k e.1 a (fun l => e.2 (xs.getD l 0)) fun r => r.advance x.ptrs) ∧
    (∀ y, s.vsrc k x ty = .ok xs → Runs s k (.vperm a x y ty) → ∃ t, exec (.vperm a x y ty) s = .next t ∧
      Says.Lanes s t k (.vperm a x y ty) a
        (fun l => xs.getD (match y with
          | .acc b => (Says.accLane s k b l).toNat % 16 | .lit v => v.toNat / 16 ^ l % 16 | _ => (s.r k).s.toNat / 16 ^ l % 16) 0)
        fun r => r.advance x.ptrs) ∧
    (∀ (p : BitVec 3) (i : Bool) (b : List Byte), s.scrVal k ((s.r k).ptr p) ty.bytes ty.bytes false = .ok b →
      Runs s k (.vbcast a (.mem p i) ty) → ∃ t, exec (.vbcast a (.mem p i) ty) s = .next t ∧
        Says.Lanes s t k (.vbcast a (.mem p i) ty) a (fun _ => toLane ty (leNat b)) fun r => r.advance [⟨p, i⟩]) ∧
    (x.isMem = false → s.vsrc k x ty = .ok xs → Runs s k (.vbcast a x ty) → ∃ t, exec (.vbcast a x ty) s = .next t ∧
      Says.Lanes s t k (.vbcast a x ty) a (fun l => xs.getD l 0) id)

/-- R431, R434, R435, R220: the reductions and lane tests leave their result in s, and change nothing else but the flags
that their entry names and an advanced pointer; `vmaxi` keeps the payload of a NaN (assumption 93). -/
def Sys2Proof.Part.VectorToScalarResults : Prop :=
  ∀ (s : State) (k : Nat) (x : Opnd) (ty : ElemTy) (rnd : RMode) (xs : List W32) (nz : List Bool) (a : BitVec 2) (sel : W16),
    (s.vsrc k x ty = .ok xs → Runs s k (.vred x ty rnd) → ∃ t, exec (.vred x ty rnd) s = .next t ∧ OnlySeqs s t ∧
      let v := if ty.isFloat then (flush32 (Says.fz s k) (pairTree rnd 4 xs)).zeroExtend 64
        else BitVec.ofInt 64 (xs.map (Says.laneVal ty)).sum
      Retires s t k (.vred x ty rnd) fun r => ({ r with s := v } : Seq).advance x.ptrs) ∧
    (s.vsrc k x ty = .ok xs → xs.length = 16 → Runs s k (.vmaxi x ty) → ∃ t, exec (.vmaxi x ty) s = .next t ∧
      OnlySeqs s t ∧ ∃ i < 16,
        (∀ j < 16, rankLane ty (xs.getD j 0) ≤ rankLane ty (xs.getD i 0)) ∧
        (∀ j < i, rankLane ty (xs.getD j 0) < rankLane ty (xs.getD i 0)) ∧
        Retires s t k (.vmaxi x ty) fun r =>
          ({ r with s := BitVec.ofNat 64 (i * 2 ^ 32 + (xs.getD i 0).toNat) } : Seq).advance x.ptrs) ∧
    (s.nzElems k x ty = .ok nz → Runs s k (.vpop x ty) → ∃ t, exec (.vpop x ty) s = .next t ∧ OnlySeqs s t ∧
      let n := nz.count true
      Retires s t k (.vpop x ty) fun r =>
        ({ r with s := BitVec.ofNat 64 n, fl := ⟨n == 0, false, false, false⟩ } : Seq).advance x.ptrs) ∧
    (Runs s k (.vmeta a sel) → ∃ t, exec (.vmeta a sel) s = .next t ∧ OnlySeqs s t ∧ ∃ v : W16,
      (∀ l < 16, v.getLsbD l = (sel.getLsbD l && (List.range 4).any fun g =>
        decide (((List.range 8).filter fun b => (Says.accLane s k a l).getLsbD (8 * g + b)).length ≠ 4))) ∧
      Retires s t k (.vmeta a sel) fun r => { r with s := v.zeroExtend 64, fl := ⟨v == 0, false, false, false⟩ })

/-- R432, R433, R82: `vcmp` and the forms of `vmset`: the mask, lane by lane, and its flags. A comparison with a NaN
holds for `ne` alone. -/
def Sys2Proof.Part.VectorMaskResults : Prop :=
  ∀ (s : State) (k : Nat) (pred : BitVec 2) (x y : Opnd) (ty : ElemTy) (xs ys : List W32) (v : W64) (nz : List Bool),
    (s.vsrc k x ty = .ok xs → s.vsrc k y ty = .ok ys → xs.length = 16 → ys.length = 16 →
      Runs s k (.vcmp pred x y ty) → ∃ t, exec (.vcmp pred x y ty) s = .next t ∧
      Says.MaskSet s t k (.vcmp pred x y ty) (fun l =>
        let p := xs.getD l 0
        let q := ys.getD l 0
        let nan := ty.isFloat && (isNan32 p || isNan32 q)
        let a := if ty.isFloat then val32 p else Says.laneVal ty p
        let b := if ty.isFloat then val32 q else Says.laneVal ty q
        match pred.toNat with
        | 0 => !nan && decide (a = b) | 1 => !nan && decide (a < b) | 2 => !nan && decide (a ≤ b) | _ => nan || decide (a ≠ b))
        (x.ptrs ++ y.ptrs)) ∧
    (s.srcVal k x .i64 = .ok v → Runs s k (.vmset x) → ∃ t, exec (.vmset x) s = .next t ∧
      Says.MaskSet s t k (.vmset x) (fun l => v.getLsbD l) []) ∧
    (s.nzElems k x ty = .ok nz → nz.length = 16 → Runs s k (.vmsetNz x ty) → ∃ t, exec (.vmsetNz x ty) s = .next t ∧
      Says.MaskSet s t k (.vmsetNz x ty) (fun l => nz.getD l false) x.ptrs) ∧
    (Runs s k .vmsetNot → ∃ t, exec .vmsetNot s = .next t ∧
      Says.MaskSet s t k .vmsetNot (fun l => !(Says.maskOf s k).getLsbD l) []) ∧
    (Runs s k .vmsetRead → ∃ t, exec .vmsetRead s = .next t ∧ OnlySeqs s t ∧
      Retires s t k .vmsetRead fun r => { r with s := (Says.maskOf s k).zeroExtend 64 })

/-- The vector instructions with one source, those whose result is a scalar, and those that set the mask complete with
the results of their rules. -/
def Obligations.VectorOneSourceResults : Prop := Part.VectorOneSource ∧ Part.VectorToScalarResults ∧ Part.VectorMaskResults

/-- R421, R422, R219, R436, R437: the vector instructions that load, store, compress and pack: the lanes or the bytes
that they write, on the compute path, and nothing else. -/
def Obligations.VectorMemoryResults : Prop :=
  ∀ (s : State) (k : Nat) (a : BitVec 2) (p d : PtrOp) (y : Opnd) (ty : ElemTy) (md : Modes) (es : List Nat) (ys : List W32)
    (bs : List Byte) (sat : Bool),
    let c := cidOf k
    let dst := locOf ((s.r k).ptr d.p) (s.winBase k)
    (s.vmem k p.p ty true = .ok es → Runs s k (.vld a p ty) → ∃ t, exec (.vld a p ty) s = .next t ∧
      Says.Lanes s t k (.vld a p ty) a (fun l => (es.map (toLane ty)).getD l 0) fun r => r.advance [p]) ∧
    (s.scrChk k ((s.r k).ptr d.p) (16 * ty.bytes) (16 * ty.bytes) true = .ok () → s.vsrc k y ty = .ok ys →
      Runs s k (.vst d y ty md) → ∃ t, exec (.vst d y ty md) s = .next t ∧ OnlyCtxCore s t c (coreK k) id ∧
      Retires s t k (.vst d y ty md) (fun r => r.advance [d]) ∧
      Stored s t (coreK k) c .c (kWrites (ctxnK k) ((List.range 16).flatMap fun l => if (Says.maskOf s k).getLsbD l then
          (List.range ty.bytes).map fun j => (dst.key (ctxnK k) (ty.bytes * l + j),
            ((BitVec.ofNat 8 (storeElem (Says.fz s k) ty md (ys.getD l 0) / 256 ^ j) : Byte), false))
        else []))) ∧
    (scrCheck ((s.r k).ptr d.p) (s.lvlK k) (s.winSize k) 16 = none →
      scrCheck ((s.r k).ptr p.p) (s.lvlK k) (s.winSize k) 32 = none →
      ((s.r k).ptr p.p).base.toNat % 32 = 0 → ((s.r k).ptr d.p).base.toNat % 16 = 0 →
      State.consume (s.scrAt k ((s.r k).ptr p.p) 32) = .ok bs → Runs s k (.vcprs a d p ty) →
      ∃ t, exec (.vcprs a d p ty) s = .next t ∧
        Retires s t k (.vcprs a d p ty) (fun r => r.advance [d, p]) ∧
        Stored s t (coreK k) c (pathOf (qOf k)) (kept dst (ctxnK k) (clean (compress ty bs).1)) ∧
        ∃ v : Line, (∀ l < 16, lane v l = if (Says.maskOf s k).getLsbD l then
            (if l = 15 then (compress ty bs).2 else Says.accLane s k a (l + 1)) else Says.accLane s k a l) ∧
          OnlyCtxCore s t c (coreK k) fun x => { x with reg := x.reg.setAcc (Says.accNum s k a) v }) ∧
    (s.packChk k ((s.r k).ptr d.p) ((s.r k).ptr p.p) 16 80 = .ok bs → (∀ b ∈ bs, (tritOf sat b).isSome = true) →
      Runs s k (.vpackt d p sat) → ∃ t, exec (.vpackt d p sat) s = .next t ∧ OnlyCtxCore s t c (coreK k) id ∧
      Retires s t k (.vpackt d p sat) (fun r => r.advance [d, p]) ∧
      Stored s t (coreK k) c (pathOf (qOf k))
        (kept dst (ctxnK k) (clean (packTrits 16 (bs.map fun b => (tritOf sat b).getD 0))))) ∧
    (s.packChk k ((s.r k).ptr d.p) ((s.r k).ptr p.p) 80 16 = .ok bs → (∀ b ∈ bs, b.toNat < 243) →
      Runs s k (.vunpkt d p) → ∃ t, exec (.vunpkt d p) s = .next t ∧ OnlyCtxCore s t c (coreK k) id ∧
      Retires s t k (.vunpkt d p) (fun r => r.advance [d, p]) ∧
      Stored s t (coreK k) c (pathOf (qOf k)) (kept dst (ctxnK k) (clean (bs.flatMap fun b =>
        (List.range 5).map fun j => match b.toNat / 3 ^ j % 3 with | 1 => 1 | 2 => 255 | _ => 0))))

/-! ## Global memory, order, queues -/

/-- R367, R369, R370, R372, R401, R402: a global load or store completes wherever its access passes its checks
(`gAccess`; for `ldrow` those of R372): it retires with the pointers advanced, an operation of that width at the
translated address is in flight, `lc` or `sc` is one more, and nothing else changes but for the translation. -/
def Sys2Proof.Part.GlobalAccessIssues : Prop :=
  ∀ (s u : State) (k : Nat) (w : GWidth) (d g : PtrOp) (y : Opnd) (ver : Bool) (x : Xl),
    let c := cidOf k
    let pd := (s.r k).ptr d.p
    let pg := (s.r k).ptr g.p
    let issued (t : State) (i : Instr) (kind : LoadKind) (n : Nat) : Prop :=
      Touched s u ∧ Retires s t k i (fun r => r.advance [d, g]) ∧
      OnlyCtx u t c fun a => { a with
        n := { a.n with lc := a.n.lc + 1 }
        f := { a.f with loads := a.f.loads ++ [⟨u.nextId, qOf k, kind, x, n, locOf pd (s.winBase k), none⟩] } }
    (s.gAccess k (some pd) pg w.bytes .read false = .ok (x, u) →
      (Runs s k (.ldg w d g) → ∃ t, exec (.ldg w d g) s = .next t ∧ issued t (.ldg w d g) .plain w.bytes) ∧
      (Runs s k (.ldh w d g) → ∃ t, exec (.ldh w d g) s = .next t ∧ issued t (.ldh w d g) .home w.bytes)) ∧
    (spaceChk pd (s.lvlK k) = none → pg.space = .g → pd.base.toNat % 64 = 0 → s.place1 k pg.base .rowRead = .ok (x, u) →
      s.rowSize x.ha ≠ 0 → rangeChk pd (s.winSize k) (if ver then s.rowSize x.ha + 8 else s.rowSize x.ha) = none →
      Runs s k (.ldrow ver d g) →
      ∃ t, exec (.ldrow ver d g) s = .next t ∧ issued t (.ldrow ver d g) (.row ver) (s.rowSize x.ha)) ∧
    (s.gAccess k (match y with | .mem p _ => some ((s.r k).ptr p) | _ => none) pg w.bytes .write true = .ok (x, u) →
      Runs s k (.stg w g y) → ∃ t, exec (.stg w g y) s = .next t ∧ Touched s u ∧
        Retires s t k (.stg w g y) (fun r => r.advance (g :: y.ptrs)) ∧
        let v : List PByte := match y with
          | .mem p _ => s.scrAt k ((s.r k).ptr p) w.bytes
          | .lit l => clean (natLe w.bytes l.toNat)
          | _ => clean (natLe w.bytes (s.r k).s.toNat)
        OnlyCtx u t c fun a => { a with
          n := { a.n with sc := a.n.sc + 1 }
          f := { a.f with stores := a.f.stores ++ [⟨u.nextId, qOf k, cacheable x.cc && !isMmio x.ha, x, [(x.ha, v)], []⟩] } })

/-- R52, R368, R402: a global address in space L or B raises WINDOW; one in space K raises PRIV at level U, and WINDOW
at level K. A misaligned access whose bytes pass the checks raises MISALIGN (R141); one that touches a register
raises PROT (R323). Otherwise the access fails or succeeds as the page's translation does. -/
def Sys2Proof.Part.GlobalAccessChecks : Prop :=
  ∀ (s : State) (k : Nat) (g : Ptr) (n : Nat) (x : XKind) (b : Bool),
    let a := s.gAccess k none g n x b
    (g.space = .l ∨ g.space = .b → a = .error (precise .window)) ∧
    (g.space = .k → a = .error (precise (if s.lvlK k then .window else .priv))) ∧
    (g.space = .g → g.base.toNat % n ≠ 0 → ∀ xs u, s.translateAll (s.who k) g.base n x = .ok (xs, u) →
      ((∀ i < n, isMmio (xlAt xs g.base i).ha = false) → a = .error (precise .misalign)) ∧
      ∀ i < n, isMmio (xlAt xs g.base i).ha = true → (∀ j < i, isMmio (xlAt xs g.base j).ha = false) →
        a = .error (precise .prot (g.base + BitVec.ofNat 64 i))) ∧
    (g.space = .g → g.base.toNat % n = 0 → ∀ e, s.translateOne (s.who k) g.base x = .error e →
      a = .error (e.trap false x.isWrite)) ∧
    (g.space = .g → g.base.toNat % n = 0 → ∀ xl u, s.translateOne (s.who k) g.base x = .ok (xl, u) → isMmio xl.ha = false →
      a = .ok (xl, u))

/-- Global loads and stores issue where their checks pass, and what those checks are. The model's readings: assumptions
9, 13, 14 and 43. -/
def Obligations.GlobalAccessResults : Prop := Part.GlobalAccessIssues ∧ Part.GlobalAccessChecks

/-- R163, R396: `rwb` and `rinv` complete wherever the range is in space G and translates for maintenance, and the
sequencer has no store of its own on the way into the range: lines that are dirty there are to be written back under
one count of `sc`; `rinv` drops the range's clean lines, in the cache and in the pool, and leaves of the dirty ones
the dirty bytes alone. The wait for the sequencer's own stores is the model's reading (assumption 35). -/
def Obligations.MaintenanceResults : Prop :=
  ∀ (s u : State) (k : Nat) (inv : Bool) (p : BitVec 3) (len : ImmOrS) (ps : List Xl),
    let pg := (s.r k).ptr p
    let n : Nat := match len with | .imm v => v.toNat | .s => (s.r k).s.toNat % 2 ^ 32
    let i : Instr := if inv then .rinv p len else .rwb p len
    let inR (l : Nat) : Bool := State.inPages ps pg.base n l
    let m := coreK k
    let back := u.dirtyIn m inR
    pg.space = .g → s.pages k pg.base n .maint = .ok (ps, u) → u.ownStores k inR = false → Runs s k i →
    ∃ t, exec i s = .next t ∧ Touched s u ∧ Retires s t k i id ∧
      (∀ c, t.cx c = if c = cidOf k ∧ back ≠ [] then
          { u.cx c with
            n := { (u.cx c).n with sc := (u.cx c).n.sc + 1 }
            f := { (u.cx c).f with stores := (u.cx c).f.stores ++ [⟨u.nextId, qOf k, false, ⟨0, 0, false, 0⟩, [], back⟩] } }
        else u.cx c) ∧
      { t with seqs := u.seqs, ctxs := u.ctxs, cores := u.cores, benches := u.benches, nextId := u.nextId } = u ∧
      (∀ c, c ≠ m ∨ inv = false → t.co c = u.co c) ∧ (∀ b, b ≠ benchOf m ∨ inv = false → t.be b = u.be b) ∧
      (inv = true → ((t.co m).cache = ((u.co m).cache.filter fun l => l.isDirty || !inR l.line).map fun l =>
          if inR l.line then { l with filled := false } else l) ∧
        (t.be (benchOf m)).pool = ((u.be (benchOf m)).pool.filter fun l => l.c.isDirty || !inR l.c.line).map fun l =>
          if inR l.c.line then { l with c := { l.c with filled := false } } else l)

/-- R398, R451, R144, R389: the stitch-map instructions, `wait` and `pwait` complete, and do this and nothing else;
where a bit is missing or the counter is above its bound, they stall; a step that leaves the counter of a `wait`
that has stalled at its bound or below releases it, and it completes whatever the counter is then. After `pwait`, no
write of the context's that it names stays hidden from the path. A step that stalls counts one (assumption 7); what
a path sees earlier is a free choice (assumption 11). -/
def Obligations.OrderingResults : Prop :=
  ∀ (s : State) (k : Nat) (map : BitVec 4) (mk : Mask) (ctr : Ctr) (n : BitVec 17) (src dst : Path),
    let c := cidOf k
    let v := mk.bits
    let sm := (s.cx c).reg.map map
    let seen (t : State) (src dst : Path) : Prop :=
      ∀ m, ∀ h ∈ (t.co m).hidden, ¬(h.writer = src ∧ h.reader = dst ∧ h.cid = c)
    let scr (t : State) : Prop := { t with seqs := s.seqs, cores := s.cores } = s ∧
      ∀ m, { t.co m with hidden := (s.co m).hidden } = s.co m
    (Runs s k (.smtest map mk) → ∃ t, exec (.smtest map mk) s = .next t ∧ OnlySeqs s t ∧
      Retires s t k (.smtest map mk) fun r => { r with s := sm &&& v, fl := ⟨sm &&& v == v, false, false, false⟩ }) ∧
    (Runs s k (.smclr map mk) → ∃ t, exec (.smclr map mk) s = .next t ∧ Retires s t k (.smclr map mk) id ∧
      ∃ g : CtxReg, OnlyCtx s t c (fun a => { a with reg := g }) ∧ g.map map = sm &&& ~~~v ∧
        (∀ m, m ≠ map → g.map m = (s.cx c).reg.map m) ∧
        { g with sm := (s.cx c).reg.sm, smSeq := (s.cx c).reg.smSeq } = (s.cx c).reg) ∧
    (Runs s k (.smwait map mk) →
      (sm &&& v = v → ∃ t, exec (.smwait map mk) s = .next t ∧ scr t ∧ seen t .k (pathOf (qOf k)) ∧
        Retires s t k (.smwait map mk) id) ∧
      (sm &&& v ≠ v → exec (.smwait map mk) s = .next (s.stall k .smap))) ∧
    (Runs s k (.wait ctr n) →
      ((s.sq k).released = true ∨ (s.cx c).n.get ctr ≤ n.toNat → ∃ t, exec (.wait ctr n) s = .next t ∧ OnlySeqs s t ∧
        Retires s t k (.wait ctr n) id) ∧
      ((s.sq k).released = false → n.toNat < (s.cx c).n.get ctr → exec (.wait ctr n) s =
        .next ((s.modSq k fun q => { q with waitAt := some (ctr, n.toNat) }).stall k (waitCause ctr)))) ∧
    (Runs s k (.pwait src dst) → ∃ t, exec (.pwait src dst) s = .next t ∧ scr t ∧
      (src ≠ dst → seen t src dst) ∧ (src = dst → OnlySeqs s t) ∧ Retires s t k (.pwait src dst) id) ∧
    ∀ u b, stepFrom s = .next u → (u.sq k).waitAt = some (ctr, b) → (u.cx c).n.get ctr ≤ b →
      ∃ t, step s = .next t ∧ (t.sq k).released = true ∧ t.ctxs = u.ctxs ∧ t.h = u.h ∧ t.cores = u.cores

/-- R151, R152, R388: a `phase` whose lines no home holds back completes: afterwards the core cache holds no line of the
classes that it acts on, and at device or domain scope the bench's pool holds none dirty; the dirty bytes of the
core's lines, and at device or domain scope of the pool's, are then at their homes, or, at bench scope with a pool,
dirty in the pool or at their homes; lines of the other classes stay as they were; no register of any context
changes but STALE. (Lines of the lehr and of views, those behind a write that waits, and lines held under two keys
have their own rules, and so do NMC pages.) While a home holds a line back, the `phase` stalls. What waits is the
model's reading (assumptions 7 and 57). -/
def Obligations.PhaseResults : Prop :=
  ∀ (s : State) (k : Nat) (sc : Scope), Runs s k (.phase sc) →
    let m := coreK k
    let home := sc != .bench
    let pool := (s.be (benchOf m)).pool
    let plain (l : CLine) : Prop := isLehr (l.line * 64) = false ∧ (∀ e ∈ s.h.late, e.line ≠ l.line) ∧
      (∀ h : Homes, h.frrs = s.h.frrs → ∀ w ∈ l.writes, h.discards w.1 = false) ∧
      (∀ x ∈ (s.co m).cache, x.line = l.line → x.key = l.key) ∧ ∀ p ∈ pool, p.c.line = l.line → p.c.key = l.key
    ((∀ l ∈ s.closeHome m home, s.writeHeld l = false) → ∃ t, exec (.phase sc) s = .next t ∧
      Retires s t k (.phase sc) id ∧
      (∀ l ∈ (t.co m).cache, State.phased l.cc = false) ∧
      (∀ l ∈ (s.co m).cache, State.phased l.cc = false → (∀ x ∈ (s.co m).cache, x.line = l.line → x = l) →
        l ∈ (t.co m).cache) ∧
      (home = true → ∀ p ∈ (t.be (benchOf m)).pool, p.c.isDirty = false) ∧
      ((∀ x ∈ (s.co m).cache, x.cc ≠ 4) → (∀ p ∈ pool, p.c.cc ≠ 4) →
        (∀ l ∈ (s.co m).cache, State.phased l.cc = true → (∀ x ∈ (s.co m).cache, x.line = l.line → x = l) → plain l →
          ∀ w ∈ l.writes, (t.h.raw l.key w.1).1 = w.2.1 ∨
            home = false ∧ s.hasPool (benchOf m) = true ∧ ∃ p, (t.be (benchOf m)).find l.line = some p ∧
              p.c.key = l.key ∧ p.c.dirty.getLsbD (w.1 % 64) = true ∧ (p.c.byte (w.1 % 64)).1 = w.2.1) ∧
        (home = true → ∀ p ∈ pool, (∀ x ∈ pool, x.c.line = p.c.line → x = p) → plain p.c → ∀ w ∈ p.c.writes,
          (∀ x ∈ (s.co m).cache, x.line = p.c.line → x.dirty.getLsbD (w.1 % 64) = false) →
            (t.h.raw p.c.key w.1).1 = w.2.1)) ∧
      (∀ d, d ≠ m → t.co d = s.co d) ∧ (t.co m).scr = (s.co m).scr ∧
      ∀ d, { (t.cx d).reg with stale := (s.cx d).reg.stale } = (s.cx d).reg ∧ (t.cx d).n = (s.cx d).n ∧ (t.cx d).q = (s.cx d).q) ∧
    ((∃ l ∈ s.closeHome m home, s.writeHeld l = true) → exec (.phase sc) s = .next (s.stall k .phaseDrain))

/-- R165, R166, R408: the token instructions. `tokacq` by the holder completes at once with Z = 1, or with Z = 0 where
it has queued and was granted; otherwise it queues once and stalls. `tokpass` by the holder, with none of its writes
into the block on the way, makes the token FREE; without the token it raises TOKEN. The home grants a FREE token to
the oldest request. -/
def Obligations.TokenResults : Prop :=
  (∀ (s u : State) (k b : Nat) (p : BitVec 3), s.tokBlock k p = .ok (b, u) →
    let c := cidOf k
    (Runs s k (.tokacq p) →
      ((u.tok b).holder = some c → ∃ t, exec (.tokacq p) s = .next t ∧ (∀ x, t.tok x = u.tok x) ∧
        (∀ d, t.cx d = u.cx d) ∧ t.h = u.h ∧
        Retires s t k (.tokacq p) fun r => { r with fl := ⟨!u.queued k b, false, false, false⟩ }) ∧
      ((u.tok b).holder ≠ some c → ∃ t, exec (.tokacq p) s = .next t ∧ t.r k = u.r k ∧ t.queued k b = true ∧
        (u.queued k b = false → (u.tok b).queue.contains c = false → (t.tok b).queue = (u.tok b).queue ++ [c]))) ∧
    (Runs s k (.tokpass p) →
      ((u.tok b).holder = some c → u.tokBusy c b = false → ∃ t, exec (.tokpass p) s = .next t ∧
        (t.tok b).holder = none ∧ (t.tok b).queue = (u.tok b).queue ∧ (∀ x, x ≠ b → t.tok x = u.tok x) ∧
        Retires s t k (.tokpass p) fun r => { r with fl := ⟨r.fl.z, false, false, false⟩ }) ∧
      ((u.tok b).holder ≠ some c → exec (.tokpass p) s = .next (s.takeTrap k (precise .token))))) ∧
  ∀ (s : State) (b c : Nat) (rest : List Nat), (s.tok b).holder = none → (s.tok b).queue = c :: rest →
    ∃ t, exec (.tokenGrant b) s = .next t ∧ (s.savedName c = none → t.tok b = ⟨some c, rest⟩ ∧ ∀ x, x ≠ b → t.tok x = s.tok x)

/-- R64, R391, R392: a `qpush` by the queue's producer appends its entry where the queue has room; a `qpop` by the
consumer takes the oldest entry, whole; `qstat` tells what is resident and spilled. A sequencer that is not the
queue's producer or consumer raises ILLEGAL. An empty queue stalls its consumer, a full one without a ring its
producer. The ring's layout and its failures are the model's (assumptions 3 and 17). -/
def Obligations.QueueResults : Prop :=
  ∀ (s : State) (k : Nat) (q : Queue) (x : Opnd), 
    let c := cidOf k
    let ents := (s.cx c).q.get q
    let prod : Nat := match q with | .ac => 2 | .cm => 0 | .am => 2 | .mc => 1
    let cons : Nat := match q with | .ac => 0 | .cm => 1 | .am => 1 | .mc => 0
    (Runs s k (.qpush q x) →
      (qOf k ≠ prod → exec (.qpush q x) s = .next (s.takeTrap k (precise .illegal))) ∧
      (qOf k = prod → (qOf k ≠ 2 ∨ s.walkFeeds c q = false) → s.qOperand k x = .ok () → (s.cx c).q.spill q = [] →
        (ents.length < 32 → ∃ t, exec (.qpush q x) s = .next t ∧
          OnlyCtx s t c (fun a => { a with q := a.q.set q (ents ++ [s.qEntry k x]) }) ∧
          Retires s t k (.qpush q x) fun r => r.advance x.ptrs) ∧
        (32 ≤ ents.length → s.spillOff c = true → exec (.qpush q x) s = .next (s.stall k .qFull)))) ∧
    (Runs s k (.qpop q x) →
      (qOf k ≠ cons → exec (.qpop q x) s = .next (s.takeTrap k (precise .illegal))) ∧
      (qOf k = cons → s.qOperand k x = .ok () → (s.cx c).q.spill q = [] →
        (ents = [] → exec (.qpop q x) s = .next (s.stall k .qEmpty)) ∧
        ∀ e rest, ents = e :: rest →
          (∀ a, x = .acc a → e.poison = 0 → ∃ t, exec (.qpop q x) s = .next t ∧
            OnlyCtx s t c (fun b => { b with q := b.q.set q rest, reg := b.reg.setAcc (Says.accNum s k a) e.data }) ∧
            Retires s t k (.qpop q x) id) ∧
          ∀ p i, x = .mem p i → ∃ t, exec (.qpop q x) s = .next t ∧
            OnlyCtxCore s t c (coreK k) (fun b => { b with q := b.q.set q rest }) ∧
            Stored s t (coreK k) c (pathOf (qOf k)) (kept (locOf ((s.r k).ptr p) (s.winBase k)) (ctxnK k) e.bytes) ∧
            Retires s t k (.qpop q x) fun r => r.advance [⟨p, i⟩])) ∧
    (Runs s k (.qstat q) → ∃ t, exec (.qstat q) s = .next t ∧ OnlySeqs s t ∧ Retires s t k (.qstat q) fun r => { r with
      s := BitVec.ofNat 64 (((s.cx c).q.spill q).length * 65536 + (if qOf k = cons then 128 else 0) +
        (if qOf k = prod then 64 else 0) + ents.length) })

/-- R170, R164: a load that is due lands: its bytes, read now or when an earlier store of the sequencer overtook it, are
stored at its destination on the sequencer's path, `lc` is one less, and it is no longer in flight. -/
def Sys2Proof.Part.LoadLandingResults : Prop :=
  ∀ (s : State) (c : Nat) (l : Load), ((s.cx c).f.loads.find? fun m => m.id == l.id && s.loadDue c m) = some l →
    let (b, u) := match l.got with | some b => (b, s) | none => s.loadBytes c l
    ∃ t, exec (.loadLanding c l.id) s = .next t ∧ t.seqs = u.seqs ∧
      Stored u t (coreOf c) c (pathOf l.q) (kept l.dst (ctxnOf c) b) ∧
      OnlyCtxCore u t c (coreOf c) fun x => { x with
        n := { x.n with lc := x.n.lc - 1 }, f := { x.f with loads := x.f.loads.filter fun m => m.id != l.id } }

/-- R153, R170, R402: a store that is due is accepted, `sc` is one less, and it is no longer in flight. Where the core
has a cache and the class may lie in it, its bytes are dirty bytes of the core's line, and no home changes unless
another line goes for it, or a copy of the line under another translation; otherwise they are at their home, where
nothing holds the line back there. (A store to a register of the device, and one to an NMC page or a view, have
their own rules.) -/
def Sys2Proof.Part.StoreAcceptanceResults : Prop :=
  ∀ (s : State) (c : Nat) (st : Store) (a : Nat) (bs : List PByte), st.writes = [(a, bs)] → st.back = [] →
    ((s.cx c).f.stores.find? fun m => m.id == st.id && s.storeDue c m) = some st → isMmio a = false → isLehr a = false →
    a % 64 + bs.length ≤ 64 → bs ≠ [] →
    let u := s.captureBefore c st.q st.id st.hits
    let ws := ((List.range bs.length).zip bs).map fun e => (a + e.1, e.2)
    ∃ t, exec (.storeAcceptance c st.id) s = .next t ∧ t.seqs = s.seqs ∧ (t.cx c).n.sc = (s.cx c).n.sc - 1 ∧
      (t.cx c).f.stores = (s.cx c).f.stores.filter (fun m => m.id != st.id) ∧
      (st.cached = true → (u.co (coreOf c)).hasCache = true →
        ((u.co (coreOf c)).cache.length < cacheLines (u.co (coreOf c)).lsplit →
          (∀ l, (u.co (coreOf c)).find (a / 64) = some l → l.alias st.x = false) → t.h = u.h) ∧
        ∃ l, (t.co (coreOf c)).find (a / 64) = some l ∧ ∀ i < bs.length,
          l.dirty.getLsbD (a % 64 + i) = true ∧ (l.byte (a % 64 + i)).1 = (bs.getD i (0, false)).1) ∧
      (st.cached = false ∨ (u.co (coreOf c)).hasCache = false → st.x.cc ≠ 4 → (∀ w ∈ ws, u.h.discards w.1 = false) →
        u.writeHeld (a / 64) = false → (∀ e ∈ u.h.late, e.line ≠ a / 64) → AtHome u.h t.h st.x.key ws)

/-- R153, R126, R167, R236, R261: a line may be evicted at any moment: clean, it goes; dirty, its dirty bytes and no
other arrive at their home; where the core is a member of its bench's pool it moves there, with its clean bytes if
the home has not superseded them (assumption 73); and so does a line of the pool go home. A write that arrives from
outside the cores is at its home under key 0 (assumption 67); an arrival advances the line's finish-table epochs and
the row's version. Bytes of a view or of its source are discarded. A write waits behind others that wait at its
line. -/
def Sys2Proof.Part.EvictionAndArrival : Prop :=
  (∀ (s : State) (m : Nat) (l : CLine), (s.co m).cache.find? (fun x => x.line == l.line) = some l →
    s.pooled m = false → (l.isDirty = true → s.writeHeld l.line = false) →
    ∃ t, exec (.lineEviction m l.line) s = .next t ∧ t.seqs = s.seqs ∧
      ((s.be (benchOf m)).find l.line = none → t.benches = s.benches) ∧ (∀ d, d ≠ m → t.co d = s.co d) ∧
      t.co m = { s.co m with cache := (s.co m).cache.filter fun x => x.line != l.line } ∧
      (l.isDirty = false → t.h = s.h ∧ t.benches = s.benches) ∧
      (l.isDirty = true → l.cc ≠ 4 → isLehr (l.line * 64) = false → (∀ w ∈ l.writes, s.h.discards w.1 = false) →
        (∀ e ∈ s.h.late, e.line ≠ l.line) → AtHome s.h t.h l.key l.writes)) ∧
  (∀ (s : State) (m : Nat) (l : CLine), (s.co m).cache.find? (fun x => x.line == l.line) = some l →
    s.pooled m = true → (s.be (benchOf m)).find l.line = none →
    ∃ t, exec (.lineEviction m l.line) s = .next t ∧ t.seqs = s.seqs ∧
      t.co m = { s.co m with cache := (s.co m).cache.filter fun x => x.line != l.line } ∧
      ((s.be (benchOf m)).pool.length < s.poolLines (benchOf m) → t.h = s.h ∧ t.ctxs = s.ctxs) ∧
      (t.be (benchOf m)).find l.line =
        if s.current l then some ⟨l, s.tick⟩ else if l.isDirty then some ⟨{ l with filled := false }, s.tick⟩ else none) ∧
  (∀ (s : State) (m : Nat) (p : PoolLine), (s.co m).find p.c.line = none →
    (s.be (benchOf m)).find p.c.line = some p → (p.c.isDirty = true → s.writeHeld p.c.line = false) →
    ∃ t, exec (.lineEviction m p.c.line) s = .next t ∧ t.seqs = s.seqs ∧ t.cores = s.cores ∧
      (t.be (benchOf m)).pool = (s.be (benchOf m)).pool.filter (fun x => x.c.line != p.c.line) ∧
      (p.c.isDirty = false → t.h = s.h) ∧
      (p.c.isDirty = true → p.c.cc ≠ 4 → isLehr (p.c.line * 64) = false → (∀ w ∈ p.c.writes, s.h.discards w.1 = false) →
        (∀ e ∈ s.h.late, e.line ≠ p.c.line) → AtHome s.h t.h p.c.key p.c.writes)) ∧
  ∀ (s : State) (a : Nat) (bs : List PByte), a % 64 + bs.length ≤ 64 → bs ≠ [] → isMmio a = false → isLehr a = false →
    let ws := ((List.range bs.length).zip bs).map fun e => (a + e.1, e.2)
    ∃ t, exec (.homeWriteArrival a bs) s = .next t ∧ t.seqs = s.seqs ∧ t.cores = s.cores ∧
      (s.writeHeld (a / 64) = true ∨ (∃ e ∈ s.h.late, e.line = a / 64) →
        t.h = { s.h with late := s.h.late ++ [⟨0, 0, a / 64, ws⟩] }) ∧
      (s.writeHeld (a / 64) = false → (∀ e ∈ s.h.late, e.line ≠ a / 64) →
        ((∀ w ∈ ws, s.h.discards w.1 = true) → t.h = s.h ∧ t.pf.discarded = s.pf.discarded + 1) ∧
        ((∀ w ∈ ws, s.h.discards w.1 = false) → AtHome s.h t.h 0 ws ∧
          t.h.fin = s.h.fin.map (fun e => if e.line = a / 64 then { e with epoch := e.epoch + 1 } else e) ∧
          (s.rowSize (a / 64 * 64) ≠ 0 → t.rowVer (a / 64 * 64) = s.rowVer (a / 64 * 64) + 1)))

/-- Loads land, stores are accepted, lines are evicted and writes arrive at their homes. When a load reads its bytes,
and the key under which another device's bytes are stored, are the model's (assumptions 9, 29, 35 and 67). -/
def Obligations.MemoryEventResults : Prop := Part.LoadLandingResults ∧ Part.StoreAcceptanceResults ∧ Part.EvictionAndArrival

/-! ## Exchange phases -/

namespace Sys2Proof.Says

/-- The instruction completes on k: it retires with `f` done to the registers, and of the next state `P` holds. -/
def Completes (s : State) (k : Nat) (i : Instr) (f : Seq → Seq) (P : State → Prop) : Prop :=
  Runs s k i → ∃ t, exec i s = .next t ∧ Retires s t k i f ∧ P t

/-- The instruction takes this trap in the state `u`. -/
def Traps (s : State) (k : Nat) (i : Instr) (c : TrapInfo) (u : State) : Prop :=
  Runs s k i → exec i s = .next (u.takeTrap k c)

/-- The instruction stalls under this cause. -/
def Stalls (s : State) (k : Nat) (i : Instr) (c : Cause) : Prop := Runs s k i → exec i s = .next (s.stall k c)

/-- The event has this effect. -/
def Happens (i : Instr) (s : State) (P : State → Prop) : Prop := ∃ t, exec i s = .next t ∧ P t

/-- Of core m, its exchange alone has changed, and of the rest the sequencers and the transfers on the way. -/
def XchOnly (s t : State) (m : Nat) (x : Option Exch) : Prop :=
  { t with seqs := s.seqs, cores := s.cores, sch := { t.sch with xfers := s.sch.xfers } } = s ∧
  (∀ d, d ≠ m → t.co d = s.co d) ∧ t.co m = { s.co m with xch := x }

/-- The entry that comes next in the core's open phase, which sequencer k exchanges (R267, R269). -/
def AtEntry (s : State) (k : Nat) (x : Exch) (e : XEnt) : Prop :=
  (s.sq k).xabort = 0 ∧ (s.co (coreK k)).xch = some x ∧ x.sid = k ∧ x.opened = true ∧ x.tbl[x.next]? = some e

/-- The phase after the entry. -/
def past (x : Exch) : Exch := { x with next := x.next + 1, rx := none, landed := false, sent := false }

/-- A scratchpad pointer to `n` bytes of the window, aligned. -/
def InWindow (s : State) (k : Nat) (p : BitVec 3) (n align : Nat) : Prop :=
  let q := (s.r k).ptr p
  q.space = .l ∧ q.base.toNat + n ≤ s.winSize k ∧ q.base.toNat % align = 0

/-- The `n` bytes at a scratchpad pointer as path `q` of the context sees them. -/
def seenAt (s : State) (k : Nat) (q : Path) (p : BitVec 3) (n : Nat) : List PByte :=
  (List.range n).map fun j => (s.co (coreK k)).byte (cidOf k) q ((s.loc k ((s.r k).ptr p)).key (ctxnK k) j)

end Sys2Proof.Says

/-- R264, R266, R270, R346: `exo` whose table passes its checks arrives at the barrier: while another core of the set
has not arrived, the phase stands there, not ready, with the table's entries, and the sequencer stalls. Once slot
0's window has started, `exo` completes and the phase is open. Where an exchange of its core was aborted at its
barrier before the core arrived, `exo` raises EXCH with reason 8, and no other context of the core does so again
(assumption 89). -/
def Sys2Proof.Part.ExchangeOpens : Prop :=
  ∀ (s : State) (k : Nat) (o : ExoOp), Runs s k (.exo o) → (s.sq k).xabort = 0 →
    let m := coreK k
    let owed := (s.cx (cidOf k)).xowed
    ((s.co m).xch = none → owed = true → Says.Traps s k (.exo o)
      ⟨.exch, BitVec.ofNat 64 (0xFFFFFFFF * 2 ^ 32 + 8), true, 0, [], none, none⟩
      (s.setOwed m false)) ∧
    (∀ ws, (s.co m).xch = none → owed = false → (s.xchOrder k).exoTable k o = .ok ws →
      (∃ c ∈ State.xchCores m o.die o.set, c ≠ m ∧ (s.co c).xch = none) →
      Says.Happens (.exo o) s fun t => t.r k = s.r k ∧ (t.sq k).stalled = some (s.blocked k .exchWait) ∧
        (t.co m).xch = some ⟨k, o.die, o.set, o.nslot, (ws.drop 1).map XEnt.ofWord, ((s.r k).ptr o.t.p).base.toNat, 0,
          false, 0, false, 0, none, false, false⟩) ∧
    ∀ x, (s.co m).xch = some x → x.sid = k →
      (x.windows = 0 → Says.Stalls s k (.exo o) .exchWait) ∧
      (0 < x.windows → Says.Completes s k (.exo o) (fun r => r.advance [o.t]) fun t =>
        Says.XchOnly s t m (some { x with opened := true }) ∧ t.sch = s.sch)

/-- R264 to R268, R347: `exs`, `exr` and `exred` at the next entry of the open phase, of their slot and kind, with an
aligned pointer into the window. Before the slot's window they stall. In it, `exs` sends the 64 bytes that path x sees
to its peer, or to the row's receivers that have not yet executed the slot; `exr`, and `exred` at the ROOT, complete
once their bytes have landed; `exred` of a RED sends its bytes to the column's ROOT. -/
def Sys2Proof.Part.ExchangeTransfers : Prop :=
  ∀ (s : State) (k : Nat) (x : Exch) (e : XEnt) (p : PtrOp) (slot : W16) (b : Bool),
    Says.AtEntry s k x e → e.slot = slot.toNat → Says.InWindow s k p.p 64 16 →
    let m := coreK k
    let adv := fun r : Seq => r.advance [p]
    let sent (t : State) (dsts : List Nat) : Prop := t.sch.xfers = s.sch.xfers ++
      [⟨x.pid, m, e.slot, e.kind, e.op, e.peer, Says.seenAt s k .x p.p 64, dsts⟩] ∧ Says.XchOnly s t m (some (Says.past x))
    (x.windows ≤ e.slot →
      (e.kind = 0 ∨ e.kind = 2 → Says.Stalls s k (.exs p slot) .exchWait) ∧
      (e.kind = 1 ∨ e.kind = 3 → Says.Stalls s k (.exr p slot) .exchWait) ∧
      ((e.kind = 4 ∨ e.kind = 5) → e.op = b → Says.Stalls s k (.exred b p slot) .exchWait)) ∧
    (e.slot < x.windows →
      (e.kind = 0 → Says.Completes s k (.exs p slot) adv fun t => sent t [peerCore m x.die e.peer]) ∧
      (e.kind = 2 → Says.Completes s k (.exs p slot) adv fun t => ∃ ds, sent t ds ∧ ∀ c, c ∈ ds ↔
        c ∈ s.xchPeers m x ∧ meshRow c = meshRow m ∧ ∃ y f, (s.co c).xch = some y ∧ f ∈ y.tbl.drop y.next ∧
          f.slot = e.slot ∧ f.kind = 3) ∧
      (e.kind = 1 ∨ e.kind = 3 → x.landed = true → Says.Completes s k (.exr p slot) adv fun t =>
        Says.XchOnly s t m (some (Says.past x)) ∧ t.sch = s.sch) ∧
      (e.kind = 1 ∨ e.kind = 3 → x.landed = false → Runs s k (.exr p slot) → Says.Happens (.exr p slot) s fun t =>
        (t.co m).xch = some { x with rx := some (s.loc k ((s.r k).ptr p.p)) } ∧ t.r k = s.r k) ∧
      (e.kind = 4 → e.op = b → Says.Completes s k (.exred b p slot) adv fun t => ∃ ds, sent t ds ∧ ∀ c, c ∈ ds ↔
        c ∈ s.xchPeers m x ∧ meshCol c = meshCol m ∧ ∃ y f, (s.co c).xch = some y ∧ f ∈ y.tbl.drop y.next ∧
          f.slot = e.slot ∧ f.kind = 5) ∧
      (e.kind = 5 → e.op = b → x.sent = true → x.landed = true → Says.Completes s k (.exred b p slot) adv fun t =>
        Says.XchOnly s t m (some (Says.past x)) ∧ t.sch = s.sch))

/-- R269, R270, R348: `exc` after the last entry completes and the core has no phase; with entries left it raises EXCH
with reason 5. An exchange instruction without an open phase raises EXCH with reason 1; one of another slot than the
next entry's, with reason 2. FADDR names the entry's offset, or 0xFFFFFFFF. -/
def Sys2Proof.Part.ExchangeEndsAndTraps : Prop :=
  ∀ (s : State) (k : Nat) (x : Exch) (p : PtrOp) (slot : W16), (s.sq k).xabort = 0 →
    let m := coreK k
    let trap (off n : Nat) : TrapInfo := ⟨.exch, BitVec.ofNat 64 (off * 2 ^ 32 + n), false, 0, [], none, none⟩
    ((s.co m).xch = none → (s.cx (cidOf k)).xowed = false →
      Says.Traps s k .exc (trap 0xFFFFFFFF 1) s ∧ Says.Traps s k (.exr p slot) (trap 0xFFFFFFFF 1) s ∧
      Says.Traps s k (.exs p slot) (trap 0xFFFFFFFF 1) s ∧ ∀ b, Says.Traps s k (.exred b p slot) (trap 0xFFFFFFFF 1) s) ∧
    ((s.co m).xch = some x → x.sid = k → x.opened = true →
      (x.tbl.length ≤ x.next → Says.Completes s k .exc id fun t => (t.co m).xch = none ∧ t.sch = s.sch ∧ t.h = s.h ∧
        (∀ c, t.cx c = s.cx c) ∧ ∀ c, { t.co c with hidden := (s.co c).hidden, xch := (s.co c).xch } = s.co c) ∧
      (x.next < x.tbl.length → Says.Traps s k .exc (trap (x.tblOff + 8 * (x.next + 1)) 5) (s.xchAbort m)) ∧
      ∀ e, x.tbl[x.next]? = some e → e.slot ≠ slot.toNat →
        Says.Traps s k (.exr p slot) (trap (x.tblOff + 8 * (x.next + 1)) 2) (s.xchAbort m) ∧
        Says.Traps s k (.exs p slot) (trap (x.tblOff + 8 * (x.next + 1)) 2) (s.xchAbort m))

/-- An exchange phase opens, ends, and is aborted. The order of the barrier's checks, and reason 8, are the model's
reading (assumptions 34 and 89). -/
def Obligations.ExchangePhaseResults : Prop := Part.ExchangeOpens ∧ Part.ExchangeEndsAndTraps

/-- R266, R267, R268, R74: the events of a phase. At T0, slot 0's window starts for every participant of a ready phase;
each later slot's window follows it. A transfer lands whole at a receiver that waits for it. A reduction lands once
every RED of the column has sent its contribution: each lane is the fold of the contributions from north to south. -/
def Sys2Proof.Part.ExchangeEvents : Prop :=
  ∀ (s : State) (m : Nat) (x : Exch), (s.co m).xch = some x →
    let set (t : State) (n : Nat) : Prop := t.sch = s.sch ∧ t.seqs = s.seqs ∧ t.ctxs = s.ctxs ∧ t.h = s.h ∧
      ∀ c, t.co c = if c ∈ s.xchPeers m x then { s.co c with xch := (s.co c).xch.map fun y => { y with windows := n } }
        else s.co c
    (x.ready = true → x.windows = 0 → Says.Happens (.exchangeT0 m) s fun t => set t 1) ∧
    (0 < x.windows → x.windows ≤ x.nslot.toNat → (∀ c ∈ s.xchPeers m x, ∀ y, (s.co c).xch = some y → y.windows = x.windows) →
      Says.Happens (.slotWindowStart m) s fun t => set t (x.windows + 1)) ∧
    ∀ (l : Loc) (e : XEnt), x.rx = some l → x.tbl[x.next]? = some e → x.landed = false → coreK x.sid = m →
      let lands (t : State) (bs : List PByte) : Prop := ∃ u, t.seqs = s.seqs ∧ t.ctxs = s.ctxs ∧ t.h = s.h ∧
        Stored s u m (cidOf x.sid) .x (kept l (ctxnOf (cidOf x.sid)) bs) ∧
        t.co m = { u.co m with xch := some { x with landed := true } } ∧ ∀ c, c ≠ m → t.co c = s.co c
      (∀ w, e.kind = 1 ∨ e.kind = 3 →
        s.sch.xfers.find? (fun w => w.pid == x.pid && w.slot == e.slot && decide (w.kind < 4) && w.dsts.contains m) = some w →
        Says.Happens (.exchangeTransferLanding m e.slot) s fun t => lands t w.data) ∧
      (e.kind = 5 → (∀ c ∈ s.xchPeers m x, c ≠ m → meshCol c = meshCol m → ∀ y f, (s.co c).xch = some y →
          f ∈ y.tbl.drop y.next → f.slot = e.slot → f.kind ≠ 4) →
        (∃ w ∈ s.sch.xfers, w.pid = x.pid ∧ w.slot = e.slot ∧ 4 ≤ w.kind ∧ w.dsts = [m] ∧ w.src = m) →
        ∀ ord : List Xfer, ord.Pairwise (fun a b => a.src < b.src) →
        ord.Perm (s.sch.xfers.filter fun w => w.pid == x.pid && w.slot == e.slot && decide (4 ≤ w.kind) && w.dsts == [m]) →
        Says.Happens (.exchangeReduction m e.slot) s fun t => ∃ bs, lands t bs ∧ bs.length = 64 ∧
          (∀ b ∈ bs, b.2 = ord.any fun w => w.data.any Prod.snd) ∧
          ∀ i < 16, leBv 32 (((bs.map Prod.fst).drop (4 * i)).take 4) =
            foldLane e.op (ord.map fun w => leBv 32 (((w.data.map Prod.fst).drop (4 * i)).take 4)))

/-- What moves in an exchange phase. A NaN met with one participant is the model's reading (assumption 32). -/
def Obligations.ExchangeTransferResults : Prop := Part.ExchangeTransfers ∧ Part.ExchangeEvents

/-! ## Tile commands and the join accumulator file -/

namespace Sys2Proof.Says

/-- Sequencers, and of context c what `f` says, and of core m nothing but its JAF: nothing else has changed. -/
def JafOnly (s t : State) (c m : Nat) (f : Ctx → Ctx) : Prop :=
  OnlyCtxCore s t c m f ∧ { t.co m with jaf := (s.co m).jaf, ovf := (s.co m).ovf } = s.co m

/-- A context's JAF state alone changes, as `f` says. -/
def jaf (f : JafCtx → JafCtx) (x : Ctx) : Ctx := { x with j := f x.j }

/-- The key at a pointer (R214): row, then cblk, unpoisoned and 8 B aligned in the window. -/
def Key (s : State) (k : Nat) (p : BitVec 3) (row cblk : W32) : Prop :=
  InWindow s k p 8 8 ∧ (∀ b ∈ seenAt s k (pathOf (qOf k)) p 8, b.2 = false) ∧
  row = leBv 32 ((seenAt s k (pathOf (qOf k)) p 8).map Prod.fst |>.take 4) ∧
  cblk = leBv 32 ((seenAt s k (pathOf (qOf k)) p 8).map Prod.fst |>.drop 4)

/-- The tuple that a `jadd` adds. -/
def addend (s : State) (k : Nat) (a : BitVec 2) (row cblk : W32) : Tuple :=
  ⟨row, cblk, maskOf s k, (s.cx (cidOf k)).reg.acc (accNum s k a), false⟩

/-- A dense operand of a tile command: bytes of the window on path m, unpoisoned. -/
def dense (s : State) (k : Nat) (p : BitVec 3) (n : Nat) : Prop :=
  InWindow s k p n 64 ∧ ∀ b ∈ seenAt s k .m p n, b.2 = false

end Sys2Proof.Says

/-- R190 to R192, R196, R149, R376, R82: `mtile` completes wherever its operands pass checks 1 to 4, the core's pins go
round, and its command passes steps 5 to 8: `mc` is one more and the JAF gets the command's tuples, with the lines
of its global operands that it pins. While earlier commands hold the pins that it needs, it stalls. A dense FP8 or
INT8 command with field masks on two operands in the window passes them: cell (r, j) is the exact product of row r
of A and column j of B, rounded once, and the command has one tuple for each row of the row mask, none where the
lane mask is 0. -/
def Sys2Proof.Part.TileCommandResults : Prop :=
  ∀ (s : State) (k : Nat) (o : MtileOp),
    let c := cidOf k
    let adv := fun r : Seq => r.advance [o.a, o.b]
    let gets (u t : State) (ts : List Tuple) (pins : List Nat) : Prop :=
      (t.cx c).j = { (u.cx c).j with cmds := (u.cx c).j.cmds ++ [⟨qOf k, qOf k, ts, false, u.nextId, true, pins⟩] } ∧
      (t.cx c).n = { (u.cx c).n with mc := (u.cx c).n.mc + 1 } ∧ (t.cx c).reg = (u.cx c).reg ∧
      (∀ d, d ≠ c → t.cx d = u.cx d) ∧ t.h = u.h ∧ (∀ m, { t.co m with bhold := (u.co m).bhold } = u.co m)
    (∀ ti u, s.tileCheck k o ((s.r k).ptr o.a.p) ((s.r k).ptr o.b.p) = .ok (ti, u) →
      (∀ ls v ts, u.tilePins c ti = some ls → u.tileRun k ti = .go v ts →
        Says.Completes s k (.mtile o) adv fun t => Touched s u ∧ gets u t ts ls) ∧
      (u.tilePins c ti = none → Runs s k (.mtile o) → exec (.mtile o) s = .next (u.stall k .waitMc))) ∧
    (o.ty = .e4m3 ∨ o.ty = .e5m2 ∨ o.ty = .i8 → o.geo = false → o.spa = 0 → o.sca = false → o.scb = false →
      (∃ p, (s.cx c).j.part = some p ∧ p.i32 = false) → Says.dense s k o.a.p 1024 → Says.dense s k o.b.p 1024 →
      let ms := o.masks.getD (0xFFFF, 0xFFFF)
      let enc (p : BitVec 3) (i j : Nat) : Nat :=
        (((Says.seenAt s k .m p 1024).getD (64 * i + j) (0, false)).1).toNat
      Says.Completes s k (.mtile o) adv fun t => ∃ ts, gets s t ts [] ∧
        (ms.2 = 0 → ts = []) ∧
        (ms.2 ≠ 0 → ts.map (fun x => (x.row, x.cblk, x.mask, x.ow)) = ((List.range 16).filter fun r => ms.1.getLsbD r).map
          fun r => (o.row + BitVec.ofNat 32 r, o.cblk, ms.2, o.ovw)) ∧
        ∀ x ∈ ts, ∃ r < 16, x.row = o.row + BitVec.ofNat 32 r ∧ ∀ j < 16, lane x.lanes j = roundFP32
          (exactDot o.ty ((List.range 64).map (enc o.a.p r)) ((List.range 64).map (enc o.b.p j)) 0 0))

/-- R149, R405: `tfetch` of pages that translate completes: it pins lines of its range alone, and all of them while the
core's budget of 64 lasts; `trel` completes for any range in G and unpins exactly the range's lines: those pinned at its
addresses, and those to which these now map. -/
def Sys2Proof.Part.TilePinning : Prop :=
  ∀ (s : State) (k : Nat) (p : BitVec 3) (n : W16),
    let c := cidOf k
    let pg := (s.r k).ptr p
    let at_ : W64 := pg.base &&& ~~~(63 : W64)
    pg.space = .g →
    (∀ ps u, s.pages k pg.base (64 * n.toNat) .tile = .ok (ps, u) →
      let line (i : Nat) : Nat := (xlAt ps at_ (64 * i)).ha / 64
      Says.Completes s k (.tfetch p n) id fun t => Touched s u ∧ ∃ l : List (W64 × Nat),
        OnlyCtx u t c (fun x => { x with tpins := x.tpins ++ l }) ∧
        (∀ a ∈ l, ∃ i < n.toNat, a = (at_ + BitVec.ofNat 64 (64 * i), line i)) ∧
        (u.pinned (coreK k) + n.toNat ≤ 64 → ∀ i < n.toNat, ∃ a ∈ (t.cx c).tpins, a.2 = line i)) ∧
    Says.Completes s k (.trel p n) id fun t => ∃ l : List (W64 × Nat), OnlyCtx s t c (fun x => { x with tpins := l }) ∧
      ∀ a, a ∈ l ↔ a ∈ (s.cx c).tpins ∧ ∀ i < n.toNat, a.1 ≠ at_ + BitVec.ofNat 64 (64 * i) ∧ ∀ x u,
        s.translateOne (s.who k) (at_ + BitVec.ofNat 64 (64 * i)) .tile = .ok (x, u) → x.ha / 64 ≠ a.2

/-- Matrix commands, and the lines that they pin. The address of a T2 byte is the model's reading (assumption 33). -/
def Obligations.TileResults : Prop := Part.TileCommandResults ∧ Part.TilePinning

/-- R198, R199, R360: `jinit`, with no JAF command in flight and no partition of the core's other contexts in its way,
completes: the partition is held in its mode, its ways and overflow flags are clear, and its ring holds no record; a
whole table conflicts with any other partition. The old ring's records stand in its memory from then on. -/
def Sys2Proof.Part.JafClaims : Prop :=
  ∀ (s : State) (k : Nat) (all i32 : Bool),
    let c := cidOf k
    let m := coreK k
    let mine (b : Nat) : Bool := all || b / 64 == ctxnK k
    let other (p : JPart → Bool) : Prop := ∃ n < 4, n ≠ ctxnK k ∧ ∃ q, (s.cx (cidAt m n)).j.part = some q ∧ p q = true
    (s.cx c).j.parked = false → (s.cx c).n.mc = 0 → ctxnK k < 4 →
    (¬other (fun q => all || q.all) → Says.Completes s k (.jinit all i32) id fun t =>
      (∃ u, Touched s u ∧ ((s.cx c).j.ring = [] → u = s) ∧ Says.JafOnly u t c m (Says.jaf fun j => { j with part := some ⟨all, i32⟩, ring := [] })) ∧
      (∀ i, i / 4 < 256 → mine (i / 4) = true → (t.co m).way i = none) ∧
      (∀ b, b < 256 → mine b = true → Tab.get false (t.co m).ovf b = false) ∧
      (all = false → (∀ q, (s.cx c).j.part = some q → q.all = false) →
        ∀ i, mine (i / 4) = false → (t.co m).way i = (s.co m).way i)) ∧
    (other (fun q => all || q.all) → Runs s k (.jinit all i32) →
      Says.Happens (.jinit all i32) s fun t => (t.sq k).stalled = some (s.blocked k .jafProbe) ∧ t.r k = s.r k)

/-- R200 to R203, R207, R357: a `jadd` in the partition's mode, with no command of its source before it and none that
the JAF applies, completes. Under a zero mask nothing changes. A key in the table is combined with: in the mask's
lanes the old value plus the new, or the new where the lane was absent; the other lanes stay. A new key takes the
first free way of its 8 buckets, its absent lanes 0. Where the overflow flag is set or no way is free, the tuple
goes to the ring; with no room there, `jadd` raises SPILL at the record's address, and nothing is added. -/
def Sys2Proof.Part.JafAddResults : Prop :=
  ∀ (s : State) (k : Nat) (a : BitVec 2) (p : PtrOp) (ty : ElemTy) (part : JPart) (row cblk : W32),
    let c := cidOf k
    let m := coreK k
    let co := s.co m
    let i : Instr := .jadd a p ty
    let adv := fun r : Seq => r.advance [p]
    let tup := Says.addend s k a row cblk
    let b := (((row * 0x9E3779B1) ^^^ (cblk * 0x85EBCA77)).toNat / 2 ^ 24) % part.count
    let held := co.findKey part (ctxnK k) row cblk
    let free := (part.probes (ctxnK k) b).find? fun w => (co.way w).isNone
    let ovf := Tab.get false co.ovf (part.base (ctxnK k) + b)
    (s.cx c).j.part = some part → part.i32 = (ty == .i32) → Says.Key s k p.p row cblk → (s.cx c).j.parked = false →
    (∀ x ∈ (s.cx c).j.cmds, x.src ≠ qOf k) → (s.cx c).j.cur = none →
    (Says.maskOf s k = 0 → Says.Completes s k i adv fun t => OnlySeqs s t) ∧
    (Says.maskOf s k ≠ 0 →
      (∀ w old, held = some (w, old) → Says.Completes s k i adv fun t => Says.JafOnly s t c m id ∧
        ∃ new : Way, (t.co m).way w = some new ∧ (∀ x, x ≠ w → (t.co m).way x = co.way x) ∧ (t.co m).ovf = co.ovf ∧
          new.row = old.row ∧ new.cblk = old.cblk ∧ new.mask = old.mask ||| tup.mask ∧
          ∀ l < 16, lane new.lanes l = if !tup.mask.getLsbD l then lane old.lanes l
            else if !old.mask.getLsbD l then lane tup.lanes l
            else if part.i32 then lane old.lanes l + lane tup.lanes l else fadd32 (lane old.lanes l) (lane tup.lanes l)) ∧
      (∀ w, held = none → ovf = false → free = some w → Says.Completes s k i adv fun t => Says.JafOnly s t c m id ∧
        ∃ new : Way, (t.co m).way w = some new ∧ (∀ x, x ≠ w → (t.co m).way x = co.way x) ∧ (t.co m).ovf = co.ovf ∧
          new.row = row ∧ new.cblk = cblk ∧ new.mask = tup.mask ∧
          ∀ l < 16, lane new.lanes l = if tup.mask.getLsbD l then lane tup.lanes l else 0) ∧
      (held = none → ovf = true ∨ free = none →
        ((s.cx c).j.ringSize < 128 * ((s.cx c).j.ring.length + 1) →
          Says.Traps s k i (precise .spill (s.cx c).j.next) s) ∧
        (128 * ((s.cx c).j.ring.length + 1) ≤ (s.cx c).j.ringSize → 0 < (s.cx c).j.ringSize →
          ∀ w, s.walkHeld (s.whoJaf c (qOf k)) (s.cx c).j.next 128 .write = some w → Says.Stalls s k i w) ∧
        ∀ ps u, 128 * ((s.cx c).j.ring.length + 1) ≤ (s.cx c).j.ringSize → ps ≠ [] →
          s.walkHeld (s.whoJaf c (qOf k)) (s.cx c).j.next 128 .write = none →
          s.translateAll (s.whoJaf c (qOf k)) ((s.cx c).j.ringBase + BitVec.ofNat 64 (128 * (s.cx c).j.ring.length)) 128 .write = .ok (ps, u) →
          Says.Completes s k i adv fun t => (t.cx c).j.ring = (s.cx c).j.ring ++ [⟨tup, part.i32, false⟩] ∧
            (∀ w, (t.co m).way w = co.way w) ∧ Tab.get false (t.co m).ovf (part.base (ctxnK k) + b) = true ∧
            (t.cx c).reg = (s.cx c).reg ∧ ∀ d, d ≠ m → t.co d = s.co d))

/-- R214, R359: `jget` completes: the accumulator gets the lanes of the key in the table, absent ones 0, or zeros where
the key is not in the table; Z tells whether it is absent. The table stays. -/
def Sys2Proof.Part.JafGetResults : Prop :=
  ∀ (s : State) (k : Nat) (a : BitVec 2) (p : PtrOp) (ty : ElemTy) (part : JPart) (row cblk : W32),
    let c := cidOf k
    (s.cx c).j.part = some part → part.i32 = (ty == .i32) → Says.Key s k p.p row cblk →
    let e := (s.co (coreK k)).findKey part (ctxnK k) row cblk
    Says.Completes s k (.jget a p ty) (fun r => ({ r with fl := ⟨e.isNone, false, false, false⟩ } : Seq).advance [p]) fun t =>
      ∃ v : Line, OnlyCtx s t c (fun x => { x with reg := x.reg.setAcc (Says.accNum s k a) v }) ∧
        (∀ w old, e = some (w, old) → ∀ l < 16, lane v l = if old.mask.getLsbD l then lane old.lanes l else 0) ∧
        (e = none → v = 0)

/-- Tuples are handed to the JAF, and values are read from it. What runs between is the model's (assumptions 15, 21 and
30). -/
def Obligations.JafUpdateResults : Prop := Part.JafAddResults ∧ Part.JafGetResults

/-- R204 to R206, R358: the drains complete, with no JAF command in flight and an aligned destination in the window that
holds the output: s counts the keys. `jdrain.t` writes one 80 B record a key, in ascending order of row and cblk,
and empties the table, the overflow flags and the ring. `jdrain.d` writes the lanes of each key of its rectangle,
absent keys and lanes as 0, and removes the rectangle's keys from the table and, as consumed, from the ring; the
flags and the keys outside the rectangle stay. With a destination in G that translates and that no home holds back,
they complete with the same count and the same effect on the JAF, and the output stands at its homes (here of pages
that lie apart, not of the lehr, a view or class NMC, and of `jdrain.t` with an empty ring). The ring is drained as
the model holds it (assumption 21). -/
def Obligations.JafDrainResults : Prop :=
  ∀ (s : State) (k : Nat) (p : BitVec 3) (shape : W16) (es : List Way) (part : JPart),
    let c := cidOf k
    let m := coreK k
    let dst := (s.r k).ptr p
    let out (v t : State) (bs : List Byte) : Prop := ∃ u, Stored s u m c .m (kept (s.loc k dst) (ctxnK k) (clean bs)) ∧
      { t.co m with jaf := (u.co m).jaf, ovf := (u.co m).ovf } = u.co m ∧ (∀ d, d ≠ m → t.co d = s.co d) ∧
      { t with seqs := v.seqs, ctxs := v.ctxs, cores := v.cores } = v ∧
      (∀ d, d ≠ c → t.cx d = v.cx d) ∧ { t.cx c with j := (v.cx c).j } = v.cx c
    let lanesOf (w : Way) : List Byte :=
      (List.range 16).flatMap fun l => bvLe 4 (if w.mask.getLsbD l then lane w.lanes l else (0 : W32))
    let lo := part.base (ctxnK k)
    let hi := lo + part.count
    let rows := shape.toNat / 256 + 1
    let cols := shape.toNat % 256 + 1
    let row0 := (s.r k).s.extractLsb' 32 32
    let cblk0 := (s.r k).s.extractLsb' 0 32
    let mine (row cblk : W32) : Bool := decide ((row - row0).toNat < rows) && decide ((cblk - cblk0).toNat < cols)
    let emptied (t : State) : Prop :=
      (t.cx c).j = { (s.cx c).j with ring := [] } ∧
      (∀ i, (t.co m).way i = if lo ≤ i / 4 ∧ i / 4 < hi then none else (s.co m).way i) ∧
      ∀ b, Tab.get false (t.co m).ovf b = if lo ≤ b ∧ b < hi then false else Tab.get false (s.co m).ovf b
    let mark (r : RingRec) : RingRec := { r with consumed := r.consumed || mine r.t.row r.t.cblk }
    let taken (t : State) : Prop :=
      (t.cx c).j = { (s.cx c).j with ring := (s.cx c).j.ring.map mark } ∧
      (t.co m).ovf = (s.co m).ovf ∧
      (∀ w ∈ ((t.co m).ways part (ctxnK k)).map Prod.snd, mine w.row w.cblk = false) ∧
      ∀ i w, (s.co m).way i = some w → mine w.row w.cblk = false ∨ ¬(lo ≤ i / 4 ∧ i / 4 < hi) → (t.co m).way i = some w
    let count (n : Nat) (r : Seq) : Seq := { r with s := BitVec.ofNat 64 n }
    let nt := es.length
    let nd := (es.filter fun w => mine w.row w.cblk).length
    (s.cx c).j.part = some part → (s.cx c).n.mc = 0 → dst.base.toNat % 16 = 0 →
    es.Pairwise (fun a b => a.row.toNat * 2 ^ 32 + a.cblk.toNat < b.row.toNat * 2 ^ 32 + b.cblk.toNat) →
    es.Perm (s.jafEntries c) →
    let records : List Byte :=
      es.flatMap fun w => bvLe 4 w.row ++ bvLe 4 w.cblk ++ bvLe 2 w.mask ++ List.replicate 6 0 ++ lanesOf w
    let blocks (bs : List Byte) : Prop := bs.length = 64 * rows * cols ∧ ∀ i < rows, ∀ j < cols,
      (bs.drop (64 * (i * cols + j))).take 64 =
        match es.find? fun w => w.row == row0 + BitVec.ofNat 32 i && w.cblk == cblk0 + BitVec.ofNat 32 j with
        | some w => lanesOf w
        | none => List.replicate 64 0
    let atHomes (u t : State) (ps : List Xl) (bs : List Byte) : Prop :=
      (∀ x ∈ ps, x.ha % 4096 = 0 ∧ x.cc ≠ 4) → (ps.map Xl.ha).Nodup →
      (∀ i < bs.length, let a := (xlAt ps dst.base i).ha; isLehr a = false ∧ (∀ e ∈ u.h.late, e.line ≠ a / 64) ∧
        ∀ h : Homes, h.frrs = u.h.frrs → h.discards a = false) →
      ∀ i < bs.length, let x := xlAt ps dst.base i; (t.h.raw x.key x.ha).1 = bs.getD i 0
    (dst.space = .l → dst.base.toNat + 80 * nt ≤ s.winSize k →
      Says.Completes s k (.jdrainT p) (count nt) fun t =>
        (∃ v, Touched s v ∧ ((s.cx c).j.ring = [] → v = s) ∧ out v t records) ∧
        emptied t) ∧
    (dst.space = .l → dst.base.toNat + 64 * rows * cols ≤ s.winSize k →
      Says.Completes s k (.jdrainD p shape) (count nd) fun t =>
        (∃ bs, out s t bs ∧ blocks bs) ∧ taken t) ∧
    (dst.space = .g → ∀ ps u,
      (s.pages k dst.base (80 * nt) .write = .ok (ps, u) → u.pagesHeld ps dst.base 0 (80 * nt) = false →
        Says.Completes s k (.jdrainT p) (count nt) fun t => emptied t ∧ ((s.cx c).j.ring = [] → atHomes u t ps records)) ∧
      (s.pages k dst.base (64 * rows * cols) .write = .ok (ps, u) → u.pagesHeld ps dst.base 0 (64 * rows * cols) = false →
        Says.Completes s k (.jdrainD p shape) (count nd) fun t => taken t ∧ ∃ bs, blocks bs ∧ atHomes u t ps bs))

/-- R202, R215, R364, R365: `jstat` completes, with or without a partition (the model's reading, assumption 68: R365 and
MODE 0 of R215 against the last paragraph of R214), and tells the partition's size and mode, whether some overflow flag
of it is set, its keys and its unconsumed ring records. `jspill` to a translated range of G that has room for them moves
them to its start once no command past its checks is left to be applied, but for a `joins` that its own trap has cut
(assumption 30). -/
def Sys2Proof.Part.JafStatusAndRing : Prop :=
  ∀ (s : State) (k : Nat) (p : BitVec 3),
    let c := cidOf k
    let j := (s.cx c).j
    let live := (j.ring.filter fun r => !r.consumed)
    let pn := (s.r k).ptr p
    (Says.Completes s k .jstat (fun r => { r with s := s.jstat c }) fun t => OnlySeqs s t) ∧
    (j.part = none → s.jstat c = BitVec.ofNat 64 (live.length * 2 ^ 32)) ∧
    (∀ part, j.part = some part → live.length < 2 ^ 32 → ((s.co (coreK k)).ways part (ctxnK k)).length < 2 ^ 24 →
      let v := s.jstat c
      v.extractLsb' 32 32 = BitVec.ofNat 32 live.length ∧ v.extractLsb' 26 2 = (if part.i32 then (2 : BitVec 2) else 1) ∧
      v.getLsbD 25 = part.all ∧
      (v.getLsbD 24 = true ↔ ∃ b, part.base (ctxnK k) ≤ b ∧ b < part.base (ctxnK k) + part.count ∧
        Tab.get false (s.co (coreK k)).ovf b = true) ∧
      v.extractLsb' 0 24 = BitVec.ofNat 24 ((s.co (coreK k)).ways part (ctxnK k)).length) ∧
    ∀ ps u, j.part ≠ none → pn.space = .g → pn.base.toNat % 128 = 0 → pn.limit.toNat % 128 = 0 →
      s.pages k pn.base pn.limit.toNat .write = .ok (ps, u) →
      (pn.limit.toNat < 128 * live.length → ∃ f, Says.Traps s k (.jspill p) (precise .spill f) s) ∧
      (128 * live.length ≤ pn.limit.toNat → u.pagesHeld ps pn.base 0 (128 * live.length) = false →
        (j.parked = true ∨ ∀ m ∈ j.cmds, m.tuples = [] ∧ m.more = true ∧ (s.cx c).handler = some (sidAt c m.q)) →
        Says.Completes s k (.jspill p) id fun t => (t.cx c).j =
          { j with ringBase := pn.base, ringSize := pn.limit.toNat, ring := live } ∧ t.cores = s.cores)

/-- The JAF is claimed, reports its state, and has its overflow ring. How the ring is moved, what `jspill` waits for,
and `jstat` without a partition are the model's reading (assumptions 21, 30 and 68). -/
def Obligations.JafClaimAndStatusResults : Prop := Part.JafClaims ∧ Part.JafStatusAndRing

/-- R212, R213, R362, R363: a `joins` of two streams of one entry each, with one pair whose k is the same, makes the one
tuple of their product, which `mc` counts until it is applied; with different k it makes none. -/
def Sys2Proof.Part.JoinResults : Prop :=
  ∀ (s : State) (k : Nat) (qx qy : Queue) (ty : ElemTy) (part : JPart) (ex ey : QEnt) (rx ry : List QEnt),
    let c := cidOf k
    let l (e : QEnt) (i : Nat) : W32 := lane e.data i
    (s.sq k).joins = none → qx ≠ qy → consumer qx = qOf k → consumer qy = qOf k →
    (s.cx c).j.part = some part → part.i32 = (ty == .i32) →
    (s.cx c).q.spill qx = [] → (s.cx c).q.spill qy = [] → (s.cx c).q.get qx = ex :: rx → (s.cx c).q.get qy = ey :: ry →
    ex.poison = 0 → ey.poison = 0 → (∀ e ∈ [ex, ey], l e 3 = 0 ∧ l e 7 = 1) → (∀ x ∈ (s.cx c).j.cmds, x.id ≠ s.nextId) →
    (s.cx c).j.cur ≠ some s.nextId →
    Says.Completes s k (.joins qx qy ty) id fun t =>
      (t.cx c).q = ((s.cx c).q.set qx rx).set qy ry ∧ t.cores = s.cores ∧ t.h = s.h ∧ (∀ d, d ≠ c → t.cx d = s.cx d) ∧
      (l ex 1 ≠ l ey 0 → (t.cx c).j = (s.cx c).j ∧ (t.cx c).n = (s.cx c).n) ∧
      (l ex 1 = l ey 0 → (t.cx c).n = { (s.cx c).n with mc := (s.cx c).n.mc + 1 } ∧ ∃ x : Tuple,
        (t.cx c).j = { (s.cx c).j with cmds := (s.cx c).j.cmds ++ [⟨qOf k, qOf k, [x], false, s.nextId, true, []⟩] } ∧
        x.row = l ex 0 ∧ x.cblk = l ey 1 >>> 4 ∧ x.ow = false ∧ ∀ i < 16, x.mask.getLsbD i = (i == (l ey 1).toNat % 16) ∧
          lane x.lanes i = if i = (l ey 1).toNat % 16
            then (if part.i32 then l ex 2 * l ey 2 else fmul32 (l ex 2) (l ey 2)) else 0)

/-- R200, R201, R203, R207: the JAF applies the next tuple of a source's oldest command, one command at a time: a key in
the table is combined with, or overwritten by an overwrite form; the command goes with its last tuple, and `mc` falls,
but for a `joins` that still runs. Parked updates wait, and so do other sources while a command is under way, unless its
own trap has cut it (assumption 30). -/
def Sys2Proof.Part.JafApplication : Prop :=
  ∀ (s : State) (c src : Nat) (cmd : JCmd) (tup : Tuple) (rest : List Tuple) (part : JPart),
    let m := coreOf c
    (s.cx c).j.part = some part → (s.cx c).j.cmds.find? (fun x => x.src == src) = some cmd → cmd.tuples = tup :: rest →
    let cur := (s.cx c).j.cur
    let cut (x : JCmd) : Prop := x.more = true ∧ x.tuples = [] ∧ (s.cx c).handler = some (sidAt c x.q)
    ((s.cx c).j.parked = true ∨ (cur ≠ none ∧ cur ≠ some cmd.id ∧ ∀ x ∈ (s.cx c).j.cmds, cur = some x.id → ¬cut x) → exec (.jafTupleApply c src) s = .next s) ∧
    ((s.cx c).j.parked = false → cur = none ∨ cur = some cmd.id → ∀ w old, (s.co m).findKey part (ctxnOf c) tup.row tup.cblk = some (w, old) →
      Says.Happens (.jafTupleApply c src) s fun t => t.seqs = s.seqs ∧ t.h = s.h ∧ (∀ d, d ≠ m → t.co d = s.co d) ∧
        (∀ d, d ≠ c → t.cx d = s.cx d) ∧
        (∃ new : Way, (t.co m).way w = some new ∧ (∀ x, x ≠ w → (t.co m).way x = (s.co m).way x) ∧
          new.mask = old.mask ||| tup.mask ∧ ∀ l < 16, lane new.lanes l =
            if !tup.mask.getLsbD l then lane old.lanes l
            else if !old.mask.getLsbD l || tup.ow then lane tup.lanes l
            else if part.i32 then lane old.lanes l + lane tup.lanes l else fadd32 (lane old.lanes l) (lane tup.lanes l)) ∧
        (rest = [] → cmd.more = false → t.cx c = { s.cx c with
          j := { (s.cx c).j with cmds := (s.cx c).j.cmds.filter (fun x => x.id != cmd.id), cur := none }
          n := { (s.cx c).n with mc := (s.cx c).n.mc - if cmd.counted then 1 else 0 } }) ∧
        (rest ≠ [] ∨ cmd.more = true → t.cx c = Says.jaf (fun j => { j with
          cmds := j.cmds.map fun x => if x.id = cmd.id then { cmd with tuples := rest, pins := [] } else x
          cur := some cmd.id }) (s.cx c)))

/-- Streams are joined, and tuples are applied to the JAF. How sources interleave, and a poisoned entry, are the model's
reading (assumptions 3 and 30). -/
def Obligations.JafMergeResults : Prop := Part.JoinResults ∧ Part.JafApplication

/-! ## Copies -/

/-- R143, R147, R339, R340: `cpy` completes wherever its checks pass and fewer than 256 copies of the context are in
flight: both pointers advance, and with a follow-on its operands' too; a copy of n ≠ 0 bytes is in flight and `cc`
is one more; a follow-on waits for it and `mc` is one more; while one that failed waits for its handler, a later one
is held. Nothing else changes but for the translations. With a count above 2^29 - 1 in s, or a scaled count that is
not a positive multiple of 512, it raises ILLEGAL. -/
def Obligations.CopyIssueResults : Prop :=
  ∀ (s : State) (k : Nat) (o : CpyOp) (fo : Option MtileOp),
    let c := cidOf k
    let i : Instr := .cpy o fo
    let n : Nat := if o.ls then (s.r k).s.toNat % 2 ^ 32 else o.count.toNat
    let illegal : Prop := (o.ls = true ∧ 536870911 < n) ∨ (o.sc = true ∧ (n = 0 ∨ n % 512 ≠ 0))
    let busy := ((s.cx c).f.copies.filter fun y => y.landed.length != (y.n + 511) / 512 || !y.held.isEmpty).length
    (illegal → Says.Traps s k i (precise .illegal) s) ∧
    (¬illegal → 256 ≤ busy → Says.Stalls s k i .waitCc) ∧
    (¬illegal → busy < 256 → s.cpyChks k o n = .ok () → ∀ d x u, s.cpySides k o n = .ok (d, x, u) →
      let made (v : State) (a : Ctx) : Ctx := if n = 0 then a else { a with
        n := { a.n with cc := a.n.cc + 1 }
        f := { a.f with copies := a.f.copies ++ [⟨v.nextId, qOf k, o, n, d, x, [], [], 0, [], [], [], (s.r k).pc⟩] } }
      (fo = none → Says.Completes s k i (fun r => r.advance [o.d, o.src]) fun t => Touched s u ∧ OnlyCtx u t c (made u)) ∧
      ∀ m ti v, fo = some m → u.tileCheck k m ((s.r k).ptr m.a.p) ((s.r k).ptr m.b.p) = .ok (ti, v) →
        Says.Completes s k i (fun r => r.advance [o.d, o.src, m.a, m.b]) fun t => Touched s v ∧ OnlyCtx v t c fun a =>
          let a := made v a
          { a with
            n := { a.n with mc := a.n.mc + 1 }
            f := { a.f with follows := a.f.follows ++ [⟨v.nextId, qOf k, ti, v.followFailed c⟩] } })

/-- R143 to R146, R153, R170: a chunk of a copy lands: 512 bytes or the rest, those of lost pages poisoned, and where
the destination's 16-byte units do not begin at the chunks' edges, a unit that an edge cuts lands with the first of
its chunks. To scratchpad it lands on path k; to space G, here within one page, its bytes are at their homes, and no
cached copy changes. With the last chunk `cc` falls and the copy goes; otherwise the chunk is marked. A bit of the
copy's map is set once every byte of every chunk of its residue mod 64 has landed. A chunk of a scaled copy records
its SEQ as it lands; its word waits for the queue, and while the queue is full the chunk holds its bit clear and
`cc` raised. -/
def Sys2Proof.Part.CopyChunkResults : Prop :=
  ∀ (s : State) (c i : Nat) (x : Copy),
    (s.cx c).f.copies.find? (fun y => y.id == x.id) = some x → s.chunkDue x i = true →
    let bs := s.chunkBytes c x i
    let a := x.edge i
    let aligned : Prop := x.dst.offset % 16 = 0
    let all (r : Nat) : Prop := ∀ j, j % 64 = r % 64 → 512 * j < x.n →
      (j = i ∨ j ∈ x.landed) ∧ j ∉ x.held ∧ (aligned ∨ j = 0 ∨ j - 1 = i ∨ j - 1 ∈ x.landed)
    let last : Prop := x.landed.length + 1 = (x.n + 511) / 512
    let toScr (t : State) (m n : Nat) (l : Loc) : Prop := t.h = s.h ∧ (∀ d, d ≠ m → t.co d = s.co d) ∧
      Stored s t m c .k (kWrites (ctxnOf c) (((List.range bs.length).zip bs).map fun e => (l.key n (a + e.1), e.2)))
    let marks (t : State) : Prop := (last → x.held = [] → (t.cx c).n = { (s.cx c).n with cc := (s.cx c).n.cc - 1 } ∧
        (t.cx c).f = { (s.cx c).f with copies := (s.cx c).f.copies.filter fun y => y.id != x.id }) ∧
      (¬last → (t.cx c).n = (s.cx c).n ∧ (t.cx c).f = { (s.cx c).f with
        copies := (s.cx c).f.copies.map fun y => if y.id = x.id then { x with landed := x.landed ++ [i] } else y }) ∧
      (all i → Tab.get none (t.cx c).reg.smSeq (x.op.map.toNat * 64 + i % 64) = some 0) ∧
      ∀ b < 64, ((t.cx c).reg.map x.op.map).getLsbD b = true ↔ ((s.cx c).reg.map x.op.map).getLsbD b = true ∨
        (b = i % 64 ∧ all i) ∨ (¬aligned ∧ 512 * (i + 1) < x.n ∧ b = (i + 1) % 64 ∧ all (i + 1))
    (aligned → a = 512 * i ∧ bs.length = min 512 (x.n - 512 * i)) ∧
    (∀ j < bs.length, (bs.getD j (0, false)).1 = (s.sideByte c x.src (a + j)).1) ∧
    (x.op.sc = false → Says.Happens (.copyChunkLanding c x.id i) s fun t => t.seqs = s.seqs ∧ marks t ∧
      (∀ mp, mp ≠ x.op.map → (t.cx c).reg.map mp = (s.cx c).reg.map mp) ∧
      (∀ m n l, x.dst = .scr m n l → toScr t m n l) ∧
      ∀ va ps, x.dst = .glob va ps → va.toNat % 4096 + a + bs.length ≤ 4096 →
        let p := xlAt ps va a
        let ws := ((List.range bs.length).zip bs).map fun e => (p.ha + e.1, e.2)
        (∀ d, { t.co d with homed := (s.co d).homed } = s.co d) ∧
        (p.cc ≠ 4 → (∀ w ∈ ws, isLehr w.1 = false ∧ (∀ e ∈ s.h.late, e.line ≠ w.1 / 64) ∧
            ∀ h : Homes, h.frrs = s.h.frrs → h.discards w.1 = false) → (∀ q ∈ ps, q.ha % 4096 = 0) →
          ps ≠ [] → AtHome s.h t.h p.key ws)) ∧
    ∀ m n l rest, x.op.sc = true → x.dst = .scr m n l → l.off % 16 = 0 → (s.cx c).f.copies = x :: rest → x.words = i →
      let w := (s.sideRead c x.src (x.n + 4 * i) 4)
      let full : Prop := 64 ≤ (s.cx c).q.scale.length
      Says.Happens (.copyChunkLanding c x.id i) s fun t => t.seqs = s.seqs ∧ toScr t m n l ∧ (t.cx c).q = (s.cx c).q ∧
        Tab.get none (t.cx c).reg.smSeq (x.op.map.toNat * 64 + i % 64) = some (x.op.seq + BitVec.ofNat 16 i) ∧
        (∃ y ∈ (t.cx c).f.copies, y.id = x.id ∧ y.landed = x.landed ++ [i] ∧ y.words = i ∧
          (x.lost = [] → y.scales = x.scales ++ [(i, leBv 32 (w.map Prod.fst), w.any Prod.snd)]) ∧
          (full → y.held = x.held ++ [i]) ∧ (¬full → y.held = x.held)) ∧
        (full → (t.cx c).n = (s.cx c).n ∧ ∀ mp, (t.cx c).reg.map mp = (s.cx c).reg.map mp) ∧
        (¬full → (all i → ((t.cx c).reg.map x.op.map).getLsbD (i % 64) = true) ∧
          (last → x.held = [] → (t.cx c).n = { (s.cx c).n with cc := (s.cx c).n.cc - 1 }) ∧
          (¬last → (t.cx c).n = (s.cx c).n))

/-- R140, R145, R146, R147, R149, R197: the other events of copies. The next scale word of the context's oldest scaled
copy enters the queue when that has room. The oldest follow-on issues its command to the JAF as the copy unit's once
its bytes have landed and the pins go round. A POOL page of a piece that is not present parks, and a record of it
goes to the fault service: one entry, W where the page is the destination's; the answer replays it, or its bytes are
lost. -/
def Sys2Proof.Part.CopyEventResults : Prop :=
  ∀ (s : State) (c : Nat),
    (∀ x w p, (s.cx c).f.copies.find? (fun y => y.op.sc && decide (y.words < (y.n + 511) / 512)) = some x →
      (s.cx c).q.scale.length < 64 → x.scales.find? (fun e => e.1 == x.words) = some (x.words, w, p) →
      Says.Happens (.scaleWordEntry c) s fun t => t.seqs = s.seqs ∧ t.cores = s.cores ∧ t.h = s.h ∧
        (t.cx c).q = { (s.cx c).q with scale := (s.cx c).q.scale ++ [⟨w, x.op.map, x.words % 64, p⟩] } ∧
        ∀ y ∈ (t.cx c).f.copies, y.id = x.id → y = { x with words := x.words + 1, held := x.held.filter (· != x.words) }) ∧
    (∀ f rest v ts ls, (s.cx c).f.follows = f :: rest → f.held = false → s.followReady c f = true →
      (s.followWait c f).tileRun (sidAt c f.q) f.tile = .go v ts → (s.followWait c f).tilePins c f.tile = some ls →
      Says.Happens (.followOnIssue c) s fun t => t.seqs = s.seqs ∧ t.h = s.h ∧ (t.cx c).f = { (s.cx c).f with follows := rest } ∧
        (t.cx c).n = (s.cx c).n ∧
        (t.cx c).j = { (s.cx c).j with cmds := (s.cx c).j.cmds ++ [⟨3, f.q, ts, false, s.nextId, true, ls⟩] }) ∧
    ∀ (m : Mover) (x : Copy) (h : W64) (page : PieceAt), s.moverCopy m = some (x, h) →
      (x.poolPage page = true → page ∉ x.parked → page ∉ x.lost → Says.Happens (.replayableFault m page.side page.page) s fun t =>
        (t.moverCopy m).map Prod.fst = some { x with parked := x.parked ++ [page] } ∧
        { t with ctxs := s.ctxs, sch := { t.sch with graphs := s.sch.graphs, service := s.sch.service } } = s ∧
        ∃ e : W64, t.sch.service = s.sch.service ++ [(h, e)] ∧ e.getLsbD 1 = (match page with | .dst _ => true | _ => false) ∧
          e.extractLsb' 12 45 = ((match page with
            | .dst n => x.dst.start + BitVec.ofNat 64 (4096 * n)
            | .src n => x.src.start + BitVec.ofNat 64 (4096 * n)
            | .scale n => x.src.start + BitVec.ofNat 64 (4096 * n)).extractLsb' 12 45)) ∧
      (page ∈ x.parked → ∀ ok, Says.Happens (.poolFaultReply m page.side page.page ok) s fun t =>
        (t.moverCopy m).map Prod.fst = some { x with
          parked := x.parked.filter (· != page), lost := if ok then x.lost else x.lost ++ [page] } ∧
        { t with ctxs := s.ctxs, sch := { t.sch with graphs := s.sch.graphs } } = s)

/-- Copies land chunk by chunk, with their stitch bits, scale words and follow-ons. When a chunk reads and writes is the
model's reading (assumption 31). -/
def Obligations.CopyProgressResults : Prop := Part.CopyChunkResults ∧ Part.CopyEventResults

/-! ## Offers -/

namespace Sys2Proof.Says

/-- Byte i of a reply record. -/
def rbyte (bs : List PByte) (i : Nat) : Nat := ((bs.getD i (0, false)).1).toNat

/-- The home has replied to the context's offer with these bytes. -/
def Replied (t : State) (c : Nat) (o : Offer) (bs : List PByte) : Prop :=
  (t.cx c).f.offers.find? (fun p => p.id == o.id) = some { o with stage := .replied bs }

/-- An earlier load of the offer's sequencer reads a byte of its operand. -/
def Overtakes (s : State) (o : Offer) (l : Load) : Prop :=
  l.q = o.q ∧ l.id < o.id ∧ overlap o.x.ha (max o.size 1) (s.loadRange l).1 (s.loadRange l).2 = true

/-- The offer is on its way, nothing of its sequencer's that comes before it keeps it there (R156, R231), and it
overtakes no load. -/
def OnItsWay (s : State) (c : Nat) (o : Offer) : Prop :=
  (s.cx c).f.offers.find? (fun p => p.id == o.id) = some o ∧ o.stage = .sent ∧ s.offerFirst c o = true ∧
  ∀ l ∈ (s.cx c).f.loads, ¬Overtakes s o l

/-- The cores have not changed, but for what they note of lines that they have used at their homes. -/
def CoresKept (s t : State) : Prop := ∀ d, { t.co d with homed := (s.co d).homed } = s.co d

/-- The bytes at the operand's home. -/
def cur (s : State) (o : Offer) : List Byte := (s.h.bytes o.x o.size).map Prod.fst

/-- No reservation on a line of the offer, and its page is no near-memory command's. -/
def Open (s : State) (o : Offer) : Prop :=
  (∀ l ∈ State.offerLines o, s.reserver l = none) ∧ s.nmOwned (o.x.ha / 4096) = false

/-- None of the homes and classes of R233 that decline an offer outright, no lease, no poison. -/
def Plain (s : State) (c : Nat) (o : Offer) : Prop :=
  s.notNear o.x = false ∧ s.h.gone o.x.ha = false ∧ haRegion o.x.ha ≠ 2 ∧ (o.x.cc = 2 → s.holds c o.x.ha = true) ∧
  s.writeLeases (o.x.ha / 65536) = [] ∧ ∀ b ∈ s.h.bytes o.x o.size, b.2 = false

end Sys2Proof.Says

/-- R229 to R231, R378, R380 to R382: every offer, `ofin` and `owait` completes wherever its checks pass, its slot is
free and its value can be read: it is on its way to its home, `oc` is one more, the pointers advance, and nothing
else changes but for the translation. A slot that an operation of one of the core's contexts names stalls it under
WAIT_OC. -/
def Sys2Proof.Part.OfferIssues : Prop :=
  ∀ (s u : State) (k : Nat) (o : OfferOp) (add : Bool) (size : W32) (x : Xl) (r : SlotRec),
    let c := cidOf k
    let z := o.ty.bytes
    let n := size.toNat
    let slot := s.loc k ((s.r k).ptr o.r.p)
    ∀ e ∈ [(Instr.oadd o, 0, 0), (.oand o, 1, 0), (.oor o, 2, 0), (.omin o, 3, 0), (.omax o, 4, 0), (.oxch o, 5, 0),
        (.ocas o, 6, 0), (.orow o add size, 7, n), (.ofin o size, 8, n), (.owait o, 9, 0)],
      let opc := e.2.1
      let z := if e.2.2 = 0 then z else e.2.2
      let vz := if opc = 6 then 16 else z
      let len := if e.2.2 = 0 then 32 else 32 + e.2.2
      s.offerChks k o z vz len = .ok () → s.offerPlace k o opc e.2.2 = .ok (x, r, u) →
      (u.slotBusy c slot len = true → Runs s k e.1 → exec e.1 s = .next (u.stall k .waitOc)) ∧
      ∀ v, u.slotBusy c slot len = false → u.oval k o.v vz vz = .ok v →
        Says.Completes s k e.1 (fun r => r.advance ([o.g, o.r] ++ o.v.ptrs)) fun t => Touched s u ∧ ∃ new : Offer,
          OnlyCtx u t c (fun a => { a with
            n := { a.n with oc := a.n.oc + 1 }, f := { a.f with offers := a.f.offers ++ [new] } }) ∧
          new.id = u.nextId ∧ new.opc = opc ∧ new.ty = o.ty ∧ new.e = o.e ∧ new.x = x ∧ new.size = z ∧ new.slot = slot ∧
          new.q = qOf k ∧ new.stage = .sent ∧ new.va = ((s.r k).ptr o.g.p).base ∧ new.policy = (s.cx c).reg.opolicy ∧
          (opc ≠ 6 → new.val = v) ∧ (opc = 6 → new.val = v.take 8 ∧ new.val2 = v.drop 8) ∧
          (opc = 8 → new.ticket = r.ticket ∧ new.fopc = r.opc)

/-- R235: what an offer makes of the operand's bits: x + v, x AND v, x OR v, the lesser or greater as the type orders
them, v, or the swap value where x equals the compare value. -/
def Sys2Proof.Part.OfferFunctions : Prop :=
  ∀ (o : Offer) (cur : List Byte), o.size = o.ty.bytes → cur.length = o.size → o.val.length = o.size →
    let w := 8 * o.size
    let x : BitVec 64 := leBv 64 cur
    let v : BitVec 64 := leBv 64 o.val
    let low (y : BitVec 64) : List Byte := natLe o.size (y.toNat % 2 ^ w)
    (o.opc = 5 → opRef o cur = o.val) ∧
    (o.opc = 6 → o.val2.length = o.size → opRef o cur = if cur = o.val then o.val2 else cur) ∧
    (o.ty = .i32 ∨ o.ty = .ui32 ∨ o.ty = .i64 →
      (o.opc = 0 → opRef o cur = low (x + v)) ∧ (o.opc = 1 → opRef o cur = low (x &&& v)) ∧
      (o.opc = 2 → opRef o cur = low (x ||| v)) ∧
      let less : Bool := if o.ty = .ui32 then x.ult v
        else (x <<< (64 - w)).slt (v <<< (64 - w))
      (o.opc = 3 → opRef o cur = if less then cur else o.val) ∧ (o.opc = 4 → opRef o cur = if less then o.val else cur)) ∧
    (o.ty = .fp32 →
      (o.opc = 0 → opRef o cur = natLe 4 (fadd32 (leBv 32 cur) (leBv 32 o.val)).toNat) ∧
      (o.opc = 3 → opRef o cur = natLe 4 (fmin32 (leBv 32 cur) (leBv 32 o.val)).toNat) ∧
      (o.opc = 4 → opRef o cur = natLe 4 (fmax32 (leBv 32 cur) (leBv 32 o.val)).toNat))

/-- R162, R232, R233, R236, R237, R379, R456: a line offer of a plain page, with nothing in its way, is executed at its
home as one event: the reply is DONE with the old value in OLD and the new in VAL, and the line has the new value;
an unchanged value is not written. An `ofin` with a valid ticket commits its value so; with another it is declined
CHANGED, and waits where its line finds no entry (the model's reading, assumption 37). What an earlier load of the
sequencer reads of the operand is read before (R156, R158; that a load may so be overtaken is the model's reading,
assumption 98). -/
def Sys2Proof.Part.OfferExecution : Prop :=
  (∀ (s : State) (c : Nat) (o : Offer) (load : CnmuLoad), Says.OnItsWay s c o → o.fate = .live → Says.Plain s c o →
    Says.Open s o → o.x.cc ≠ 4 → isLehr o.x.ha = false → o.size ≤ 8 → o.x.ha % 64 + o.size ≤ 64 → 0 < o.size →
    (∀ j < o.size, s.h.discards (o.x.ha + j) = false) →
    let did (t : State) (new : List Byte) : Prop :=
      (∃ bs, Says.Replied t c o bs ∧ Says.rbyte bs 0 = 0 ∧ Says.rbyte bs 2 / 128 = 0 ∧
        (∀ j < o.size, ((bs.getD (8 + j) (0, false)).1) = (Says.cur s o).getD j 0 ∧ ((bs.getD (16 + j) (0, false)).1) = new.getD j 0)) ∧
      t.seqs = s.seqs ∧ Says.CoresKept s t ∧ (new = Says.cur s o → t.h.mem = s.h.mem) ∧
      (new ≠ Says.cur s o → AtHome s.h t.h o.x.key (((List.range o.size).zip new).map fun e => (o.x.ha + e.1, (e.2, false))))
    (o.opc ≤ 6 → o.e = false → State.offerMode o = 0 → load.throttle = false → load.busy = false → o.x.off = true → o.add = false →
      (opRef o (Says.cur s o)).length = o.size →
      Says.Happens (.offerPerform c o.id load) s fun t => did t (opRef o (Says.cur s o))) ∧
    (o.opc = 8 → o.fopc ≠ 7 → o.val.length = o.size →
      (s.ticketValid (o.x.ha / 64) o.ticket = true → Says.Happens (.finishCommit c o.id) s fun t => did t o.val) ∧
      (s.ticketValid (o.x.ha / 64) o.ticket = false → s.finEntry (o.x.ha / 64) = none → exec (.finishCommit c o.id) s = .next s) ∧
      (s.ticketValid (o.x.ha / 64) o.ticket = false → (s.finEntry (o.x.ha / 64)).isSome = true → (∀ e ∈ s.h.fin, e.idx < 4096) →
        Says.Happens (.finishCommit c o.id) s fun t => t.h.mem = s.h.mem ∧
          ∃ bs, Says.Replied t c o bs ∧ Says.rbyte bs 0 = 64 + 9 ∧ Says.rbyte bs 2 / 128 = 1 ∧ t.ticketValid (o.x.ha / 64) (leBv 32 ((bs.drop 4).take 4 |>.map Prod.fst)) = true))) ∧
  ∀ (s t : State) (c : Nat) (o : Offer) (load : CnmuLoad) (bs : List PByte) (l : Load), o.stage = .sent → o.opc ≠ 8 →
    s.offerFirst c o = true → (s.cx c).f.offers.find? (fun p => p.id == o.id) = some o →
    exec (.offerPerform c o.id load) s = .next t → Says.Replied t c o bs → l ∈ (s.cx c).f.loads → Says.Overtakes s o l →
      ∃ m ∈ (t.cx c).f.loads, m.id = l.id ∧ m.got.isSome = true

/-- What an executed offer does to its word or row. The load is an input of the event, and an `ofin` whose line finds no
entry waits (assumptions 16 and 37). -/
def Obligations.OfferExecutionResults : Prop := Part.OfferFunctions ∧ Part.OfferExecution

/-- R233, R239, R456: why an offer to a line is declined: NOTNEAR, TOKEN and LEASE without operands; OFF = 0 and an NMC
page with them; then, for one that is not escalated, POLICY, THROTTLE and BUSY. Nothing is written. Where the line
finds no entry for the ticket, one that is not escalated is declined BUSY without operands. Where no port leads to
the home, or the operand in the host window is poisoned, the reply is FAULTED with POISON (R325, R329). An escalated
offer whose line is reserved or owned waits, and takes its place in the queue. -/
def Sys2Proof.Part.OfferDeclines : Prop :=
  ∀ (s : State) (c : Nat) (o : Offer) (load : CnmuLoad), Says.OnItsWay s c o → o.fate = .live → o.opc ≤ 6 → o.add = false →
    let answers (reason : Nat) (ops : Bool) : Prop := Says.Happens (.offerPerform c o.id load) s fun t =>
      t.h.mem = s.h.mem ∧ t.seqs = s.seqs ∧ Says.CoresKept s t ∧
      ∃ bs, Says.Replied t c o bs ∧ Says.rbyte bs 0 = 64 + reason ∧ Says.rbyte bs 2 / 128 = b2n ops
    let line := o.x.ha / 64
    (s.notNear o.x = true → answers 3 false) ∧
    (s.notNear o.x = false → (s.h.gone o.x.ha = true ∨ haRegion o.x.ha = 2 ∧ o.x.off = true ∧ load.reject = false ∧
          (∃ b ∈ s.h.bytes o.x o.size, b.2 = true) ∧ (o.opc = 0 ∧ o.ty ≠ .fp32 ∨ o.opc = 5 ∨ o.opc = 6)) →
      Says.Happens (.offerPerform c o.id load) s fun t => t.h = s.h ∧ t.seqs = s.seqs ∧ Says.CoresKept s t ∧
        ∃ bs, Says.Replied t c o bs ∧ Says.rbyte bs 0 = 192 + 13) ∧
    (s.notNear o.x = false → s.h.gone o.x.ha = false → haRegion o.x.ha ≠ 2 →
      (o.x.cc = 2 → s.holds c o.x.ha = false → answers 4 false) ∧
      ((o.x.cc = 2 → s.holds c o.x.ha = true) → s.writeLeases (o.x.ha / 65536) ≠ [] → o.e = false → answers 7 false)) ∧
    let blocked : Prop := (∃ l ∈ State.offerLines o, ∃ d, s.reserver l = some d ∧ d ≠ c) ∨ s.nmOwned (o.x.ha / 4096) = true ∨
      load.busy = true
    (Says.Plain s c o → s.finEntry line = none → o.x.off = false → o.e = false → answers 1 false) ∧
    (Says.Plain s c o → o.x.off = true → o.x.cc ≠ 4 → o.e = true → blocked →
      Says.Happens (.offerPerform c o.id load) s fun t => t.h = s.h ∧ t.seqs = s.seqs ∧ t.cores = s.cores ∧
        ∃ n, (t.cx c).f.offers.find? (fun p => p.id == o.id) = some { o with queued := some n } ∧
          (o.queued = none ∨ o.queued = some n)) ∧
    (Says.Plain s c o → (s.finEntry line).isSome = true →
      (o.x.off = false → answers 3 true) ∧
      (o.x.off = true → o.x.cc = 4 → answers 5 true) ∧
      (o.x.off = true → o.x.cc ≠ 4 → o.e = false →
        (State.offerMode o ≠ 0 → answers 8 true) ∧
        (State.offerMode o = 0 → load.throttle = true → answers 6 true) ∧
        (State.offerMode o = 0 → load.throttle = false →
          blocked → answers 1 true)))

/-- R157, R170, R173, R231, R232, R237, R238, R330: the other events of offers. A reply lands in its slot whole, on its
sequencer's path, and `oc` falls; no cached copy of the operand's lines changes. A waiting `owait` is answered DONE
with the word that woke it, or TIMEOUT. A reservation ends. A borrower that gives its lease back has written its
dirty bytes to their home; without a port toward it they are poisoned there. The load, the owner's name and what
waits are the model's (assumptions 16, 26, 36 and 37). -/
def Sys2Proof.Part.OfferEvents : Prop :=
  ∀ (s : State) (c : Nat) (o : Offer), (s.cx c).f.offers.find? (fun p => p.id == o.id) = some o →
    (∀ bs, o.stage = .replied bs → o.fate = .live → Says.Happens (.offerReplyLanding c o.id) s fun t => t.seqs = s.seqs ∧ t.h = s.h ∧
      (∀ m, (t.co m).cache = (s.co m).cache) ∧ t.benches = s.benches ∧
      Stored s t (coreOf c) c (pathOf o.q) (kept o.slot (ctxnOf c) bs) ∧ (t.cx c).n = { (s.cx c).n with oc := (s.cx c).n.oc - 1 } ∧
      (t.cx c).f = { (s.cx c).f with offers := (s.cx c).f.offers.filter fun p => p.id != o.id }) ∧
    (∀ v, o.stage = .waiting (some v) → Says.Happens (.owaitWake c o.id) s fun t => t.h = s.h ∧ t.seqs = s.seqs ∧
      ∃ bs, Says.Replied t c o bs ∧ Says.rbyte bs 0 = 0 ∧ ∀ j < 8, ((bs.getD (8 + j) (0, false)).1) = (v.getD j (0, false)).1) ∧
    (o.stage = .waiting none → Says.Happens (.owaitTimeout c o.id) s fun t => t.h = s.h ∧ t.seqs = s.seqs ∧
      ∃ bs, Says.Replied t c o bs ∧ Says.rbyte bs 0 = 64 + 10 ∧
        ∀ j < 8, ((bs.getD (8 + j) (0, false)).1) = (Says.cur s o).getD j 0) ∧
    (∀ line, Says.Happens (.reservationExpiry line) s fun t => t.reserver line = none ∧
      (∀ l, l ≠ line → t.reserver l = s.reserver l) ∧ { t with h := { t.h with resv := s.h.resv } } = s) ∧
    ∀ block dev a v, s.h.revoking.any (fun l => l.block == block && l.dev == dev) = true → a / 65536 = block →
      s.writeHeld (a / 64) = false → s.h.discards a = false → isLehr a = false →
      Says.Happens (.leaseRevocationAck block dev [(a, v)]) s fun t =>
        (s.h.lost dev = false → t.h.mem.read a = v.1 ∧ (v.2 = true → Tab.get false t.h.poison (a / 16) = true)) ∧
        (s.h.lost dev = true → t.h.mem = s.h.mem ∧ Tab.get false t.h.poison (a / 16) = true) ∧ t.h.revoking.any (fun l => l.block == block && l.dev == dev) = false ∧ t.seqs = s.seqs

/-- Offers that are declined, and the events that follow an offer. The load, the owner's name and what waits are the
model's (assumptions 16, 26, 36 and 37). -/
def Obligations.OfferEventResults : Prop := Part.OfferDeclines ∧ Part.OfferEvents

/-! ## Near-memory commands -/

/-- R245, R246, R253, R257, R262, R384, R385: `oemb`, `oscan`, `orowc` and `ofill` complete wherever their checks pass
and their slot is free, of every context's operations where it lies in a space that they share: the command is in
flight with its record, count or pattern, `nc` is one more, the pointers advance, and nothing else changes but for
the translations. The order of the checks is the model's reading (assumption 38). -/
def Obligations.NearMemoryIssueResults : Prop :=
  ∀ (s u : State) (k : Nat) (bf : Bool) (d r v : PtrOp) (cnt : NmCount) (y : OVal) (rec : List Byte) (ps qs : List Xl),
    let c := cidOf k
    let pr := (s.r k).ptr r.p
    let pv := (s.r k).ptr v.p
    let pd := (s.r k).ptr d.p
    let n : Nat := match cnt with | .imm i => i.toNat | .s => (s.r k).s.toNat % 2 ^ 32
    let sent (t : State) (P : NmCmd → Prop) : Prop := Touched s u ∧ ∃ m : NmCmd, P m ∧ m.id = u.nextId ∧ m.q = qOf k ∧
      m.slot = s.loc k pr ∧ m.out = none ∧ m.walker = none ∧ m.fate = .live ∧ m.limit = s.winSize k ∧ OnlyCtx u t c fun a => { a with
        n := { a.n with nc := a.n.nc + 1 }, f := { a.f with nms := a.f.nms ++ [m] } }
    u.slotTaken k pr = false →
    (s.recordOf k pr pv embBad = .ok rec → s.pages k (BitVec.ofNat 64 (fld rec 8 8)) (embListLen rec) (.offer false) = .ok (ps, u) →
      Says.Completes s k (.oemb bf r v) (fun x => x.advance [r, v]) fun t => sent t fun m =>
        m.opc = 0x10 ∧ m.bf16 = bf ∧ m.record = rec ∧ m.src = ps ∧ m.dest = fld rec 16 4) ∧
    (s.recordOf k pr pv scanBad = .ok rec → fld rec 24 4 + 16 * fld rec 18 2 ≤ s.winSize k →
      s.pages k (BitVec.ofNat 64 (fld rec 0 8)) (fld rec 8 4 * 4096) (.offer false) = .ok (ps, u) →
      Says.Completes s k (.oscan r v) (fun x => x.advance [r, v]) fun t => sent t fun m =>
        m.opc = 0x11 ∧ m.record = rec ∧ m.src = ps ∧ m.dest = fld rec 24 4) ∧
    (s.rowChks k pd pr (some pv) (.lit 0) n = .ok () → s.rowPages k pd.base (some pv.base) n = .ok (ps, qs, u) →
      Says.Completes s k (.orowc d r v cnt) (fun x => x.advance [d, r, v]) fun t => sent t fun m =>
        m.opc = 0x12 ∧ m.dst = ps ∧ m.src = qs ∧ m.n = n ∧ m.dva = pd.base) ∧
    ∀ pat, s.rowChks k pd pr none y n = .ok () → s.rowPages k pd.base none n = .ok (ps, qs, u) → u.oval k y 8 8 = .ok pat →
      Says.Completes s k (.ofill d r y cnt) (fun x => x.advance ([d, r] ++ y.ptrs)) fun t => sent t fun m =>
        m.opc = 0x13 ∧ m.dst = ps ∧ m.n = n ∧ m.dva = pd.base ∧ m.record = pat

/-- R240, R383: `ostat` of an aligned slot in the window, of which no operation of its sequencer is in flight,
completes: s is its first 8 bytes; Z is DONE, N FAULTED, C OPS, V 0. The `.t` form of a FAULTED reply raises OFFER
with OLD in FADDR. -/
def Sys2Proof.Part.OfferStatusResults : Prop :=
  ∀ (s : State) (k : Nat) (tr : Bool) (p : BitVec 3) (b : List Byte),
    let l := s.loc k ((s.r k).ptr p)
    Says.InWindow s k p 32 32 → State.consume (s.statBytes k ((s.r k).ptr p)) = .ok b →
    let kind := (b.getD 0 0).toNat / 64
    ((s.cx (cidOf k)).slotBusy (ctxnK k) l 32 (fun q => q == qOf k) = true → Says.Stalls s k (.ostat tr p) .waitOc) ∧
    ((s.cx (cidOf k)).slotBusy (ctxnK k) l 32 (fun q => q == qOf k) = false →
      (tr = true → kind = 3 → Says.Traps s k (.ostat tr p) (precise .offer (leBv 64 (b.drop 8))) s) ∧
      (¬(tr = true ∧ kind = 3) → Says.Completes s k (.ostat tr p) (fun r => { r with
        s := leBv 64 (b.take 8), fl := ⟨kind == 0, kind == 3, (b.getD 2 0).getLsbD 7, false⟩ }) fun t => OnlySeqs s t))

/-- Offers are sent, and their slots are read. -/
def Obligations.OfferIssueResults : Prop := Part.OfferIssues ∧ Part.OfferStatusResults

/-- R244, R247, R255, R257, R262, R384, R457: what a command comes to at its home where nothing holds it back: a reply,
as yet unlanded. A command to a page far away is declined NOTNEAR, and a lookup whose walker's queue is full BUSY; a
walker that is busy with others takes a lookup up and serves it later. `ofill` of 1 KiB leaves the pattern repeated
in it, `orowc` the source's stored bytes; a lookup of one row gives its lanes widened to FP32; a scan counts the
elements that its terms select, and gives at most K of them. -/
def Sys2Proof.Part.NearMemoryPerformance : Prop :=
  ∀ (s : State) (c : Nat) (m : NmCmd) (load : CnmuLoad), s.nmIn c m.id = some m → m.out = none → s.nmFirst c m = true →
    s.nodeNear m.id = none →
    let answers (kind reason : Nat) (P : State → List PByte → List Byte → Prop) : Prop :=
      Says.Happens (.nmCommandPerform c m.id load) s fun t => t.seqs = s.seqs ∧ t.cores = s.cores ∧ ∃ bs res,
        t.nmIn c m.id = some { m with out := some bs, result := res } ∧ bs.length = 32 ∧
        Says.rbyte bs 0 = 64 * kind + reason ∧ Says.rbyte bs 1 = m.opc ∧ P t bs res
    (m.opc = 0x10 ∧ m.walker = none ∨ m.opc = 0x11 → m.src.any (s.nmFar true) = true → answers 1 3 fun t _ _ => t.h.mem = s.h.mem) ∧
    (m.opc = 0x10 → m.walker = none → m.src.any (s.nmFar true) = false →
      (64 ≤ s.lookups (s.embCnmu m) → answers 1 1 fun t _ _ => t.h.mem = s.h.mem) ∧
      (s.lookups (s.embCnmu m) < 64 → load.throttle = false → load.busy = true →
        Says.Happens (.nmCommandPerform c m.id load) s fun t => t.seqs = s.seqs ∧ t.cores = s.cores ∧ t.h = s.h ∧
          t.nmIn c m.id = some { m with walker := some (s.embCnmu m) })) ∧
    (m.opc = 0x12 ∨ m.opc = 0x13 → m.n ≠ 0 → (m.dst ++ m.src).any (s.nmFar false) = true →
      answers 1 3 fun t _ _ => t.h.mem = s.h.mem) ∧
    (s.nmWaits m = none →
      (∀ x, m.n = 1024 → m.dst = [x] → m.dva.toNat % 1024 = 0 → x.ha % 4096 = 0 → x.cc ≠ 2 → isLehr x.ha = false → s.nmFar false x = false →
        s.h.frr = [] →
        let a := x.ha + m.dva.toNat % 4096
        (m.opc = 0x13 → m.src = [] → m.record.length = 8 → answers 0 0 fun t _ _ => ∀ i < 1024,
          (t.h.raw x.key (a + i)).1 = m.record.getD (i % 8) 0) ∧
        ∀ y, m.opc = 0x12 → m.src = [y] → m.sva.toNat % 1024 = 0 → y.ha % 4096 = 0 → s.nmFar false y = false →
          answers 0 0 fun t _ _ => ∀ i < 1024,
            (t.h.raw x.key (a + i)).1 = (s.h.raw y.key (y.ha + m.sva.toNat % 4096 + i)).1) ∧
      (∀ tb, m.opc = 0x10 → m.src = [] → m.walker.isSome = true ∨ s.lookups (s.embCnmu m) < 64 → load.busy = false → load.throttle = false → m.bf16 = false →
        fld m.record 1 1 = 0 ∨ fld m.record 1 1 = 2 → fld m.record 2 1 = 0 → fld m.record 3 1 = 1 →
        s.embTable m.part (fld m.record 0 1) = some tb → m.dest + tb.lanes * 4 ≤ m.limit →
        let i := fld m.record 24 4
        i < tb.nrows → s.nmFar true (tb.row i) = false → s.poisonedLine tb.pages tb.base (i * tb.rowsz) tb.rowsz = none →
        answers 0 0 fun t bs res => t.h.mem = s.h.mem ∧ leNat (((bs.drop 8).take 4).map Prod.fst) = 1 ∧
          res = (tb.widened ((s.h.bytes (tb.row i) tb.rowsz).map Prod.fst)).flatMap fun w => bvLe 4 w) ∧
      (m.opc = 0x11 → m.src.any (s.nmFar true) = false → m.src.any (fun x => x.cc != 4) = false → s.scanPoison m = none →
        let hits := ((m.src.flatMap s.scanPage).filter (scanHit m.record)).length
        answers 0 0 fun t bs res => t.h.mem = s.h.mem ∧
          leNat (((bs.drop 8).take 4).map Prod.fst) = hits % 2 ^ 32 ∧ res.length = 16 * min hits (fld m.record 18 2)))

/-- R157, R170, R173, R249, R384: the landing of a command's reply, once no older command of its sequencer that writes
bytes of its results or slot has yet to land: the results at DEST, then the slot, both on path n; `nc` falls, and no
cached copy changes, of the lines that a row command wrote neither (R251). A
device of this domain that reads or writes a block for the first time has a lease of it; while the block is being
revoked, its request queues. On another device's revocation, no core and no pool keeps a line of the block. -/
def Sys2Proof.Part.NearMemoryEventsAndLeases : Prop :=
  (∀ (s : State) (c : Nat) (m : NmCmd) (bs : List PByte), s.nmIn c m.id = some m → m.out = some bs → m.fate = .live →
    s.nodeNear m.id = none → s.nmLands c m = true → Says.Happens (.nmReplyLanding c m.id) s fun t => t.seqs = s.seqs ∧ t.h = s.h ∧
      (∀ d, (t.co d).cache = (s.co d).cache) ∧ t.benches = s.benches ∧
      (t.cx c).n = { (s.cx c).n with nc := (s.cx c).n.nc - 1 } ∧
      (t.cx c).f = { (s.cx c).f with nms := (s.cx c).f.nms.filter fun x => x.id != m.id } ∧
      ∃ u v, Says.CoresKept s v ∧ (m.result = [] → u = v) ∧
        (m.result ≠ [] → Stored v u (coreOf c) c .n (kept ⟨false, m.win, m.dest, 0⟩ (ctxnOf c) (clean m.result))) ∧
        Stored u t (coreOf c) c .n (kept m.slot (ctxnOf c) bs)) ∧
  (∀ (s : State) (block dev : Nat) (w : Bool), dev / 65536 = s.pf.domain → dev ≠ s.pf.fabricId →
    Says.Happens (.leaseRequest block dev w) s fun t => { t with h := { t.h with leases := s.h.leases, leaseQ := s.h.leaseQ } } = s ∧
      (s.h.revoking.any (fun l => l.block == block) = true → t.h.leases = s.h.leases ∧ t.h.leaseQ = s.h.leaseQ ++ [⟨block, dev, w⟩]) ∧
      (s.h.revoking.any (fun l => l.block == block) = false → ∃ l ∈ t.h.leases, l.block = block ∧ l.dev = dev ∧
        (w = true ∨ (∃ m ∈ s.h.leases, m.block = block ∧ m.dev = dev ∧ m.write = true) → l.write = true))) ∧
  ∀ (s u : State) (dev block : Nat),
    let b := (dev + 1) * 2 ^ 36 + block
    s.giveBack b = some u → exec (.revocationRequest dev block) s = .next u ∧
      ∀ m, (∀ l ∈ (u.co m).cache, l.line * 64 / 65536 ≠ b) ∧ ∀ l ∈ (u.be m).pool, l.c.line * 64 / 65536 ≠ b

/-- Near-memory commands are performed and land, and leases are asked for and given back. What waits, in how many events
a command runs and the free bytes of a reply are the model's (assumptions 16, 19, 39 and 58). -/
def Obligations.NearMemoryEventResults : Prop := Part.NearMemoryPerformance ∧ Part.NearMemoryEventsAndLeases

/-! ## Walks -/

namespace Sys2Proof.Says

/-- The awl of bench b executes now, for the walk w; its registers are the eight of R221. -/
def Walking (s : State) (b : Nat) (w : Walk) : Prop := s.turn = .awl b ∧ (s.be b).walks.head? = some w ∧ w.w.length = 8

/-- The walk has become `w'`, and nothing else has changed. -/
def Walked (u t : State) (b : Nat) (w' : Walk) : Prop :=
  { t with benches := u.benches } = u ∧ (∀ d, d ≠ b → t.be d = u.be d) ∧
  t.be b = { u.be b with walks := w' :: (u.be b).walks.drop 1 }

/-- The walk after an instruction: counted, at `pc`, register d holding v and the others as before. -/
def stepped (w : Walk) (pc : W64) (ws : List W64) : Walk :=
  { w with pc := pc, steps := w.steps + 1, sinceYield := w.sinceYield + 1, full := false, w := ws }

/-- Register d of the walk becomes v. -/
def put (w : Walk) (d : BitVec 3) (v : W64) (ws : List W64) : Prop :=
  ws.length = 8 ∧ ∀ j : BitVec 3, ws.getD j.toNat 0 = if j = d then v else w.get j

/-- The walk fails: WALKER is pending, with the failing word's address, on the sequencer that issued `wrun`, or on the
context's compute sequencer where that one has stopped; the walk has gone from its bench (R227). -/
def WalkFails (i : Instr) (s : State) (b : Nat) (w : Walk) : Prop :=
  w.rows = [] → (s.cx w.cid).slot.state ≠ .free → Happens i s fun t =>
    let k := if (s.sq (sidAt w.cid w.q)).run then sidAt w.cid w.q else sidAt w.cid 0
    (t.sq k).pend = (s.sq k).pend ++ [⟨.walker, w.pc, true, 0, [], none, none⟩] ∧ (t.be b).walks = (s.be b).walks.drop 1 ∧ t.h = s.h

/-- The walk waits under a cause: its awl counts the stall, and nothing else changes but what says that it waits for
room. -/
def WalkWaits (i : Instr) (s : State) (b : Nat) (w : Walk) (c : Cause) : Prop :=
  Happens i s fun t => Walked { s with pf := t.pf } t b { w with full := c == .qFull } ∧
    t.pf = { s.pf with unitCnt := t.pf.unitCnt } ∧ Tab.get 0 t.pf.unitCnt (90 * b + c.num) =
      BitVec.ofNat 64 (min ((Tab.get 0 s.pf.unitCnt (90 * b + c.num)).toNat + 1) (2 ^ 64 - 1))

end Sys2Proof.Says

/-- R443 to R446: the W-class instructions on registers complete for every walk: one register, or the flags, or the
address of the next word, changes. -/
def Sys2Proof.Part.WalkRegisterResults : Prop :=
  ∀ (s : State) (b : Nat) (w : Walk) (d : BitVec 3) (y : WSrc) (i : W16) (cc : Cond) (off : BitVec 17), Says.Walking s b w →
    let v : W64 := match y with | .reg r => w.get r | .lit l => l
    let at_ (i : Instr) : W64 := w.pc + BitVec.ofNat 64 (4 * (encode i).length)
    let sh := (v.extractLsb' 0 7).toInt
    (∀ e ∈ [(Instr.wldi d i, i.signExtend 64), (.wldiSh d i, w.get d <<< 16 ||| i.zeroExtend 64), (.wadd d y, w.get d + v),
        (.wsub d y, w.get d - v), (.wand d y, w.get d &&& v),
        (.wshr false d y, if sh < 0 then w.get d <<< (-sh).toNat else w.get d >>> sh.toNat),
        (.wshr true d y, if sh < 0 then w.get d <<< (-sh).toNat else (w.get d).sshiftRight sh.toNat)],
      Says.Happens e.1 s fun t => ∃ ws, Says.put w d e.2 ws ∧ Says.Walked s t b (Says.stepped w (at_ e.1) ws)) ∧
    (Says.Happens (.wcmp d y) s fun t => ∃ f : Flags, Says.Walked s t b { Says.stepped w (at_ (.wcmp d y)) w.w with fl := f } ∧
      f.z = (w.get d == v) ∧ f.c = (w.get d).ult v ∧ (f.n != f.v) = (w.get d).slt v) ∧
    (Says.Happens (.wbr cc off) s fun t => Says.Walked s t b
      (Says.stepped w (if cc.holds w.fl then w.pc + off.signExtend 64 * 4 else at_ (.wbr cc off)) w.w)) ∧
    (Says.Happens (.wjmp off) s fun t => Says.Walked s t b (Says.stepped w (w.pc + off.signExtend 64 * 4) w.w))

/-- R223, R442, R448: `wld` of an aligned, readable element loads it, sign-extended where the type is signed; the
increment is lost where it is the register loaded. `wtile` of an aligned readable row puts it in flight for its
offset, in its chunk of 512 B; `wtile.ty` puts a row whose masked elements it reads in turn. A misaligned or
unreadable address fails; a read of a refreshing macro, or of a page that a near-memory command owns, waits. How
rows land, and what waits, are the model's reading (assumption 40). -/
def Sys2Proof.Part.WalkReads : Prop :=
  ∀ (s u : State) (b : Nat) (w : Walk) (d a m : BitVec 3) (inc : Bool) (ty : ElemTy) (x : Xl) (n : Nat), Says.Walking s b w →
    let p := w.get a
    let i : Instr := .wld d a inc ty
    let at_ (i : Instr) : W64 := w.pc + BitVec.ofNat 64 (4 * (encode i).length)
    let readable (n : Nat) : Prop := s.translateOne (s.whoWalk w) p .read = .ok (x, u) ∧ u.readHeld x.ha = none ∧
      ∀ e ∈ u.h.bytes x n, e.2 = false
    let row (w : Walk) (o : Nat) (bs : List Byte) : Walk := { w with
      rows := w.rows ++ [(o, clean bs, w.chunk)], chunk := if w.chunkBytes = 448 then w.chunk + 1 else w.chunk,
      chunkBytes := if w.chunkBytes = 448 then 0 else w.chunkBytes + 64 }
    let o := (w.get d).toNat
    let fits : Prop := o % 64 = 0 ∧ o + 64 ≤ (s.cx w.cid).slot.winSize
    (p.toNat % ty.bytes = 0 → readable ty.bytes → Says.Happens i s fun t => Touched s u ∧ ∃ ws, ws.length = 8 ∧
      (∀ j : BitVec 3, ws.getD j.toNat 0 = if j = d then extTy ty (leNat ((u.h.bytes x ty.bytes).map Prod.fst))
        else if j = a ∧ inc = true then p + BitVec.ofNat 64 ty.bytes else w.get j) ∧
      Says.Walked u t b (Says.stepped w (at_ i) ws)) ∧
    (p.toNat % ty.bytes ≠ 0 ∨ (∃ e, s.translateOne (s.whoWalk w) p .read = .error e ∧ e.hold = none) → Says.WalkFails i s b w) ∧
    (∀ e c, p.toNat % ty.bytes = 0 → s.translateOne (s.whoWalk w) p .read = .error e → e.hold = some c → Says.WalkWaits i s b w c) ∧
    (∀ c, p.toNat % ty.bytes = 0 → s.translateOne (s.whoWalk w) p .read = .ok (x, u) → u.readHeld x.ha = some c →
      Says.WalkWaits i s b w c) ∧
    (fits → p.toNat % 64 = 0 → readable 64 → Says.Happens (.wtile d a inc) s fun t => Touched s u ∧ ∃ ws,
      (inc = true → Says.put w a (p + 64) ws) ∧ (inc = false → ws = w.w) ∧
      Says.Walked u t b (row (Says.stepped w (at_ (.wtile d a inc)) ws) o ((u.h.bytes x 64).map Prod.fst))) ∧
    (¬fits ∨ p.toNat % 64 ≠ 0 → Says.WalkFails (.wtile d a inc) s b w) ∧
    (fits → ty.bytes = 4 → p.toNat % 4 = 0 → (w.get m).toNat % 2 ^ 16 = 2 ^ n → n < 16 → readable 4 →
      Says.Happens (.wtileExpand d a inc ty m) s fun t => Touched s u ∧ ∃ ws,
        (inc = true → Says.put w a (p + 4) ws) ∧ (inc = false → ws = w.w) ∧
        Says.Walked u t b (row (Says.stepped w (at_ (.wtileExpand d a inc ty m)) ws) o
          (List.replicate (4 * n) 0 ++ (u.h.bytes x 4).map Prod.fst ++ List.replicate (60 - 4 * n) 0)))

/-- The words of a walk that compute, branch and load. How rows land, and what waits, are the model's reading
(assumption 40). -/
def Obligations.WalkReadResults : Prop := Part.WalkRegisterResults ∧ Part.WalkReads

/-- R212, R224, R447, R449: `wemit` keeps up to three tuples; with the fourth it pushes an entry of the four onto the
queue that the walk feeds. While that queue is full it waits where spilling is off or its quarter of the ring is
full, and so does `wend`; where KQUOTA alone leaves no room for a spill, they fail (assumption 91). A walk that
feeds none fails at `wemit`. `wend` pushes the tuples left with an END tuple after them; where no row is in flight
the walk leaves the awl, the bit of a chunk partly written is set, and its DONE bit where it asked for it. The free
bytes after END, and FADDR of a long walk, are the model's (assumptions 40 and 41). -/
def Sys2Proof.Part.WalkOutputs : Prop :=
  ∀ (s : State) (b : Nat) (w : Walk) (i k v : BitVec 3), Says.Walking s b w →
    let at_ : W64 := w.pc + BitVec.ofNat 64 (4 * (encode (.wemit i k v)).length)
    let new : W32 × W32 × W32 := ((w.get i).extractLsb' 0 32, (w.get k).extractLsb' 0 32, (w.get v).extractLsb' 0 32)
    let q : Queue := if w.qsel = 2 then .am else .ac
    let room : Prop := (s.cx w.cid).q.spill q = [] ∧ ((s.cx w.cid).q.get q).length < 32
    let word (e : QEnt) (j n : Nat) : W32 := lane e.data (4 * j + n)
    let holds (e : QEnt) (ts : List (W32 × W32 × W32)) : Prop := e.poison = 0 ∧ ∀ j < ts.length,
      word e j 0 = (ts.getD j (0, 0, 0)).1 ∧ word e j 1 = (ts.getD j (0, 0, 0)).2.1 ∧ word e j 2 = (ts.getD j (0, 0, 0)).2.2 ∧
      word e j 3 = 0
    let pushed (t : State) (e : QEnt) : Prop :=
      (t.cx w.cid).q = (s.cx w.cid).q.set q ((s.cx w.cid).q.get q ++ [e]) ∧ t.h = s.h ∧ t.seqs = s.seqs
    (w.qsel = 0 → Says.WalkFails (.wemit i k v) s b w) ∧
    (w.qsel ≠ 0 → w.partialEnt.length < 3 → Says.Happens (.wemit i k v) s fun t => Says.Walked s t b
      { Says.stepped w at_ w.w with partialEnt := w.partialEnt ++ [new] }) ∧
    (w.qsel ≠ 0 → w.partialEnt.length = 3 → room → Says.Happens (.wemit i k v) s fun t => ∃ e,
      holds e (w.partialEnt ++ [new]) ∧ pushed t e ∧ (t.be b).walks = { Says.stepped w at_ w.w with partialEnt := [] } :: (s.be b).walks.drop 1) ∧
    (w.qsel ≠ 0 → 32 ≤ ((s.cx w.cid).q.get q).length →
      let g := (s.cx w.cid).reg
      let ringFull : Prop := g.kring.toNat % 256 * 16 ≤ ((s.cx w.cid).q.spill q).length
      let off : Prop := g.kring.toNat % 256 = 0 ∨ g.kquota = 0
      (off ∨ ringFull →
        (w.partialEnt.length = 3 → Says.WalkWaits (.wemit i k v) s b w .qFull) ∧ Says.WalkWaits .wend s b w .qFull) ∧
      (¬off → ¬ringFull → g.kquota.toNat < 64 * ((s.cx w.cid).q.spilled + 1) →
        (w.partialEnt.length = 3 → Says.WalkFails (.wemit i k v) s b w) ∧ Says.WalkFails .wend s b w)) ∧
    (w.rows = [] → 0 < w.chunkBytes → w.qsel = 0 → w.doneEn = false → Says.Happens .wend s fun t => t.seqs = s.seqs ∧
      t.h = s.h ∧ (t.be b).walks = (s.be b).walks.drop 1 ∧ ((t.cx w.cid).reg.map w.map).getLsbD (w.chunk % 64) = true) ∧
    (w.rows = [] → w.chunkBytes = 0 →
      (w.qsel = 0 → Says.Happens .wend s fun t => (t.be b).walks = (s.be b).walks.drop 1 ∧ t.seqs = s.seqs ∧ t.h = s.h ∧
        (w.doneEn = true → ((t.cx w.cid).reg.map w.map).getLsbD w.done = decide (w.done < 64)) ∧
        (w.doneEn = false → t.ctxs = s.ctxs)) ∧
      (w.qsel ≠ 0 → w.partialEnt.length ≤ 3 → room → w.doneEn = false → Says.Happens .wend s fun t => ∃ e,
        holds e w.partialEnt ∧ word e w.partialEnt.length 3 = 1 ∧ pushed t e ∧ (t.be b).walks = (s.be b).walks.drop 1))

/-- R221, R222, R225, R227, R228, R448, R453: `wrun` of a start block of the listed values, with room in the bench's
queue and no walk of the context there, queues its walk; other values raise ILLEGAL. Without room it waits, the
block read once. The awl takes the walk at the head of the queue, gives way after every 4,096 instructions when
another waits, and fails at 16,777,216. A row lands on path w at its offset. -/
def Sys2Proof.Part.WalkRunResults : Prop :=
  (∀ (s : State) (k : Nat) (p : BitVec 3) (bs : List Byte), s.scrVal k ((s.r k).ptr p) 64 64 false = .ok bs →
    let bn := benchOf (coreK k)
    let f (o n : Nat) : Nat := leNat ((bs.drop o).take n)
    let listed : Prop := f 0 8 % 4 = 0 ∧ f 56 1 ≤ 2 ∧ f 57 1 < 16 ∧ f 58 1 < 64 ∧ f 59 1 < 2 ∧ f 60 4 = 0
    let room : Prop := (s.be bn).queued < 48 ∧ ∀ w ∈ (s.be bn).walks, w.cid ≠ cidOf k
    (∀ w, (s.sq k).wrun = some w → Runs s k (.wrun p) →
      (room → ∃ t, exec (.wrun p) s = .next t ∧ (t.sq k).wrun = none ∧ (t.be bn).walks = (s.be bn).walks ++ [w]) ∧
      (¬room → ∃ t, exec (.wrun p) s = .next t ∧ (t.sq k).wrun = some w ∧ t.benches = s.benches)) ∧
    ((s.sq k).wrun = none →
    (¬listed → Says.Traps s k (.wrun p) (precise .illegal) s) ∧
    (listed → ¬room → Runs s k (.wrun p) → ∃ t, exec (.wrun p) s = .next t ∧ t.benches = s.benches ∧
      ∃ w : Walk, (t.sq k).wrun = some w ∧ w.pc = BitVec.ofNat 64 (f 0 8)) ∧
    (listed → (s.be bn).queued < 48 → (∀ w ∈ (s.be bn).walks, w.cid ≠ cidOf k) → Says.Completes s k (.wrun p) id fun t => ∃ w : Walk,
      { t with seqs := s.seqs, benches := s.benches } = s ∧ (∀ d, d ≠ bn → t.be d = s.be d) ∧
      t.be bn = { s.be bn with walks := (s.be bn).walks ++ [w] } ∧ w.cid = cidOf k ∧ w.q = qOf k ∧ w.started = false ∧
      w.pc = BitVec.ofNat 64 (f 0 8) ∧ w.w.length = 8 ∧ (∀ i < 6, w.w.getD i 0 = BitVec.ofNat 64 (f (8 + 8 * i) 8)) ∧
      w.w.getD 6 0 = 0 ∧ w.w.getD 7 0 = 0 ∧ w.qsel = f 56 1 ∧ w.map.toNat = f 57 1 ∧ w.done = f 58 1 ∧ w.doneEn = (f 59 1 == 1)))) ∧
  ∀ (s : State) (b : Nat) (w : Walk), (s.be b).walks.head? = some w →
    (w.started = false → Says.Happens (.walkStart b) s fun t => Says.Walked s t b { w with started := true }) ∧
    (w.ended = false → 16777216 ≤ w.steps → Says.WalkFails (.walkStepLimit b) s b w) ∧
    (w.ended = false → w.full = false → w.sinceYield ≠ 0 → w.sinceYield % 4096 = 0 → w.rows = [] → ∀ x rest, (s.be b).walks = w :: x :: rest →
      Says.Happens (.walkYield b) s fun t => { t with benches := s.benches } = s ∧ (∀ d, d ≠ b → t.be d = s.be d) ∧
        t.be b = { s.be b with walks := x :: rest ++ [{ w with sinceYield := 0 }] }) ∧
    ∀ idx o bs ch, w.rows[idx]? = some (o, bs, ch) → (∀ x ∈ w.rows.take idx, x.1 ≠ o) → w.ended = false →
      Says.Happens (.wtileRowLanding b idx) s fun t => t.seqs = s.seqs ∧ t.h = s.h ∧
        Stored s t (coreOf w.cid) w.cid .w (kept ⟨false, (s.cx w.cid).slot.winBase, o, 0⟩ (ctxnOf w.cid) bs) ∧
        (t.be b).walks = { w with rows := w.rows.take idx ++ w.rows.drop (idx + 1) } :: (s.be b).walks.drop 1

/-- Walks start, emit, gather and end. The free bytes after END, and FADDR of a long walk, are the model's (assumptions
40 and 41), and so is where a walk waits or fails for want of room (assumption 91). -/
def Obligations.WalkOutputResults : Prop := Part.WalkOutputs ∧ Part.WalkRunResults

/-! ## Traps, translation, system registers -/

namespace Sys2Proof.Says

/-- The 8 bytes at offset `off` of a context's kernel window, as a path sees them. -/
def kword (s : State) (c : Nat) (p : Path) (off : Nat) : W64 :=
  leBv 64 ((List.range 8).map fun i => ((s.co (coreOf c)).byte c p (kKey (ctxnOf c) (off + i))).1)

/-- Sequencer k has passed an instruction of one word, its other registers as before. -/
def Passes (s t : State) (k : Nat) : Prop :=
  { t.r k with pc := (s.r k).pc, rep := (s.r k).rep } = s.r k ∧
  (s.follows k = false → ((t.r k).pc, (t.r k).rep) = follow (s.r k) 4 1)

/-- REPSTATE without a repetition. -/
def noRep : Rep := ⟨false, 0, 0, 0, 0, 0, 0⟩

end Sys2Proof.Says

/-- R59, R409, R410: taking a trap with KVEC enabled: CAUSE has the code, the level, whether it is asynchronous, the
sequencer and INFO; EPC has the pc, or the address of the instruction whose trap it is, FADDR the address; REPSTATE
goes to the frame at K 0x0000 and is inactive after; PPL is the old level and PL is 1; the pc is KVEC's address. No
other sequencer and no other context changes. A pending trap is taken so at the next instruction boundary, and PAGE
when run-ahead has come to its end, with its batch. With KVEC disabled, the instance is cancelled, here one of one
member whose node goes on: its context is free and holds nothing, and the node records SRC 1 and the cause. -/
def Sys2Proof.Part.TrapEntryResults : Prop :=
  (∀ (s : State) (k : Nat) (tr : TrapInfo) (i : Inst) (n : Node),
    let c := cidOf k
    (s.cx c).reg.kvec.getLsbD 0 = false → s.instOf c = some i → i.members = [coreK k] → i.ctxn = ctxnK k → i.state = .running →
    s.node i.ctxid i.hdr i.node = some n → n.fault = 0 → n.barc = 0 → n.doneInst.length + n.cancelled.length + 1 < n.count →
    let t := s.takeTrap k tr
    (t.cx c).slot.state = .free ∧ (∀ q < 3, (t.sq (sidAt c q)).run = false) ∧ (t.cx c).j.part = none ∧ (t.cx c).pins = [] ∧
    (∀ b, (t.tok b).holder ≠ some c) ∧ t.sch.insts = s.sch.insts.filter (fun x => x.id != i.id) ∧
    t.node i.ctxid i.hdr i.node = some { n with
      cancelled := n.cancelled ++ [i.inst], fva := tr.faddr, finst := BitVec.ofNat 32 i.inst
      fault := BitVec.ofNat 64 (2 ^ 56 +
        (tr.info.toNat * 65536 + qOf k * 1024 + b2n tr.async * 512 + b2n (s.r k).pl * 256 + tr.code.num)) }) ∧
  ∀ (s : State) (k : Nat) (tr : TrapInfo),
    let c := cidOf k
    (s.cx c).reg.kvec.getLsbD 0 = true → tr.record.length ≤ 32 →
    let g := (s.cx c).reg
    let entered (t : State) : Prop :=
      (t.cx c).reg = { g with
        cause := BitVec.ofNat 64 (tr.info.toNat * 65536 + qOf k * 1024 + b2n tr.async * 512 + b2n (s.r k).pl * 256 + tr.code.num)
        epc := tr.epc.getD (s.r k).pc, faddr := tr.faddr } ∧
      t.r k = { s.r k with
        pc := (g.kvec.extractLsb' 2 55 ++ (0 : BitVec 2)).signExtend 64, rep := Says.noRep, ppl := (s.r k).pl, pl := true } ∧
      (∀ j, j ≠ k → t.sq j = s.sq j) ∧ (∀ d, d ≠ c → t.cx d = s.cx d) ∧ t.h = s.h ∧
      let w (i : Nat) := Says.kword t c (pathOf (qOf k)) (8 * i)
      let r := (s.r k).rep
      w 0 = BitVec.ofNat 64 (r.pass.toNat * 2 ^ 32 + r.count.toNat) ∧ w 2 = r.body ∧
      w 1 = BitVec.ofNat 64 (b2n r.act * 2 ^ 63 + r.nm1.toNat * 256 + r.pos.toNat * 16 + r.stag.toNat)
    entered (s.takeTrap k tr) ∧
    (∀ rest, s.pendNow k = tr :: rest → s.mayIssue k = true → Says.Happens (.trapEntry k) s fun t =>
      (t.sq k).pend = rest ∧ entered t) ∧
    (∀ a, (s.sq k).ra = some a → a.isOver = true → { a.trap with record := a.trap.record ++ a.batch } = tr →
      Says.Happens (.runaheadEnd (cidOf k) (qOf k)) s fun t => (t.sq k).ra = none ∧ entered t) ∧
    ∀ a, (s.sq k).ra = some a → a.isOver = false → exec (.runaheadEnd (cidOf k) (qOf k)) s = .next s

namespace Sys2Proof.Says

/-- A batch that can still be reported: hints only, 32 pages at most with the demand's, and over once it has 32. -/
def BatchOk (a : Ahead) : Prop :=
  (∀ e ∈ a.batch, e.hint = true) ∧ a.trap.record.length + a.batch.length ≤ 32 ∧
  (a.isOver = false → a.trap.record.length + a.batch.length < 32)

end Sys2Proof.Says

/-- R120, R138, R139: a data access that fails with PAGE starts a run-ahead, and its sequencer stalls. A turn of a
sequencer that runs ahead changes nothing but the run-ahead, and counts the stall: the demand's trap stays, pages
only join the batch, as hints, 32 at most, and an instruction is counted at most. An instruction that cannot be
fetched or decoded, or that R138 lists, ends it, and so does the 512th; the page of a fetch that fails joins the
batch. The page of a load that does not translate joins the batch, and the load's destination is poisoned; what an
instruction makes of a poisoned register is poisoned. What else ends it is the model's reading (assumption 84). -/
def Obligations.RunaheadResults : Prop :=
  ∀ (s : State) (k : Nat),
    (∀ t : TrapInfo, t.code = .page → (∀ e ∈ t.record, e.fetch = false) → (s.sq k).ra = none →
      ∃ a, ((s.raise k t).sq k).ra = some a ∧ a.trap = t ∧ a.r = s.r k ∧ a.batch = [] ∧ a.count = 0 ∧ a.isOver = false ∧
        (s.raise k t).r k = s.r k ∧ { s.raise k t with seqs := s.seqs, ctxs := s.ctxs } = s) ∧
    ∀ a, (s.sq k).ra = some a →
      (let t := s.aheadTurn k a;
        ((s.cx (cidOf k)).slot.state ≠ .running → t = s) ∧
        { t with seqs := s.seqs, ctxs := s.ctxs } = s ∧ (∀ j, j ≠ k → t.sq j = s.sq j) ∧ t.r k = s.r k ∧
        (∀ d, { t.cx d with reg := { (t.cx d).reg with cnt := (s.cx d).reg.cnt } } = s.cx d) ∧
        ∃ b, (t.sq k).ra = some b ∧ b.trap = a.trap ∧ a.batch.isPrefixOf b.batch = true ∧ b.count ≤ a.count + 1 ∧
          (a.isOver = true → b = a) ∧ (Says.BatchOk a → Says.BatchOk b)) ∧
      (a.isOver = false → s.follows k = false → ∀ t, (s.shadow k a).fetch k = .error t →
        let b := s.aheadStep k a
        b.isOver = true ∧ b.count = a.count ∧ (t.hold ≠ none → b.batch = a.batch) ∧
        (t.hold = none → (∀ p ∈ t.record, ∀ q ∈ a.trap.record ++ a.batch, p.vpn ≠ q.vpn) →
          b.batch = a.batch ++ t.record.map fun p => { p with hint := true })) ∧
      (a.isOver = false → s.follows k = false → ∀ ws u, (s.shadow k a).fetch k = .ok (ws, u) →
        (∀ m, decode ws = .bad m → s.aheadStep k a = { a with isOver := true }) ∧
        ∀ i, decode ws = .ok i →
          ((u.refuses k i).isSome = true ∨ i.endsAhead = true → s.aheadStep k a = { a with isOver := true }) ∧
          ((u.refuses k i).isSome = false → i.endsAhead = false → (s.aheadStep k a).count = a.count + 1 ∧
            (511 ≤ a.count → (s.aheadStep k a).isOver = true) ∧
            ((∃ n ∈ i.uses a.r.rep, n ∈ a.bad) → i.isRep = false → ∀ n ∈ i.sets a.r.rep, n ∈ (s.aheadStep k a).bad) ∧
            ∀ w d x e, i = .ldg w d x → (∀ n ∈ i.uses a.r.rep, n ∉ a.bad) →
              u.gAccess k (some ((u.r k).ptr d.p)) ((u.r k).ptr x.p) w.bytes .read false = .error e → e.code = .page →
              e.hold = none → (∀ p ∈ e.record, ∀ q ∈ a.trap.record ++ a.batch, p.vpn ≠ q.vpn) →
              (s.aheadStep k a).batch = a.batch ++ (e.record.map fun p => { p with hint := true }) ∧
              let p := (u.r k).ptr d.p
              (p.space = .l → ∀ j < w.bytes, Tab.get false (s.aheadStep k a).spois
                ((u.winBase k + swzOff p.swz (p.base.toNat + j)) / 16) = true)))

/-- R345, R409, R410, R412: `trap` completes by its entry, after it has retired: EPC names the next instruction, and
INFO is its immediate. `eret` restores: the level is PPL, PPL is 0, the pc is EPC with its low bits 0 and REPSTATE
inactive, or, where the frame holds a repetition, that instruction of the body at which the frame stands and the
frame's REPSTATE; a frame with PASS at COUNT or beyond, or POS beyond the body, goes on behind the body with
REPSTATE inactive (R59). While a word of the body that it passes over is held at its home, it waits (assumption 76).
The context's other sequencers go on; its parked JAF updates where the handler served a SPILL, its held follow-ons
where it served a follow-on's trap. -/
def Sys2Proof.Part.TrapAndReturnResults : Prop :=
  ∀ (s : State) (k : Nat) (n : W16),
    let c := cidOf k
    let g := (s.cx c).reg
    (Runs s k (.trap n) → s.follows k = false → g.kvec.getLsbD 0 = true → Says.Happens (.trap n) s fun t =>
      (t.cx c).reg = { g with
        cause := BitVec.ofNat 64 (n.toNat * 65536 + qOf k * 1024 + b2n (s.r k).pl * 256 + 16)
        epc := (follow (s.r k) 4 1).1, faddr := 0 } ∧
      (t.r k).pc = (g.kvec.extractLsb' 2 55 ++ (0 : BitVec 2)).signExtend 64 ∧ (t.r k).pl = true ∧ (t.r k).ppl = (s.r k).pl ∧
      (t.r k).rep = Says.noRep ∧ (t.r k).s = (s.r k).s ∧ (t.r k).fl = (s.r k).fl) ∧
    (Runs s k .eret →
      let w (i : Nat) := Says.kword s c (pathOf (qOf k)) (8 * i)
      let f : Rep := ⟨(w 1).getLsbD 63, (w 0).extractLsb' 32 32, (w 0).extractLsb' 0 32, (w 1).extractLsb' 8 4,
        (w 1).extractLsb' 4 4, (w 1).extractLsb' 0 2, w 2⟩
      let served (p : TrapCode → Bool) : Bool := ((s.sq k).traps.take 1).any fun x => x.async && p x.code
      let back (pc : W64) (rep : Rep) : Prop := Says.Happens .eret s fun t =>
        t.r k = { s.r k with pl := (s.r k).ppl, ppl := false, pc := pc, rep := rep } ∧
        (t.sq k).traps = (s.sq k).traps.drop 1 ∧ (t.sq k).pend = (s.sq k).pend ∧ (∀ j, j ≠ k → t.sq j = s.sq j) ∧
        OnlyCtx s t c fun x => { x with
          handler := none, j := { x.j with parked := x.j.parked && !served (· == .spill) }
          f := { x.f with follows := if served (fun p => p == .scale || p == .metaErr || p == .poison) then
            x.f.follows.map fun o => { o with held := false } else x.f.follows } }
      (f.act = false → back (g.epc &&& ~~~(3 : W64)) Says.noRep) ∧
      (f.act = true → f.pass < f.count → f.pos = 0 → back f.body f) ∧
      (∀ w, s.returnHeld k = some w → exec .eret s = .next (s.stall k w)) ∧
      let words := match (s.sq k).traps with | x :: _ => if x.buf.body = f.body then x.buf.words else [] | [] => []
      let v := s.lowered k
      let word (a : W64) (w : W32) : Prop := match words.find? fun e => e.1 == a with
        | some e => w = e.2
        | none => ∃ x u, v.translateOne (v.who k) a .fetch = .ok (x, u) ∧ v.readHeld x.ha = none ∧
            w = leBv 32 ((u.h.bytes x 4).map Prod.fst)
      ∀ (n : Nat) (p : Nat → W64) (w : Nat → W32), p 0 = f.body → f.act = true →
        (∀ j < n, word (p j) (w j) ∧
          p (j + 1) = p j + (match (w j).toNat % 4 with | 0 => 4 | 1 => 12 | 2 => 12 | _ => 20)) →
        (f.pass < f.count → f.pos ≤ f.nm1 → n = f.pos.toNat → back (p n) f) ∧
        (¬(f.pass < f.count ∧ f.pos ≤ f.nm1) → n = f.nm1.toNat + 1 → back (p n) Says.noRep))

/-- Taking a trap, and returning from one. -/
def Obligations.TrapResults : Prop := Part.TrapEntryResults ∧ Part.TrapAndReturnResults

/-- R128, R132, R134, R137, R174, R322, R325, R327: what translates is allowed: only a canonical address, never a page
of class 7; at level U no register of the device; to write, no byte of the lehr; for a plain load or store no POOL
page and no home of another domain; and the pool window only to a POOL page. A failed translation changes nothing;
one that succeeds touches page-table entries and translation caches alone, as a page walk does. -/
def Sys2Proof.Part.TranslationProtects : Prop :=
  ∀ (s : State) (w : Who) (va : W64) (k : XKind),
    (canonical va = false → s.translate w va k = .error ⟨.page, 2, va, none⟩) ∧
    (∀ x u, s.translate w va k = .ok (x, u) → canonical va = true ∧ Touched s u ∧ x.cc ≠ 7 ∧
      (w.lvlK = false → isMmio x.ha = false) ∧ (k.needW = true → isLehr x.ha = false) ∧
      (k = .read ∨ k = .write ∨ k = .fetch ∨ k = .tile → x.cc ≠ 6 ∧ s.otherDomain x.ha = false) ∧
      (haRegion x.ha = 3 → x.cc = 6) ∧ (k = .rowRead → x.cc = 3) ∧
      (x.key ≠ 0 → Tab.get 0 s.pf.keyPart x.key = w.part + 1)) ∧
    ∀ (c : Nat) (fetch : Bool), let kind : XKind := if fetch then .fetch else .read
      (∀ x u, s.translate (s.who (sidAt c 0)) va kind = .ok (x, u) → exec (.pageWalk c va fetch) s = .next u) ∧
      ∀ e, s.translate (s.who (sidAt c 0)) va kind = .error e → exec (.pageWalk c va fetch) s = .next s

/-- R118, R131, R344, R400: `srr` of every system register reads it into s; REFWIN's fields keep their bounds: while
a refresh is under way the next begins 1,500 ns after its end. -/
def Sys2Proof.Part.SystemRegisterReads : Prop :=
  ∀ (s : State) (k : Nat),
    let x := s.cx (cidOf k)
    let g := x.reg
    let b := s.be (benchOf (coreK k))
    let reads (n : Nat) (v : W64) : Prop :=
      Says.Completes s k (.srr (BitVec.ofNat 12 n)) (fun r => { r with s := v }) fun t => OnlySeqs s t
    (∀ e ∈ [(0x000, BitVec.ofNat 64 (b2n (s.r k).ppl * 4 + b2n (s.r k).pl * 2)), (0x001, g.kvec), (0x002, g.cause), (0x003, g.epc),
        (0x004, g.faddr), (0x008, g.fpctl), (0x010, (s.co (coreK k)).lsplit), (0x011, b.bpool), (0x012, g.kring),
        (0x013, g.kquota), (0x020, g.geo0), (0x021, g.geo1), (0x022, g.geo2), (0x023, g.geo3), (0x028, b.bload),
        (0x030, g.opolicy), (0x031, g.stale), (0x038, BitVec.ofNat 64 x.slot.ctxid), (0x039, BitVec.ofNat 64 x.slot.asid)],
      reads e.1 e.2) ∧
    (∀ i < 64, reads (0x40 + i) (Tab.get 0 g.cnt i)) ∧
    ∃ v : W64, reads 0x029 v ∧ v.toNat / 2 ^ 32 ≤ 3000 ∧ v.toNat / 2 ^ 16 % 2 ^ 16 ≤ 1500 ∧
      (v.getLsbD 4 = true → v.toNat / 2 ^ 32 = v.toNat / 2 ^ 16 % 2 ^ 16 + 1500) ∧
      (v.getLsbD 4 = false → v.toNat / 2 ^ 32 ≤ 1500 ∧ v.toNat / 2 ^ 16 % 2 ^ 16 = 0)

/-- R118, R125, R126, R344, R400: `srw` writes the register's writable bits and nothing else, and a read-only register
not at all. LSPLIT without a window above the new limit and without dirty lines, its own or its bench's pool's,
drops the core's clean lines and a pool that is left without a portion; a window there raises PROT. BPOOL empties a
clean pool, and waits while a dirty line's home holds it back. KRING with entries spilled raises QUOTA. -/
def Sys2Proof.Part.SystemRegisterWrites : Prop :=
  ∀ (s : State) (k : Nat),
    let c := cidOf k
    let m := coreK k
    let b := benchOf m
    let v := (s.r k).s
    let i (n : Nat) : Instr := .srw (BitVec.ofNat 12 n)
    (∀ e ∈ ([(0x001, fun g : CtxReg => { g with kvec := v &&& 0x01FFFFFFFFFFFFFD }), (0x002, fun g => { g with cause := v &&& 0xFFFF0FFF }),
        (0x003, fun g => { g with epc := v }), (0x004, fun g => { g with faddr := v }), (0x008, fun g => { g with fpctl := v &&& 1 }),
        (0x013, fun g => { g with kquota := v }), (0x020, fun g => { g with geo0 := v }), (0x021, fun g => { g with geo1 := v }),
        (0x022, fun g => { g with geo2 := v &&& 0xFFFF }), (0x023, fun g => { g with geo3 := v }),
        (0x030, fun g => { g with opolicy := v &&& 0xFF03 }), (0x031, fun g => { g with stale := v &&& 0xFFFFFFFFFF }),
        (0x028, id), (0x029, id), (0x038, id), (0x039, id)] : List (Nat × (CtxReg → CtxReg))),
      Says.Completes s k (i e.1) id fun t => OnlyCtx s t c fun x => { x with reg := e.2 x.reg }) ∧
    (∀ n < 64, Says.Completes s k (i (0x40 + n)) id fun t => OnlyCtx s t c fun x =>
      { x with reg := { x.reg with cnt := Tab.set 0 x.reg.cnt n v } }) ∧
    (Says.Completes s k (i 0) (fun r => { r with ppl := v.getLsbD 2 }) fun t => OnlySeqs s t) ∧
    ((s.cx c).q.spilled = 0 → Says.Completes s k (i 0x012) id fun t => OnlyCtx s t c fun x =>
      { x with reg := { x.reg with kring := v &&& 0x01FFFFFFFFFFF0FF } }) ∧
    ((s.cx c).q.spilled ≠ 0 → Says.Traps s k (i 0x012) (precise .quota) s) ∧
    ((∃ w ∈ s.windows m, scrLimit (v &&& 3) < w.1 + w.2) → Says.Traps s k (i 0x010) (precise .prot) s) ∧
    ((∀ w ∈ s.windows m, w.1 + w.2 ≤ scrLimit (v &&& 3)) → (∀ l ∈ (s.co m).cache, l.isDirty = false) →
      (∀ l ∈ (s.be b).pool, l.c.isDirty = false) → Says.Completes s k (i 0x010) id fun t =>
        { t with seqs := s.seqs, cores := s.cores, benches := s.benches } = s ∧ (∀ d, d ≠ m → t.co d = s.co d) ∧
        (∀ d, d ≠ b → t.be d = s.be d) ∧ { t.be b with pool := (s.be b).pool } = s.be b ∧
        (∀ l ∈ (t.be b).pool, l ∈ (s.be b).pool) ∧ (t.hasPool b = false → (t.be b).pool = []) ∧
        (t.co m).lsplit = v &&& 3 ∧ (t.co m).cache = [] ∧
        (∀ a, a < scrLimit (v &&& 3) → a < scrLimit (s.co m).lsplit → (t.co m).scr.read a = (s.co m).scr.read a)) ∧
    ((∀ l ∈ (s.be b).pool, l.c.isDirty = false) → Says.Completes s k (i 0x011) id fun t =>
      { t with seqs := s.seqs, benches := s.benches } = s ∧ (∀ d, d ≠ b → t.be d = s.be d) ∧
      t.be b = { s.be b with bpool := v &&& 0xFFFFFFFFFFFF, pool := [] }) ∧
    ((∃ l ∈ (s.be b).pool, l.c.isDirty = true ∧ s.writeHeld l.c.line = true) → Says.Stalls s k (i 0x011) .phaseDrain)

/-- The system registers are read and written. REFWIN is a free value within its bounds (assumption 23). -/
def Obligations.SystemRegisterResults : Prop := Part.SystemRegisterReads ∧ Part.SystemRegisterWrites

/-! ## Sequencers, tasks, signals -/

/-- R61, R350: `fork` starts a stopped sequencer with the compute sequencer's registers at its target and REPSTATE
inactive; with one that runs it raises ILLEGAL. -/
def Sys2Proof.Part.ForkResults : Prop :=
  ∀ (s : State) (k : Nat) (acc : Bool) (o : BitVec 17) (p : W32),
    let sid (q : Nat) := sidAt (cidOf k) q
    let q : Nat := if acc then 2 else 1
    let began (t : State) (q : Nat) (pc : W64) : Prop := (t.sq (sid q)).run = true ∧
      t.r (sid q) = { s.r k with pc := pc, rep := Says.noRep } ∧ (t.sq (sid q)).waiting = none ∧ (t.sq (sid q)).pend = []
    let alone (t : State) (qs : List Nat) : Prop := OnlySeqs s t ∧
      ∀ j, j ≠ k → (∀ q ∈ qs, j ≠ sid q) → { t.sq j with fwd := (s.sq j).fwd } = s.sq j
    (Runs s k (.fork acc o) →
      ((s.sq (sid q)).run = true → exec (.fork acc o) s = .next (s.takeTrap k (precise .illegal))) ∧
      ((s.sq (sid q)).run = false → Says.Happens (.fork acc o) s fun t =>
        Says.Passes s t k ∧ began t q ((s.r k).pc + o.signExtend 64 * 4) ∧ alone t [q])) ∧
    (Runs s k (.forkBoth o p) →
      ((s.sq (sid 1)).run = true ∨ (s.sq (sid 2)).run = true →
        exec (.forkBoth o p) s = .next (s.takeTrap k (precise .illegal))) ∧
      ((s.sq (sid 1)).run = false → (s.sq (sid 2)).run = false → Says.Happens (.forkBoth o p) s fun t =>
        began t 1 ((s.r k).pc + o.signExtend 64 * 4) ∧ began t 2 ((s.r k).pc + p.signExtend 64 * 4) ∧ alone t [1, 2] ∧
        { t.r k with pc := (s.r k).pc, rep := (s.r k).rep } = s.r k))

/-- R62, R353, R354, R393, R404: `rdv` of sequencers that all wait at it passes for each of them, and waits otherwise;
with one that does not run, or without its own sequencer in the set, it raises ILLEGAL. A `tdone` of the access or
matrix sequencer stops it. `idle` passes once it has been released, by its time or earlier. `iflush` drops the
context's fetched words, and has its repetition buffers, those beneath handlers too, refetch at the end of their
pass. What ends an `idle`, and what `iflush` reaches, are the model's reading (assumptions 56 and 60). -/
def Sys2Proof.Part.SequencerWaits : Prop :=
  ∀ (s : State) (k : Nat) (set : SeqSet) (n : W16),
    let c := cidOf k
    let sid (q : Nat) := sidAt c q
    let at_ (q : Nat) : Prop := (s.sq (sid q)).run = true ∧ (s.sq (sid q)).waiting = some (.rdv set)
    (Runs s k (.rdv set) →
      (set.has (qOf k) = false ∨ (∃ q < 3, q ≠ qOf k ∧ set.has q = true ∧ (s.sq (sid q)).run = false) →
        exec (.rdv set) s = .next (s.takeTrap k (precise .illegal))) ∧
      (set.has (qOf k) = true → (∀ q < 3, q ≠ qOf k → set.has q = true → at_ q) → Says.Happens (.rdv set) s fun t =>
        ∀ q < 3, set.has q = true → (t.sq (sid q)).waiting = none ∧ (s.follows (sid q) = false → Says.Passes s t (sid q))) ∧
      (set.has (qOf k) = true → (∀ q < 3, q ≠ qOf k → set.has q = true → (s.sq (sid q)).run = true ∧ (s.sq (sid q)).waiting = none) →
        (∃ q < 3, q ≠ qOf k ∧ set.has q = true) → Says.Happens (.rdv set) s fun t =>
          (t.sq k).waiting = some (.rdv set) ∧ t.r k = s.r k)) ∧
    (Runs s k .tdone → qOf k ≠ 0 → Says.Happens .tdone s fun t => (t.sq k).run = false ∧ (t.sq k).pend = [] ∧ t.cores = s.cores ∧
      t.ctxs = s.ctxs ∧ t.h = s.h) ∧
    (Runs s k (.idle n) →
      ((s.sq k).released = true → ∃ t, exec (.idle n) s = .next t ∧ OnlySeqs s t ∧ Retires s t k (.idle n) id) ∧
      ((s.sq k).released = false → Says.Happens (.idle n) s fun t => (t.sq k).waiting = some .idle ∧ t.r k = s.r k)) ∧
    ((s.sq k).waiting = some .idle → Says.Happens (.idleTimeout k) s fun t => (t.sq k).released = true ∧ OnlySeqs s t ∧
      (t.sq k).r = (s.sq k).r ∧ ∀ j, j ≠ k → t.sq j = s.sq j) ∧
    (Runs s k .iflush → Says.Happens .iflush s fun t => OnlySeqs s t ∧ Says.Passes s t k ∧ ∀ q < 3, (t.sq (sid q)).pre = [] ∧
      (∀ x ∈ (t.sq (sid q)).traps, x.buf.refetch = true) ∧
      (sid q ≠ k → (t.sq (sid q)).r = (s.sq (sid q)).r ∧
        (t.sq (sid q)).buf.refetch = ((s.sq (sid q)).buf.refetch || (s.r (sid q)).rep.act)))

/-- Sequencers start, meet, wait and stop. What ends an `idle`, and what `iflush` reaches, are the model's reading
(assumptions 56 and 60). -/
def Obligations.SequencerResults : Prop := Part.ForkResults ∧ Part.SequencerWaits

/-- R285, R404: the compute sequencer's `tdone` waits while another sequencer of the context runs, and stalls while a
counter is not 0. For the only member, with no trap pending, of an instance whose node has other instances left, it
completes the instance: the context is free, it holds no partition, pin or token, and the node has one more complete
instance. When `yield` swaps out is the model's reading (assumption 46). -/
def Sys2Proof.Part.TaskEnds : Prop :=
  ∀ (s : State) (k : Nat), Runs s k .tdone → qOf k = 0 →
    let c := cidOf k
    let stop (q : Nat) : Prop := (s.sq (sidAt c q)).run = false
    (¬stop 1 ∨ ¬stop 2 → Says.Happens .tdone s fun t => (t.sq k).waiting = some .tdone ∧ t.r k = s.r k) ∧
    (stop 1 → stop 2 →
      (∀ w, (s.cx c).n.busy = some w → exec .tdone s = .next (s.stall k w)) ∧
      ((s.cx c).n = ⟨0, 0, 0, 0, 0, 0⟩ → s.tokensBusy c = false → (s.sq k).pend = [] →
        ∀ i n, s.instOf c = some i → i.members = [coreK k] → i.ctxn = ctxnK k → s.node i.ctxid i.hdr i.node = some n →
          n.donei + 1 < n.count → n.cancelled = [] → n.barc = 0 → Says.Happens .tdone s fun t =>
            (t.cx c).slot.state = .free ∧ (t.cx c).j.part = none ∧ (t.cx c).pins = [] ∧ (t.sq k).run = false ∧
            (∀ b, (t.tok b).holder ≠ some c) ∧ t.sch.insts = s.sch.insts.filter (fun x => x.id != i.id) ∧
            t.node i.ctxid i.hdr i.node = some { n with donei := n.donei + 1, doneInst := n.doneInst ++ [i.inst] }))

/-- R292, R351, R455: `gbar` of a cooperative node counts its member once: until the last of the node's members it
waits; with the last, all depart and the count is 0 again; a member whose handler ran then passes when it comes back
(the model's choice, assumption 85). Outside a cooperative node it raises ILLEGAL. `yield` starts a new quantum
where no other work of its effective priority needs the slots; otherwise the team stops issuing, to be swapped out. -/
def Sys2Proof.Part.BarrierAndQuantumResults : Prop :=
  ∀ (s : State) (k : Nat) (i : Inst) (n : Node),
    let c := cidOf k
    s.instOf c = some i → s.node i.ctxid i.hdr i.node = some n →
    (Runs s k .gbar →
      (n.coop = false → exec .gbar s = .next (s.takeTrap k (precise .illegal))) ∧
      (n.coop = true → ((s.sq k).released = true ∨ (s.cx c).slot.departed = true) →
        ∃ t, exec .gbar s = .next t ∧ Retires s t k .gbar id ∧
          OnlyCtx s t c fun x => { x with slot := { x.slot with departed := false } }) ∧
      (n.coop = true → (s.sq k).released = false → (s.cx c).slot.departed = false → (s.cx c).slot.arrived = false →
        (n.barc + 1 + n.doneInst.length * n.team < n.gx * n.gy * n.team → Says.Happens .gbar s fun t =>
          (t.sq k).waiting = some .gbar ∧ t.r k = s.r k ∧ (t.cx c).slot.arrived = true ∧
          t.node i.ctxid i.hdr i.node = some { n with barc := n.barc + 1 }) ∧
        (n.gx * n.gy * n.team ≤ n.barc + 1 + n.doneInst.length * n.team → Says.Happens .gbar s fun t =>
          Says.Passes s t k ∧ (t.cx c).slot.arrived = false ∧ (t.cx c).slot.departed = false ∧
          t.node i.ctxid i.hdr i.node = some { n with barc := 0 }))) ∧
    (s.needed i = false → Says.Completes s k .yield id fun t => OnlySeqs s t) ∧
    (∀ v, s.needed i = true → i.state = .running → i.saveid = some v → (∀ d ∈ State.cids i, s.inExchange d = false) →
      Runs s k .yield → Says.Happens .yield s fun t => (t.inst i.id).map (fun x => (x.state, x.saveid)) = some (.quiescing, some v) ∧
        ∀ d ∈ State.cids i, (t.cx d).slot.state = .quiescing)

/-- Tasks end, meet at the grid barrier, and yield. When `yield` swaps out, and that a member whose handler ran while
the barrier departed then passes, are the model's (assumptions 46 and 85). -/
def Obligations.TaskEndResults : Prop := Part.TaskEnds ∧ Part.BarrierAndQuantumResults

/-- R279, R285, R299, R413: `tsig` of an event node with more than one signal to come counts one off, with Z = 0; the
last signal makes the node DONE, counts its successors down, of which one without another predecessor becomes READY,
and ends the graph with its last node; of one with none to come it does nothing, with Z = 1; of another node it
raises PROT at the node. `tsig s` of the header of a graph that may be launched starts it, as a launch does, once
none of its reads is held: its nodes without predecessors are READY, the others WAITING; of one that runs already,
or with too many running, Z = 1, its records checked first; otherwise it raises PROT. The PROT of an invalid
signaller and a graph's identity are the model's reading (assumptions 42 and 49). -/
def Obligations.SignalResults : Prop :=
  ∀ (s : State) (k : Nat) (n : W16) (i : Inst),
    let c := cidOf k
    let va := (s.r k).s
    let flags (z : Bool) := fun r : Seq => { r with fl := ⟨z, false, false, false⟩ }
    s.instOf c = some i →
    (∀ x, s.node i.ctxid i.hdr n.toNat = some x →
      (x.kind ≠ 4 → Says.Traps s k (.tsig n) (precise .prot (i.hdr + BitVec.ofNat 64 (64 + 128 * n.toNat))) s) ∧
      (x.kind = 4 → x.pcnt = 0 → Says.Completes s k (.tsig n) (flags true) fun t => OnlySeqs s t) ∧
      (x.kind = 4 → x.pcnt = 1 → x.state = .waiting → ∀ g, s.graph i.ctxid i.hdr = some g →
        (∀ y ∈ g.nodes, y.state ≠ .faulted) →
        let last := { x with pcnt := 0, state := .done }
        (x.succ = [] → 1 < g.left → Says.Completes s k (.tsig n) (flags false) fun t => t.graph i.ctxid i.hdr =
          some { g with left := g.left - 1, nodes := g.nodes.set n.toNat last }) ∧
        (x.succ = [] → g.left = 1 → Says.Completes s k (.tsig n) (flags false) fun t => t.graph i.ctxid i.hdr = none) ∧
        ∀ j y, x.succ = [j] → j ≠ n.toNat → g.nodes[j]? = some y → 1 < g.left →
          (1 < y.pcnt → Says.Completes s k (.tsig n) (flags false) fun t => t.graph i.ctxid i.hdr = some { g with
            left := g.left - 1, nodes := (g.nodes.set n.toNat last).set j { y with pcnt := y.pcnt - 1 } }) ∧
          (y.kind ≠ 4 → y.pcnt = 1 → y.state = .waiting → Says.Completes s k (.tsig n) (flags false) fun t =>
            t.node i.ctxid i.hdr n.toNat = some last ∧ ∃ m, t.node i.ctxid i.hdr j = some m ∧ m.state = .ready ∧ m.pcnt = 0)) ∧
      (x.kind = 4 → 1 < x.pcnt → Says.Completes s k (.tsig n) (flags false) fun t =>
        t.node i.ctxid i.hdr n.toNat = some { x with pcnt := x.pcnt - 1 } ∧ t.cores = s.cores ∧ t.benches = s.benches)) ∧
    (va &&& 63 ≠ 0 → Says.Traps s k .tsigS (precise .misalign) s) ∧
    (∀ ps u, va &&& 63 = 0 → s.pages k va 64 .read = .ok (ps, u) → u.h.byte (xlAt ps va 0) 0 = (15, false) →
      u.readHeld (xlAt ps va 0).ha = none →
      let held := u.launchHeld (u.cx c).slot.ctxid va
      (∀ w, held = some w → Runs s k .tsigS → exec .tsigS s = .next (u.stall k w)) ∧
      (held = none →
      (∀ g v, u.sigCheck (u.cx c).slot.ctxid va = (.ok g, v) → (∀ x ∈ g.nodes, x.npred = 0 → x.kind ≠ 4) →
        Says.Completes s k .tsigS (flags false) fun t => ∃ ns, t.sch.graphs = s.sch.graphs ++ [{ g with nodes := ns }] ∧
          ns.length = g.nodes.length ∧ ∀ (j : Nat) (x : Node), g.nodes[j]? = some x → ∃ m : Node, ns[j]? = some m ∧
            m.state = (if x.npred = 0 then NodeState.ready else .waiting) ∧
            { m with state := x.state, readyTick := x.readyTick, readyNs := x.readyNs } = x) ∧
      (∀ e v, u.sigCheck (u.cx c).slot.ctxid va = (.error e, v) →
        (e = .running ∨ e = .tooMany → Says.Completes s k .tsigS (flags true) fun t => OnlySeqs v t) ∧
        (e = .header ∨ e = .node ∨ e = .translation → Says.Traps s k .tsigS (precise .prot va) s))))

/-- R135, R406: `tinv`, with no access under way and no lease to revoke, drops from every die's translation caches what
it names of the context's partition, and nothing else: the page's entries of the ASID and the global ones; all of
the ASID that are not global; or all. -/
def Sys2Proof.Part.TranslationInvalidation : Prop :=
  ∀ (s : State) (k : Nat) (p : BitVec 3), s.h.leases = [] → (∀ rs, ∀ e ∈ s.ctxs, State.underWay rs e.2.f = false) →
    (∀ g ∈ s.sch.graphs, ∀ n ∈ g.nodes, n.copy = none ∧ n.near = none) →
    let sl := (s.cx (cidOf k)).slot
    let va := ((s.r k).ptr p).base
    let drops (i : Instr) (d : TlbEnt → Bool) : Prop := Runs s k i → Says.Happens i s fun t => Says.Passes s t k ∧
      { t with seqs := s.seqs, h := { t.h with tlb := s.h.tlb, tlbOld := s.h.tlbOld } } = s ∧
      t.h.tlb = s.h.tlb.filter (fun e => !d e) ∧ t.h.tlbOld = s.h.tlbOld.filter fun e => !d e
    (((s.r k).ptr p).space = .g → drops (.tinv p) fun e => e.part == sl.part && (e.asid == sl.asid || e.pte.getLsbD 5) &&
      e.vpn == va.toNat % 2 ^ 57 / 2 ^ e.bits) ∧
    (drops .tinvAsid fun e => e.part == sl.part && e.asid == sl.asid && !e.pte.getLsbD 5) ∧
    (drops .tinvAll fun e => e.part == sl.part)

/-- R140, R296, R411: a reply of the fault service with a team's SAVEID and GEN reaches every member of a resident team;
one that names no team is discarded. -/
def Sys2Proof.Part.FaultReplies : Prop :=
  ∀ (s : State) (ctxid sv gen q : Nat) (w : W64),
    let mine (i : Inst) : Bool := i.ctxid % 65536 == ctxid % 65536 && i.saveid.getD 0 == sv && i.gen % 65536 == gen
    (s.sch.insts.find? mine = none → exec (.faultReply ctxid sv gen q w) s = .next s) ∧
    ∀ i, s.sch.insts.find? mine = some i → (∀ m ∈ s.sch.images, m.inst ≠ i.id) → (State.cids i).Nodup →
      Says.Happens (.faultReply ctxid sv gen q w) s fun t => { t with ctxs := s.ctxs } = s ∧
        (∀ c ∈ State.cids i, t.cx c = { s.cx c with reply := (q, w) :: (s.cx c).reply.filter fun e => e.1 != q }) ∧
        ∀ c, c ∉ State.cids i → t.cx c = s.cx c

/-- What translation protects, what invalidation drops, and where fault replies go. The caches, the wait of `tinv` and
the reach of a reply are the model's reading (assumptions 13, 22, 44 and 50). -/
def Obligations.TranslationResults : Prop := Part.TranslationProtects ∧ Part.TranslationInvalidation ∧ Part.FaultReplies

/-! ## Layers and models -/

/-- R313 to R317, R366: the layer instructions of a registered model's layer. `lacq` of a RESIDENT one pins it, counts
the pin in its record, sets CURSOR and s, and keeps no clean line of the layer, nor does its bench's pool; of a
FAULTED one it raises SWAP, without room in the pin table QUOTA; otherwise it stalls with a fill asked for. `lrel`,
with `lc`, `cc` and `mc` at 0, gives a pin back with Z = 0, or sets Z where it holds none. `lhint` sets WIN.
`lreset`, with `sc` at 0, makes a FAULTED layer ABSENT with Z = 0, and of another only sets Z. -/
def Obligations.LayerInstructionResults : Prop :=
  ∀ (s : State) (k : Nat) (o : ImmOrS) (md : Model),
    let c := cidOf k
    let m := coreK k
    let l := (s.layOp k o).2
    let va := md.desc + BitVec.ofNat 64 (64 + 128 * l)
    let flag := s.layFlag md l
    let z (b : Bool) := fun r : Seq => { r with fl := ⟨b, false, false, false⟩ }
    let n := (s.cx c).n
    let pinned := (s.cx c).pins.any fun p => p.mid == md.mid && p.layer == l
    let only (t : State) (pins : List Pin) (h : Homes) : Prop := t.h = h ∧ t.sch = s.sch ∧ (t.cx c).pins = pins ∧
      ∀ d, { t.cx d with pins := (s.cx d).pins, f := { (t.cx d).f with offers := (s.cx d).f.offers } } = s.cx d
    (s.layModel k o true = .ok md →
      (State.pinRoom (s.cx c) md l = false → Says.Traps s k (.lacq o) (precise .quota va) s) ∧
      (State.pinRoom (s.cx c) md l = true →
        (flag = 4 → Says.Traps s k (.lacq o) (precise .swap va) s) ∧
        (flag = 0 ∨ flag = 1 ∨ flag = 3 → Runs s k (.lacq o) → Says.Happens (.lacq o) s fun t => t.r k = s.r k ∧
          (t.sq k).stalled = some (s.blocked k .lacqAbsent) ∧ (t.sq k).lacq = some ⟨o, md.mid, l⟩ ∧ t.h = s.h ∧
          (flag = 1 → t.sch = s.sch) ∧ (flag ≠ 1 → (md.part, md.mid, l) ∈ t.sch.demand)) ∧
        ∀ f, flag = 2 → s.sch.residents.find? (fun f => f.part == md.part && f.mid == md.mid && f.layer == l) = some f →
          Says.Completes s k (.lacq o) (fun r => { r with s := s.layAddr (s.cx c).slot.ctxid f }) fun t =>
            only t (State.Ctx.addPin (s.cx c) md.mid l).pins ((s.setPin md l (s.layPin md l + 1)).mdWrite md 6 (natLe 2 l)).h ∧
            (∀ x ∈ (t.co m).cache, x.isDirty = false → State.meets (s.layRanges f) (x.line * 64) 64 = false) ∧
            (∀ x ∈ (t.be (benchOf m)).pool, x.c.isDirty = false → State.meets (s.layRanges f) (x.c.line * 64) 64 = false) ∧
            ∀ d, d ≠ m → t.co d = s.co d) ∧
      (n.lc ≠ 0 → Says.Stalls s k (.lrel o) .waitLc) ∧
      (n.lc = 0 → n.cc ≠ 0 → Says.Stalls s k (.lrel o) .waitCc) ∧
      (n.lc = 0 → n.cc = 0 → n.mc ≠ 0 → Says.Stalls s k (.lrel o) .waitMc) ∧
      (n.lc = 0 → n.cc = 0 → n.mc = 0 →
        (pinned = true → Says.Completes s k (.lrel o) (z false) fun t => t.cores = s.cores ∧
          only t (State.Ctx.dropPin (s.cx c) md.mid l).pins (s.setPin md l (s.layPin md l - 1)).h) ∧
        (pinned = false → Says.Completes s k (.lrel o) (z true) fun t => OnlySeqs s t)) ∧
      (n.sc ≠ 0 → s.lvlK k = true → Says.Stalls s k (.lreset o) .waitSc) ∧
      (n.sc = 0 →
        (flag = 4 → Says.Completes s k (.lreset o) (z false) fun t => t.cores = s.cores ∧
          only t (s.cx c).pins (s.mdWrite md (64 + 128 * l) (natLe 2 0)).h) ∧
        (flag ≠ 4 → Says.Completes s k (.lreset o) (z true) fun t => OnlySeqs s t))) ∧
    (s.layModel k o false = .ok md → Says.Completes s k (.lhint o) id fun t => t.cores = s.cores ∧
      only t (s.cx c).pins (s.mdWrite md 4 (natLe 2 (min l md.nlayers))).h)

/-- R146, R305 to R309, R318: the layer loader. It starts no fill without a request, and none beyond four. The first
request, for a layer of a pool, starts its fill on the lowest run of free units; where there is none, the first
layer that it may evict becomes EVICTING: one that is RESIDENT and unpinned, and whose model a demand outranks or
equals, a lookahead outranks. An evicted layer is ABSENT. A fill that is neither parked nor held at its source or
target ends with the source's bytes at the target and RESIDENT only where their digest is the record's, and a `lacq`
that waits for it pins it then; otherwise FAULTED, and the waiting `lacq`s raise SWAP. Ties, the two events of an
eviction and the free target are the model's (assumptions 20, 27 and 51). -/
def Obligations.LayerLoaderResults : Prop :=
  (∀ (s : State) (die : Nat),
    let full := 4 ≤ (s.sch.fills.filter fun f => match s.model f.part f.mid with | some m => m.die == die | none => false).length
    (full ∨ s.requests die = [] → exec (.layerFillStart die) s = .next s) ∧
    ∀ md l dem rest, s.requests die = (md, l, dem) :: rest → ¬full →
      let rec_ (off n : Nat) : Nat := s.mdNat md (64 + 128 * l + off) n
      let tgt := rec_ 2 1
      let units := (rec_ 16 4 + 2 ^ 21 - 1) / 2 ^ 21
      tgt < 2 →
      (∀ u, s.freeRun md.part tgt units = some u →
        (∀ f ∈ s.holdings md.part tgt, overlap u units f.unit f.units = false) ∧
        (∀ v < u, ∃ f ∈ s.holdings md.part tgt, overlap v units f.unit f.units = true) ∧
        Says.Happens (.layerFillStart die) s fun t => t.seqs = s.seqs ∧ t.cores = s.cores ∧
          t.sch = { s.sch with
            demand := s.sch.demand.filter fun d => d != (md.part, md.mid, l)
            fills := s.sch.fills ++ [⟨md.part, md.mid, l, BitVec.ofNat 64 (rec_ 8 8), rec_ 16 4, tgt, rec_ 3 1, u, units, []⟩] }) ∧
      ∀ om ol vs, s.freeRun md.part tgt units = none → s.evictingIn md.part tgt = false →
        s.victims md l tgt dem = (om, ol) :: vs →
        s.layFlag om ol = 2 ∧ s.layPin om ol = 0 ∧ (dem = true → om.prio ≤ md.prio) ∧
        (dem = false → om.prio < md.prio ∨ om.mid = md.mid ∧ s.layDist md l < s.layDist om ol) ∧
        Says.Happens (.layerFillStart die) s fun t => t.h = (s.setFlag om ol 3).h ∧ t.seqs = s.seqs ∧ t.cores = s.cores ∧
          t.sch = { s.sch with evicting := s.sch.evicting ++ [(md.part, om.mid, ol)] }) ∧
  (∀ (s : State) (part mid l : Nat) (md : Model), (part, mid, l) ∈ s.sch.evicting → s.model part mid = some md →
    Says.Happens (.evictionDone part mid l) s fun t => t.h = (s.setFlag md l 0).h ∧ t.seqs = s.seqs ∧ t.cores = s.cores ∧
      t.sch = { s.sch with
        evicting := s.sch.evicting.filter fun e => e != (part, mid, l)
        residents := s.sch.residents.filter fun f => !(f.part == part && f.mid == mid && f.layer == l) }) ∧
  ∀ (s : State) (part mid l : Nat) (lost : Bool) (f : Fill) (md : Model),
    s.sch.fills.find? (fun f => f.part == part && f.mid == mid && f.layer == l) = some f → s.model part mid = some md →
    (f.parked ≠ [] ∨ s.fillHeld md f = true ∨ s.targetWaits f = true → exec (.layerFillEnd part mid l lost) s = .next s) ∧
    (f.parked = [] → s.fillHeld md f = false → s.targetWaits f = false → s.sch.graphs = [] →
    let left := s.sch.fills.filter fun g => !(g.part == part && g.mid == mid && g.layer == l)
    let r := 64 + 128 * l
    let waits (k : Nat) : Prop := ∃ w, (s.sq k).lacq = some w ∧ w.mid = mid ∧ w.layer = l ∧ (s.cx (cidOf k)).slot.part = part
    let fails (u : State) (cause : Nat) : Prop := Says.Happens (.layerFillEnd part mid l lost) s fun t =>
      t.sch = { s.sch with fills := left } ∧
      t.h = (((u.targetOpen f).mdWrite md (r + 1) (natLe 1 cause)).setFlag md l 4).h ∧
      ∀ k, waits k → (t.sq k).lacq = none ∧ precise .swap (md.desc + BitVec.ofNat 64 r) ∈ (t.sq k).pend
    (∀ e u, (s.fillOut f).fillSource md f lost = (.error e, u) → fails u e) ∧
    ∀ bs u, (s.fillOut f).fillSource md f lost = (.ok bs, u) →
      (Sha3.sha3_256 bs ≠ u.mdRead md (r + 64) 32 → fails u 1) ∧
      (Sha3.sha3_256 bs = u.mdRead md (r + 64) 32 → Says.Happens (.layerFillEnd part mid l lost) s fun t =>
        let v := u.loaderPut (s.fillHa f) bs
        t.sch = { s.sch with fills := left, residents := s.sch.residents ++ [f] } ∧
        ((∀ e ∈ s.seqs, e.2.lacq = none) → t.h = (((v.mdWrite md (r + 24) (natLe 4 f.unit)).setFlag md l 2).mdWrite md (r + 32)
          (natLe 8 (v.mdNat md (r + 32) 8 + 1))).h) ∧
        ∀ k, waits k → (∀ j, j ≠ k → cidOf j = cidOf k → (s.sq j).lacq = none) → State.pinRoom (s.cx (cidOf k)) md l = true →
          (∀ g ∈ s.sch.residents, ¬(g.part = part ∧ g.mid = mid ∧ g.layer = l)) →
          (t.sq k).lacq = none ∧ (t.r k).s = s.layAddr (s.cx (cidOf k)).slot.ctxid f ∧
          ∃ p ∈ (t.cx (cidOf k)).pins, p.mid = mid ∧ p.layer = l))

/-- R1, R301, R305, R313, R324, R328: MODREG, MODUNREG and LAYPOOL: a command's status is 0 where it is carried out and
1 where it is refused, as one that does not come from the owner is, and a refused one changes nothing else; a
partition beyond 15, or a busy window, takes none. While a read of the descriptor is held at its home, MODREG is put
off (assumption 76). It refuses a registered MID and a descriptor that is not 64 B aligned; it lists the model.
MODUNREG refuses a model with a pinned, FILLING or EVICTING layer; it withdraws the model's requests and frees its
units, and a `lacq` that waits for one of its layers raises PROT. LAYPOOL refuses slots that another partition has;
units that layers hold stay where they are. The refusals beside R301 and R305 are the model's reading (assumption
52). -/
def Obligations.ModelCommandResults : Prop :=
  ∀ (s : State) (by_ : Option Master) (part ctxid mid slot slots arena units : Nat) (desc : W64),
    let refused (i : Instr) : Prop := Says.Happens i s fun t =>
      { t with pf := { t.pf with status := s.pf.status } } = s ∧ Tab.get 0 t.pf.status part = 1
    let carried (i : Instr) (P : State → Prop) : Prop := Says.Happens i s fun t =>
      t.cores = s.cores ∧ Tab.get 0 t.pf.status part = 0 ∧ P t
    let all : List Instr := [.modreg ⟨by_, part⟩ ctxid desc mid, .modunreg ⟨by_, part⟩ mid, .laypool ⟨by_, part⟩ slot slots arena units]
    (∀ i ∈ all, 16 ≤ part ∨ by_.isSome = true ∧ Tab.get 0 s.pf.status part = 2 → exec i s = .next s) ∧
    (part < 16 → (by_.isSome = true → Tab.get 0 s.pf.status part ≠ 2) →
    (s.mayCommand by_ = false → ∀ i ∈ all, refused i) ∧
    (s.mayCommand by_ = true →
    (s.modelHeld ctxid desc = true → exec (.modreg ⟨by_, part⟩ ctxid desc mid) s =
      .next { s with agenda := .go .engine :: .ev (.modreg ⟨by_, part⟩ ctxid desc mid) :: s.agenda }) ∧
    (s.modelHeld ctxid desc = false →
    (s.modelAt part ctxid desc mid = none → refused (.modreg ⟨by_, part⟩ ctxid desc mid)) ∧
    (desc.toNat % 64 ≠ 0 ∨ 256 ≤ mid ∨ (s.model part mid).isSome = true ∨ s.cpart ctxid ≠ part →
      refused (.modreg ⟨by_, part⟩ ctxid desc mid)) ∧
    (∀ md u, s.modelAt part ctxid desc mid = some (md, u) → md.part = part ∧ md.mid = mid ∧ md.desc = desc ∧ 1 ≤ md.nlayers ∧
      md.nlayers ≤ 4096 ∧ md.prio < 8 ∧ (md.pages.all fun x => x.cc == 5) = true ∧
      carried (.modreg ⟨by_, part⟩ ctxid desc mid) fun t => t.seqs = s.seqs ∧ t.sch = { s.sch with models := s.sch.models ++ [md] })) ∧
    (s.model part mid = none → refused (.modunreg ⟨by_, part⟩ mid)) ∧
    (∀ md, s.model part mid = some md →
      ((∃ l < md.nlayers, s.layPin md l ≠ 0 ∨ s.layFlag md l = 1 ∨ s.layFlag md l = 3) → refused (.modunreg ⟨by_, part⟩ mid)) ∧
      ((∀ l < md.nlayers, s.layPin md l = 0 ∧ s.layFlag md l ≠ 1 ∧ s.layFlag md l ≠ 3) → s.sch.graphs = [] →
        carried (.modunreg ⟨by_, part⟩ mid) fun t => ((∀ e ∈ s.seqs, e.2.lacq = none) → t.seqs = s.seqs) ∧
          (∀ k w, (s.sq k).lacq = some w → w.mid = mid → (s.cx (cidOf k)).slot.part = part →
            (t.sq k).lacq = none ∧ precise .prot (BitVec.ofNat 64 (mid * 65536 + w.layer)) ∈ (t.sq k).pend) ∧
          t.sch = { s.sch with
          models := s.sch.models.filter fun x => !(x.part == part && x.mid == mid)
          demand := s.sch.demand.filter fun d => !(d.1 == part && d.2.1 == mid)
          residents := s.sch.residents.filter fun f => !(f.part == part && f.mid == mid) })) ∧
    (s.poolOk part ⟨slot, slots, arena, units⟩ = false → refused (.laypool ⟨by_, part⟩ slot slots arena units)) ∧
    (∀ o o', o ≠ part → (o, o') ∈ s.sch.pools → o'.slots ≠ 0 → slots ≠ 0 →
      overlap slot slots o'.slot0 o'.slots = true → refused (.laypool ⟨by_, part⟩ slot slots arena units)) ∧
    (s.poolOk part ⟨slot, slots, arena, units⟩ = true → carried (.laypool ⟨by_, part⟩ slot slots arena units) fun t => t.seqs = s.seqs ∧
      t.pool part = ⟨slot, slots, arena, units⟩ ∧ (∀ o, o ≠ part → t.pool o = s.pool o) ∧
      ((s.pool part).arena % 2 ^ 21 = 0 → ∀ f ∈ s.sch.residents, f.part = part → f.tgt < 2 → ∃ g ∈ t.sch.residents,
        { g with unit := f.unit } = f ∧ t.unitPa part g.tgt g.unit = s.unitPa part f.tgt f.unit))))

/-! ## Graphs and dispatch -/

namespace Sys2Proof.Says

/-- Instance `num` of node i has been bound: it is listed BOUND with these members, whose slots are BOUND with windows. -/
def Bound (s t : State) (g : Graph) (i : Nat) (n : Node) (num ctxn : Nat) (ms : List Nat) : Prop :=
  ∃ x ∈ t.sch.insts, x.ctxid = g.ctxid ∧ x.hdr = g.hdr ∧ x.node = i ∧ x.inst = num ∧ x.state = .bound ∧ x.members = ms ∧
    x.ctxn = ctxn ∧ ∀ j m, ms[j]? = some m → (t.cx (cidAt m ctxn)).slot = { (s.cx (cidAt m ctxn)).slot with
      state := .bound, inst := x.id, tidx := j, winBase := (s.freeWindow m n.lsize).getD 0, winSize := n.lsize * 65536
      complete := false, arrived := false, departed := false }

/-- An instance stops issuing, to be swapped out; while a member is in an exchange it goes on. -/
def Quiesces (s t : State) (x : Inst) : Prop :=
  ((State.cids x).any s.inExchange = true → t.inst x.id = some { x with preempt := true }) ∧
  ((State.cids x).any s.inExchange = false → ∀ v, x.saveid = some v ∨ x.saveid = none ∧ s.newSaveId x.ctxid = some v →
    t.inst x.id = some { x with state := .quiescing, saveid := some v, preempt := false } ∧
    ∀ c ∈ State.cids x, (t.cx c).slot.state = .quiescing)

end Sys2Proof.Says

/-- R282 to R284, R323, R328: a write to LAUNCH. While one of its reads is held at a home it is put off, behind the
engines' turn. A master that is not the owner launches and cancels nothing. A launch that is refused gives its code
in ERR and changes nothing else but for the translations of what it read; one that is accepted gives 0 and makes the
graph RUNNING. A write to CANCEL of a RUNNING graph with unfinished nodes ends the graph, with all its instances,
and raises its completion interrupt; of another it does nothing. The fields that the device writes are written in
order, and the interrupt follows them: where the walk of one waits, it and what comes after it wait for the engines'
turn, which writes the oldest (assumption 76). -/
def Sys2Proof.Part.LaunchAndCancelResults : Prop :=
  (∀ (s u : State) (o : FieldOp) (rest : List FieldOp), s.agenda = [] → s.turn = .engine →
    let p := s.settle
    p.sch.fields = o :: rest → ({ p with sch := { p.sch with fields := rest } } : State).fieldNow o = some u →
      step s = woken s (.next (u.rotate .engine))) ∧
  (∀ (s : State) (ctxid : Nat), s.sch.fields = [] →
    (s.fieldDo (.irq ctxid)).sch = { s.sch with irqs := s.sch.irqs ++ [ctxid] } ∧
    ∀ va bs x u, s.translateOne { s.whoCtx ctxid true with waits := true } va .read = .ok (x, u) →
      s.fieldDo (.write ctxid va bs) = u.homeSend x (clean bs)) ∧
  (∀ (s : State) (o p : FieldOp) (rest : List FieldOp), s.sch.fields = p :: rest →
    s.fieldDo o = { s with sch := { s.sch with fields := s.sch.fields ++ [o] } }) ∧
  ∀ (s : State) (by_ : Option Master) (ctxid : Nat) (v : W64),
    let hdr : W64 := (v.extractLsb' 6 51 ++ (0 : BitVec 6)).signExtend 64
    let reg (err : Nat) : W64 := v &&& 0x01FFFFFFFFFFFFC0 ||| BitVec.ofNat 64 err
    (s.mayCommand by_ = false → exec (.launch ⟨by_, ctxid⟩ v) s = .next s ∧ exec (.cancel ⟨by_, ctxid⟩ v) s = .next s) ∧
    (s.mayCommand by_ = true →
    ((s.launchHeld ctxid hdr).isSome = true → exec (.launch ⟨by_, ctxid⟩ v) s =
      .next { s with agenda := .go .engine :: .ev (.launch ⟨by_, ctxid⟩ v) :: s.agenda }) ∧
    (s.launchHeld ctxid hdr = none →
    (∀ e u, s.launchCheck ctxid hdr = (.error e, u) → Touched s u ∧ Says.Happens (.launch ⟨by_, ctxid⟩ v) s fun t =>
      { t with pf := { t.pf with cwin := u.pf.cwin } } = u ∧ t.cwin ctxid 0 = reg e.code) ∧
    (∀ g u, s.launchCheck ctxid hdr = (.ok g, u) → Touched s u ∧ g.ctxid = ctxid ∧ g.hdr = hdr ∧ g.left = g.nodes.length ∧
      Says.Happens (.launch ⟨by_, ctxid⟩ v) s fun t => t.cwin ctxid 0 = reg 0 ∧
        ((∀ n ∈ g.nodes, n.npred ≠ 0) → t.seqs = s.seqs ∧ ∃ l, t.sch = { s.sch with
          graphs := s.sch.graphs ++ [g], fields := s.sch.fields ++ l } ∧ ∀ f ∈ l, ∃ va bs, f = .write ctxid va bs))) ∧
    (s.graph ctxid hdr = none → exec (.cancel ⟨by_, ctxid⟩ v) s = .next s) ∧
    ∀ g n, s.graph ctxid hdr = some g → n ∈ g.nodes → n.state = .waiting ∨ n.state = .ready ∨ n.state = .running →
      Says.Happens (.cancel ⟨by_, ctxid⟩ v) s fun t => t.graph ctxid hdr = none ∧
        (∀ x ∈ t.sch.insts, ¬(x.ctxid = ctxid ∧ x.hdr = hdr)) ∧ ∃ l l', t.sch.irqs = s.sch.irqs ++ l ∧
          t.sch.fields = s.sch.fields ++ l' ∧ (ctxid ∈ l ∨ .irq ctxid ∈ l'))

/-- R279, R319: a READY copy, near or fill node starts. While a walk for its ranges waits, a copy or near node does not
start (assumption 76). A copy or near node whose addresses translate is RUNNING with its
operation in flight; one of whose ranges does not is FAULTED with SRC 2. A fill node on a RESIDENT layer is DONE, on a
FAULTED one it is FAULTED with SRC 5, and otherwise it is RUNNING, with a fill asked for where none is under way. -/
def Sys2Proof.Part.NodeStartResults : Prop :=
  ∀ (s : State) (g : W64) (i ctxid : Nat) (n : Node), s.node ctxid g i = some n →
    let w := s.whoCtx ctxid false
    let s' := s.setNode ctxid g i .running
    let running (i' : Instr) (P : Node → Prop) : Prop := Says.Happens i' s fun t => t.seqs = s.seqs ∧ t.cores = s.cores ∧
      ∃ m, t.node ctxid g i = some m ∧ P m ∧ { m with copy := n.copy, near := n.near } = { n with state := .running }
    let fails (i' : Instr) (u : State) (src detail : Nat) (cause : W32) (fva : W64) : Prop :=
      exec i' s = .next (u.nodeFail ctxid g i (BitVec.ofNat 64 (src * 2 ^ 56 + detail * 2 ^ 48 + cause.toNat)) fva)
    (s.nodeAt g i 0 .ready = some (ctxid, n) →
      let len := fld n.desc 16 4
      let held := (s.walkHeld w n.dst len .copyWrite).or (s.walkHeld w n.src len .copyRead)
      (held.isSome = true → exec (.copyNodeStart g i) s = .next s) ∧
      (held = none →
      (∀ e, s'.translateAll w n.dst len .copyWrite = .error e →
        fails (.copyNodeStart g i) s' 2 0 (BitVec.ofNat 32 e.code.num) e.va) ∧
      ∀ ds u, s'.translateAll w n.dst len .copyWrite = .ok (ds, u) →
        (∀ e, u.translateAll w n.src len .copyRead = .error e →
          fails (.copyNodeStart g i) u 2 0 (BitVec.ofNat 32 e.code.num) e.va) ∧
        ∀ xs v, u.translateAll w n.src len .copyRead = .ok (xs, v) → running (.copyNodeStart g i) fun m =>
          ∃ x, m.copy = some x ∧ m.near = n.near ∧ x.n = len ∧ x.landed = [] ∧ x.dst = .glob n.dst ds ∧ x.src = .glob n.src xs)) ∧
    (s.nodeAt g i 2 .ready = some (ctxid, n) →
      let len := fld n.desc 24 4
      let held := (s.walkHeld w n.dst len (.near true)).or
        (if fld n.desc 0 1 = 0x12 then s.walkHeld w n.src len (.near false) else none)
      (held.isSome = true → exec (.nearNodeStart g i) s = .next s) ∧
      (held = none →
      (∀ e, s'.translateAll w n.dst len (.near true) = .error e →
        fails (.nearNodeStart g i) s' 2 0 (BitVec.ofNat 32 e.code.num) e.va) ∧
      ∀ ds u, s'.translateAll w n.dst len (.near true) = .ok (ds, u) →
        (fld n.desc 0 1 = 0x13 → running (.nearNodeStart g i) fun m => ∃ x, m.near = some x ∧ m.copy = n.copy ∧
          x.opc = 0x13 ∧ x.dst = ds ∧ x.n = len ∧ x.record = bvLe 8 n.src ∧ x.out = none) ∧
        ∀ xs v, fld n.desc 0 1 = 0x12 → u.translateAll w n.src len (.near false) = .ok (xs, v) →
          running (.nearNodeStart g i) fun m => ∃ x, m.near = some x ∧ m.copy = n.copy ∧
            x.opc = 0x12 ∧ x.dst = ds ∧ x.src = xs ∧ x.n = len ∧ x.out = none)) ∧
    (s.nodeAt g i 3 .ready = some (ctxid, n) →
      let l := fld n.desc 2 2
      (s'.model (s.cpart ctxid) (fld n.desc 0 1) = none → fails (.fillNodeStart g i) s' 5 4 0 0) ∧
      ∀ md, s'.model (s.cpart ctxid) (fld n.desc 0 1) = some md →
        (s'.layFlag md l = 2 → exec (.fillNodeStart g i) s = .next (s'.nodeDone ctxid g i)) ∧
        (s'.layFlag md l = 4 → fails (.fillNodeStart g i) s' 5 (s'.mdNat md (64 + 128 * l + 1) 1) 0 0) ∧
        (s'.layFlag md l = 1 ∨ s'.layFlag md l = 0 ∨ s'.layFlag md l = 3 → running (.fillNodeStart g i) fun m =>
          m.copy = n.copy ∧ m.near = n.near) ∧
        (s'.layFlag md l = 0 → Says.Happens (.fillNodeStart g i) s fun t => (md.part, md.mid, l) ∈ t.sch.demand))

/-- Graphs are launched and cancelled, and their nodes start. The order of the reads is the model's reading (assumptions
42, 43 and 45). -/
def Obligations.GraphResults : Prop := Part.LaunchAndCancelResults ∧ Part.NodeStartResults

/-- R287 to R289: a BIND record whose checks pass binds the instance on the members that it names, and dispatch binds by
itself the oldest work that it finds a placement for; a record with no effect, such as one of another OP, is counted
and changes nothing else. -/
def Sys2Proof.Part.BindingResults : Prop :=
  ∀ (s : State) (bench : Nat) (r : BindRec),
    let rejected (i : Instr) : Prop := exec i s = .next { s with pf := { s.pf with rejected := s.pf.rejected + 1 } }
    (s.recordNode r = none ∨ r.op ≠ 0 → rejected (.bind bench r)) ∧
    (r.op ≠ 1 → rejected (.preempt bench r)) ∧
    (∀ g i n, s.recordNode r = some (g, i, n) →
      (s.bindOk bench r g i n = false → rejected (.bind bench r)) ∧
      (n.count ≤ r.inst ∨ r.inst ∈ n.doneInst ∨ r.inst ∈ n.cancelled ∨ 4 ≤ r.ctxn ∨ r.mem.getLsbD r.leader = false →
        rejected (.bind bench r)) ∧
      (r.op = 0 → s.bindOk bench r g i n = true → s.findInst g.ctxid g.hdr i r.inst = none → Says.Happens (.bind bench r) s fun t =>
        Says.Bound s t g i n r.inst r.ctxn (ringFrom bench r.leader r.mem) ∧ t.pf.gated = false ∧ t.seqs = s.seqs)) ∧
    (s.selfBind = none → exec .dispatchSelfBind s = .next s) ∧
    ∀ u, s.selfBind = some u → exec .dispatchSelfBind s = .next u ∧ ∃ w ∈ s.workByAge, ∃ ctxn ms,
      s.workPlace w = some (ctxn, ms) ∧ ms.length = w.n.team ∧
      (∀ m ∈ ms, s.canTake m ctxn w.n.lsize = true) ∧
      (∀ v ∈ s.workByAge, v.since < w.since → s.workPlace v = none) ∧
      (s.findInst w.g.ctxid w.g.hdr w.i w.num = none → Says.Bound s u w.g w.i w.n w.num ctxn ms)

/-- R290, R293, R294: a PREEMPT record asks for the swap of its running instance, and is counted where there is none; at
the next quantum boundary the team stops issuing, unless a member is in an exchange. A rotation of a COOP node where
no instance waits swaps none out; where one runs and others wait, it swaps that one out for the first of them. -/
def Sys2Proof.Part.QuantumAndRotationResults : Prop :=
  ∀ (s : State) (bench : Nat) (r : BindRec) (x : Inst) (g : Graph) (i : Nat) (n : Node),
    let named (y : Inst) : Bool := nodeVa y.hdr y.node == r.node && y.inst == r.inst && y.part == r.part &&
      y.state == .running && r.op == 1
    let mine := s.sch.insts.filter fun y => y.ctxid == g.ctxid && y.hdr == g.hdr && y.node == i
    (s.sch.insts.find? named = none →
      exec (.preempt bench r) s = .next { s with pf := { s.pf with rejected := s.pf.rejected + 1 } }) ∧
    (s.sch.insts.find? named = some x → Says.Happens (.preempt bench r) s fun t =>
      { t with sch := { t.sch with insts := s.sch.insts } } = s ∧
      t.sch.insts = s.sch.insts.map fun y => if y.id = x.id then { y with preempt := true } else y) ∧
    (s.instAt x.hdr x.node x.inst (fun y => y.state == .running && y.preempt) = some x → s.inst x.id = some x →
      Says.Happens (.quantumBoundary x.hdr x.node x.inst) s fun t => Says.Quiesces s t x) ∧
    (s.sch.graphs.find? (fun y => y.hdr == g.hdr) = some g → g.nodes[i]? = some n → n.coop = true → n.kind = 1 →
      n.state = .running →
      (n.count ≤ mine.length + n.doneInst.length + n.cancelled.length → (∀ y ∈ mine, y.state ≠ .saved) →
        Says.Happens (.coopRotation g.hdr i) s fun t => t.sch.insts = s.sch.insts ∧ t.ctxs = s.ctxs ∧ t.seqs = s.seqs) ∧
      (mine = [x] → x.state = .running → s.inst x.id = some x → n.doneInst = [] → n.cancelled = [] → 1 < n.count →
        Says.Happens (.coopRotation g.hdr i) s fun t => Says.Quiesces s t x ∧
          (t.node g.ctxid g.hdr i).map Node.swapIn = some [if x.inst = 0 then 1 else 0]))

/-- Instances are bound, pre-empted and rotated. Which work is bound and swapped out is the model's reading (assumptions
45 and 46). -/
def Obligations.DispatchResults : Prop := Part.BindingResults ∧ Part.QuantumAndRotationResults

/-- R46 to R48, R284, R288: a bound instance starts on all its members at once: its compute sequencer issues at TARGET
at level U with no repetition, the others are stopped; counters are 0, queues empty, m all ones, GEO the instance's
place; L 0 to 255 hold ARGS. While a read of ARGS is held at its home it waits. Where ARGS cannot be read, the
instance is cancelled with SRC 1, and its contexts are free. -/
def Sys2Proof.Part.InstanceStartResults : Prop :=
  ∀ (s : State) (x : Inst) (n : Node),
    s.instAt x.hdr x.node x.inst s.unstarted = some x → s.inst x.id = some x → s.node x.ctxid x.hdr x.node = some n →
    x.members.Nodup → x.ctxn < 4 →
    let i : Instr := .instanceStart x.hdr x.node x.inst
    ((s.argsHeld x n).isSome = true → exec i s = .next s) ∧
    (s.argsHeld x n = none →
    (∀ e, s.readArgs x n = .error e → Says.Happens i s fun t => t.inst x.id = none ∧
      ∀ c ∈ State.cids x, (t.cx c).slot.state = .free ∧ (t.sq (sidAt c 0)).run = false) ∧
    ∀ bs u, s.readArgs x n = .ok (bs, u) → bs.length = 256 ∧ Says.Happens i s fun t =>
      (t.inst x.id).map Inst.state = some .running ∧ ∀ j m, x.members[j]? = some m →
        let c := cidAt m x.ctxn
        let r := t.r (sidAt c 0)
        let y := t.cx c
        (t.sq (sidAt c 0)).run = true ∧ (t.sq (sidAt c 1)).run = false ∧ (t.sq (sidAt c 2)).run = false ∧
        r.pc = n.target ∧ r.rep = Says.noRep ∧ r.pl = false ∧ r.ppl = false ∧
        (x.migrated = true ∨ (s.cx c).slot.lastAsid ≠ s.asidOf x.ctxid → r.s = 0 ∧ r.p0 = Ptr.init ∧ y.reg.a0 = 0) ∧
        (x.migrated = false → (s.cx c).slot.lastAsid = s.asidOf x.ctxid →
          { r with pc := (s.r (sidAt c 0)).pc, rep := (s.r (sidAt c 0)).rep, pl := (s.r (sidAt c 0)).pl, ppl := (s.r (sidAt c 0)).ppl }
            = s.r (sidAt c 0) ∧ y.reg.a0 = (s.cx c).reg.a0) ∧
        y.n = ⟨0, 0, 0, 0, 0, 0⟩ ∧ y.q = ⟨[], [], [], [], [], [], [], [], []⟩ ∧ y.reg.m = 0xFFFF ∧ y.reg.fpctl = 0 ∧ y.pins = [] ∧
        y.j.part = none ∧ y.reg.geo0 = BitVec.ofNat 64 (n.gy * 2 ^ 32 + n.gx) ∧
        y.reg.geo2 = BitVec.ofNat 64 (n.team * 256 + j) ∧ y.reg.geo3 = n.geo3 ∧ y.slot.state = .running ∧
        y.slot.ctxid = x.ctxid ∧ ∀ b < 256, (t.co m).scr.read ((s.cx c).slot.winBase + b) = (bs.getD b (0, false)).1)

/-- R291, R293 to R297: a quiescing team that can be saved is, and urgent work, or what a rotation swaps in, is bound in
its place: its contexts are free, and an image of each member has its accumulators and its sequencers' registers. A
saved team that is bound again resumes with what its images hold, and the images go. -/
def Sys2Proof.Part.SwapResults : Prop :=
  ∀ (s : State) (x : Inst), s.inst x.id = some x → x.members.Nodup → x.ctxn < 4 →
    (∀ u, s.instAt x.hdr x.node x.inst (fun y => y.state == .quiescing) = some x → s.saveTeam x = some u →
      (∀ m ∈ s.sch.images, m.inst ≠ x.id) →
      exec (.swapDrainTimeout x.hdr x.node x.inst) s = .next u.bindUrgent.bindRotated ∧
      ((∀ g ∈ u.sch.graphs, ∀ n ∈ g.nodes, n.prio ≠ 7 ∧ n.swapIn = []) → u.bindUrgent.bindRotated = u) ∧ (u.inst x.id).map Inst.state = some .saved ∧
      ∀ j m, x.members[j]? = some m → let c := cidAt m x.ctxn
        (u.cx c).slot.state = .free ∧ ∃ y ∈ u.sch.images, y.inst = x.id ∧ y.tidx = j ∧ y.sq0.r = s.r (sidAt c 0) ∧
          y.sq1.r = s.r (sidAt c 1) ∧ y.sq2.r = s.r (sidAt c 2) ∧ y.ctx.reg.a0 = (s.cx c).reg.a0 ∧
          y.ctx.reg.a1 = (s.cx c).reg.a1 ∧ y.ctx.reg.a2 = (s.cx c).reg.a2 ∧ y.ctx.reg.a3 = (s.cx c).reg.a3 ∧
          y.ctx.reg.m = (s.cx c).reg.m) ∧
    (s.instAt x.hdr x.node x.inst (fun y => y.state == .bound && !(s.imagesOf y.id).isEmpty && y.members.all (s.jafFits y.id) &&
        (s.imagesOf y.id).all fun m => !s.imageHeld ((State.cids y).getD m.tidx 0) m) = some x →
      (s.imagesOf x.id).map Image.tidx = List.range x.members.length →
      Says.Happens (.teamResume x.hdr x.node x.inst) s fun t => (t.inst x.id).map Inst.state = some .running ∧
        t.imagesOf x.id = [] ∧ ∀ y ∈ s.imagesOf x.id, ∀ m, x.members[y.tidx]? = some m → let c := cidAt m x.ctxn
          t.r (sidAt c 0) = y.sq0.r ∧ t.r (sidAt c 1) = y.sq1.r ∧ t.r (sidAt c 2) = y.sq2.r ∧
          (t.cx c).reg = y.ctx.reg ∧ (t.cx c).q = y.ctx.q ∧ (t.cx c).slot.state = .running)

/-- Instances start, are swapped out, and resume. What an image holds beside R295's list is the model's (assumptions 18,
26, 45 and 47). -/
def Obligations.InstanceResults : Prop := Part.InstanceStartResults ∧ Part.SwapResults

/-- R69, R70: a bound thread that may migrate leaves in a message with its ARGS, or stays where ARGS cannot be read; the
message starts it in a free context of the target core with zero registers, or, where none is free, it stays bound.
BLOAD names a core of the bench with the most free contexts. ARGS that cannot be read, and the zeros, are the model's
reading (assumption 48). -/
def Obligations.MigrationResults : Prop :=
  (∀ (s : State) (c : Nat) (x : Inst) (n : Node) (dst : Nat), s.migrates c = some (x, n, dst) →
    (∀ e, s.readArgs x n = .error e → exec (.threadMigration c) s = .next s) ∧
    ∀ bs u, s.readArgs x n = .ok (bs, u) → Says.Happens (.threadMigration c) s fun t =>
      t.seqs = s.seqs ∧ t.sch = { s.sch with migs := s.sch.migs ++ [⟨x.id, coreOf c, dst, bs⟩] }) ∧
  (∀ (s : State) (idx : Nat) (m : Mig) (x : Inst) (g : Graph) (n : Node), s.sch.migs[idx]? = some m → s.inst m.inst = some x →
    s.graph x.ctxid x.hdr = some g → s.node x.ctxid x.hdr x.node = some n →
    ((∀ k < 4, s.canTake m.dst k n.lsize = false) →
      exec (.migrationMessage idx) s = .next { s with sch := { s.sch with migs := s.sch.migs.eraseIdx idx } }) ∧
    ∀ k, k < 4 → s.canTake m.dst k n.lsize = true → (∀ k' < k, s.canTake m.dst k' n.lsize = false) →
      s.findInst x.ctxid x.hdr x.node x.inst = some x → x.ctxn < 4 → m.dst ∉ x.members →
      Says.Happens (.migrationMessage idx) s fun t => let c := cidAt m.dst k
        (t.cx c).slot.state = .running ∧ (t.sq (sidAt c 0)).run = true ∧ (t.r (sidAt c 0)).pc = n.target ∧
        (t.r (sidAt c 0)).s = 0 ∧ (t.cx c).reg.a0 = 0 ∧ ∀ d ∈ State.cids x, (t.cx d).slot.state = .free) ∧
  ∀ (s : State) (b : Nat), b < 96 →
    let free (c : Nat) : Nat := ((List.range 4).filter fun n => (s.cx (cidAt (b * 48 + c) n)).slot.state == .free).length
    Says.Happens (.bloadRefresh b) s fun t => { t with benches := s.benches } = s ∧ (∀ d, d ≠ b → t.be d = s.be d) ∧
      ∃ v, t.be b = { s.be b with bload := v } ∧ (∀ c < 48, free c ≤ v.toNat / 256) ∧
        (v.toNat % 256 < 48 ∧ free (v.toNat % 256) = v.toNat / 256 ∧ 256 ≤ v.toNat ∨ v = 63)

/-! ## Host, fabric, trust and power -/

/-- R1, R40, R167, R253, R260, R284, R324, R327, R328: the partition windows' commands, for 16 partitions, while the
window is not busy; one from a master that is not the owner is refused. ROWREG fixes a block's row size, unless
another is registered. EMBREG lists a table whose pages are pinned ROW pages of its row size, in place of the one
with its number, unless a lookup of that is in flight; while a walk for its pages waits it is put off (assumption
76); EMBUNREG takes one away. FRRREQ writes a register of which R260 refuses no field, its RSV bits 0. KEYREQ gives
a key id of 1 to 4,095 that no partition uses to the partition that it names (assumption 97); an access of the
policy firmware to what only the root stage reaches changes nothing but the log of the root of trust. A refused
command has status 1 and no other effect. Clearing a partition frees its keys, and no cache keeps a line under one.
The refusals that R324 does not give are the model's reading (assumption 52). -/
def Obligations.PartitionCommandResults : Prop :=
  ∀ (s : State) (by_ : Option Master) (part ctxid n pa size rowsz nrows fmt owner : Nat) (base w0 w1 w2 w3 : W64) (pinned : Bool),
    let refused (i : Instr) : Prop := Says.Happens i s fun t =>
      { t with pf := { t.pf with status := s.pf.status } } = s ∧ Tab.get 0 t.pf.status part = 1
    let carried (i : Instr) (P : State → Prop) : Prop := Says.Happens i s fun t => Tab.get 0 t.pf.status part = 0 ∧ P t
    let only (t : State) (h : Homes) : Prop := { t with h := s.h, pf := { t.pf with status := s.pf.status } } = s ∧ t.h = h
    let all : List Instr := [.rowreg ⟨by_, part⟩ pa size, .embreg ⟨by_, part⟩ ctxid n base rowsz nrows ⟨fmt, pinned⟩, .embunreg ⟨by_, part⟩ n,
      .frrreq ⟨by_, part⟩ n w0 w1 w2 w3, .keyreq ⟨by_, part⟩ (.bind n owner)]
    (∀ i ∈ all, 16 ≤ part ∨ by_.isSome = true ∧ Tab.get 0 s.pf.status part = 2 → exec i s = .next s) ∧
    (part < 16 → (by_.isSome = true → Tab.get 0 s.pf.status part ≠ 2) →
    (s.mayCommand by_ = false → ∀ i ∈ all, refused i) ∧
    (s.mayCommand by_ = true →
    (size ∈ [64, 128, 256, 512, 1024] → s.rowSize pa = 0 ∨ s.rowSize pa = size → carried (.rowreg ⟨by_, part⟩ pa size) fun t =>
      only t { s.h with rowSize := t.h.rowSize } ∧ ∀ a, t.rowSize a = if a / 65536 = pa / 65536 then size else s.rowSize a) ∧
    (¬size ∈ [64, 128, 256, 512, 1024] ∨ s.rowSize pa ≠ 0 ∧ s.rowSize pa ≠ size → refused (.rowreg ⟨by_, part⟩ pa size)) ∧
    (s.tableBusy part n = true → refused (.embunreg ⟨by_, part⟩ n)) ∧
    (s.tableBusy part n = false →
      carried (.embunreg ⟨by_, part⟩ n) fun t => only t { s.h with emb := s.h.emb.filter fun e => !(e.part == part && e.id == n) }) ∧
    ((s.walkHeld (s.whoCtx ctxid true) base (nrows * rowsz) .read).isSome = true →
      exec (.embreg ⟨by_, part⟩ ctxid n base rowsz nrows ⟨fmt, pinned⟩) s = .next { s with
        agenda := .go .engine :: .ev (.embreg ⟨by_, part⟩ ctxid n base rowsz nrows ⟨fmt, pinned⟩) :: s.agenda }) ∧
    (s.walkHeld (s.whoCtx ctxid true) base (nrows * rowsz) .read = none →
      (s.tableBusy part n = true → refused (.embreg ⟨by_, part⟩ ctxid n base rowsz nrows ⟨fmt, pinned⟩)) ∧
      (s.tableOf part ctxid n base rowsz nrows fmt = none → refused (.embreg ⟨by_, part⟩ ctxid n base rowsz nrows ⟨fmt, pinned⟩)) ∧
      refused (.embreg ⟨by_, part⟩ ctxid n base rowsz nrows ⟨fmt, false⟩) ∧
      (∀ tb u, s.tableBusy part n = false → s.tableOf part ctxid n base rowsz nrows fmt = some (tb, u) → Touched s u ∧ tb.rowsz = rowsz ∧ tb.nrows = nrows ∧
        (tb.pages.all fun x => x.cc == 3 && s.rowSize x.ha == rowsz) = true ∧
        carried (.embreg ⟨by_, part⟩ ctxid n base rowsz nrows ⟨fmt, true⟩) fun t =>
          { t with h := u.h, pf := { t.pf with status := u.pf.status } } = u ∧
          t.h = { u.h with emb := s.h.emb.filter (fun e => !(e.part == part && e.id == n)) ++ [tb] })) ∧
    (let v0 := w0 &&& 0x800FFFFFFFFFFF0F
     let v1 := w1 &&& 0xFFFFFFFF
     let v2 := w2 &&& 0x000FFFFFFFFFFFFF
     let v3 := w3 &&& 0x000FFFFFFFFFFFFF
     let i : Instr := .frrreq ⟨by_, part⟩ n w0 w1 w2 w3
     (s.frrTakes n (frrOf v0 v1 v2 v3) = true → carried i fun t => only t { s.h with frr := t.h.frr } ∧
       ∀ j, Tab.get 0 t.h.frr j = if j = 4 * n then v0 else if j = 4 * n + 1 then v1 else if j = 4 * n + 2 then v2
         else if j = 4 * n + 3 then v3 else Tab.get 0 s.h.frr j) ∧
     (256 ≤ n ∨ v1 = 0 ∨ 2 < (v0 &&& 15).toNat ∨ (v0.toNat / 4096 % 16 ≠ 0) ∨
       ¬v0.toNat / 256 % 16 ∈ [0, 8, 10, 12] ∨ (v0.toNat / 256 % 16 = 12 ∧ v0.toNat % 16 ≠ 2) ∨
       v0.toNat % 2 ^ 52 / 2 ^ 36 ≠ n / 16 ∨ v2.toNat / 2 ^ 36 ≠ n / 16 → refused i)) ∧
    (n = 0 ∨ 4096 ≤ n ∨ 16 ≤ owner ∨ Tab.get false s.pf.keyUsed n = true → refused (.keyreq ⟨by_, part⟩ (.bind n owner))) ∧
    (1 ≤ n → n < 4096 → owner < 16 → Tab.get false s.pf.keyUsed n = false → carried (.keyreq ⟨by_, part⟩ (.bind n owner)) fun t =>
      { t with pf := { t.pf with keyPart := s.pf.keyPart, keyUsed := s.pf.keyUsed, status := s.pf.status } } = s ∧
      ∀ k, Tab.get 0 t.pf.keyPart k = if k = n then owner + 1 else Tab.get 0 s.pf.keyPart k))) ∧
    (∀ w what, exec (.keyreq w (.policy what)) s = .next { s with pf := { s.pf with refusals := s.pf.refusals ++ [what] } }) ∧
    Says.Happens (.partitionClear part) s fun t => (∀ k, Tab.get 0 t.pf.keyPart k ≠ part + 1) ∧
      ((∀ g ∈ s.sch.graphs, s.cpart g.ctxid ≠ part) → ∀ k, k ≠ 0 → Tab.get 0 s.pf.keyPart k = part + 1 → ∀ m,
        (∀ l ∈ (t.co m).cache, l.key ≠ k) ∧ ∀ l ∈ (t.be m).pool, l.c.key ≠ k)

/-- R131, R323, R325, R326, R328: a write to a context register keeps the writable bits; one to an unlisted offset is
ignored, and so is one of a master that is not the owner. The owner passes its ownership to a present successor; it
passes to the present master of highest priority when the owner's link is lost. Bring-up that verifies leaves memory
zero and the device ready; otherwise, and once ready, it does nothing. Refresh takes the macros of a die in turn,
and the units and sequencers whose reads a window has held count it at its end. A replayed flit is counted, and the
eighth replay in a row that fails takes its link down; a device toward which no port is left is lost. A report names
log, device, nonce and owner, and is signed. Priorities, measurements, signatures and first macros are free, and a
link is up or down (assumptions 23, 24, 28, 53 and 54). -/
def Obligations.TrustAndFabricResults : Prop :=
  ∀ (s : State) (by_ : Option Master) (ctxid off die port : Nat) (v : W64) (ms : List Master) (m m' : Master) (nonce : BitVec 256),
    let onlyPf (t : State) (p : Platform) : Prop := t = { s with pf := p }
    (s.mayCommand by_ = false → exec (.registerWrite ⟨by_, ctxid⟩ off v) s = .next s) ∧
    (off % 8 = 0 → 0 < off → off < 0x838 → s.mayCommand by_ = true → Says.Happens (.registerWrite ⟨by_, ctxid⟩ off v) s fun t =>
      { t with pf := { t.pf with cwin := s.pf.cwin } } = s ∧ t.cwin ctxid off = v &&& (
        if off = 8 then 0x000FFFFFFFFFF000 else if off = 0x10 then 0xFFFF else if off = 0x30 then 0x1FF
        else if 0x40 ≤ off then 0x80000000FFFFFFFF else 0xFFFFFFFFFFFFFFFF)) ∧
    (off % 8 ≠ 0 ∨ 0x840 < off ∨ off = 0x838 → exec (.registerWrite ⟨by_, ctxid⟩ off v) s = .next s) ∧
    exec (.registerWrite ⟨by_, ctxid⟩ 0 v) s = exec (.launch ⟨by_, ctxid⟩ v) s ∧
    exec (.registerWrite ⟨by_, ctxid⟩ 0x840 v) s = exec (.cancel ⟨by_, ctxid⟩ v) s ∧
    Says.Happens (.handover ⟨m, m'⟩) s (fun t => onlyPf t { s.pf with
      owner := if s.pf.owner == some m && s.pf.present.contains m' then some m' else s.pf.owner }) ∧
    Says.Happens .ownerLinkLoss s (fun t =>
      (s.pf.owner = none → t = s) ∧ ∀ o, s.pf.owner = some o →
        let left := s.pf.present.filter (· != o)
        onlyPf t { s.pf with present := left, owner := t.pf.owner } ∧ (t.pf.owner = none ↔ left = []) ∧
        ∀ w, t.pf.owner = some w → w ∈ left ∧ ∀ x ∈ left, Config.masterPrio (Master.num x) ≤ Config.masterPrio (Master.num w)) ∧
    (s.pf.ready = true → exec (.bringUp true ms) s = .next s) ∧ exec (.bringUp false ms) s = .next s ∧
    (s.pf.ready = false → Says.Happens (.bringUp true ms) s fun t => t.pf.ready = true ∧ t.pf.present = ms ∧
      (∀ a, haDev a = 0 → haRegion a < 2 → t.h.mem.read a = 0) ∧ (∀ w, t.pf.owner = some w → w ∈ ms) ∧
      t.seqs = s.seqs ∧ t.cores = s.cores) ∧
    (die < 8 → Says.Happens (.refreshWindow die) s fun t =>
      { t with h := { t.h with refresh := s.h.refresh }, pf := { t.pf with unitCnt := s.pf.unitCnt }, ctxs := s.ctxs } = s ∧
      (∀ c, { t.cx c with reg := { (t.cx c).reg with cnt := (s.cx c).reg.cnt } } = s.cx c) ∧
      (Tab.get 0 s.h.refresh die = 0 ∨ 17 ≤ Tab.get 0 s.h.refresh die → t.pf = s.pf ∧ t.ctxs = s.ctxs) ∧
      let x := Tab.get 0 s.h.refresh die
      let y := Tab.get 0 t.h.refresh die
      (x = 0 → 1 ≤ y ∧ y ≤ 16) ∧ (1 ≤ x → x ≤ 16 → y = x + 16) ∧ (17 ≤ x → x ≤ 32 → y = 1 + x % 16)) ∧
    (port < 36 →
      (∀ failed, Says.Happens (.flitReplay ⟨port, failed⟩) s fun t =>
        let n := if failed then Tab.get 0 s.pf.failed port + 1 else 0
        { t with pf := { t.pf with replays := s.pf.replays, failed := s.pf.failed }, h := { t.h with portDown := s.h.portDown } } = s ∧
        (∀ p, Tab.get 0 t.pf.replays p = Tab.get 0 s.pf.replays p + if p = port then 1 else 0) ∧
        (∀ p, Tab.get 0 t.pf.failed p = if p = port then n else Tab.get 0 s.pf.failed p) ∧
        ∀ p, Tab.get false t.h.portDown p = (p == port && decide (8 ≤ n) || Tab.get false s.h.portDown p)) ∧
      Says.Happens (.linkDown port) s fun t => { t with h := { t.h with portDown := s.h.portDown } } = s ∧
        (∀ p, Tab.get false t.h.portDown p = (p == port || Tab.get false s.h.portDown p)) ∧
        ∀ d, t.h.lost d = true ↔ (∃ p < 36, Config.portTo p d = true) ∧
          ∀ p < 36, Config.portTo p d = true → p = port ∨ Tab.get false s.h.portDown p = true) ∧
    (36 ≤ port → (∀ failed, exec (.flitReplay ⟨port, failed⟩) s = .next s) ∧ exec (.linkDown port) s = .next s) ∧
    Says.Happens (.attestationReport m nonce) s fun t =>
      let b := s.pf.mlog ++ Config.fusedId ++ bvLe 32 nonce ++ natLe 1 (match s.pf.owner with | some m => Master.num m + 1 | none => 0)
      onlyPf t { s.pf with reports :=
        if s.pf.present.contains m then s.pf.reports ++ [b ++ Config.signature b] else s.pf.reports }

/-- R42, R146, R172, R321, R322, R329 to R331: the host's writes and AtomicOps through BAR2 reach the device's own DRAM
once it is ready; others do nothing. A write waits at its home while the line is held, an AtomicOp is put off. An
ATS invalidation completes when no access to the page is under way. A corrected soft error is counted by die and
unit; another poisons its 16 B. A failed pool device frees the copies that it parks. A clock step of R42 waits while
an exchange phase is open; clocks are gated where no slot is bound; the owner alone changes the power state, to
D3hot only where nothing is RUNNING. STALEP takes each context's STALE once. What is refused or waits is the model's
reading (assumptions 55, 56 and 57). -/
def Obligations.HostAndPowerResults : Prop :=
  ∀ (s : State) (part ha size mhz core : Nat) (u : MemUnit) (bs : List Byte) (op : HostOp) (v c : W64) (m : Master),
    let takes (n : Nat) := s.hostTakes ha n
    let x : Xl := ⟨ha, 0, false, 0⟩
    (part < 16 → takes bs.length = true → exec (.hostWindowWrite part ha bs) s = .next (s.homeSend x (clean bs))) ∧
    (16 ≤ part ∨ takes bs.length = false → exec (.hostWindowWrite part ha bs) s = .next s) ∧
    (part < 16 → size = 4 ∨ size = 8 → ha % size = 0 → takes size = true → s.writeHeld (ha / 64) = false →
      let old := leNat (((List.range size).map fun i => (s.h.byte { x with ha := ha + i } 0).1))
      let w := 2 ^ (8 * size)
      let new := match op with
        | .fetchAdd => (old + v.toNat) % w
        | .swap => v.toNat % w
        | .cas => if old = c.toNat % w then v.toNat % w else old
      exec (.hostAtomicop part op ha size v c) s = .next (s.homeWrite x (clean (natLe size new)))) ∧
    (16 ≤ part ∨ ¬(size = 4 ∨ size = 8) ∨ ha % size ≠ 0 ∨ takes size = false ∨ s.writeHeld (ha / 64) = true →
      exec (.hostAtomicop part op ha size v c) s = .next s) ∧
    (s.anyUnderWay [(ha / 4096 * 4096, 4096)] = false →
      exec (.atsInvalidation ha) s = .next { s with
        pf := { s.pf with atsDone := s.pf.atsDone + 1 }, h := { s.h with ats := s.h.ats.filter (· != ha / 4096) } }) ∧
    (s.anyUnderWay [(ha / 4096 * 4096, 4096)] = true → exec (.atsInvalidation ha) s = .next s) ∧
    (let own : Prop := u = .scratchpad ∨ u = .kernel;
     (own → 4608 ≤ core → ∀ fixed, exec (.memoryError ⟨u, core, ha⟩ fixed) s = .next s) ∧
     (own → core < 4608 →
       Says.Happens (.memoryError ⟨u, core, ha⟩ true) s (fun t => { t with pf := { t.pf with corrected := s.pf.corrected } } = s ∧
         ∀ n, Tab.get 0 t.pf.corrected n = Tab.get 0 s.pf.corrected n + if n = core / 576 * 8 + MemUnit.num u then 1 else 0) ∧
       (u = .scratchpad → ha < 2 ^ 20 → Says.Happens (.memoryError ⟨u, core, ha⟩ false) s fun t =>
         { t with cores := s.cores } = s ∧ (∀ d, d ≠ core → t.co d = s.co d) ∧
         { t.co core with spois := (s.co core).spois } = s.co core ∧
         ∀ n, Tab.get false (t.co core).spois n = (n == ha / 16 || Tab.get false (s.co core).spois n))) ∧
     (¬own →
       Says.Happens (.memoryError ⟨u, core, ha⟩ true) s (fun t => { t with pf := { t.pf with corrected := s.pf.corrected } } = s ∧
         ∀ n, Tab.get 0 t.pf.corrected n = Tab.get 0 s.pf.corrected n + if n = dieHome ha * 8 + MemUnit.num u then 1 else 0) ∧
       Says.Happens (.memoryError ⟨u, core, ha⟩ false) s fun t =>
         { t with h := { t.h with poison := s.h.poison, mended := s.h.mended } } = s ∧
         ∀ n, Tab.get false t.h.poison n = (n == ha / 16 || Tab.get false s.h.poison n))) ∧
    (let dev := Config.poolFails s.free
     s.sch.fills = [] → Says.Happens .poolLinkFailure s fun t =>
      t.h = { s.h with poolCut := Tab.set false s.h.poolCut dev true } ∧ t.seqs = s.seqs ∧ t.cores = s.cores ∧
      (∀ d, (t.cx d).f.copies = (s.cx d).f.copies.map fun y => { y with
        lost := y.lost ++ y.parkedAt dev, parked := y.parked.filter fun p => !(y.parkedAt dev).contains p }) ∧
      ∀ d, { t.cx d with f := { (t.cx d).f with copies := (s.cx d).f.copies } } = s.cx d) ∧
    (let opened := s.cores.any fun e => match e.2.xch with | some y => y.opened | none => false
     (mhz ∈ [800, 700, 600, 500, 400] → opened = false →
       exec (.clockStepChange mhz) s = .next { s with pf := { s.pf with clock := mhz } }) ∧
     (¬mhz ∈ [800, 700, 600, 500, 400] ∨ opened = true → exec (.clockStepChange mhz) s = .next s)) ∧
    ((∀ e ∈ s.ctxs, e.2.slot.state = .free) → s.pf.pstate = .d0 →
      exec .clockGating s = .next { s with pf := { s.pf with gated := true } }) ∧
    ((∃ e ∈ s.ctxs, e.2.slot.state ≠ .free) → exec .clockGating s = .next s) ∧
    (s.pf.owner ≠ some m → ∀ d3, exec (.powerRequest m d3) s = .next s) ∧
    (s.pf.owner = some m →
      exec (.powerRequest m false) s = .next { s with pf := { s.pf with pstate := .d0 } } ∧
      (s.sch.graphs = [] → (∀ i ∈ s.sch.insts, i.state ≠ .running) →
        exec (.powerRequest m true) s = .next { s with pf := { s.pf with pstate := .d3hot, gated := false } }) ∧
      ((s.sch.graphs ≠ [] ∨ ∃ i ∈ s.sch.insts, i.state = .running) → exec (.powerRequest m true) s = .next s)) ∧
    Says.Happens .stalepUpdate s fun t => { t with pf := { t.pf with stalep := s.pf.stalep, staleSeen := s.pf.staleSeen } } = s ∧
      ((s.ctxs.map Prod.fst).Nodup → ∀ e ∈ s.ctxs, Tab.get 0 t.pf.staleSeen e.1 = e.2.reg.stale) ∧
      ∀ d y, s.ctxs = [(d, y)] → let was := Tab.get 0 s.pf.staleSeen d
        ∀ p, Tab.get 0 t.pf.stalep p = Tab.get 0 s.pf.stalep p +
          if p = y.slot.part ∧ was ≤ y.reg.stale then y.reg.stale - was else 0

/-! ## The whole machine -/

/-- R72: division truncates toward zero, and the remainder takes the sign of the dividend; by zero the quotient has
every bit set and the remainder is the dividend; the most negative value by -1 gives itself and 0. -/
def Obligations.DivisionRule : Prop :=
  ∀ (s : State) (k : Nat) (d : W64),
    let a := (s.r k).s
    let gives (u : Bool) (q r : W64) : Prop :=
      (Says.Completes s k (.divImm u (.long d)) (fun x => { x with s := q }) fun t => OnlySeqs s t) ∧
      Says.Completes s k (.remImm u (.long d)) (fun x => { x with s := r }) fun t => OnlySeqs s t
    (d = 0 → ∀ u, gives u (BitVec.allOnes 64) a) ∧
    (d ≠ 0 → gives true (BitVec.ofNat 64 (a.toNat / d.toNat)) (BitVec.ofNat 64 (a.toNat % d.toNat))) ∧
    (d ≠ 0 → gives false (BitVec.ofInt 64 (a.toInt.tdiv d.toInt)) (BitVec.ofInt 64 (a.toInt.tmod d.toInt))) ∧
    (a = BitVec.intMin 64 → d = BitVec.allOnes 64 → gives false a 0)

/-- R94 to R116: the decoder reads every well-formed instruction back from its words, whatever follows them. -/
def Obligations.DecodeInvertsEncode : Prop :=
  ∀ (i : Instr) (rest : List W32), i.wf = true → i.isEvent = false → decode (encode i ++ rest) = .ok i

/-- R94 to R108: words that stand in the spec decode to the instructions that they stand for. -/
def Obligations.DecodingIsRight : Prop :=
  ∀ e ∈ ([([0x08000004], .addImm (.short 1)),
      ([0x05280C00], .div true (.mem 2 false) .i64),
      ([0x10000001, 0x80000000, 0x00000000], .li (.long 0x80000000)),
      ([0x12011220], .cvt .bf16 .fp32 .s ⟨false, .rne⟩),
      ([0x14D80000], .psetS 5 .g),
      ([0x180FFFD0], .br .ne (.rel 0x1FFF4)),
      ([0x1D040000], .rep 2 0 .s),
      ([0x23069000], .vmac 0 (.mem 1 true) (.mem 2 false) .bf16 ⟨false, .rne⟩),
      ([0x292D3000], .vcvt 1 .fp32 .bf16 (.mem 3 false) ⟨false, .rne⟩),
      ([0x40536000], .ldg .v ⟨4, true⟩ ⟨5, true⟩),
      ([0x44450002, 0x20000000, 0x00000000], .cpy ⟨⟨4, false⟩, ⟨5, false⟩, 0, false, true, 0, 0⟩ none),
      ([0x4A10000C], .pwait .k .m),
      ([0x50E40010], .qpop .mc (.acc 1)),
      ([0x54200002, 0x0F0F0F0F, 0x00000000], .exo ⟨⟨2, false⟩, false, 0x0F0F0F0F, 0⟩),
      ([0x55E00002, 0x00000000, 0x00000000], .exred false ⟨6, false⟩ 0),
      ([0x601AC003, 0x00000000, 0x00000000, 0x0001FFFF, 0x00000000], .mtile ⟨⟨1, true⟩, ⟨2, true⟩, .bf16, false, false, 0, false, false, 0, 0, 0, some (1, 0xFFFF)⟩),
      ([0x65049200], .joins .cm .am .fp32),
      ([0x65AC1200], .jget 1 ⟨3, false⟩ .fp32),
      ([0x80512203, 0x00000000, 0x00000000, 0x00000001, 0x00000000], .oadd ⟨⟨5, false⟩, ⟨1, false⟩, .i32, false, .lit 1⟩),
      ([0x83D14042, 0x00000000, 0x00000040], .orow ⟨⟨5, false⟩, ⟨1, false⟩, .bf16, false, .mem 2 false⟩ false 64),
      ([0x89D10203, 0x00000001, 0x00000000, 0x00000000, 0x00000000], .ofill ⟨5, false⟩ ⟨1, false⟩ (.lit 0) .s),
      ([0xA118000D, 0x00000001, 0x00000000], .wadd 6 (.lit 1)),
      ([0xA0142A00], .wld 5 0 true .ui32),
      ([0xA8B46180], .wtileExpand 5 1 true .i8 6),
      ([0xC0000014], .trap 5),
      ([0xC1000008], .srr 2),
      ([0xC4980000], .rdv ⟨true, true, false⟩),
      ([0xC580000C], .tsig 3),
      ([0xC8200000], .lacq .s),
      ([0xCC0C0000], .tinv 3)] : List (List W32 × Instr)),
    decode e.1 = .ok e.2

/-- The device goes on: every instruction and event has an effect in every state, and a step answers a next state unless
the turn names a sequencer or an awl that the part does not have. That an event with nothing pending leaves the state
as it is is the model's choice (assumption 15). -/
def Obligations.EveryStepGoesOn : Prop :=
  (∀ (i : Instr) (s : State), Goes (exec i s)) ∧
  ∀ s : State, (∀ t, t = s.turn ∨ Agendum.go t ∈ s.agenda.take 1 → match t with
      | .seq k => k < 4608 * 4 * 3
      | .awl b => b < 96
      | .engine => True) → Goes (step s)

/-- A step is the instruction's or the event's own effect: where a running sequencer's words decode, `step` is `exec` of
what they decode to; words that do not decode raise ILLEGAL, and words that cannot be fetched the fetch's trap,
unless they wait at their home; a pending trap is taken first; a run-ahead goes on; the awl's words likewise; an
event on the agenda is taken. An instruction that stalled before is forwarded to its team's next member as it is
tried again (R67). Before it, free visibility settles; after it, the turn passes and idle sequencers are woken.
Whose turn it is, the agenda and the settling are the model's (assumptions 6, 10 and 11). -/
def Obligations.StepRunsTheDecoded : Prop :=
  (∀ (s u : State) (k : Nat) (ws : List W32), s.agenda = [] → s.turn = .seq k → k < 4608 * 4 * 3 →
    let p := s.settle
    p.mayIssue k = true → p.pendNow k = [] → p.follows k = false → p.fetch k = .ok (ws, u) →
    (∀ i, decode ws = .ok i → step s = woken s (rotated (.seq k)
      (exec i { (if (u.sq k).stalled.isSome then u.passAhead k i else u) with turn := .seq k }))) ∧
    ∀ e, decode ws = .bad e → step s = woken s (.next ((u.raise k (precise .illegal)).rotate (.seq k)))) ∧
  (∀ (s : State) (k : Nat), s.agenda = [] → s.turn = .seq k → k < 4608 * 4 * 3 →
    let p := s.settle
    (∀ a, (p.sq k).ra = some a → step s = woken s (.next ((p.aheadTurn k a).rotate (.seq k)))) ∧
    (p.mayIssue k = true → p.pendNow k = [] → p.follows k = false → ∀ t, p.fetch k = .error t →
      (t.hold = none → p.barred k = false → step s = woken s (.next ((p.takeTrap k t).rotate (.seq k)))) ∧
      (t.hold = none → p.barred k = true → step s = woken s (.next (p.rotate (.seq k)))) ∧
      ∀ c, t.hold = some c → step s = woken s (.next ((p.stall k c).rotate (.seq k)))) ∧
    ∀ t rest, p.mayIssue k = true → p.pendNow k = t :: rest →
      step s = woken s (.next (((p.modSq k fun q => { q with pend := rest }).takeTrap k t).rotate (.seq k)))) ∧
  (∀ (s u : State) (b : Nat) (w : Walk) (ws : List W32), s.agenda = [] → s.turn = .awl b → b < 96 →
    let p := s.settle
    p.walk b = some w → p.awlReady b w = true → p.awlWords w w.pc maxWords [] = .ok (ws, u) →
    (∀ i, decode ws = .ok i → step s = woken s (rotated (.awl b) (exec i { u with turn := .awl b }))) ∧
    ∀ e, decode ws = .bad e → step s = woken s (.next ((u.walkFail b w.pc).rotate (.awl b)))) ∧
  ∀ (s : State) (i : Instr) (rest : List Agendum), s.agenda = .ev i :: rest → i.isEvent = true →
    step s = woken s (exec i ({ s with agenda := rest } : State).settle)

/-- R57, R61, R114, R116 to R119: who may execute what. On a sequencer an awl's word raises ILLEGAL, so does an
instruction of the compute sequencer on another one, and one that no body may hold inside a repetition; a privileged
one raises PRIV at level U, on any sequencer, in a repetition, too. Outside an exchange phase nothing else is
refused. On an awl, a core's instruction ends the walk. -/
def Obligations.WhoMayExecuteWhat : Prop :=
  ∀ (s : State) (i : Instr), i.isEvent = false →
    let ofAwl : Bool := match i with
      | .wld .. | .wldi .. | .wldiSh .. | .wadd .. | .wsub .. | .wand .. | .wshr .. | .wcmp .. | .wbr .. | .wjmp ..
      | .wemit .. | .wtile .. | .wtileExpand .. | .wend => true
      | _ => false
    let ofCompute : Bool := match i with
      | .fork .. | .forkBoth .. | .gbar | .yield | .vld .. | .vst .. | .vbcast .. | .vadd .. | .vsub .. | .vmul .. | .vmac ..
      | .vmin .. | .vmax .. | .vand .. | .vor .. | .vxor .. | .vshl .. | .vshr .. | .vabs .. | .vneg .. | .vcmp .. | .vsel ..
      | .vperm .. | .vcvt .. | .vscale .. | .vred .. | .vmaxi .. | .vexp2 .. | .vrcp .. | .vrsq .. | .vcprs .. | .vmeta ..
      | .vpackt .. | .vunpkt .. | .vpop .. | .vmset .. | .vmsetNz .. | .vmsetRead | .vmsetNot | .jadd .. | .jget ..
      | .qpush _ (.acc _) | .qpop _ (.acc _) => true
      | .mtile o | .cpy _ (some o) => o.spa != 0
      | _ => false
    let noBody : Bool := match i with
      | .rep .. | .br .. | .jmp .. | .call .. | .ret | .brx .. | .fork .. | .forkBoth .. | .rdv .. | .gbar | .tdone | .yield
      | .idle .. | .eret => true
      | _ => false
    let atK : Bool := match i with
      | .eret | .lreset .. | .tinv .. | .tinvAsid | .tinvAll => true
      | .srr r => !([0x000, 0x008, 0x010, 0x011, 0x020, 0x021, 0x022, 0x023, 0x028, 0x029, 0x031, 0x038, 0x039].contains r.toNat ||
          (decide (0x40 ≤ r.toNat) && decide (r.toNat ≤ 0x7F)))
      | .srw r => !([0x008, 0x020, 0x021, 0x022, 0x023, 0x028, 0x029, 0x038, 0x039].contains r.toNat)
      | _ => false
    (∀ k, s.turn = .seq k →
      let traps (c : TrapCode) : Prop := exec i s = .next (s.takeTrap k (precise c))
      let body : Bool := noBody && (s.r k).rep.act
      (ofAwl = true → traps .illegal) ∧
      (qOf k ≠ 0 → ofCompute = true → traps .illegal) ∧
      (body = true → traps .illegal) ∧
      ((s.r k).pl = false → atK = true → body = false → traps .priv) ∧
      (s.openPhaseOf k = none → ofAwl = false → (ofCompute = false ∨ qOf k = 0) → body = false →
        (atK = false ∨ (s.r k).pl = true) → s.refuses k i = none)) ∧
    ∀ b w, s.turn = .awl b → ofAwl = false → s.walk b = some w → exec i s = .next (s.walkFail b w.pc)

/-- R117, R118: what a program does at level U leaves the kernel's registers alone: no instruction of its changes KVEC,
KRING, KQUOTA or OPOLICY of any context, nor raises its own level except by taking a trap. -/
def Obligations.UserLevelKeepsKernelRegisters : Prop :=
  ∀ (s t : State) (i : Instr) (k : Nat), i.isEvent = false → s.turn = .seq k → (s.r k).pl = false → exec i s = .next t →
    (∀ c, (t.cx c).reg.kvec = (s.cx c).reg.kvec ∧ (t.cx c).reg.kring = (s.cx c).reg.kring ∧
      (t.cx c).reg.kquota = (s.cx c).reg.kquota ∧ (t.cx c).reg.opolicy = (s.cx c).reg.opolicy) ∧
    ((t.r k).pl = true → ∃ (tr : TrapInfo) (u : State), t = u.takeTrap k tr)

/-- Every step keeps the canonical form of every memory: home memory, the scratchpads, and those of the save images. The
canonical form is the model's (assumption 4). -/
def Obligations.EveryStepKeepsMemories : Prop :=
  ∀ s t : State, s.memOk → step s = .next t → t.memOk

/-- After reset the memories have their canonical form. The canonical form is the model's (assumption 4). -/
def Obligations.ResetMemories : Prop := State.reset.memOk

/-- R46, R69, R326: after reset every sequencer is stopped, no slot is bound, nothing is in flight and no graph is
RUNNING; home memory reads 0; BLOAD names no core. The registers' values beside these are the model's choice
(assumption 1). -/
def Obligations.ResetState : Prop :=
  let s := State.reset
  (∀ k, (s.sq k).run = false ∧ (s.sq k).pend = [] ∧ (s.r k).rep.act = false ∧ (s.r k).pl = false) ∧
  (∀ c, (s.cx c).slot.state = .free ∧ (s.cx c).n = ⟨0, 0, 0, 0, 0, 0⟩ ∧ (s.cx c).j.part = none ∧ (s.cx c).reg.m = 0xFFFF ∧
    (s.cx c).f = ⟨[], [], [], [], [], []⟩ ∧ (s.cx c).reg.kvec = 0) ∧
  (∀ a, s.h.mem.read a = 0) ∧ (∀ b, (s.be b).bload = 63 ∧ (s.be b).walks = []) ∧ s.sch.graphs = [] ∧ s.sch.insts = [] ∧
  s.pf.ready = false
end

