-- ==== Sys2Proof/Laws/Bytes.lean ====
section
/-! SUPPORT. Numbers as bytes and lanes: what was put together reads back part by part. -/

namespace Sys2Proof.Machine

theorem leNat_append (a b : List Byte) : leNat (a ++ b) = leNat a + 256 ^ a.length * leNat b := by
  induction a with
  | nil => simp [leNat]
  | cons x r ih =>
    simp only [List.cons_append, leNat, ih, List.length_cons, Nat.pow_succ]
    rw [Nat.mul_add, Nat.add_assoc, ← Nat.mul_assoc, Nat.mul_comm 256 (256 ^ r.length)]

theorem natLe_length (n v : Nat) : (natLe n v).length = n := by
  induction n generalizing v with
  | zero => rfl
  | succ n ih => simp [natLe, ih]

theorem leNat_natLe (n v : Nat) : leNat (natLe n v) = v % 256 ^ n := by
  induction n generalizing v with
  | zero => simp [natLe, leNat, Nat.mod_one]
  | succ n ih =>
    have h : 256 ^ (n + 1) = 256 * 256 ^ n := by rw [Nat.pow_succ, Nat.mul_comm]
    rw [natLe, leNat, ih, BitVec.toNat_ofNat, h, Nat.mod_mul]

theorem natLe_getD (n v i : Nat) (h : i < n) : (natLe n v).getD i 0 = BitVec.ofNat 8 (v / 256 ^ i) := by
  induction n generalizing v i with
  | zero => omega
  | succ n ih =>
    cases i with
    | zero => simp [natLe]
    | succ i =>
      simp only [natLe, List.getD_cons_succ]
      rw [ih _ _ (by omega), Nat.div_div_eq_div_mul, Nat.pow_succ, Nat.mul_comm (256 ^ i) 256]

/-- The bytes of a value read back as the value. -/
theorem leBv_bvLe {w : Nat} (n : Nat) (v : BitVec w) (h : w ≤ 8 * n) : leBv w (bvLe n v) = v := by
  apply BitVec.eq_of_toNat_eq
  simp only [leBv, bvLe, leNat_natLe, BitVec.toNat_ofNat]
  have h1 : v.toNat < 256 ^ n := by
    have : (256 : Nat) ^ n = 2 ^ (8 * n) := by rw [show (256 : Nat) = 2 ^ 8 by rfl, ← Nat.pow_mul]
    rw [this]
    exact Nat.lt_of_lt_of_le v.isLt (Nat.pow_le_pow_right (by omega) h)
  rw [Nat.mod_eq_of_lt h1, Nat.mod_eq_of_lt v.isLt]

/-- The number that lanes make up. -/
theorem leNat_lanes_cons (w : W32) (r : List W32) :
    leNat ((w :: r).flatMap fun w => bvLe 4 w) = w.toNat + 2 ^ 32 * leNat (r.flatMap fun w => bvLe 4 w) := by
  rw [List.flatMap_cons, leNat_append]
  simp only [bvLe, natLe_length, leNat_natLe]
  rw [Nat.mod_eq_of_lt (by simpa using w.isLt), show (256 : Nat) ^ 4 = 2 ^ 32 from rfl]

theorem leNat_lane (l : List W32) (i : Nat) :
    leNat (l.flatMap fun w => bvLe 4 w) / 2 ^ (32 * i) % 2 ^ 32 = (l.getD i 0).toNat := by
  induction l generalizing i with
  | nil => simp [leNat]
  | cons w r ih =>
    rw [leNat_lanes_cons]
    cases i with
    | zero =>
      have := w.isLt
      simp only [Nat.mul_zero, Nat.pow_zero, Nat.div_one, List.getD_cons_zero, Nat.add_mul_mod_self_left]
      exact Nat.mod_eq_of_lt this
    | succ i =>
      have := w.isLt
      simp only [List.getD_cons_succ]
      rw [← ih i, show 32 * (i + 1) = 32 + 32 * i by omega, Nat.pow_add, ← Nat.div_div_eq_div_mul,
        Nat.add_mul_div_left _ _ (by omega), Nat.div_eq_of_lt this, Nat.zero_add]

/-- Lanes put together read back lane by lane. -/
theorem lane_ofLanes (l : List W32) (i : Nat) (hi : i < 16) : lane (ofLanes l) i = l.getD i 0 := by
  apply BitVec.eq_of_toNat_eq
  simp only [lane, ofLanes, leBv, BitVec.extractLsb'_toNat, BitVec.toNat_ofNat, Nat.shiftRight_eq_div_pow]
  rw [← leNat_lane l i]
  rw [show (2 : Nat) ^ 512 = 2 ^ (32 * i) * 2 ^ (512 - 32 * i) by rw [← Nat.pow_add]; congr 1; omega]
  rw [Nat.mod_mul_right_div_self]
  exact Nat.mod_mod_of_dvd _ (Nat.pow_dvd_pow 2 (by omega))

theorem lanes_getD (v : Line) (i : Nat) (hi : i < 16) : (lanes v).getD i 0 = lane v i := by
  unfold lanes
  rw [List.getD_eq_getElem?_getD, List.getElem?_map, List.getElem?_range hi]
  rfl

theorem getLsbD_maskBits (l : List Bool) (i : Nat) (hi : i < 16) : (maskBits l).getLsbD i = l.getD i false := by
  unfold maskBits
  rw [BitVec.getLsbD_setWidth, BitVec.getLsbD_ofBoolListLE]
  rw [List.getD_eq_getElem?_getD, List.getElem?_map, List.getElem?_range hi]
  simp [hi]

end Sys2Proof.Machine
end

