-- ==== Sys2Proof/Laws/Tab.lean ====
section
/-! SUPPORT. Sparse tables and byte memories: reads after writes, and the canonical form that every write keeps. -/

namespace Sys2Proof.Machine

namespace Tab

variable {α : Type}

theorem get_cons (d : α) (e : Nat × α) (t : Tab α) (j : Nat) :
    get d (e :: t) j = if j = e.1 then e.2 else get d t j := by
  simp only [get, eq_comm]

@[simp] theorem get_put (d : α) (t : Tab α) (k : Nat) (v : α) (j : Nat) :
    get d (put t k v) j = if j = k then v else get d t j := by
  induction t with
  | nil => simp only [put, get_cons]
  | cons e r ih =>
    simp only [put]
    split
    · rename_i h
      subst h
      simp only [get_cons]
      split <;> rfl
    · split
      · rw [get_cons]
      · rename_i h _
        simp only [get_cons, ih]
        by_cases h1 : j = k
        · subst h1; simp [Ne.symm h]
        · simp only [h1, if_false]

@[simp] theorem get_erase (d : α) (t : Tab α) (k j : Nat) :
    get d (erase t k) j = if j = k then d else get d t j := by
  induction t with
  | nil => simp [erase, get]
  | cons e r ih =>
    simp only [erase]
    split
    · rename_i h
      subst h
      simp only [ih, get_cons]
      split <;> rfl
    · rename_i h
      simp only [get_cons, ih]
      by_cases h1 : j = k
      · subst h1; simp [Ne.symm h]
      · simp only [h1, if_false]

@[simp] theorem get_set [DecidableEq α] (d : α) (t : Tab α) (k : Nat) (v : α) (j : Nat) :
    get d (set d t k v) j = if j = k then v else get d t j := by
  unfold set
  split <;> simp_all

theorem wfFrom_mono [DecidableEq α] {d : α} {lo lo' : Nat} {t : Tab α} (h : wfFrom d lo t = true) (hl : lo' ≤ lo) :
    wfFrom d lo' t = true := by
  cases t with
  | nil => rfl
  | cons e r =>
    simp only [wfFrom, Bool.and_eq_true, decide_eq_true_eq] at h ⊢
    exact ⟨⟨by omega, h.1.2⟩, h.2⟩

theorem wfFrom_erase [DecidableEq α] {d : α} {lo : Nat} {t : Tab α} (k : Nat) (h : wfFrom d lo t = true) :
    wfFrom d lo (erase t k) = true := by
  induction t generalizing lo with
  | nil => rfl
  | cons e r ih =>
    obtain ⟨k', v'⟩ := e
    simp only [wfFrom, Bool.and_eq_true, decide_eq_true_eq] at h
    simp only [erase]
    split
    · exact wfFrom_mono (ih h.2) (by omega)
    · simp only [wfFrom, Bool.and_eq_true, decide_eq_true_eq]; exact ⟨h.1, ih h.2⟩

theorem wfFrom_put [DecidableEq α] {d : α} {lo : Nat} {t : Tab α} {k : Nat} {v : α} (h : wfFrom d lo t = true)
    (hk : lo ≤ k) (hv : v ≠ d) : wfFrom d lo (put t k v) = true := by
  induction t generalizing lo with
  | nil => simp [put, wfFrom, hk, hv]
  | cons e r ih =>
    obtain ⟨k', v'⟩ := e
    simp only [wfFrom, Bool.and_eq_true, decide_eq_true_eq] at h
    simp only [put]
    split
    · subst_vars; simp only [wfFrom, Bool.and_eq_true, decide_eq_true_eq]; exact ⟨⟨hk, hv⟩, h.2⟩
    · split
      · simp only [wfFrom, Bool.and_eq_true, decide_eq_true_eq]
        exact ⟨⟨hk, hv⟩, ⟨by omega, h.1.2⟩, h.2⟩
      · simp only [wfFrom, Bool.and_eq_true, decide_eq_true_eq]; exact ⟨h.1, ih h.2 (by omega)⟩

/-- A write keeps the canonical form. -/
theorem wf_set [DecidableEq α] {d : α} {t : Tab α} (k : Nat) (v : α) (h : wf d t = true) : wf d (set d t k v) = true := by
  unfold set wf at *
  split
  · exact wfFrom_erase k h
  · exact wfFrom_put h (Nat.zero_le k) ‹_›

theorem wfFrom_filter [DecidableEq α] {d : α} {lo : Nat} {t : Tab α} (p : Nat × α → Bool) (h : wfFrom d lo t = true) :
    wfFrom d lo (t.filter p) = true := by
  induction t generalizing lo with
  | nil => rfl
  | cons e r ih =>
    simp only [wfFrom, Bool.and_eq_true, decide_eq_true_eq] at h
    simp only [List.filter_cons]
    split
    · simp only [wfFrom, Bool.and_eq_true, decide_eq_true_eq]; exact ⟨h.1, ih h.2⟩
    · exact wfFrom_mono (ih h.2) (by omega)

/-- Dropping entries keeps it, too. -/
theorem wf_filter [DecidableEq α] {d : α} {t : Tab α} (p : Nat × α → Bool) (h : wf d t = true) :
    wf d (t.filter p) = true := wfFrom_filter p h

@[simp] theorem wf_nil [DecidableEq α] (d : α) : wf d ([] : Tab α) = true := rfl

/-- The `i`-th change of every entry's value reads as the change of what was read, where the default stays. -/
theorem get_map (d : α) (t : Tab α) (f : Nat × α → α) (k : Nat) (hd : f (k, d) = d) :
    get d (t.map fun e => (e.1, f e)) k = f (k, get d t k) := by
  induction t with
  | nil => simp [get, hd]
  | cons e r ih =>
    simp only [List.map_cons, get]
    split
    · rename_i h; rw [← h]
    · exact ih

end Tab

namespace Memory

@[simp] theorem read_write (m : Memory) (a : Nat) (b : Byte) (x : Nat) :
    (m.write a b).read x = if x = a then b else m.read x := Tab.get_set 0 m a b x

theorem wf_write {m : Memory} (a : Nat) (b : Byte) (h : m.wf = true) : (m.write a b).wf = true := Tab.wf_set a b h

theorem wf_writeN {m : Memory} (a : Nat) (bs : List Byte) (h : m.wf = true) : (m.writeN a bs).wf = true := by
  induction bs generalizing m a with
  | nil => exact h
  | cons b r ih => exact ih (a + 1) (wf_write a b h)

@[simp] theorem wf_empty : Memory.wf [] = true := rfl

theorem wf_filter {m : Memory} (p : Nat × Byte → Bool) (h : m.wf = true) : Memory.wf (List.filter p m) = true :=
  Tab.wf_filter p h

theorem read_writeN (m : Memory) (a : Nat) (bs : List Byte) (x : Nat) :
    (m.writeN a bs).read x = if a ≤ x ∧ x < a + bs.length then bs.getD (x - a) 0 else m.read x := by
  induction bs generalizing m a with
  | nil =>
    have : ¬ (a ≤ x ∧ x < a + ([] : List Byte).length) := by simp only [List.length_nil]; omega
    rw [if_neg this]; rfl
  | cons b r ih =>
    rw [writeN, ih, List.length_cons]
    by_cases hx : x = a
    · subst hx
      have h1 : ¬ (x + 1 ≤ x ∧ x < x + 1 + r.length) := by omega
      rw [if_neg h1, if_pos (by omega)]; simp
    · by_cases hb : a ≤ x ∧ x < a + (r.length + 1)
      · rw [if_pos hb, if_pos (by omega)]
        obtain ⟨n, rfl⟩ : ∃ n, x = a + 1 + n := ⟨x - a - 1, by omega⟩
        rw [show a + 1 + n - a = n + 1 by omega, show a + 1 + n - (a + 1) = n by omega]; simp
      · rw [if_neg hb, if_neg (by omega), read_write, if_neg hx]

end Memory

end Sys2Proof.Machine
end

