-- ==== Sys2Proof/Laws/State.lean ====
section
/-! SUPPORT. What each update of State leaves each of its parts: a read after an update, for every accessor and every
updater of Base.lean. -/

namespace Sys2Proof.Machine.State

variable (s : State) (k j c b : Nat)

@[simp] theorem sq_setSq (q : SeqSt) : (s.setSq k q).sq j = if j = k then q else s.sq j := Tab.get_put ..
@[simp] theorem cx_setSq (q : SeqSt) : (s.setSq k q).cx j = s.cx j := rfl
@[simp] theorem co_setSq (q : SeqSt) : (s.setSq k q).co j = s.co j := rfl
@[simp] theorem be_setSq (q : SeqSt) : (s.setSq k q).be j = s.be j := rfl
@[simp] theorem ctxs_setSq (q : SeqSt) : (s.setSq k q).ctxs = s.ctxs := rfl
@[simp] theorem cores_setSq (q : SeqSt) : (s.setSq k q).cores = s.cores := rfl
@[simp] theorem benches_setSq (q : SeqSt) : (s.setSq k q).benches = s.benches := rfl
@[simp] theorem h_setSq (q : SeqSt) : (s.setSq k q).h = s.h := rfl
@[simp] theorem sch_setSq (q : SeqSt) : (s.setSq k q).sch = s.sch := rfl
@[simp] theorem pf_setSq (q : SeqSt) : (s.setSq k q).pf = s.pf := rfl
@[simp] theorem turn_setSq (q : SeqSt) : (s.setSq k q).turn = s.turn := rfl
@[simp] theorem agenda_setSq (q : SeqSt) : (s.setSq k q).agenda = s.agenda := rfl
@[simp] theorem free_setSq (q : SeqSt) : (s.setSq k q).free = s.free := rfl
@[simp] theorem tick_setSq (q : SeqSt) : (s.setSq k q).tick = s.tick := rfl
@[simp] theorem nextId_setSq (q : SeqSt) : (s.setSq k q).nextId = s.nextId := rfl
@[simp] theorem ns_setSq (q : SeqSt) : (s.setSq k q).ns = s.ns := rfl

@[simp] theorem sq_modSq (f : SeqSt → SeqSt) : (s.modSq k f).sq j = if j = k then f (s.sq k) else s.sq j := Tab.get_put ..
@[simp] theorem cx_modSq (f : SeqSt → SeqSt) : (s.modSq k f).cx j = s.cx j := rfl
@[simp] theorem co_modSq (f : SeqSt → SeqSt) : (s.modSq k f).co j = s.co j := rfl
@[simp] theorem be_modSq (f : SeqSt → SeqSt) : (s.modSq k f).be j = s.be j := rfl
@[simp] theorem ctxs_modSq (f : SeqSt → SeqSt) : (s.modSq k f).ctxs = s.ctxs := rfl
@[simp] theorem cores_modSq (f : SeqSt → SeqSt) : (s.modSq k f).cores = s.cores := rfl
@[simp] theorem benches_modSq (f : SeqSt → SeqSt) : (s.modSq k f).benches = s.benches := rfl
@[simp] theorem h_modSq (f : SeqSt → SeqSt) : (s.modSq k f).h = s.h := rfl
@[simp] theorem sch_modSq (f : SeqSt → SeqSt) : (s.modSq k f).sch = s.sch := rfl
@[simp] theorem pf_modSq (f : SeqSt → SeqSt) : (s.modSq k f).pf = s.pf := rfl
@[simp] theorem turn_modSq (f : SeqSt → SeqSt) : (s.modSq k f).turn = s.turn := rfl
@[simp] theorem agenda_modSq (f : SeqSt → SeqSt) : (s.modSq k f).agenda = s.agenda := rfl
@[simp] theorem free_modSq (f : SeqSt → SeqSt) : (s.modSq k f).free = s.free := rfl
@[simp] theorem tick_modSq (f : SeqSt → SeqSt) : (s.modSq k f).tick = s.tick := rfl
@[simp] theorem nextId_modSq (f : SeqSt → SeqSt) : (s.modSq k f).nextId = s.nextId := rfl
@[simp] theorem ns_modSq (f : SeqSt → SeqSt) : (s.modSq k f).ns = s.ns := rfl

@[simp] theorem sq_modR (f : Seq → Seq) : (s.modR k f).sq j = if j = k then { s.sq k with r := f (s.sq k).r } else s.sq j := Tab.get_put ..
@[simp] theorem cx_modR (f : Seq → Seq) : (s.modR k f).cx j = s.cx j := rfl
@[simp] theorem co_modR (f : Seq → Seq) : (s.modR k f).co j = s.co j := rfl
@[simp] theorem be_modR (f : Seq → Seq) : (s.modR k f).be j = s.be j := rfl
@[simp] theorem ctxs_modR (f : Seq → Seq) : (s.modR k f).ctxs = s.ctxs := rfl
@[simp] theorem cores_modR (f : Seq → Seq) : (s.modR k f).cores = s.cores := rfl
@[simp] theorem benches_modR (f : Seq → Seq) : (s.modR k f).benches = s.benches := rfl
@[simp] theorem h_modR (f : Seq → Seq) : (s.modR k f).h = s.h := rfl
@[simp] theorem sch_modR (f : Seq → Seq) : (s.modR k f).sch = s.sch := rfl
@[simp] theorem pf_modR (f : Seq → Seq) : (s.modR k f).pf = s.pf := rfl
@[simp] theorem turn_modR (f : Seq → Seq) : (s.modR k f).turn = s.turn := rfl
@[simp] theorem agenda_modR (f : Seq → Seq) : (s.modR k f).agenda = s.agenda := rfl
@[simp] theorem free_modR (f : Seq → Seq) : (s.modR k f).free = s.free := rfl
@[simp] theorem tick_modR (f : Seq → Seq) : (s.modR k f).tick = s.tick := rfl
@[simp] theorem nextId_modR (f : Seq → Seq) : (s.modR k f).nextId = s.nextId := rfl
@[simp] theorem ns_modR (f : Seq → Seq) : (s.modR k f).ns = s.ns := rfl

@[simp] theorem sq_setCx (x : Ctx) : (s.setCx k x).sq j = s.sq j := rfl
@[simp] theorem cx_setCx (x : Ctx) : (s.setCx k x).cx j = if j = k then x else s.cx j := Tab.get_put ..
@[simp] theorem co_setCx (x : Ctx) : (s.setCx k x).co j = s.co j := rfl
@[simp] theorem be_setCx (x : Ctx) : (s.setCx k x).be j = s.be j := rfl
@[simp] theorem seqs_setCx (x : Ctx) : (s.setCx k x).seqs = s.seqs := rfl
@[simp] theorem cores_setCx (x : Ctx) : (s.setCx k x).cores = s.cores := rfl
@[simp] theorem benches_setCx (x : Ctx) : (s.setCx k x).benches = s.benches := rfl
@[simp] theorem h_setCx (x : Ctx) : (s.setCx k x).h = s.h := rfl
@[simp] theorem sch_setCx (x : Ctx) : (s.setCx k x).sch = s.sch := rfl
@[simp] theorem pf_setCx (x : Ctx) : (s.setCx k x).pf = s.pf := rfl
@[simp] theorem turn_setCx (x : Ctx) : (s.setCx k x).turn = s.turn := rfl
@[simp] theorem agenda_setCx (x : Ctx) : (s.setCx k x).agenda = s.agenda := rfl
@[simp] theorem free_setCx (x : Ctx) : (s.setCx k x).free = s.free := rfl
@[simp] theorem tick_setCx (x : Ctx) : (s.setCx k x).tick = s.tick := rfl
@[simp] theorem nextId_setCx (x : Ctx) : (s.setCx k x).nextId = s.nextId := rfl
@[simp] theorem ns_setCx (x : Ctx) : (s.setCx k x).ns = s.ns := rfl

@[simp] theorem sq_modCx (f : Ctx → Ctx) : (s.modCx k f).sq j = s.sq j := rfl
@[simp] theorem cx_modCx (f : Ctx → Ctx) : (s.modCx k f).cx j = if j = k then f (s.cx k) else s.cx j := Tab.get_put ..
@[simp] theorem co_modCx (f : Ctx → Ctx) : (s.modCx k f).co j = s.co j := rfl
@[simp] theorem be_modCx (f : Ctx → Ctx) : (s.modCx k f).be j = s.be j := rfl
@[simp] theorem seqs_modCx (f : Ctx → Ctx) : (s.modCx k f).seqs = s.seqs := rfl
@[simp] theorem cores_modCx (f : Ctx → Ctx) : (s.modCx k f).cores = s.cores := rfl
@[simp] theorem benches_modCx (f : Ctx → Ctx) : (s.modCx k f).benches = s.benches := rfl
@[simp] theorem h_modCx (f : Ctx → Ctx) : (s.modCx k f).h = s.h := rfl
@[simp] theorem sch_modCx (f : Ctx → Ctx) : (s.modCx k f).sch = s.sch := rfl
@[simp] theorem pf_modCx (f : Ctx → Ctx) : (s.modCx k f).pf = s.pf := rfl
@[simp] theorem turn_modCx (f : Ctx → Ctx) : (s.modCx k f).turn = s.turn := rfl
@[simp] theorem agenda_modCx (f : Ctx → Ctx) : (s.modCx k f).agenda = s.agenda := rfl
@[simp] theorem free_modCx (f : Ctx → Ctx) : (s.modCx k f).free = s.free := rfl
@[simp] theorem tick_modCx (f : Ctx → Ctx) : (s.modCx k f).tick = s.tick := rfl
@[simp] theorem nextId_modCx (f : Ctx → Ctx) : (s.modCx k f).nextId = s.nextId := rfl
@[simp] theorem ns_modCx (f : Ctx → Ctx) : (s.modCx k f).ns = s.ns := rfl

@[simp] theorem sq_modReg (f : CtxReg → CtxReg) : (s.modReg k f).sq j = s.sq j := rfl
@[simp] theorem cx_modReg (f : CtxReg → CtxReg) : (s.modReg k f).cx j = if j = k then { s.cx k with reg := f (s.cx k).reg } else s.cx j := Tab.get_put ..
@[simp] theorem co_modReg (f : CtxReg → CtxReg) : (s.modReg k f).co j = s.co j := rfl
@[simp] theorem be_modReg (f : CtxReg → CtxReg) : (s.modReg k f).be j = s.be j := rfl
@[simp] theorem seqs_modReg (f : CtxReg → CtxReg) : (s.modReg k f).seqs = s.seqs := rfl
@[simp] theorem cores_modReg (f : CtxReg → CtxReg) : (s.modReg k f).cores = s.cores := rfl
@[simp] theorem benches_modReg (f : CtxReg → CtxReg) : (s.modReg k f).benches = s.benches := rfl
@[simp] theorem h_modReg (f : CtxReg → CtxReg) : (s.modReg k f).h = s.h := rfl
@[simp] theorem sch_modReg (f : CtxReg → CtxReg) : (s.modReg k f).sch = s.sch := rfl
@[simp] theorem pf_modReg (f : CtxReg → CtxReg) : (s.modReg k f).pf = s.pf := rfl
@[simp] theorem turn_modReg (f : CtxReg → CtxReg) : (s.modReg k f).turn = s.turn := rfl
@[simp] theorem agenda_modReg (f : CtxReg → CtxReg) : (s.modReg k f).agenda = s.agenda := rfl
@[simp] theorem free_modReg (f : CtxReg → CtxReg) : (s.modReg k f).free = s.free := rfl
@[simp] theorem tick_modReg (f : CtxReg → CtxReg) : (s.modReg k f).tick = s.tick := rfl
@[simp] theorem nextId_modReg (f : CtxReg → CtxReg) : (s.modReg k f).nextId = s.nextId := rfl
@[simp] theorem ns_modReg (f : CtxReg → CtxReg) : (s.modReg k f).ns = s.ns := rfl

@[simp] theorem sq_modN (f : Counters → Counters) : (s.modN k f).sq j = s.sq j := rfl
@[simp] theorem cx_modN (f : Counters → Counters) : (s.modN k f).cx j = if j = k then { s.cx k with n := f (s.cx k).n } else s.cx j := Tab.get_put ..
@[simp] theorem co_modN (f : Counters → Counters) : (s.modN k f).co j = s.co j := rfl
@[simp] theorem be_modN (f : Counters → Counters) : (s.modN k f).be j = s.be j := rfl
@[simp] theorem seqs_modN (f : Counters → Counters) : (s.modN k f).seqs = s.seqs := rfl
@[simp] theorem cores_modN (f : Counters → Counters) : (s.modN k f).cores = s.cores := rfl
@[simp] theorem benches_modN (f : Counters → Counters) : (s.modN k f).benches = s.benches := rfl
@[simp] theorem h_modN (f : Counters → Counters) : (s.modN k f).h = s.h := rfl
@[simp] theorem sch_modN (f : Counters → Counters) : (s.modN k f).sch = s.sch := rfl
@[simp] theorem pf_modN (f : Counters → Counters) : (s.modN k f).pf = s.pf := rfl
@[simp] theorem turn_modN (f : Counters → Counters) : (s.modN k f).turn = s.turn := rfl
@[simp] theorem agenda_modN (f : Counters → Counters) : (s.modN k f).agenda = s.agenda := rfl
@[simp] theorem free_modN (f : Counters → Counters) : (s.modN k f).free = s.free := rfl
@[simp] theorem tick_modN (f : Counters → Counters) : (s.modN k f).tick = s.tick := rfl
@[simp] theorem nextId_modN (f : Counters → Counters) : (s.modN k f).nextId = s.nextId := rfl
@[simp] theorem ns_modN (f : Counters → Counters) : (s.modN k f).ns = s.ns := rfl

@[simp] theorem sq_modF (f : Flight → Flight) : (s.modF k f).sq j = s.sq j := rfl
@[simp] theorem cx_modF (f : Flight → Flight) : (s.modF k f).cx j = if j = k then { s.cx k with f := f (s.cx k).f } else s.cx j := Tab.get_put ..
@[simp] theorem co_modF (f : Flight → Flight) : (s.modF k f).co j = s.co j := rfl
@[simp] theorem be_modF (f : Flight → Flight) : (s.modF k f).be j = s.be j := rfl
@[simp] theorem seqs_modF (f : Flight → Flight) : (s.modF k f).seqs = s.seqs := rfl
@[simp] theorem cores_modF (f : Flight → Flight) : (s.modF k f).cores = s.cores := rfl
@[simp] theorem benches_modF (f : Flight → Flight) : (s.modF k f).benches = s.benches := rfl
@[simp] theorem h_modF (f : Flight → Flight) : (s.modF k f).h = s.h := rfl
@[simp] theorem sch_modF (f : Flight → Flight) : (s.modF k f).sch = s.sch := rfl
@[simp] theorem pf_modF (f : Flight → Flight) : (s.modF k f).pf = s.pf := rfl
@[simp] theorem turn_modF (f : Flight → Flight) : (s.modF k f).turn = s.turn := rfl
@[simp] theorem agenda_modF (f : Flight → Flight) : (s.modF k f).agenda = s.agenda := rfl
@[simp] theorem free_modF (f : Flight → Flight) : (s.modF k f).free = s.free := rfl
@[simp] theorem tick_modF (f : Flight → Flight) : (s.modF k f).tick = s.tick := rfl
@[simp] theorem nextId_modF (f : Flight → Flight) : (s.modF k f).nextId = s.nextId := rfl
@[simp] theorem ns_modF (f : Flight → Flight) : (s.modF k f).ns = s.ns := rfl

@[simp] theorem sq_modQ (f : Queues → Queues) : (s.modQ k f).sq j = s.sq j := rfl
@[simp] theorem cx_modQ (f : Queues → Queues) : (s.modQ k f).cx j = if j = k then { s.cx k with q := f (s.cx k).q } else s.cx j := Tab.get_put ..
@[simp] theorem co_modQ (f : Queues → Queues) : (s.modQ k f).co j = s.co j := rfl
@[simp] theorem be_modQ (f : Queues → Queues) : (s.modQ k f).be j = s.be j := rfl
@[simp] theorem seqs_modQ (f : Queues → Queues) : (s.modQ k f).seqs = s.seqs := rfl
@[simp] theorem cores_modQ (f : Queues → Queues) : (s.modQ k f).cores = s.cores := rfl
@[simp] theorem benches_modQ (f : Queues → Queues) : (s.modQ k f).benches = s.benches := rfl
@[simp] theorem h_modQ (f : Queues → Queues) : (s.modQ k f).h = s.h := rfl
@[simp] theorem sch_modQ (f : Queues → Queues) : (s.modQ k f).sch = s.sch := rfl
@[simp] theorem pf_modQ (f : Queues → Queues) : (s.modQ k f).pf = s.pf := rfl
@[simp] theorem turn_modQ (f : Queues → Queues) : (s.modQ k f).turn = s.turn := rfl
@[simp] theorem agenda_modQ (f : Queues → Queues) : (s.modQ k f).agenda = s.agenda := rfl
@[simp] theorem free_modQ (f : Queues → Queues) : (s.modQ k f).free = s.free := rfl
@[simp] theorem tick_modQ (f : Queues → Queues) : (s.modQ k f).tick = s.tick := rfl
@[simp] theorem nextId_modQ (f : Queues → Queues) : (s.modQ k f).nextId = s.nextId := rfl
@[simp] theorem ns_modQ (f : Queues → Queues) : (s.modQ k f).ns = s.ns := rfl

@[simp] theorem sq_modJ (f : JafCtx → JafCtx) : (s.modJ k f).sq j = s.sq j := rfl
@[simp] theorem cx_modJ (f : JafCtx → JafCtx) : (s.modJ k f).cx j = if j = k then { s.cx k with j := f (s.cx k).j } else s.cx j := Tab.get_put ..
@[simp] theorem co_modJ (f : JafCtx → JafCtx) : (s.modJ k f).co j = s.co j := rfl
@[simp] theorem be_modJ (f : JafCtx → JafCtx) : (s.modJ k f).be j = s.be j := rfl
@[simp] theorem seqs_modJ (f : JafCtx → JafCtx) : (s.modJ k f).seqs = s.seqs := rfl
@[simp] theorem cores_modJ (f : JafCtx → JafCtx) : (s.modJ k f).cores = s.cores := rfl
@[simp] theorem benches_modJ (f : JafCtx → JafCtx) : (s.modJ k f).benches = s.benches := rfl
@[simp] theorem h_modJ (f : JafCtx → JafCtx) : (s.modJ k f).h = s.h := rfl
@[simp] theorem sch_modJ (f : JafCtx → JafCtx) : (s.modJ k f).sch = s.sch := rfl
@[simp] theorem pf_modJ (f : JafCtx → JafCtx) : (s.modJ k f).pf = s.pf := rfl
@[simp] theorem turn_modJ (f : JafCtx → JafCtx) : (s.modJ k f).turn = s.turn := rfl
@[simp] theorem agenda_modJ (f : JafCtx → JafCtx) : (s.modJ k f).agenda = s.agenda := rfl
@[simp] theorem free_modJ (f : JafCtx → JafCtx) : (s.modJ k f).free = s.free := rfl
@[simp] theorem tick_modJ (f : JafCtx → JafCtx) : (s.modJ k f).tick = s.tick := rfl
@[simp] theorem nextId_modJ (f : JafCtx → JafCtx) : (s.modJ k f).nextId = s.nextId := rfl
@[simp] theorem ns_modJ (f : JafCtx → JafCtx) : (s.modJ k f).ns = s.ns := rfl

@[simp] theorem sq_modSlot (f : Slot → Slot) : (s.modSlot k f).sq j = s.sq j := rfl
@[simp] theorem cx_modSlot (f : Slot → Slot) : (s.modSlot k f).cx j = if j = k then { s.cx k with slot := f (s.cx k).slot } else s.cx j := Tab.get_put ..
@[simp] theorem co_modSlot (f : Slot → Slot) : (s.modSlot k f).co j = s.co j := rfl
@[simp] theorem be_modSlot (f : Slot → Slot) : (s.modSlot k f).be j = s.be j := rfl
@[simp] theorem seqs_modSlot (f : Slot → Slot) : (s.modSlot k f).seqs = s.seqs := rfl
@[simp] theorem cores_modSlot (f : Slot → Slot) : (s.modSlot k f).cores = s.cores := rfl
@[simp] theorem benches_modSlot (f : Slot → Slot) : (s.modSlot k f).benches = s.benches := rfl
@[simp] theorem h_modSlot (f : Slot → Slot) : (s.modSlot k f).h = s.h := rfl
@[simp] theorem sch_modSlot (f : Slot → Slot) : (s.modSlot k f).sch = s.sch := rfl
@[simp] theorem pf_modSlot (f : Slot → Slot) : (s.modSlot k f).pf = s.pf := rfl
@[simp] theorem turn_modSlot (f : Slot → Slot) : (s.modSlot k f).turn = s.turn := rfl
@[simp] theorem agenda_modSlot (f : Slot → Slot) : (s.modSlot k f).agenda = s.agenda := rfl
@[simp] theorem free_modSlot (f : Slot → Slot) : (s.modSlot k f).free = s.free := rfl
@[simp] theorem tick_modSlot (f : Slot → Slot) : (s.modSlot k f).tick = s.tick := rfl
@[simp] theorem nextId_modSlot (f : Slot → Slot) : (s.modSlot k f).nextId = s.nextId := rfl
@[simp] theorem ns_modSlot (f : Slot → Slot) : (s.modSlot k f).ns = s.ns := rfl

@[simp] theorem sq_setCo (x : Core) : (s.setCo k x).sq j = s.sq j := rfl
@[simp] theorem cx_setCo (x : Core) : (s.setCo k x).cx j = s.cx j := rfl
@[simp] theorem co_setCo (x : Core) : (s.setCo k x).co j = if j = k then x else s.co j := Tab.get_put ..
@[simp] theorem be_setCo (x : Core) : (s.setCo k x).be j = s.be j := rfl
@[simp] theorem seqs_setCo (x : Core) : (s.setCo k x).seqs = s.seqs := rfl
@[simp] theorem ctxs_setCo (x : Core) : (s.setCo k x).ctxs = s.ctxs := rfl
@[simp] theorem benches_setCo (x : Core) : (s.setCo k x).benches = s.benches := rfl
@[simp] theorem h_setCo (x : Core) : (s.setCo k x).h = s.h := rfl
@[simp] theorem sch_setCo (x : Core) : (s.setCo k x).sch = s.sch := rfl
@[simp] theorem pf_setCo (x : Core) : (s.setCo k x).pf = s.pf := rfl
@[simp] theorem turn_setCo (x : Core) : (s.setCo k x).turn = s.turn := rfl
@[simp] theorem agenda_setCo (x : Core) : (s.setCo k x).agenda = s.agenda := rfl
@[simp] theorem free_setCo (x : Core) : (s.setCo k x).free = s.free := rfl
@[simp] theorem tick_setCo (x : Core) : (s.setCo k x).tick = s.tick := rfl
@[simp] theorem nextId_setCo (x : Core) : (s.setCo k x).nextId = s.nextId := rfl
@[simp] theorem ns_setCo (x : Core) : (s.setCo k x).ns = s.ns := rfl

@[simp] theorem sq_modCo (f : Core → Core) : (s.modCo k f).sq j = s.sq j := rfl
@[simp] theorem cx_modCo (f : Core → Core) : (s.modCo k f).cx j = s.cx j := rfl
@[simp] theorem co_modCo (f : Core → Core) : (s.modCo k f).co j = if j = k then f (s.co k) else s.co j := Tab.get_put ..
@[simp] theorem be_modCo (f : Core → Core) : (s.modCo k f).be j = s.be j := rfl
@[simp] theorem seqs_modCo (f : Core → Core) : (s.modCo k f).seqs = s.seqs := rfl
@[simp] theorem ctxs_modCo (f : Core → Core) : (s.modCo k f).ctxs = s.ctxs := rfl
@[simp] theorem benches_modCo (f : Core → Core) : (s.modCo k f).benches = s.benches := rfl
@[simp] theorem h_modCo (f : Core → Core) : (s.modCo k f).h = s.h := rfl
@[simp] theorem sch_modCo (f : Core → Core) : (s.modCo k f).sch = s.sch := rfl
@[simp] theorem pf_modCo (f : Core → Core) : (s.modCo k f).pf = s.pf := rfl
@[simp] theorem turn_modCo (f : Core → Core) : (s.modCo k f).turn = s.turn := rfl
@[simp] theorem agenda_modCo (f : Core → Core) : (s.modCo k f).agenda = s.agenda := rfl
@[simp] theorem free_modCo (f : Core → Core) : (s.modCo k f).free = s.free := rfl
@[simp] theorem tick_modCo (f : Core → Core) : (s.modCo k f).tick = s.tick := rfl
@[simp] theorem nextId_modCo (f : Core → Core) : (s.modCo k f).nextId = s.nextId := rfl
@[simp] theorem ns_modCo (f : Core → Core) : (s.modCo k f).ns = s.ns := rfl

@[simp] theorem sq_setBe (x : Bench) : (s.setBe k x).sq j = s.sq j := rfl
@[simp] theorem cx_setBe (x : Bench) : (s.setBe k x).cx j = s.cx j := rfl
@[simp] theorem co_setBe (x : Bench) : (s.setBe k x).co j = s.co j := rfl
@[simp] theorem be_setBe (x : Bench) : (s.setBe k x).be j = if j = k then x else s.be j := Tab.get_put ..
@[simp] theorem seqs_setBe (x : Bench) : (s.setBe k x).seqs = s.seqs := rfl
@[simp] theorem ctxs_setBe (x : Bench) : (s.setBe k x).ctxs = s.ctxs := rfl
@[simp] theorem cores_setBe (x : Bench) : (s.setBe k x).cores = s.cores := rfl
@[simp] theorem h_setBe (x : Bench) : (s.setBe k x).h = s.h := rfl
@[simp] theorem sch_setBe (x : Bench) : (s.setBe k x).sch = s.sch := rfl
@[simp] theorem pf_setBe (x : Bench) : (s.setBe k x).pf = s.pf := rfl
@[simp] theorem turn_setBe (x : Bench) : (s.setBe k x).turn = s.turn := rfl
@[simp] theorem agenda_setBe (x : Bench) : (s.setBe k x).agenda = s.agenda := rfl
@[simp] theorem free_setBe (x : Bench) : (s.setBe k x).free = s.free := rfl
@[simp] theorem tick_setBe (x : Bench) : (s.setBe k x).tick = s.tick := rfl
@[simp] theorem nextId_setBe (x : Bench) : (s.setBe k x).nextId = s.nextId := rfl
@[simp] theorem ns_setBe (x : Bench) : (s.setBe k x).ns = s.ns := rfl

@[simp] theorem sq_modBe (f : Bench → Bench) : (s.modBe k f).sq j = s.sq j := rfl
@[simp] theorem cx_modBe (f : Bench → Bench) : (s.modBe k f).cx j = s.cx j := rfl
@[simp] theorem co_modBe (f : Bench → Bench) : (s.modBe k f).co j = s.co j := rfl
@[simp] theorem be_modBe (f : Bench → Bench) : (s.modBe k f).be j = if j = k then f (s.be k) else s.be j := Tab.get_put ..
@[simp] theorem seqs_modBe (f : Bench → Bench) : (s.modBe k f).seqs = s.seqs := rfl
@[simp] theorem ctxs_modBe (f : Bench → Bench) : (s.modBe k f).ctxs = s.ctxs := rfl
@[simp] theorem cores_modBe (f : Bench → Bench) : (s.modBe k f).cores = s.cores := rfl
@[simp] theorem h_modBe (f : Bench → Bench) : (s.modBe k f).h = s.h := rfl
@[simp] theorem sch_modBe (f : Bench → Bench) : (s.modBe k f).sch = s.sch := rfl
@[simp] theorem pf_modBe (f : Bench → Bench) : (s.modBe k f).pf = s.pf := rfl
@[simp] theorem turn_modBe (f : Bench → Bench) : (s.modBe k f).turn = s.turn := rfl
@[simp] theorem agenda_modBe (f : Bench → Bench) : (s.modBe k f).agenda = s.agenda := rfl
@[simp] theorem free_modBe (f : Bench → Bench) : (s.modBe k f).free = s.free := rfl
@[simp] theorem tick_modBe (f : Bench → Bench) : (s.modBe k f).tick = s.tick := rfl
@[simp] theorem nextId_modBe (f : Bench → Bench) : (s.modBe k f).nextId = s.nextId := rfl
@[simp] theorem ns_modBe (f : Bench → Bench) : (s.modBe k f).ns = s.ns := rfl

@[simp] theorem sq_modH (f : Homes → Homes) : (s.modH f).sq j = s.sq j := rfl
@[simp] theorem cx_modH (f : Homes → Homes) : (s.modH f).cx j = s.cx j := rfl
@[simp] theorem co_modH (f : Homes → Homes) : (s.modH f).co j = s.co j := rfl
@[simp] theorem be_modH (f : Homes → Homes) : (s.modH f).be j = s.be j := rfl
@[simp] theorem seqs_modH (f : Homes → Homes) : (s.modH f).seqs = s.seqs := rfl
@[simp] theorem ctxs_modH (f : Homes → Homes) : (s.modH f).ctxs = s.ctxs := rfl
@[simp] theorem cores_modH (f : Homes → Homes) : (s.modH f).cores = s.cores := rfl
@[simp] theorem benches_modH (f : Homes → Homes) : (s.modH f).benches = s.benches := rfl
@[simp] theorem h_modH (f : Homes → Homes) : (s.modH f).h = f s.h := rfl
@[simp] theorem sch_modH (f : Homes → Homes) : (s.modH f).sch = s.sch := rfl
@[simp] theorem pf_modH (f : Homes → Homes) : (s.modH f).pf = s.pf := rfl
@[simp] theorem turn_modH (f : Homes → Homes) : (s.modH f).turn = s.turn := rfl
@[simp] theorem agenda_modH (f : Homes → Homes) : (s.modH f).agenda = s.agenda := rfl
@[simp] theorem free_modH (f : Homes → Homes) : (s.modH f).free = s.free := rfl
@[simp] theorem tick_modH (f : Homes → Homes) : (s.modH f).tick = s.tick := rfl
@[simp] theorem nextId_modH (f : Homes → Homes) : (s.modH f).nextId = s.nextId := rfl
@[simp] theorem ns_modH (f : Homes → Homes) : (s.modH f).ns = s.ns := rfl

@[simp] theorem sq_modSch (f : Sched → Sched) : (s.modSch f).sq j = s.sq j := rfl
@[simp] theorem cx_modSch (f : Sched → Sched) : (s.modSch f).cx j = s.cx j := rfl
@[simp] theorem co_modSch (f : Sched → Sched) : (s.modSch f).co j = s.co j := rfl
@[simp] theorem be_modSch (f : Sched → Sched) : (s.modSch f).be j = s.be j := rfl
@[simp] theorem seqs_modSch (f : Sched → Sched) : (s.modSch f).seqs = s.seqs := rfl
@[simp] theorem ctxs_modSch (f : Sched → Sched) : (s.modSch f).ctxs = s.ctxs := rfl
@[simp] theorem cores_modSch (f : Sched → Sched) : (s.modSch f).cores = s.cores := rfl
@[simp] theorem benches_modSch (f : Sched → Sched) : (s.modSch f).benches = s.benches := rfl
@[simp] theorem h_modSch (f : Sched → Sched) : (s.modSch f).h = s.h := rfl
@[simp] theorem sch_modSch (f : Sched → Sched) : (s.modSch f).sch = f s.sch := rfl
@[simp] theorem pf_modSch (f : Sched → Sched) : (s.modSch f).pf = s.pf := rfl
@[simp] theorem turn_modSch (f : Sched → Sched) : (s.modSch f).turn = s.turn := rfl
@[simp] theorem agenda_modSch (f : Sched → Sched) : (s.modSch f).agenda = s.agenda := rfl
@[simp] theorem free_modSch (f : Sched → Sched) : (s.modSch f).free = s.free := rfl
@[simp] theorem tick_modSch (f : Sched → Sched) : (s.modSch f).tick = s.tick := rfl
@[simp] theorem nextId_modSch (f : Sched → Sched) : (s.modSch f).nextId = s.nextId := rfl
@[simp] theorem ns_modSch (f : Sched → Sched) : (s.modSch f).ns = s.ns := rfl

@[simp] theorem sq_modPf (f : Platform → Platform) : (s.modPf f).sq j = s.sq j := rfl
@[simp] theorem cx_modPf (f : Platform → Platform) : (s.modPf f).cx j = s.cx j := rfl
@[simp] theorem co_modPf (f : Platform → Platform) : (s.modPf f).co j = s.co j := rfl
@[simp] theorem be_modPf (f : Platform → Platform) : (s.modPf f).be j = s.be j := rfl
@[simp] theorem seqs_modPf (f : Platform → Platform) : (s.modPf f).seqs = s.seqs := rfl
@[simp] theorem ctxs_modPf (f : Platform → Platform) : (s.modPf f).ctxs = s.ctxs := rfl
@[simp] theorem cores_modPf (f : Platform → Platform) : (s.modPf f).cores = s.cores := rfl
@[simp] theorem benches_modPf (f : Platform → Platform) : (s.modPf f).benches = s.benches := rfl
@[simp] theorem h_modPf (f : Platform → Platform) : (s.modPf f).h = s.h := rfl
@[simp] theorem sch_modPf (f : Platform → Platform) : (s.modPf f).sch = s.sch := rfl
@[simp] theorem pf_modPf (f : Platform → Platform) : (s.modPf f).pf = f s.pf := rfl
@[simp] theorem turn_modPf (f : Platform → Platform) : (s.modPf f).turn = s.turn := rfl
@[simp] theorem agenda_modPf (f : Platform → Platform) : (s.modPf f).agenda = s.agenda := rfl
@[simp] theorem free_modPf (f : Platform → Platform) : (s.modPf f).free = s.free := rfl
@[simp] theorem tick_modPf (f : Platform → Platform) : (s.modPf f).tick = s.tick := rfl
@[simp] theorem nextId_modPf (f : Platform → Platform) : (s.modPf f).nextId = s.nextId := rfl
@[simp] theorem ns_modPf (f : Platform → Platform) : (s.modPf f).ns = s.ns := rfl

theorem r_def : s.r k = (s.sq k).r := rfl

end Sys2Proof.Machine.State
end

