-- ==== Sys2Proof/Laws/Deliver.lean ====
section
/-! SUPPORT. What becomes of a state when an instruction retires, jumps, stalls or waits: `deliver` touches sequencers,
and of a stall the counter that it counts under. -/

namespace Sys2Proof

open Machine Machine.State

theorem Machine.Seq.next_follow (r : Seq) (bytes n : Nat) : ((r.next bytes n).pc, (r.next bytes n).rep) = follow r bytes n := by
  unfold Seq.next follow
  cases h : r.rep.act
  · simp
  · simp only [Bool.not_true, Bool.false_eq_true, if_false, reduceCtorEq]
    repeat' split
    all_goals rfl

theorem Machine.Seq.next_regs (r : Seq) (bytes n : Nat) (p : W64) (q : Rep) :
    { r.next bytes n with pc := p, rep := q } = { r with pc := p, rep := q } := by
  unfold Seq.next
  split
  · rfl
  · split
    · rfl
    · split <;> rfl

/-- Forwarding touches sequencers alone. -/
theorem forward_only (old s : State) (k : Nat) (i : Instr) : OnlySeqs s (old.forward s k i) := by
  refine ⟨?_⟩
  unfold State.forward State.passOn
  simp only
  repeat' split
  all_goals rfl

/-- A follower takes its next address from the stream. -/
def pulled (old s : State) (k : Nat) : State :=
  if old.follows k then
    match (s.sq k).fwd with
    | e :: rest => s.modSq k fun q => { q with r := { q.r with pc := e.npc, rep := e.nrep }, fwd := rest }
    | [] => s
  else s

theorem pulled_sq (old s : State) (k j : Nat) (h : j ≠ k) : (pulled old s k).sq j = s.sq j := by
  unfold pulled
  repeat' split
  all_goals simp only [sq_modSq, if_neg h]

theorem pulled_self (old s : State) (k : Nat) :
    ∃ pc rep fwd, (pulled old s k).sq k = { s.sq k with r := { (s.sq k).r with pc := pc, rep := rep }, fwd := fwd } ∧
      (old.follows k = false → (pulled old s k).sq k = s.sq k) := by
  unfold pulled
  split
  · rename_i h
    split
    · rename_i e rest _
      exact ⟨e.npc, e.nrep, rest, by simp only [sq_modSq, if_true], fun h' => by simp [h] at h'⟩
    · exact ⟨_, _, _, rfl, fun _ => rfl⟩
  · exact ⟨_, _, _, rfl, fun _ => rfl⟩

/-- Forwarding: the follower's own next address, and one entry for the team's next member, unless it has one already. -/
theorem forward_sq (old s : State) (k : Nat) (i : Instr) (j : Nat) :
    let v := if old.lvlK k then s else pulled old s k
    ∃ l ps, (old.forward s k i).sq j = { v.sq j with fwd := l, passed := ps } ∧ (j ≠ k → ps = (v.sq j).passed) ∧
      (old.nextMember k ≠ some j → l = (v.sq j).fwd) := by
  intro v
  have key (h : (old.forward s k i).sq j = v.sq j) :
      ∃ l ps, (old.forward s k i).sq j = { v.sq j with fwd := l, passed := ps } ∧ (j ≠ k → ps = (v.sq j).passed) ∧
        (old.nextMember k ≠ some j → l = (v.sq j).fwd) := ⟨_, _, h, fun _ => rfl, fun _ => rfl⟩
  cases hl : old.lvlK k with
  | true => exact key (by simp [State.forward, v, hl])
  | false =>
    cases hn : old.nextMember k with
    | none =>
      have e : old.forward s k i = v := by
        unfold State.forward State.passOn
        simp only [hl, hn, Bool.false_eq_true, if_false, v]
        rfl
      exact ⟨_, _, by rw [e], fun _ => rfl, fun _ => rfl⟩
    | some n =>
      have e : old.forward s k i = (if old.hasPassed k then v else v.modSq n fun q => { q with
          fwd := q.fwd ++ [⟨(old.r k).pc, (old.r k).rep, encode i, (v.r k).pc, (v.r k).rep⟩] }).modSq k fun q => { q with passed := none } := by
        unfold State.forward State.passOn
        simp only [hl, hn, Bool.false_eq_true, if_false, v]
        rfl
      obtain ⟨w, hw, l, hl, hf⟩ : ∃ w, (if old.hasPassed k then v else v.modSq n fun q => { q with
          fwd := q.fwd ++ [⟨(old.r k).pc, (old.r k).rep, encode i, (v.r k).pc, (v.r k).rep⟩] }) = w ∧
          ∃ l, w.sq j = { v.sq j with fwd := l } ∧ (n ≠ j → l = (v.sq j).fwd) := by
        refine ⟨_, rfl, ?_⟩
        split
        · exact ⟨_, rfl, fun _ => rfl⟩
        · by_cases h : j = n
          · subst h; exact ⟨_, by rw [sq_modSq, if_pos rfl], fun h => absurd rfl h⟩
          · exact ⟨_, by rw [sq_modSq, if_neg h], fun _ => rfl⟩
      rw [e, hw, sq_modSq]
      have hn' : some n ≠ some j → n ≠ j := fun h h' => h (by rw [h'])
      by_cases hj : j = k
      · subst hj
        exact ⟨l, none, by rw [if_pos rfl, hl], fun h => absurd rfl h, fun h => hf (hn' h)⟩
      · exact ⟨l, _, by rw [if_neg hj, hl], fun _ => rfl, fun h => hf (hn' h)⟩

theorem follows_lvl {s : State} {k : Nat} (h : s.lvlK k = true) : s.follows k = false := by
  unfold State.follows; split <;> simp [h]

/-- What a retired or jumped instruction leaves of the sequencers: `q` is its own at the end, but for what a follower
takes from the stream and for what has been forwarded. -/
theorem forward_frame (s u : State) (k : Nat) (i : Instr) (q : SeqSt) (hu : ∀ j, u.sq j = if j = k then q else s.sq j) :
    (∃ pc rep fwd ps, (s.forward u k i).sq k = { q with r := { q.r with pc := pc, rep := rep }, fwd := fwd, passed := ps } ∧
      (s.follows k = false → (s.forward u k i).r k = q.r)) ∧
    ∀ j, j ≠ k → { (s.forward u k i).sq j with fwd := (s.sq j).fwd } = s.sq j ∧
      (s.nextMember k ≠ some j → (s.forward u k i).sq j = s.sq j) := by
  have hk : u.sq k = q := by simp [hu]
  refine ⟨?_, fun j hj => ?_⟩
  · obtain ⟨l, ps, h, -⟩ := forward_sq s u k i k
    obtain ⟨pc, rep, fwd, h1, h2⟩ := pulled_self s u k
    unfold State.r
    rw [h]
    split
    · exact ⟨_, _, l, ps, by rw [hk], fun _ => by rw [hk]⟩
    · exact ⟨pc, rep, l, ps, by rw [h1, hk], fun hf => by rw [h2 hf, hk]⟩
  · obtain ⟨l, ps, h, h1, h2⟩ := forward_sq s u k i j
    have hv : (if s.lvlK k then u else pulled s u k).sq j = s.sq j := by
      split
      · simp [hu, hj]
      · rw [pulled_sq s u k j hj]; simp [hu, hj]
    rw [hv] at h h1 h2
    rw [h, h1 hj]
    exact ⟨rfl, fun hn => by rw [h2 hn]⟩

theorem Machine.SeqSt.retire_r (q : SeqSt) (bytes n : Nat) : (q.retire bytes n).r = q.r.next bytes n := rfl

/-- A sequencer that has retired `i`, but for what a follower takes from the stream. -/
theorem retires_of {s t : State} {k : Nat} {i : Instr} {f : Seq → Seq} {q : SeqSt} {pc : W64} {rep : Rep} {fwd : List FwdEnt}
    {ps : Option (W64 × Rep)}
    (hf : ∀ r, (f r).pc = r.pc ∧ (f r).rep = r.rep)
    (hq : q = (SeqSt.retire { s.sq k with r := f (s.sq k).r } i.bytes (slotsOf i)).issued (s.r k).pc i.bytes)
    (h1 : t.sq k = { q with r := { q.r with pc := pc, rep := rep }, fwd := fwd, passed := ps })
    (h2 : s.follows k = false → t.r k = q.r)
    (h3 : ∀ j, j ≠ k → { t.sq j with fwd := (s.sq j).fwd } = s.sq j ∧ (s.nextMember k ≠ some j → t.sq j = s.sq j)) :
    Retires s t k i f := by
  obtain ⟨e1, e2⟩ := hf (s.sq k).r
  have hr : q.r = (f (s.sq k).r).next i.bytes (slotsOf i) := by rw [hq]; rfl
  refine ⟨?_, fun h => ?_, fun j => ?_⟩
  · have := Seq.next_regs (f (s.sq k).r) i.bytes (slotsOf i) (s.sq k).r.pc (s.sq k).r.rep
    unfold State.r
    rw [h1, hr]
    refine Eq.trans ?_ (Eq.trans this ?_)
    · rfl
    · rw [← e1, ← e2]
  · rw [h2 h, hr, Seq.next_follow]
    unfold follow
    rw [e1, e2]
    rfl
  · unfold SeqFrame
    split
    · rw [h1, hq]; rfl
    · exact h3 j ‹_›

/-- An instruction that changes registers of its own sequencer and retires. -/
theorem retires_done {s u : State} {k : Nat} {i : Instr} {f : Seq → Seq}
    (hu : ∀ j, u.sq j = if j = k then { s.sq k with r := f (s.sq k).r } else s.sq j)
    (hf : ∀ r, (f r).pc = r.pc ∧ (f r).rep = r.rep) : Retires s (deliver s k i (.done u)) k i f := by
  obtain ⟨⟨pc, rep, fwd, ps, h1, h2⟩, h3⟩ := forward_frame s
    (u.modSq k fun q => (q.retire i.bytes (slotsOf i)).issued (s.r k).pc i.bytes) k i
    ((SeqSt.retire { s.sq k with r := f (s.sq k).r } i.bytes (slotsOf i)).issued (s.r k).pc i.bytes)
    (fun j => by by_cases h : j = k <;> simp [hu, h])
  exact retires_of hf rfl h1 h2 h3

theorem jumps_of {s t : State} {k : Nat} {f : Seq → Seq} {q : SeqSt} {pc : W64} {rep : Rep} {fwd : List FwdEnt}
    {ps : Option (W64 × Rep)}
    {pcs : W64} {bytes : Nat}
    (hq : q = (SeqSt.retireJump { s.sq k with r := f (s.sq k).r }).issued pcs bytes)
    (h1 : t.sq k = { q with r := { q.r with pc := pc, rep := rep }, fwd := fwd, passed := ps })
    (h2 : s.follows k = false → t.r k = q.r)
    (h3 : ∀ j, j ≠ k → { t.sq j with fwd := (s.sq j).fwd } = s.sq j ∧ (s.nextMember k ≠ some j → t.sq j = s.sq j)) :
    Jumps s t k f := by
  refine ⟨?_, fun h => ?_, fun j => ?_⟩
  · unfold State.r; rw [h1, hq]; rfl
  · rw [h2 h, hq]; rfl
  · unfold SeqFrame
    split
    · rw [h1, hq]; rfl
    · exact h3 j ‹_›

/-- An instruction that sets the pc. -/
theorem jumps_jump {s u : State} {k : Nat} {i : Instr} {f : Seq → Seq}
    (hu : ∀ j, u.sq j = if j = k then { s.sq k with r := f (s.sq k).r } else s.sq j) :
    Jumps s (deliver s k i (.jump u)) k f := by
  obtain ⟨⟨pc, rep, fwd, ps, h1, h2⟩, h3⟩ := forward_frame s
    (u.modSq k fun q => q.retireJump.issued (s.r k).pc i.bytes) k i
    ((SeqSt.retireJump { s.sq k with r := f (s.sq k).r }).issued (s.r k).pc i.bytes)
    (fun j => by by_cases h : j = k <;> simp [hu, h])
  exact jumps_of rfl h1 h2 h3

theorem OnlySeqs.trans {s u t : State} (h1 : OnlySeqs s u) (h2 : OnlySeqs u t) : OnlySeqs s t where
  rest :=
    calc { t with seqs := s.seqs } = { ({ t with seqs := u.seqs } : State) with seqs := s.seqs } := rfl
      _ = s := by rw [h2.rest, h1.rest]

theorem onlySeqs_modSq (s : State) (k : Nat) (f : SeqSt → SeqSt) : OnlySeqs s (s.modSq k f) := ⟨rfl⟩

/-- Retiring touches sequencers alone. -/
theorem deliver_done_only (s u : State) (k : Nat) (i : Instr) : OnlySeqs u (deliver s k i (.done u)) :=
  (onlySeqs_modSq u k _).trans (forward_only s _ k i)

theorem deliver_jump_only (s u : State) (k : Nat) (i : Instr) : OnlySeqs u (deliver s k i (.jump u)) :=
  (onlySeqs_modSq u k _).trans (forward_only s _ k i)

section parts

variable {s t : State} (h : OnlySeqs s t)
include h

theorem OnlySeqs.ctxs : t.ctxs = s.ctxs := (congrArg State.ctxs h.rest :)
theorem OnlySeqs.cores : t.cores = s.cores := (congrArg State.cores h.rest :)
theorem OnlySeqs.benches : t.benches = s.benches := (congrArg State.benches h.rest :)
theorem OnlySeqs.homes : t.h = s.h := (congrArg State.h h.rest :)
theorem OnlySeqs.sch : t.sch = s.sch := (congrArg State.sch h.rest :)
theorem OnlySeqs.pf : t.pf = s.pf := (congrArg State.pf h.rest :)
theorem OnlySeqs.turn : t.turn = s.turn := (congrArg State.turn h.rest :)
theorem OnlySeqs.agenda : t.agenda = s.agenda := (congrArg State.agenda h.rest :)
theorem OnlySeqs.free : t.free = s.free := (congrArg State.free h.rest :)
theorem OnlySeqs.tick : t.tick = s.tick := (congrArg State.tick h.rest :)
theorem OnlySeqs.nextId : t.nextId = s.nextId := (congrArg State.nextId h.rest :)
theorem OnlySeqs.ns : t.ns = s.ns := (congrArg State.ns h.rest :)
theorem OnlySeqs.cx (c : Nat) : t.cx c = s.cx c := congrArg (Tab.get Ctx.init · c) (OnlySeqs.ctxs h)
theorem OnlySeqs.co (c : Nat) : t.co c = s.co c := congrArg (Tab.get Core.init · c) (OnlySeqs.cores h)
theorem OnlySeqs.be (c : Nat) : t.be c = s.be c := congrArg (Tab.get Bench.init · c) (OnlySeqs.benches h)

end parts

/-! ## Running -/

/-- What an instruction that runs comes to. -/
theorem run_of_runs {i : Instr} {s : State} {k : Nat} {body : Nat → Out} (h : Runs s k i) :
    run i s body = .next (deliver s k i (body k)) := by
  unfold run
  rw [h.1]
  simp only [h.2]

/-- No instruction is refused or faults. -/
theorem run_goes (i : Instr) (s : State) (body : Nat → Out) : Goes (run i s body) := by
  unfold run
  split
  · split <;> exact ⟨_, rfl⟩
  · exact ⟨_, rfl⟩
  · exact ⟨_, rfl⟩

end Sys2Proof
end

