-- ==== Sys2Proof/Laws/Spaces.lean ====
section
/-! SUPPORT. Scratchpad stores: what every path reads of every byte afterwards, and that the byte tables keep their
canonical form. -/

namespace Sys2Proof.Machine

theorem lastByte_nil (a : Nat) (d : Byte) : lastByte [] a d = d := rfl

theorem lastByte_cons (w : Nat × PByte) (ws : List (Nat × PByte)) (a : Nat) (d : Byte) :
    lastByte (w :: ws) a d = lastByte ws a (if a = w.1 then w.2.1 else d) := by
  simp only [lastByte, List.reverse_cons, List.find?_append]
  cases ws.reverse.find? fun w => w.1 == a with
  | some w => rfl
  | none =>
    by_cases h : a = w.1
    · simp [h, List.find?]
    · have h' : (w.1 == a) = false := by simpa using Ne.symm h
      simp [h, h', List.find?]

theorem lastByte_of_not_mem {ws : List (Nat × PByte)} {a : Nat} (h : ∀ w ∈ ws, w.1 ≠ a) (d : Byte) :
    lastByte ws a d = d := by
  induction ws generalizing d with
  | nil => rfl
  | cons w r ih =>
    rw [lastByte_cons, ih (fun w hw => h w (List.mem_cons_of_mem _ hw)), if_neg (Ne.symm (h w List.mem_cons_self))]

theorem setByte_getD (l : List PByte) (i : Nat) (b : PByte) (j : Nat) (hj : j < 16) :
    (setByte l i b).getD j (0, false) = if j = i then b else l.getD j (0, false) := by
  unfold setByte
  rw [List.getD_eq_getElem?_getD, List.getElem?_map, List.getElem?_range hj]
  rfl

/-- Does the record hide the key's byte from path p of context c? -/
def Hidden.hides (h : Hidden) (c : Nat) (p : Path) (key : Nat) : Bool :=
  h.unit == key / 16 && h.reader == p && !(h.writer == p && h.cid == c)

theorem Hidden.hides_unit {h : Hidden} {c : Nat} {p : Path} {key : Nat} (hh : h.hides c p key = true) :
    h.unit = key / 16 := by
  simp only [Hidden.hides, Bool.and_eq_true, beq_iff_eq] at hh
  exact hh.1.1

/-- The old byte that the first hiding record gives, or `d`. -/
def hiddenByte (l : List Hidden) (c : Nat) (p : Path) (a : Nat) (d : Byte) : Byte :=
  match l.find? fun h => h.hides c p a with
  | some h => (h.old.getD (a % 16) (0, false)).1
  | none => d

theorem byte_val (co : Core) (c : Nat) (p : Path) (a : Nat) :
    (co.byte c p a).1 = hiddenByte co.hidden c p a (co.scr.read a) := by
  unfold Core.byte hiddenByte Hidden.hides
  cases co.hidden.find? _ <;> rfl

theorem hiddenByte_append (l l' : List Hidden) (c : Nat) (p : Path) (a : Nat) (d : Byte) :
    hiddenByte (l ++ l') c p a d = hiddenByte l c p a (hiddenByte l' c p a d) := by
  simp only [hiddenByte, List.find?_append]
  cases l.find? fun h => h.hides c p a <;> rfl

/-! ## One byte -/

/-- What a stored byte does to a record. -/
def Hidden.poked (c : Nat) (p : Path) (key : Nat) (b : PByte) (h : Hidden) : Hidden :=
  if h.hides c p key then { h with old := setByte h.old (key % 16) b } else h

theorem poke_hidden (co : Core) (c : Nat) (p : Path) (key : Nat) (b : PByte) :
    (co.poke c p key b).hidden = co.hidden.map (Hidden.poked c p key b) := rfl

theorem poked_hides (c : Nat) (p : Path) (key : Nat) (b : PByte) (h : Hidden) (d : Nat) (q : Path) (a : Nat) :
    (h.poked c p key b).hides d q a = h.hides d q a := by unfold Hidden.poked; split <;> rfl

theorem hiddenByte_poked (l : List Hidden) (c : Nat) (p : Path) (key : Nat) (b : PByte) (d : Nat) (q : Path) (a : Nat)
    (v : Byte) : hiddenByte (l.map (Hidden.poked c p key b)) d q a v =
      match l.find? fun h => h.hides d q a with
      | some h => ((h.poked c p key b).old.getD (a % 16) (0, false)).1
      | none => v := by
  unfold hiddenByte
  rw [List.find?_map]
  simp only [Function.comp_def, poked_hides]
  cases l.find? fun h => h.hides d q a <;> rfl

theorem poke_other (co : Core) (c : Nat) (p : Path) (key : Nat) (b : PByte) (d : Nat) (q : Path) (a : Nat)
    (ha : a ≠ key) : ((co.poke c p key b).byte d q a).1 = (co.byte d q a).1 := by
  rw [byte_val, byte_val, poke_hidden, hiddenByte_poked, hiddenByte]
  have hr : (co.poke c p key b).scr.read a = co.scr.read a := by simp [Core.poke, ha]
  cases hf : co.hidden.find? fun h => h.hides d q a with
  | none => exact hr
  | some h =>
    simp only
    unfold Hidden.poked
    split
    · rename_i hk
      have h1 := Hidden.hides_unit hk
      have h2 := Hidden.hides_unit (List.find?_some (p := fun h : Hidden => h.hides d q a) hf)
      rw [setByte_getD _ _ _ _ (Nat.mod_lt _ (by omega)), if_neg (by omega)]
    · rfl

theorem poke_own (co : Core) (c : Nat) (p : Path) (key : Nat) (b : PByte) :
    ((co.poke c p key b).byte c p key).1 = b.1 := by
  rw [byte_val, poke_hidden, hiddenByte_poked]
  cases hf : co.hidden.find? fun h => h.hides c p key with
  | none => simp [Core.poke]
  | some h =>
    have h1 : h.hides c p key = true := List.find?_some (p := fun h : Hidden => h.hides c p key) hf
    simp only [Hidden.poked, h1, if_true]
    rw [setByte_getD _ _ _ _ (Nat.mod_lt _ (by omega)), if_pos rfl]

/-! ## Many bytes -/

section pokes

variable (c : Nat) (p : Path)

/-- Bytes stored one after the other. -/
def pokes (ws : List (Nat × PByte)) (co : Core) : Core := ws.foldl (fun co w => co.poke c p w.1 w.2) co

theorem pokes_scr (ws : List (Nat × PByte)) (co : Core) (a : Nat) :
    (pokes c p ws co).scr.read a = lastByte ws a (co.scr.read a) := by
  induction ws generalizing co with
  | nil => rfl
  | cons w r ih =>
    rw [lastByte_cons, pokes, List.foldl_cons]
    rw [show (co.scr.read a) = co.scr.read a from rfl]
    have := ih (co.poke c p w.1 w.2)
    simp only [pokes] at this
    rw [this]
    simp [Core.poke]

theorem pokes_own (ws : List (Nat × PByte)) (co : Core) (a : Nat) :
    ((pokes c p ws co).byte c p a).1 = lastByte ws a (co.byte c p a).1 := by
  induction ws generalizing co with
  | nil => rfl
  | cons w r ih =>
    have := ih (co.poke c p w.1 w.2)
    simp only [pokes] at this
    rw [lastByte_cons, pokes, List.foldl_cons, this]
    by_cases h : a = w.1
    · subst h; rw [poke_own]; simp
    · rw [poke_other _ _ _ _ _ _ _ _ h]; simp [h]

theorem pokes_other (ws : List (Nat × PByte)) (co : Core) (d : Nat) (q : Path) (a : Nat) (h : ∀ w ∈ ws, w.1 ≠ a) :
    ((pokes c p ws co).byte d q a).1 = (co.byte d q a).1 := by
  induction ws generalizing co with
  | nil => rfl
  | cons w r ih =>
    have := ih (co.poke c p w.1 w.2) (fun w hw => h w (List.mem_cons_of_mem _ hw))
    simp only [pokes] at this
    rw [pokes, List.foldl_cons, this, poke_other _ _ _ _ _ _ _ _ (Ne.symm (h w List.mem_cons_self))]

theorem pokes_rest (ws : List (Nat × PByte)) (co : Core) :
    { pokes c p ws co with scr := co.scr, hidden := co.hidden } = co := by
  induction ws generalizing co with
  | nil => rfl
  | cons w r ih =>
    have := ih (co.poke c p w.1 w.2)
    simp only [pokes] at this
    rw [pokes, List.foldl_cons]
    calc _ = { ({ List.foldl (fun co w => co.poke c p w.1 w.2) (co.poke c p w.1 w.2) r with
          scr := (co.poke c p w.1 w.2).scr, hidden := (co.poke c p w.1 w.2).hidden } : Core) with
          scr := co.scr, hidden := co.hidden } := rfl
      _ = co := by rw [this]; rfl

theorem pokes_wf (ws : List (Nat × PByte)) (co : Core) (h : co.scr.wf = true) : (pokes c p ws co).scr.wf = true := by
  induction ws generalizing co with
  | nil => exact h
  | cons w r ih => exact ih (co.poke c p w.1 w.2) (Memory.wf_write _ _ h)

end pokes

/-! ## Hiding -/

theorem unitBytes_getD (co : Core) (u i : Nat) (hi : i < 16) :
    ((co.unitBytes u).getD i (0, false)).1 = co.scr.read (u * 16 + i) := by
  unfold Core.unitBytes
  rw [List.getD_eq_getElem?_getD, List.getElem?_map, List.getElem?_range hi]
  rfl

theorem hide_byte (co : Core) (n c : Nat) (p : Path) (u : Nat) (mask : List Nat) (d : Nat) (q : Path) (a : Nat) :
    ((co.hide n c p u mask).byte d q a).1 = (co.byte d q a).1 := by
  rw [byte_val, byte_val]
  show hiddenByte (co.hidden ++ _) d q a (co.scr.read a) = _
  rw [hiddenByte_append]
  congr 1
  unfold hiddenByte
  split
  · rename_i h hf
    have hm := List.mem_of_find?_eq_some hf
    have hu := Hidden.hides_unit (List.find?_some (p := fun h : Hidden => h.hides d q a) hf)
    simp only [List.mem_map] at hm
    obtain ⟨r, _, rfl⟩ := hm
    simp only at hu ⊢
    rw [unitBytes_getD _ _ _ (Nat.mod_lt _ (by omega)), hu, Nat.mul_comm, Nat.div_add_mod]
  · rfl

/-- Units hidden one after the other, by one access. -/
def hides (n c : Nat) (p : Path) (f : Nat → List Nat) (us : List Nat) (co : Core) : Core :=
  us.foldl (fun co u => co.hide n c p u (f u)) co

theorem hides_byte (n c : Nat) (p : Path) (f : Nat → List Nat) (us : List Nat) (co : Core) (d : Nat) (q : Path) (a : Nat) :
    ((hides n c p f us co).byte d q a).1 = (co.byte d q a).1 := by
  induction us generalizing co with
  | nil => rfl
  | cons u r ih => exact (ih (co.hide n c p u (f u))).trans (hide_byte ..)

theorem hides_rest (n c : Nat) (p : Path) (f : Nat → List Nat) (us : List Nat) (co : Core) :
    { hides n c p f us co with hidden := co.hidden } = co := by
  induction us generalizing co with
  | nil => rfl
  | cons u r ih =>
    have := ih (co.hide n c p u (f u))
    calc _ = { ({ hides n c p f r (co.hide n c p u (f u)) with hidden := (co.hide n c p u (f u)).hidden } : Core) with
          hidden := co.hidden } := rfl
      _ = co := by rw [this]; rfl

theorem hides_scr (n c : Nat) (p : Path) (f : Nat → List Nat) (us : List Nat) (co : Core) :
    (hides n c p f us co).scr = co.scr := (congrArg Core.scr (hides_rest n c p f us co) :)

/-! ## Stores -/

theorem lastByte_append (v w : List (Nat × PByte)) (a : Nat) (d : Byte) :
    lastByte (v ++ w) a d = lastByte w a (lastByte v a d) := by
  induction v generalizing d with
  | nil => rfl
  | cons x r ih => rw [List.cons_append, lastByte_cons, lastByte_cons, ih]

/-- What a store does to a core: `own` reads the bytes back, no path sees another byte change, and only scratchpad bytes
and what is hidden differ. -/
structure Puts (c : Nat) (p : Path) (ws : List (Nat × PByte)) (co co' : Core) : Prop where
  scr : ∀ a, co'.scr.read a = lastByte ws a (co.scr.read a)
  own : ∀ a, (co'.byte c p a).1 = lastByte ws a (co.byte c p a).1
  other : ∀ d q a, (∀ w ∈ ws, w.1 ≠ a) → (co'.byte d q a).1 = (co.byte d q a).1
  rest : { co' with scr := co.scr, hidden := co.hidden } = co
  wf : co.scr.wf = true → co'.scr.wf = true

theorem Puts.nil (c : Nat) (p : Path) (co : Core) : Puts c p [] co co :=
  ⟨fun _ => rfl, fun _ => rfl, fun _ _ _ _ => rfl, rfl, id⟩

theorem Puts.append {c : Nat} {p : Path} {v w : List (Nat × PByte)} {co co' co'' : Core} (h : Puts c p v co co')
    (h' : Puts c p w co' co'') : Puts c p (v ++ w) co co'' where
  scr a := by rw [h'.scr, h.scr, lastByte_append]
  own a := by rw [h'.own, h.own, lastByte_append]
  other d q a hw := by
    rw [h'.other d q a fun x hx => hw x (List.mem_append_right _ hx), h.other d q a fun x hx => hw x (List.mem_append_left _ hx)]
  rest := by
    calc _ = { ({ co'' with scr := co'.scr, hidden := co'.hidden } : Core) with scr := co.scr, hidden := co.hidden } := rfl
      _ = co := by rw [h'.rest, h.rest]
  wf hw := h'.wf (h.wf hw)

theorem storePiece_puts (co : Core) (c : Nat) (p : Path) (ws : List (Nat × PByte)) :
    Puts c p ws co (co.storePiece c p ws) := by
  obtain ⟨n, f, us, h⟩ : ∃ n f us, co.storePiece c p ws = pokes c p ws (hides n c p f us co) := ⟨_, _, _, rfl⟩
  rw [h]
  refine ⟨fun a => ?_, fun a => ?_, fun d q a hw => ?_, ?_, fun hw => ?_⟩
  · rw [pokes_scr, hides_scr]
  · rw [pokes_own, hides_byte]
  · rw [pokes_other _ _ _ _ _ _ _ hw, hides_byte]
  · have h1 := pokes_rest c p ws (hides n c p f us co)
    calc _ = { ({ pokes c p ws (hides n c p f us co) with
          scr := (hides n c p f us co).scr, hidden := (hides n c p f us co).hidden } : Core) with
          scr := co.scr, hidden := co.hidden } := rfl
      _ = { hides n c p f us co with hidden := co.hidden } := by rw [h1, ← hides_scr n c p f us co]
      _ = co := hides_rest ..
  · exact pokes_wf c p ws _ (by rw [hides_scr]; exact hw)

/-- Pieces stored one after the other. -/
theorem storePieces_puts (c : Nat) (p : Path) (gs : List (List (Nat × PByte))) (co : Core) :
    Puts c p gs.flatten co (gs.foldl (fun co g => co.storePiece c p g) co) := by
  induction gs generalizing co with
  | nil => exact .nil c p co
  | cons g r ih => exact (storePiece_puts co c p g).append (ih _)

/-- `Core.store` in its parts. -/
theorem store_eq (co : Core) (c : Nat) (p : Path) (gs : List (List (Nat × PByte))) :
    ∃ (x : Tab Bool) (b : Option BHold), co.store c p gs =
      { gs.foldl (fun co g => co.storePiece c p g) co with spois := x, bhold := b } := ⟨_, _, rfl⟩

theorem byte_congr (co co' : Core) (h : co.hidden = co'.hidden) (h' : co.scr = co'.scr) (d : Nat) (q : Path) (a : Nat) :
    (co.byte d q a).1 = (co'.byte d q a).1 := by rw [byte_val, byte_val, h, h']

section store

variable (co : Core) (c : Nat) (p : Path) (gs : List (List (Nat × PByte)))

theorem store_scr (a : Nat) : (co.store c p gs).scr.read a = lastByte gs.flatten a (co.scr.read a) := by
  obtain ⟨x, b, h⟩ := store_eq co c p gs
  rw [h]; exact (storePieces_puts c p gs co).scr a

theorem store_own (a : Nat) : ((co.store c p gs).byte c p a).1 = lastByte gs.flatten a (co.byte c p a).1 := by
  obtain ⟨x, b, h⟩ := store_eq co c p gs
  rw [h]
  exact (byte_congr { gs.foldl (fun co g => co.storePiece c p g) co with spois := x, bhold := b }
    (gs.foldl (fun co g => co.storePiece c p g) co) rfl rfl c p a).trans ((storePieces_puts c p gs co).own a)

theorem store_other (d : Nat) (q : Path) (a : Nat) (hw : ∀ w ∈ gs.flatten, w.1 ≠ a) :
    ((co.store c p gs).byte d q a).1 = (co.byte d q a).1 := by
  obtain ⟨x, b, h⟩ := store_eq co c p gs
  rw [h]
  exact (byte_congr { gs.foldl (fun co g => co.storePiece c p g) co with spois := x, bhold := b }
    (gs.foldl (fun co g => co.storePiece c p g) co) rfl rfl d q a).trans ((storePieces_puts c p gs co).other d q a hw)

theorem store_rest : { co.store c p gs with scr := co.scr, spois := co.spois, hidden := co.hidden, bhold := co.bhold } = co := by
  obtain ⟨x, b, h⟩ := store_eq co c p gs
  have h1 := (storePieces_puts c p gs co).rest
  rw [h]
  calc _ = { ({ gs.foldl (fun co g => co.storePiece c p g) co with scr := co.scr, hidden := co.hidden } : Core) with
        spois := co.spois, bhold := co.bhold } := rfl
    _ = co := by rw [h1]

theorem store_wf (h : co.scr.wf = true) : (co.store c p gs).scr.wf = true := by
  obtain ⟨x, b, e⟩ := store_eq co c p gs
  rw [e]; exact (storePieces_puts c p gs co).wf h

end store

theorem unhide_wf (co : Core) (g : Hidden → Bool) (h : co.scr.wf = true) : (co.unhide g).scr.wf = true := h

/-! ## Pieces -/

theorem pieces_flatten {α : Type} (room : Nat) (l : List α) : (pieces room l).flatten = l := by
  induction l generalizing room with
  | nil => rfl
  | cons x r ih =>
    unfold pieces
    split
    · simp [ih]
    · have := ih (room - 1)
      split <;> simp_all

theorem kWrites_append (n : Nat) (v w : List (Nat × PByte)) : kWrites n (v ++ w) = kWrites n v ++ kWrites n w := by
  simp [kWrites]

theorem kWrites_flatten (n : Nat) (gs : List (List (Nat × PByte))) : (gs.map (kWrites n)).flatten = kWrites n gs.flatten := by
  induction gs with
  | nil => rfl
  | cons g r ih => rw [List.map_cons, List.flatten_cons, List.flatten_cons, kWrites_append, ih]

/-- What a program's write of bytes at a place leaves to store. -/
theorem kept_flatten (l : Loc) (n : Nat) (bs : List PByte) : ((l.pieces n bs).map (kWrites n)).flatten = kept l n bs := by
  rw [kWrites_flatten, Loc.pieces, pieces_flatten]

/-- A store at a place by a context's path, on the context's own core. -/
theorem scrWrite_stored (s : State) (c : Nat) (p : Path) (l : Loc) (bs : List PByte) :
    Stored s (s.scrWrite c p l bs) (coreOf c) c p (kept l (ctxnOf c) bs) := by
  have h : (s.scrWrite c p l bs).co (coreOf c) =
      (s.co (coreOf c)).store c p ((l.pieces (ctxnOf c) bs).map (kWrites (ctxnOf c))) := by
    simp [State.scrWrite, Core.write]
  refine ⟨fun a => ?_, fun a => ?_, fun d q a hw => ?_, ?_⟩ <;> rw [h]
  · rw [store_scr, kept_flatten]
  · rw [store_own, kept_flatten]
  · exact store_other _ _ _ _ _ _ _ (by rw [kept_flatten]; exact hw)
  · exact store_rest ..

end Sys2Proof.Machine

namespace Sys2Proof

open Machine

/-- Where nothing of core m changes afterwards. -/
theorem Stored.congr {s u t : State} {m c : Nat} {p : Path} {ws : List (Nat × PByte)} (h : Stored s u m c p ws)
    (e : t.co m = u.co m) : Stored s t m c p ws := by
  obtain ⟨h1, h2, h3, h4⟩ := h
  exact ⟨fun a => by rw [e, h1], fun a => by rw [e, h2], fun d q a hw => by rw [e, h3 d q a hw], by rw [e, h4]⟩

end Sys2Proof
end

