-- ==== Sys2Proof/Laws/Retire.lean ====
section
/-! SUPPORT. How the instructions of one shape complete: those that change registers alone, a context, or a context and
its core. -/

namespace Sys2Proof

open Machine Machine.State

theorem setPtr_keeps (r : Seq) (p : BitVec 3) (q : Ptr) : (r.setPtr p q).pc = r.pc ∧ (r.setPtr p q).rep = r.rep := by
  unfold Seq.setPtr; split <;> exact ⟨rfl, rfl⟩

theorem advance_keeps (l : List PtrOp) (r : Seq) : (r.advance l).pc = r.pc ∧ (r.advance l).rep = r.rep := by
  induction l generalizing r with
  | nil => exact ⟨rfl, rfl⟩
  | cons o l ih =>
    have := ih (if o.inc then r.setPtr o.p (r.ptr o.p).advance else r)
    unfold Seq.advance at this ⊢
    rw [List.foldl_cons, this.1, this.2]
    split
    · exact setPtr_keeps ..
    · exact ⟨rfl, rfl⟩

/-- An instruction whose body is done in a state whose sequencers are as before but for its own registers. -/
theorem done_of {s u : State} {k : Nat} {i : Instr} {b : Nat → Out} {f : Seq → Seq} (h : Runs s k i) (hb : b k = .done u)
    (hu : ∀ j, u.sq j = if j = k then { s.sq k with r := f (s.sq k).r } else s.sq j)
    (hf : ∀ r, (f r).pc = r.pc ∧ (f r).rep = r.rep) :
    ∃ t, run i s b = .next t ∧ OnlySeqs u t ∧ Retires s t k i f :=
  ⟨_, run_of_runs h, by rw [hb]; exact deliver_done_only s u k i, by rw [hb]; exact retires_done hu hf⟩

/-- One that jumps. -/
theorem jump_of {s u : State} {k : Nat} {i : Instr} {b : Nat → Out} {f : Seq → Seq} (h : Runs s k i) (hb : b k = .jump u)
    (hu : ∀ j, u.sq j = if j = k then { s.sq k with r := f (s.sq k).r } else s.sq j) :
    ∃ t, run i s b = .next t ∧ OnlySeqs u t ∧ Jumps s t k f :=
  ⟨_, run_of_runs h, by rw [hb]; exact deliver_jump_only s u k i, by rw [hb]; exact jumps_jump hu⟩

/-- One that changes registers alone. -/
theorem done_modR {s : State} {k : Nat} {i : Instr} {b : Nat → Out} {f g : Seq → Seq} (h : Runs s k i)
    (hb : b k = .done (s.modR k g)) (hg : g (s.r k) = f (s.r k)) (hf : ∀ r, (f r).pc = r.pc ∧ (f r).rep = r.rep) :
    ∃ t, run i s b = .next t ∧ OnlySeqs s t ∧ Retires s t k i f := by
  obtain ⟨t, h1, h2, h3⟩ := done_of (f := f) h hb
    (fun j => by simp only [sq_modR]; split <;> simp_all [State.r]) hf
  exact ⟨t, h1, OnlySeqs.trans (u := s.modR k g) ⟨rfl⟩ h2, h3⟩

theorem jump_modR {s : State} {k : Nat} {i : Instr} {b : Nat → Out} {f g : Seq → Seq} (h : Runs s k i)
    (hb : b k = .jump (s.modR k g)) (hg : g (s.r k) = f (s.r k)) :
    ∃ t, run i s b = .next t ∧ OnlySeqs s t ∧ Jumps s t k f := by
  obtain ⟨t, h1, h2, h3⟩ := jump_of (f := f) h hb (fun j => by simp only [sq_modR]; split <;> simp_all [State.r])
  exact ⟨t, h1, OnlySeqs.trans (u := s.modR k g) ⟨rfl⟩ h2, h3⟩

/-- A state in which only sequencers and one context have changed, seen through a retired instruction. -/
theorem onlyCtx_of {s u t : State} {c : Nat} {f : Ctx → Ctx} (h : OnlySeqs u t)
    (h1 : ({ u with seqs := s.seqs, ctxs := s.ctxs, nextId := s.nextId } : State) = s)
    (h2 : ∀ d, u.cx d = if d = c then f (s.cx c) else s.cx d) : OnlyCtx s t c f := by
  refine ⟨?_, fun d => by rw [h.cx, h2]⟩
  calc _ = ({ ({ t with seqs := u.seqs } : State) with seqs := s.seqs, ctxs := s.ctxs, nextId := s.nextId } : State) := rfl
    _ = s := by rw [h.rest, h1]

theorem onlyCtxCore_of {s u t : State} {c m : Nat} {f : Ctx → Ctx} (h : OnlySeqs u t)
    (h1 : ({ u with seqs := s.seqs, ctxs := s.ctxs, cores := s.cores, nextId := s.nextId } : State) = s)
    (h2 : ∀ d, u.cx d = if d = c then f (s.cx c) else s.cx d) (h3 : ∀ d, d ≠ m → u.co d = s.co d) :
    OnlyCtxCore s t c m f := by
  refine ⟨?_, fun d => by rw [h.cx, h2], fun d hd => by rw [h.co, h3 d hd]⟩
  calc _ = ({ ({ t with seqs := u.seqs } : State) with seqs := s.seqs, ctxs := s.ctxs, cores := s.cores, nextId := s.nextId } : State) := rfl
    _ = s := by rw [h.rest, h1]

/-- An instruction that changes its context's registers, and its own as `f` says. -/
theorem done_reg {s : State} {k : Nat} {i : Instr} {b : Nat → Out} {f : Seq → Seq} {g : CtxReg → CtxReg} (h : Runs s k i)
    (hb : b k = .done ((s.modReg (cidOf k) g).modR k f)) (hf : ∀ r, (f r).pc = r.pc ∧ (f r).rep = r.rep) :
    ∃ t, run i s b = .next t ∧ OnlyCtx s t (cidOf k) (fun c => { c with reg := g c.reg }) ∧ Retires s t k i f := by
  obtain ⟨t, h1, h2, h3⟩ := done_of (f := f) h hb (fun j => by simp) hf
  exact ⟨t, h1, onlyCtx_of h2 rfl (fun d => by simp), h3⟩

end Sys2Proof
end

