-- ==== Sys2Proof/Tests/Slice0.lean ====
section
/-! SUPPORT. Tests: words of the spec decode as the spec says; ill-formed operands are refused; each statement that has
hypotheses has a witness, a state and operands that meet them, with a conjunct for each of its clauses (a statement of several
parts has one for each part, named after it). -/

namespace Sys2Proof.Tests

set_option Elab.async false

open Sys2Proof Machine

/-- Each of these words decodes to its instruction, and the instruction encodes to the words. -/
def reads (l : List (List W32 × Instr)) : Bool :=
  l.all fun e => decide (decode e.1 = .ok e.2) && encode e.2 == e.1 && e.2.wf

def okIs {ε α : Type} (r : Except ε α) : Bool := match r with | .ok _ => true | .error _ => false
def okAnd {ε α : Type} (r : Except ε α) (p : α → Bool) : Bool := match r with | .ok a => p a | .error _ => false

/-- Words from the spec's own text (Scalar). -/
theorem test_decode_scalar : reads [
    ([0x08000004], .addImm (.short 1)),
    ([0x0F000000], .cmpImm (.short 0)),
    ([0x090003FC], .andImm (.short 0xFF)),
    ([0x01000C20], .and .s .i64),
    ([0x04000C00], .mul (.mem 0 false) .i64),
    ([0x05280C00], .div true (.mem 2 false) .i64),
    ([0x10000004], .li (.short 1)),
    ([0x10000001, 0x80000000, 0x00000000], .li (.long 0x80000000)),
    ([0x06200C00], .min true (.mem 0 false) .i64),
    ([0x0EA00014], .maxImm true (.short 5)),
    ([0x04A00C20], .mulh true .s .i64),
    ([0x0D800008], .remImm false (.short 2)),
    ([0x05A80C00], .rem true (.mem 2 false) .i64),
    ([0x0B80000C], .sarImm (.short 3)),
    ([0x0A800104], .shlImm (.short 65)),
    ([0x0B000014], .shrImm (.short 5)),
    ([0x00860C00], .sub (.mem 1 true) .i64),
    ([0x0F800200], .tstImm (.short 0x80)),
    ([0x0A03FFFC], .xorImm (.short 0xFFFF)),
    ([0x020C0C00], .xor (.mem 3 false) .i64),
    ([0x110A0800], .ldl ⟨2, true⟩ .i32),
    ([0x11880C08], .stl ⟨2, false⟩ .s .i64),
    ([0x12011220], .cvt .bf16 .fp32 .s ⟨false, .rne⟩),
    ([0x10A80C08], .sel .lt (.mem 2 false) .s .i64),
    ([0x10808C60], .sel .le .s (.mem 2 false) .i64),
    ([0x12A00002, 0x00000005, 0x00000002], .geo 1 (.val 0x0000000200000005)),
    ([0x12F00002, 0x00000000, 0x00000000], .geo 3 .s)] = true := by decide +kernel

/-- Words from the spec's own text (Control). -/
theorem test_decode_control : reads [
    ([0x14D80000], .psetS 5 .g),
    ([0x14400400], .pset 4 .l (.short 0x100)),
    ([0x15500100], .pstr 5 (.short 64)),
    ([0x15900000], .plim 1 (.short 0)),
    ([0x16100008], .pswz 1 2),
    ([0x16B3FF00], .padd 3 (.short 0xFFC0)),
    ([0x177C0000], .pget 7 3),
    ([0x180FFFD0], .br .ne (.rel 0x1FFF4)),
    ([0x19700050], .call (.rel 20)),
    ([0x19F00000], .ret),
    ([0x1A000C20], .brx .s),
    ([0x1D040000], .rep 2 0 .s),
    ([0x1C080040], .rep 0 1 (.imm 16))] = true := by decide +kernel

/-- Words from the spec's own text (Vector). -/
theorem test_decode_vector : reads [
    ([0x21001220], .vbcast 0 .s .fp32),
    ([0x21809214], .vadd 0 (.acc 0) (.acc 2) .fp32 ⟨false, .rne⟩),
    ([0x23069000], .vmac 0 (.mem 1 true) (.mem 2 false) .bf16 ⟨false, .rne⟩),
    ([0x26C00818], .vxor 2 (.acc 0) .s .i32),
    ([0x20921004], .vst ⟨4, true⟩ (.acc 0) .bf16 ⟨false, .rne⟩),
    ([0x20181200], .vld 0 ⟨6, false⟩ .fp32),
    ([0x28205214], .vcmp 1 (.acc 0) (.acc 1) .fp32),
    ([0x292D3000], .vcvt 1 .fp32 .bf16 (.mem 3 false) ⟨false, .rne⟩),
    ([0x298C0810], .vred (.acc 3) .i32 .rne),
    ([0x2A801218], .vscale 0 (.acc 0) .s .fp32 ⟨false, .rne⟩),
    ([0x2B481210], .vexp2 2 (.acc 2) .fp32 ⟨false, .rne⟩),
    ([0x2C841210], .vmaxi (.acc 1) .fp32),
    ([0x2DE00000], .vmsetNot),
    ([0x2D800020], .vmset .s),
    ([0x2E0AE000], .vcprs 0 ⟨2, true⟩ ⟨3, true⟩ .i8),
    ([0x2E88001D, 0x0000FFFF, 0x00000000], .vmeta 2 0xFFFF),
    ([0x2F12E000], .vpackt ⟨4, true⟩ ⟨3, true⟩ false),
    ([0x2F94E000], .vunpkt ⟨5, false⟩ ⟨3, true⟩)] = true := by decide +kernel

/-- Words from the spec's own text (Memory). -/
theorem test_decode_memory : reads [
    ([0x40536000], .ldg .v ⟨4, true⟩ ⟨5, true⟩),
    ([0x400D8C00], .ldg (.ty .i64) ⟨3, false⟩ ⟨6, false⟩),
    ([0x410D8C00], .ldh (.ty .i64) ⟨3, false⟩ ⟨6, false⟩),
    ([0x41B8C000], .ldrow true ⟨6, false⟩ ⟨3, false⟩),
    ([0x409A1208], .stg (.ty .fp32) ⟨6, true⟩ .s),
    ([0x40DD8000], .stg .v ⟨7, false⟩ (.mem 6 false)),
    ([0x44450002, 0x20000000, 0x00000000], .cpy ⟨⟨4, false⟩, ⟨5, false⟩, 0, false, true, 0, 0⟩ none),
    ([0x48080004], .smwait 1 (.short 1)),
    ([0x489003FC], .smtest 2 (.short 0xFF)),
    ([0x49180001, 0xFFFFFFFF, 0xFFFFFFFF], .smclr 3 (.long 0xFFFFFFFFFFFFFFFF)),
    ([0x49A80000], .wait .mc 0),
    ([0x4A10000C], .pwait .k .m),
    ([0x4A880000], .phase .dev),
    ([0x4C0C0100], .rwb 3 (.imm 64)),
    ([0x4CAC0000], .rinv 3 .s),
    ([0x4D100000], .tokacq 4),
    ([0x4D900000], .tokpass 4),
    ([0x502E0000], .qpush .cm (.mem 3 true)),
    ([0x50E40010], .qpop .mc (.acc 1)),
    ([0x51200000], .qstat .cm)] = true := by decide +kernel

/-- Words from the spec's own text (Exchange). -/
theorem test_decode_exchange : reads [
    ([0x54200002, 0x0F0F0F0F, 0x00000000], .exo ⟨⟨2, false⟩, false, 0x0F0F0F0F, 0⟩),
    ([0x54B00002, 0x00000000, 0x00000000], .exs ⟨3, false⟩ 0),
    ([0x55300002, 0x00000000, 0x00000000], .exr ⟨3, false⟩ 0),
    ([0x55E00002, 0x00000000, 0x00000000], .exred false ⟨6, false⟩ 0)] = true := by decide +kernel

/-- Words from the spec's own text (Matrix). -/
theorem test_decode_matrix : reads [
    ([0x601AC003, 0x00000000, 0x00000000, 0x0001FFFF, 0x00000000], .mtile ⟨⟨1, true⟩, ⟨2, true⟩, .bf16, false, false, 0, false, false, 0, 0, 0, some (1, 0xFFFF)⟩),
    ([0x601AD402, 0x00000000, 0x00000000], .mtile ⟨⟨1, true⟩, ⟨2, true⟩, .e4m3, true, false, 0, false, false, 0, 0, 0, none⟩),
    ([0x60880040], .tfetch 2 16),
    ([0x61080040], .trel 2 16),
    ([0x64000000], .jinit false false),
    ([0x64885210], .jadd 2 ⟨1, false⟩ .fp32),
    ([0x65049200], .joins .cm .am .fp32),
    ([0x65AC1200], .jget 1 ⟨3, false⟩ .fp32),
    ([0x66180000], .jdrainT 6),
    ([0x66380000], .jdrainD 6 0),
    ([0x670C0000], .jspill 3),
    ([0x68140000], .wrun 5)] = true := by decide +kernel

/-- Words from the spec's own text (Offers). -/
theorem test_decode_offers : reads [
    ([0x80512203, 0x00000000, 0x00000000, 0x00000001, 0x00000000], .oadd ⟨⟨5, false⟩, ⟨1, false⟩, .i32, false, .lit 1⟩),
    ([0x80512502, 0x00000000, 0x00000000], .oadd ⟨⟨5, false⟩, ⟨1, false⟩, .i32, true, .s⟩),
    ([0x80D12102, 0x00000000, 0x00000000], .oand ⟨⟨5, false⟩, ⟨1, false⟩, .i32, false, .s⟩),
    ([0x81512102, 0x00000000, 0x00000000], .oor ⟨⟨5, false⟩, ⟨1, false⟩, .i32, false, .s⟩),
    ([0x81D12102, 0x00000000, 0x00000000], .omin ⟨⟨5, false⟩, ⟨1, false⟩, .i32, false, .s⟩),
    ([0x82512102, 0x00000000, 0x00000000], .omax ⟨⟨5, false⟩, ⟨1, false⟩, .i32, false, .s⟩),
    ([0x82D12102, 0x00000000, 0x00000000], .oxch ⟨⟨5, false⟩, ⟨1, false⟩, .i32, false, .s⟩),
    ([0x83512042, 0x00000000, 0x00000000], .ocas ⟨⟨5, false⟩, ⟨1, false⟩, .i32, false, .mem 2 false⟩),
    ([0x83D14042, 0x00000000, 0x00000040], .orow ⟨⟨5, false⟩, ⟨1, false⟩, .bf16, false, .mem 2 false⟩ false 64),
    ([0x84514042, 0x00000000, 0x00000040], .ofin ⟨⟨5, false⟩, ⟨1, false⟩, .bf16, false, .mem 2 false⟩ 64),
    ([0x84D12102, 0x00000000, 0x00000000], .owait ⟨⟨5, false⟩, ⟨1, false⟩, .i32, false, .s⟩),
    ([0x88014042, 0x00000000, 0x00000000], .oemb true ⟨1, false⟩ ⟨2, false⟩),
    ([0x88810042, 0x00000000, 0x00000000], .oscan ⟨1, false⟩ ⟨2, false⟩),
    ([0x896200A2, 0x00000001, 0x00000000], .orowc ⟨6, false⟩ ⟨2, false⟩ ⟨5, false⟩ .s),
    ([0x89D10203, 0x00000001, 0x00000000, 0x00000000, 0x00000000], .ofill ⟨5, false⟩ ⟨1, false⟩ (.lit 0) .s),
    ([0x8C240000], .ostat true 1)] = true := by decide +kernel

/-- Words from the spec's own text (Walks). -/
theorem test_decode_walks : reads [
    ([0xA0980000], .wldi 6 0),
    ([0xA188C000], .wsub 2 (.reg 3)),
    ([0xA118000D, 0x00000001, 0x00000000], .wadd 6 (.lit 1)),
    ([0xA318C000], .wcmp 6 (.reg 3)),
    ([0xA4380044], .wbr .geu 17),
    ([0xA0142A00], .wld 5 0 true .ui32),
    ([0xA819C100], .wemit 6 7 4),
    ([0xA4F7FFD8], .wjmp 0x1FFF6),
    ([0xA8B46180], .wtileExpand 5 1 true .i8 6),
    ([0xAC000000], .wend)] = true := by decide +kernel

/-- Words from the spec's own text (System). -/
theorem test_decode_system : reads [
    ([0xC0000014], .trap 5),
    ([0xC0800000], .eret),
    ([0xC1000008], .srr 2),
    ([0xC1000114], .srr 0x45),
    ([0xC1800020], .srw 8),
    ([0xC4980000], .rdv ⟨true, true, false⟩),
    ([0xC5000000], .tdone),
    ([0xC580000C], .tsig 3),
    ([0xC5A00000], .tsigS),
    ([0xC7000100], .idle 64),
    ([0xC8000004], .lacq (.imm 1)),
    ([0xC8200000], .lacq .s),
    ([0xC8800000], .lrel (.imm 0)),
    ([0xC9000008], .lhint (.imm 2)),
    ([0xC9800004], .lreset (.imm 1)),
    ([0xCC0C0000], .tinv 3),
    ([0xCC200000], .tinvAsid),
    ([0xCC400000], .tinvAll)] = true := by decide +kernel
/-! ## Ill-formed operands: at least one for each check of `Instr.wf` -/

def m0 : Modes := ⟨false, .rne⟩
def pp (n : BitVec 3) : PtrOp := ⟨n, false⟩
def mt : MtileOp := ⟨pp 1, pp 2, .i8, false, false, 0, false, false, 0, 0, 0, none⟩
def cp : CpyOp := ⟨pp 1, pp 2, 0, false, false, 64, 0⟩
def off : OfferOp := ⟨pp 5, pp 1, .i32, false, .s⟩

theorem test_wf_scalar : ([.add (.acc 0) .i64, .add .s .fp32, .mulh true .s .t2, .div true .s .fp32, .div false (.acc 1) .i32,
    .sel .eq (.lit 1) (.lit 2) .i64, .sel .eq (.acc 0) .s .i64, .sel .eq .s .s .bf16, .ldl (pp 0) .t2, .stl (pp 0) (.mem 1 false) .i8,
    .stl (pp 0) .s .t2, .cvt .t2 .fp32 .s m0, .cvt .fp32 .fp32 (.acc 0) m0, .pstr 0 (.long 0x80000000), .plim 0 (.long 0x100000000),
    .brx (.acc 0)] : List Instr).all (fun i => !i.wf) = true := by decide +kernel

theorem test_wf_vector : ([.vld 0 (pp 0) .i64, .vst (pp 0) (.mem 1 false) .fp32 m0, .vbcast 0 (.acc 1) .i32, .vadd 0 (.lit 0) (.lit 0) .i32 m0,
    .vmin 0 .s .s .i64, .vabs 0 .s .fp32 true, .vneg 0 .s .t2 false, .vand 0 .s .s .fp32, .vsel 0 .s .i64, .vcvt 0 .t2 .i32 .s m0,
    .vred .s .i32 .rne, .vred (.acc 0) .i32 .rz, .vperm 0 .s .s .i8, .vperm 0 (.acc 0) (.mem 1 false) .i8, .vscale 0 .s .s .i32 m0,
    .vscale 0 .s (.mem 0 false) .fp32 m0, .vexp2 0 .s .i32 m0, .vmaxi (.lit 0) .i32, .vmset (.acc 0), .vcprs 0 (pp 0) (pp 1) .fp32] :
    List Instr).all (fun i => !i.wf) = true := by decide +kernel

theorem test_wf_memory : ([.ldg (.ty .t2) (pp 0) (pp 1), .stg (.ty .i8) (pp 0) (.acc 0), .stg .v (pp 0) .s,
    .cpy { cp with ls := true } none, .cpy { cp with seq := 1 } none, .cpy cp (some { mt with spa := 3 }), .pwait .c .n, .qpush .ac .s,
    .exo ⟨pp 0, true, 4096, 0⟩] : List Instr).all (fun i => !i.wf) = true := by decide +kernel

theorem test_wf_matrix : ([.mtile { mt with ty := .fp32 }, .mtile { mt with ty := .bf16, spa := 1 }, .mtile { mt with ty := .bf16, sca := true },
    .mtile { mt with macc := 1 }, .mtile { mt with spa := 2, macc := 1 }, .mtile { mt with geo := true, row := 1 }, .tfetch 0 0,
    .trel 0 1025, .jadd 0 (pp 0) .i8, .joins .ac .am .bf16] : List Instr).all (fun i => !i.wf) = true := by decide +kernel

theorem test_wf_offers : ([.oadd { off with ty := .i8 }, .oand { off with ty := .fp32 }, .ocas off, .orow { off with ty := .bf16 } false 64,
    .orow { off with ty := .i32, v := .mem 0 false } false 64, .orow { off with ty := .bf16, v := .mem 0 false } false 96,
    .ofin { off with e := true } 0, .owait { off with e := true }, .orowc (pp 0) (pp 1) (pp 2) (.imm 512), .ofill (pp 0) (pp 1) .s .s,
    .ofill (pp 0) (pp 1) (.lit 0) (.imm 0)] : List Instr).all (fun i => !i.wf) = true := by decide +kernel

theorem test_wf_others : ([.wld 0 1 false .fp32, .wtileExpand 0 1 false .i64 2, .srr 5, .srw 0x80, .rdv ⟨false, false, false⟩,
    .lacq (.imm 4096)] : List Instr).all (fun i => !i.wf) = true := by decide +kernel

/-- Reserved words are refused: COND 15, class 6, a reserved bit of `ret` set. -/
theorem test_decode_refuses : ([[0x187C0000], [0xE0000000], [0x19F00004]] : List (List W32)).all
    (fun ws => match decode ws with | .bad _ => true | .ok _ => false) = true := by decide +kernel

/-! ## Witnesses: scalar, pointer and control statements -/

/-- Context 0 of core 0 runs an instance with a window of 64 KiB, its three sequencers issue, and it is the compute
sequencer's turn. -/
def u0 : State :=
  let s := (State.reset.modSlot 0 fun x => { x with state := .running, winSize := 65536 })
  let s := ((s.modSq 0 fun q => { q with run := true }).modSq 1 fun q => { q with run := true }).modSq 2 fun q => { q with run := true }
  { s with turn := .seq 0 }

/-- Another sequencer's turn; level K; register values. -/
def turnOf (k : Nat) (s : State) : State := { s with turn := .seq k }
def lvl (s : State) : State := s.modR 0 fun r => { r with pl := true }
def withS (v : W64) (s : State) : State := s.modR 0 fun r => { r with s := v }
def withPtr (n : BitVec 3) (p : Ptr) (s : State) : State := s.modR 0 fun r => r.setPtr n p
/-- Bytes of context 0's window (at offset a), and of its kernel window. -/
def withL (a : Nat) (bs : List Byte) (s : State) : State :=
  s.modCo 0 fun c => { c with scr := (List.range bs.length).foldl (fun m i => m.write (a + i) (bs.getD i 0)) c.scr }
/-- A repetition under way: `pass` of `count`, at position `pos` of `n` + 1. -/
def inRep (pass count : W32) (n pos : BitVec 4) (stag : BitVec 2) (s : State) : State :=
  s.modR 0 fun r => { r with rep := ⟨true, pass, count, n, pos, stag, 0x1000⟩ }

def aluAll (im : Imm) (x : Opnd) (t : ElemTy) : List Instr :=
  ((Says.aluRow Seq.init 0 (.addImm im) (.subImm im) (.andImm im) (.orImm im) (.xorImm im) (.shlImm im) (.shrImm im)
    (.sarImm im) (.mulImm im) (.mulhImm false im) (.mulhImm true im) (.divImm false im) (.divImm true im) (.remImm false im)
    (.remImm true im) (.minImm false im) (.minImm true im) (.maxImm false im) (.maxImm true im) (.cmpImm im) (.tstImm im)) ++
   (Says.aluRow Seq.init 0 (.add x t) (.sub x t) (.and x t) (.or x t) (.xor x t) (.shl x t) (.shr x t) (.sar x t) (.mul x t)
    (.mulh false x t) (.mulh true x t) (.div false x t) (.div true x t) (.rem false x t) (.rem true x t) (.min false x t)
    (.min true x t) (.max false x t) (.max true x t) (.cmp x t) (.tst x t))).map Prod.fst

/-- Every two-operand form runs, with an immediate at its least value and a source in memory. -/
theorem witness_ScalarImmediateResults : ((aluAll (.short 0x8000) (.mem 0 true) .i8 ++ [Instr.li (.long 0)]).all fun i =>
    decide (Runs u0 0 i)) = true := by decide +kernel

theorem witness_ScalarOperandResults :
    okAnd (u0.srcVal 0 (.mem 0 true) .i8) (fun v => v == 0) = true ∧ (aluAll (.short 0) (.mem 0 true) .i8).all (fun i => decide (Runs u0 0 i)) = true ∧
    okIs (u0.srcVal 0 (.lit 5) .i64) = true ∧ Runs u0 0 (.sel .le (.mem 0 true) (.lit 5) .i64) := by decide +kernel

/-- The clauses of a pointer source, at the last element of the window, with its neighbours. -/
theorem witness_ScalarSourceValues :
    ((withPtr 0 ⟨65528, 0, 0, .l, 0⟩ u0).srcVal 0 (.mem 0 false) .i64).toOption = some 0 ∧
    ((withPtr 0 ⟨65527, 0, 0, .l, 0⟩ u0).srcVal 0 (.mem 0 false) .i64) = .error (precise .misalign) ∧
    ((withPtr 0 ⟨0, 0, 0, .k, 0⟩ u0).srcVal 0 (.mem 0 false) .i64) = .error (precise .priv) ∧
    ((withPtr 0 ⟨0, 0, 0, .g, 0⟩ u0).srcVal 0 (.mem 0 false) .i64) = .error (precise .window) ∧
    ((u0.modCo 0 fun c => { c with spois := [(0, true)] }).srcVal 0 (.mem 0 false) .i64) = .error (precise .poison) := by
  refine ⟨?_, ?_, ?_, ?_, ?_⟩ <;> rfl

theorem witness_ScalarMoveResults : okIs (u0.srcVal 0 (.mem 3 true) .i16) = true ∧ Runs u0 0 (.ldl ⟨3, true⟩ .i16) ∧
    okIs (u0.scrChk 0 ((u0.r 0).ptr 3) 8 8 true) = true ∧ okIs (u0.srcVal 0 .s .i64) = true ∧ Runs u0 0 (.stl ⟨3, true⟩ .s .i64) ∧
    Runs u0 0 (.cvt .bf16 .fp32 .s m0) ∧ okIs (u0.srcVal 0 .s .fp32) = true ∧ Runs u0 0 (.div false .s .fp32) ∧
    Runs u0 0 (.geo 3 .s) := by decide +kernel

theorem witness_PointerResults : ([.pset 7 .g (.long 0), .psetS 7 .k, .pstr 7 (.short 0x8000), .plim 7 (.long 0), .pswz 7 3,
    .padd 7 (.short 0xFFFF), .pget 7 3] : List Instr).all (fun i => decide (Runs u0 0 i)) = true := by decide +kernel

/-- The limit-aligned window of a base at its edge. -/
theorem witness_PointerAdvanceWraps : (⟨0x10F8, 8, 0x100, .l, 0⟩ : Ptr).advance = ⟨0x1000, 8, 0x100, .l, 0⟩ ∧
    (⟨0x1000, 0xFFFFFFF8, 0x100, .l, 0⟩ : Ptr).advance = ⟨0x10F8, 0xFFFFFFF8, 0x100, .l, 0⟩ ∧
    (⟨0xFFFFFFFFFFFFFFFF, 1, 0, .g, 0⟩ : Ptr).advance = ⟨0, 1, 0, .g, 0⟩ := by decide +kernel

/-- Home bytes at a, and a translation of the page of VA 0x4000_0000 to home page 0 for context 0. -/
def withM (a : Nat) (bs : List Byte) (s : State) : State :=
  s.modH fun h => { h with mem := (List.range bs.length).foldl (fun m i => m.write (a + i) (bs.getD i 0)) h.mem }
def pte (cc : Nat) : W64 := BitVec.ofNat 64 (0xDF + cc * 256)
def withPage (pte : W64) (s : State) : State := s.modH fun h => { h with tlb := [⟨0, tslice 0x40000000 0, 0, 0, 0x40000, 12, pte⟩] }

theorem witness_BranchConditions : Runs u0 0 (.br .eq (.rel 0x10000)) ∧ Cond.eq.holds (u0.r 0).fl = false ∧
    Cond.al.holds (u0.r 0).fl = true ∧ Runs u0 0 (.cmpImm (.long 1)) ∧ Runs u0 0 (.subImm (.long 1)) ∧
    (let s := withPage 0xDF (withM 0 [0, 0, 0x7C, 0x18] (u0.modR 0 fun r => { r with pc := 0x40000000 }))
     s.agenda = [] ∧ s.settle.mayIssue 0 = true ∧ s.settle.pendNow 0 = [] ∧ s.settle.follows 0 = false ∧
     okAnd (s.settle.fetch 0) (fun e => e.1 == [(0 : BitVec 3) ++ (0x30 : BitVec 6) ++ (15 : BitVec 4) ++ (0x10000 : BitVec 17) ++ (0 : BitVec 2)]) = true) := by
  decide +kernel

theorem witness_JumpTargets : (0xFFFFFFFFFFFFFFFC : W64) &&& 3 = 0 ∧
    ([.jmp (.rel 0), .jmp (.abs 0xFFFFFFFFFFFFFFFC), .call (.rel 0), .call (.abs 4), .br .al (.abs 4), .ret, .brx .s] : List Instr).all
      (fun i => decide (Runs u0 0 i)) = true ∧ (u0.r 0).p7.base &&& 3 = 0 ∧ okAnd (u0.brxVal 0 .s) (fun v => v &&& 3 == 0) = true ∧
    -- a condition that does not hold, before a literal
    Runs u0 0 (.br .eq (.abs 4)) ∧ Cond.eq.holds (u0.r 0).fl = false := by
  decide +kernel

theorem witness_MisalignedTargetTraps :
    let s := withPtr 7 ⟨2, 0, 0, .l, 0⟩ (withS 2 u0)
    (2 : W64) &&& 3 ≠ 0 ∧ ([.jmp (.abs 2), .call (.abs 2), .br .eq (.abs 2), .ret, .brx .s] : List Instr).all (fun i => decide (Runs s 0 i)) = true ∧
      (s.r 0).p7.base = 2 ∧ okAnd (s.brxVal 0 .s) (fun v => v == 2) = true := by decide +kernel

theorem witness_RepStarts :
    let s := withPage (pte 0) ((withM 0 [0, 0, 0, 0x19] u0).modR 0 fun r => { r with pc := 0x40000000 })
    Runs s 0 (.rep 1 15 (.imm 1)) ∧ Runs s 0 (.rep 0 0 .s) ∧ (s.r 0).s.extractLsb' 0 32 = 0 ∧
      okIs (s.skipBody 0 1 ((s.r 0).pc + 4)) = true := by decide +kernel

/-- The first, the middle and the last position, in the first and in the last pass. -/
theorem witness_RepetitionOrder : u0.follows 0 = false ∧ (u0.r 0).rep.act = false ∧
    ([(0, 0), (0, 1), (1, 0), (1, 1)] : List (W32 × BitVec 4)).all (fun e => (inRep e.1 2 1 e.2 0 u0).follows 0 == false &&
      ((inRep e.1 2 1 e.2 0 u0).r 0).rep.act) = true ∧
    ((deliver (inRep 0 2 1 1 0 u0) 0 .ret (.done (inRep 0 2 1 1 0 u0))).r 0).pc = 0x1000 ∧
    ((deliver (inRep 1 2 1 1 0 u0) 0 .ret (.done (inRep 1 2 1 1 0 u0))).r 0).rep.act = false := by decide +kernel

theorem witness_DivisionRule : let s := withS 0x8000000000000000 u0
    ([0, 1, 0xFFFFFFFFFFFFFFFF] : List W64).all (fun d => decide (Runs s 0 (.divImm false (.long d))) && decide (Runs s 0 (.remImm true (.long d)))) = true ∧
    (s.r 0).s = BitVec.intMin 64 := by decide +kernel

/-- A sum that wraps: carry, zero, no overflow. -/
theorem test_add_wraps : ∀ t, exec (.addImm (.short 1)) (withS 0xFFFFFFFFFFFFFFFF u0) = .next t →
    (t.r 0).s = 0 ∧ (t.r 0).fl = ⟨true, false, true, false⟩ ∧ (t.r 0).pc = 4 := by
  intro t h; injection h with h; subst h; decide +kernel

/-- The most negative value by -1 (R72). -/
theorem test_div_corner : ∀ t, exec (.divImm false (.short 0xFFFF)) (withS 0x8000000000000000 u0) = .next t →
    (t.r 0).s = 0x8000000000000000 := by
  intro t h; injection h with h; subst h; decide +kernel

/-- The fates of R117: what decodes, what does not, and what is refused on the compute sequencer at level U. -/
theorem test_fates_of_R117 : (match decode [0x23047000] with | .ok i => decide (Runs u0 0 i) && !decide (Runs (turnOf 1 u0) 1 i) | .bad _ => false) = true ∧
    ([[0x23047E00], [0x23047001, 0, 0], [0x13800000], [0xE0000002, 0, 0]] : List (List W32)).all
      (fun ws => match decode ws with | .ok _ => false | .bad _ => true) = true ∧
    (match decode [0xA0000000] with | .ok i => isW i && (u0.refuses 0 i).isSome | .bad _ => false) = true ∧
    (match decode [0xC0800000] with | .ok i => ((u0.refuses 0 i).map fun e => e.1.code) == some .priv | .bad _ => false) = true := by decide +kernel

/-! ## Witnesses: vector and memory statements -/

def vecAll (x y : Opnd) (t : ElemTy) : List Instr :=
  (Says.vecRow t m0 false 3 x y).map Prod.fst ++ (Says.unRow t t m0 false 3 x).map Prod.fst

/-- The clauses of a vector source, at the end of the window and beyond. -/
theorem witness_VectorSourceValues :
    okIs ((withPtr 0 ⟨65520, 0, 0, .l, 0⟩ u0).vsrc 0 (.mem 0 false) .i8) = true ∧
    (withPtr 0 ⟨65528, 0, 0, .l, 0⟩ u0).vsrc 0 (.mem 0 false) .i8 = .error (precise .window) ∧
    (withPtr 0 ⟨65504, 0, 0, .l, 0⟩ u0).vsrc 0 (.mem 0 false) .fp32 = .error (precise .window) ∧
    (withPtr 0 ⟨65496, 0, 0, .l, 0⟩ u0).vsrc 0 (.mem 0 false) .i8 = .error (precise .misalign) ∧
    (withPtr 0 ⟨0, 0, 0, .k, 0⟩ u0).vsrc 0 (.mem 0 false) .i8 = .error (precise .priv) ∧
    (withPtr 0 ⟨0, 0, 0, .b, 0⟩ u0).vsrc 0 (.mem 0 false) .i8 = .error (precise .window) ∧
    (u0.modCo 0 fun c => { c with spois := [(0, true)] }).vsrc 0 (.mem 0 false) .i8 = .error (precise .poison) := by
  refine ⟨by decide +kernel, ?_, ?_, ?_, ?_, ?_, ?_⟩ <;> rfl

theorem witness_VectorTwoSources : ((vecAll (.mem 0 true) (.acc 1) .fp32 ++ vecAll .s (.lit 0) .ui8).all fun i => decide (Runs u0 0 i)) = true ∧
    okIs (u0.vsrc 0 (.mem 0 true) .fp32) = true ∧ okIs (u0.vsrc 0 (.acc 1) .fp32) = true ∧ okIs (u0.vsrc 0 .s .ui8) = true := by
  decide +kernel

theorem witness_VectorOneSource : okIs (u0.vsrc 0 (.acc 3) .bf16) = true ∧ Runs u0 0 (.vperm 0 (.acc 3) .s .bf16) ∧
    Runs u0 0 (.vperm 0 (.acc 3) (.lit 0) .bf16) ∧ okIs (u0.scrVal 0 ((u0.r 0).ptr 7) 2 2 false) = true ∧ Runs u0 0 (.vbcast 0 (.mem 7 true) .bf16) ∧
    Runs u0 0 (.vbcast 0 .s .bf16) ∧ okIs (u0.vsrc 0 .s .bf16) = true := by decide +kernel

theorem witness_VectorToScalarResults : Runs u0 0 (.vred (.acc 0) .fp32 .rd) ∧ Runs u0 0 (.vred (.mem 0 true) .ui32 .rne) ∧
    okAnd (u0.vsrc 0 (.mem 0 true) .ui32) (fun l => l.length == 16) = true ∧ Runs u0 0 (.vmaxi (.mem 0 true) .ui32) ∧
    okIs (u0.nzElems 0 (.mem 0 true) .fp32) = true ∧ Runs u0 0 (.vpop (.mem 0 true) .fp32) ∧ Runs u0 0 (.vmeta 3 0xFFFF) := by decide +kernel

theorem witness_VectorMaskResults : okAnd (u0.vsrc 0 (.acc 0) .fp16) (fun l => l.length == 16) = true ∧
    (List.range 4).all (fun p => decide (Runs u0 0 (.vcmp (BitVec.ofNat 2 p) (.acc 0) (.acc 0) .fp16))) = true ∧
    okIs (u0.srcVal 0 .s .i64) = true ∧ Runs u0 0 (.vmset .s) ∧ okAnd (u0.nzElems 0 (.acc 0) .fp16) (fun l => l.length == 16) = true ∧
    Runs u0 0 (.vmsetNz (.acc 0) .fp16) ∧ Runs u0 0 .vmsetNot ∧ Runs u0 0 .vmsetRead := by decide +kernel

theorem witness_VectorMemoryResults : let s := withPtr 2 ⟨64, 0, 0, .l, 0⟩ u0
    okIs (s.vmem 0 1 .fp32 true) = true ∧ Runs s 0 (.vld 0 ⟨1, true⟩ .fp32) ∧ okIs (s.scrChk 0 ((s.r 0).ptr 2) 64 64 true) = true ∧
    okIs (s.vsrc 0 (.acc 0) .fp32) = true ∧ Runs s 0 (.vst ⟨2, true⟩ (.acc 0) .fp32 ⟨true, .ru⟩) ∧
    scrCheck ((s.r 0).ptr 2) (s.lvlK 0) (s.winSize 0) 16 = none ∧ scrCheck ((s.r 0).ptr 1) (s.lvlK 0) (s.winSize 0) 32 = none ∧
    okIs (State.consume (s.scrAt 0 ((s.r 0).ptr 1) 32)) = true ∧ Runs s 0 (.vcprs 0 ⟨2, true⟩ ⟨1, true⟩ .i8) ∧
    okAnd (s.packChk 0 ((s.r 0).ptr 2) ((s.r 0).ptr 1) 16 80) (fun bs => bs.all fun b => (tritOf false b).isSome) = true ∧
    Runs s 0 (.vpackt ⟨2, true⟩ ⟨1, true⟩ false) ∧
    okAnd (s.packChk 0 ((s.r 0).ptr 2) ((s.r 0).ptr 1) 80 16) (fun bs => bs.all fun b => b.toNat < 243) = true ∧
    Runs s 0 (.vunpkt ⟨2, true⟩ ⟨1, true⟩) := by decide +kernel

/-- Pointer 1 names VA 0x4000_0000, whose page is of class cc. -/
def uG (cc : Nat) : State := withPage (pte cc) (withPtr 1 ⟨0x40000000, 0, 0, .g, 0⟩ u0)

theorem witness_GlobalAccessIssues : let s := uG 0
    okIs (s.gAccess 0 (some ((s.r 0).ptr 0)) ((s.r 0).ptr 1) 64 .read false) = true ∧ Runs s 0 (.ldg .v ⟨0, true⟩ ⟨1, true⟩) ∧
    Runs s 0 (.ldh .v ⟨0, true⟩ ⟨1, true⟩) ∧ okIs (s.gAccess 0 (some ((s.r 0).ptr 0)) ((s.r 0).ptr 1) 64 .write true) = true ∧
    Runs s 0 (.stg .v ⟨1, true⟩ (.mem 0 true)) ∧ okIs (s.gAccess 0 none ((s.r 0).ptr 1) 8 .write true) = true ∧
    Runs s 0 (.stg (.ty .i64) ⟨1, true⟩ .s) ∧
    let t := (uG 3).modH fun h => { h with rowSize := [(0, 1024)] }
    okAnd (t.place1 0 0x40000000 .rowRead) (fun e => t.rowSize e.1.ha == 1024) = true ∧ spaceChk ((t.r 0).ptr 0) (t.lvlK 0) = none ∧
    rangeChk ((t.r 0).ptr 0) (t.winSize 0) 1032 = none ∧ Runs t 0 (.ldrow true ⟨0, true⟩ ⟨1, true⟩) := by decide +kernel

theorem witness_GlobalAccessChecks :
    u0.gAccess 0 none ⟨0, 0, 0, .b, 0⟩ 8 .read false = .error (precise .window) ∧
    u0.gAccess 0 none ⟨0, 0, 0, .k, 0⟩ 8 .read false = .error (precise .priv) ∧
    okIs ((uG 0).translateAll ((uG 0).who 0) 0x40000001 8 .read) = true ∧ okIs ((uG 7).translateOne ((uG 7).who 0) 0x40000000 .read) = false ∧
    okAnd ((uG 0).translateOne ((uG 0).who 0) 0x40000FF8 .read) (fun e => !isMmio e.1.ha) = true := by
  refine ⟨?_, ?_, ?_⟩
  · rfl
  · rfl
  · decide +kernel

theorem witness_MaintenanceResults : let s := uG 0
    ((s.r 0).ptr 1).space = .g ∧ okAnd (s.pages 0 0x40000000 65535 .maint) (fun e => !e.2.ownStores 0 fun _ => true) = false ∧
    okAnd (s.pages 0 0x40000000 4096 .maint) (fun e => !e.2.ownStores 0 fun _ => true) = true ∧ Runs s 0 (.rwb 1 (.imm 4096)) ∧
    Runs s 0 (.rinv 1 .s) := by decide +kernel

theorem witness_OrderingResults : ([.smtest 15 (.short 0), .smclr 15 (.long 0), .smwait 0 (.short 0), .smwait 0 (.short 1), .wait .nc 0, .pwait .h .x,
    .pwait .c .c] : List Instr).all (fun i => decide (Runs u0 0 i)) = true ∧
    Mask.bits (.short 0) &&& (u0.cx 0).reg.map 0 = Mask.bits (.short 0) ∧ Mask.bits (.short 1) &&& (u0.cx 0).reg.map 0 ≠ Mask.bits (.short 1) ∧
    (let s := u0.modN 0 fun n => { n with nc := 1 }
     (s.cx 0).n.get .nc = 1 ∧ Runs s 0 (.wait .nc 0)) := by decide +kernel

/-- A `wait` that has stalled, its counter at its bound after another agent's step. -/
theorem witness_OrderingResults_release : ∃ u, stepFrom { u0.modSq 0 fun q => { q with waitAt := some (.nc, 0) } with turn := .awl 0 } = .next u ∧
    (u.sq 0).waitAt = some (.nc, 0) ∧ (u.cx 0).n.get .nc ≤ 0 := ⟨_, rfl, by decide +kernel, by decide +kernel⟩

/-- A dirty line of the core's cache, clean elsewhere; and a reservation that holds its home back. -/
def line0 (dirty : BitVec 64) : CLine := ⟨0, 0, true, dirty, 0, 0, 0, 0⟩
def uC (dirty : BitVec 64) (s : State) : State := s.modCo 0 fun c => { c with cache := [line0 dirty], lsplit := 1 }

theorem witness_PhaseResults : let s := uC 1 u0
    Runs s 0 (.phase .bench) ∧ Runs s 0 (.phase .dom) ∧ s.closeHome 0 true ≠ [] ∧ (∀ l ∈ s.closeHome 0 true, s.writeHeld l = false) ∧
    (let t := s.modH fun h => { h with resv := [⟨0, 5⟩] }
     Runs t 0 (.phase .dev) ∧ ∃ l ∈ t.closeHome 0 true, t.writeHeld l = true) := by decide +kernel

theorem no_frr {h : Homes} (e : h.frrs = []) (a : Nat) : h.discards a = false := by simp [Homes.discards, e]

/-- Dirty bytes, the first and the last of a line: the core's, at each scope, with a pool and without; and the pool's. -/
theorem witness_PhaseResults_bytes :
    let s := (uC 0x8000000000000001 u0).modBe 0 fun b => { b with bpool := 3, pool := [⟨{ line0 1 with line := 1 }, 0⟩] }
    (∀ l ∈ s.closeHome 0 true, s.writeHeld l = false) ∧ (∀ l ∈ s.closeHome 0 false, s.writeHeld l = false) ∧ s.hasPool 0 = true ∧
    u0.hasPool 0 = false ∧ (s.co 0).cache = [line0 0x8000000000000001] ∧ State.phased (line0 1).cc = true ∧ isLehr 0 = false ∧ isLehr 64 = false ∧
    s.h.late = [] ∧ (s.be 0).pool = [⟨{ line0 1 with line := 1 }, 0⟩] ∧ (line0 0x8000000000000001).writes.map Prod.fst = [0, 63] ∧
    ({ line0 1 with line := 1 } : CLine).writes.map Prod.fst = [64] ∧ ∀ h : Homes, h.frrs = s.h.frrs → h.discards 63 = false ∧ h.discards 64 = false :=
  ⟨by decide +kernel, by decide +kernel, by decide +kernel, by decide +kernel, by decide +kernel, by decide +kernel, by decide +kernel, by decide +kernel,
   by decide +kernel, by decide +kernel, by decide +kernel, by decide +kernel, fun _ e => ⟨no_frr e _, no_frr e _⟩⟩

/-- The token of the block at VA 0x4000_0000 (block 0) is held by context 0, or by context 4. -/
def uT (c : Nat) (q : List Nat) : State := (uG 2).modH fun h => { h with tok := [(0, ⟨some c, q⟩)] }

theorem witness_TokenResults : okAnd ((uT 0 []).tokBlock 0 1) (fun e => e.1 == 0 && (e.2.tok 0).holder == some 0 && !e.2.tokBusy 0 0) = true ∧
    okAnd ((uT 4 []).tokBlock 0 1) (fun e => (e.2.tok 0).holder == some 4 && !(e.2.tok 0).queue.contains 0) = true ∧
    Runs (uT 0 []) 0 (.tokacq 1) ∧ Runs (uT 0 []) 0 (.tokpass 1) ∧ Runs (uT 4 []) 0 (.tokacq 1) ∧ Runs (uT 4 []) 0 (.tokpass 1) ∧
    (let s := (uG 2).modH fun h => { h with tok := [(0, ⟨none, [4, 8]⟩)] }
     (s.tok 0).holder = none ∧ (s.tok 0).queue = [4, 8] ∧ s.savedName 4 = none) := by decide +kernel

/-- Queue `ac` with n entries. -/
def uQ (n k : Nat) : State := turnOf k (u0.modQ 0 fun q => { q with ac := List.replicate n ⟨0, 0⟩ })

theorem witness_QueueResults : qOf 2 = 2 ∧ (uQ 31 2).walkFeeds 0 .ac = false ∧ okIs ((uQ 31 2).qOperand 2 (.mem 0 true)) = true ∧
    ((uQ 31 2).cx 0).q.spill .ac = [] ∧ ((uQ 31 2).cx 0).q.ac.length = 31 ∧ Runs (uQ 31 2) 2 (.qpush .ac (.mem 0 true)) ∧
    (uQ 32 2).spillOff 0 = true ∧ Runs (uQ 32 2) 2 (.qpush .ac (.mem 0 true)) ∧ Runs (uQ 0 0) 0 (.qpush .cm (.acc 0)) ∧ Runs (uQ 0 0) 0 (.qpush .ac (.acc 0)) ∧
    Runs (uQ 0 0) 0 (.qpop .ac (.acc 0)) ∧ Runs (uQ 1 0) 0 (.qpop .ac (.acc 3)) ∧ Runs (uQ 1 0) 0 (.qpop .ac (.mem 0 true)) ∧
    Runs (uQ 1 1) 1 (.qpop .ac (.mem 0 true)) ∧ Runs (uQ 32 2) 2 (.qstat .ac) := by decide +kernel

def xl0 : Xl := ⟨0, 0, false, 0⟩
def ld0 : Load := ⟨7, 0, .plain, xl0, 8, ⟨false, 0, 0, 0⟩, none⟩
def st0 (cached : Bool) : Store := ⟨7, 0, cached, ⟨56, 0, false, 0⟩, [(56, clean [1, 2, 3, 4, 5, 6, 7, 8])], []⟩

theorem witness_LoadLandingResults : let s := u0.modF 0 fun f => { f with loads := [ld0] }
    ((s.cx 0).f.loads.find? fun m => m.id == ld0.id && s.loadDue 0 m) = some ld0 := by decide +kernel

theorem witness_StoreAcceptanceResults : [true, false].all (fun b => let s := u0.modF 0 fun f => { f with stores := [st0 b] }
    ((s.cx 0).f.stores.find? fun m => m.id == (st0 b).id && s.storeDue 0 m) == some (st0 b) && !isMmio 56 && ((uC 0 s).co 0).hasCache &&
    !s.h.discards 56 && !s.h.discards 63) = true := by decide +kernel

theorem witness_EvictionAndArrival : let s := uC 3 u0
    (s.co 0).cache.find? (fun x => x.line == 0) = some (line0 3) ∧ (s.inPool 0 && s.hasPool 0) = false ∧ s.pooled 0 = false ∧ s.writeHeld 0 = false ∧ (s.be 0).find 0 = none ∧ (∀ e ∈ s.h.late, e.line ≠ 0) ∧
    (line0 3).isDirty = true ∧ (line0 0).isDirty = false ∧ (∀ w ∈ (line0 3).writes, s.h.discards w.1 = false) ∧
    (let t := (uC 3 u0).modBe 0 fun b => { b with bpool := 3 }
     t.pooled 0 = true ∧ (t.be 0).find 0 = none ∧ (t.be 0).pool.length < t.poolLines 0 ∧ t.current (line0 3) = true) ∧
    (let t := (uC 3 u0).modBe 0 fun b => { b with bpool := 3 }
     let t := (t.modH fun h => { h with mem := h.mem.write 63 7 })
     t.pooled 0 = true ∧ t.current (line0 1) = false ∧ (line0 1).isDirty = true ∧ (line0 0).isDirty = false) ∧
    (let t := u0.modBe 0 fun b => { b with pool := [⟨line0 3, 0⟩] }
     (t.co 0).find 0 = none ∧ (t.be 0).find 0 = some ⟨line0 3, 0⟩ ∧ t.writeHeld 0 = false) ∧
    (let t := s.modH fun h => { h with resv := [⟨0, 5⟩] }
     t.writeHeld 0 = true) ∧
    isMmio 63 = false ∧ isLehr 63 = false ∧ s.h.discards 63 = false ∧ s.rowSize 0 = 0 := by decide +kernel

/-! ## Witnesses: exchange phases -/

/-- A phase of cores 0 and 1 with this one entry (of slot 0), as core 0 and core 1 hold it. -/
def xch (sid windows : Nat) (opened : Bool) (e : XEnt) : Exch :=
  ⟨sid, false, 3, 0, [e], 0, 0, true, 0, opened, windows, none, false, false⟩
def withX (m : Nat) (x : Exch) (s : State) : State := s.modCo m fun c => { c with xch := some x }

/-- A pattern table at L 0: one entry, a send of slot 0 to core 1. -/
def table1 : List Byte := bvLe 8 (1 : W64) ++ bvLe 8 (1 : W64)
def exo1 : ExoOp := ⟨⟨0, true⟩, false, 3, 0⟩

theorem witness_ExchangeOpens : let s := withL 0 table1 u0
    Runs s 0 (.exo exo1) ∧ (s.sq 0).xabort = 0 ∧ (s.co 0).xch = none ∧ (s.cx 0).xowed = false ∧ okIs ((s.xchOrder 0).exoTable 0 exo1) = true ∧
    1 ∈ State.xchCores 0 false 3 ∧ (s.co 1).xch = none ∧
    (let t := s.modCx 0 fun c => { c with xowed := true }
     Runs t 0 (.exo exo1) ∧ (t.sq 0).xabort = 0 ∧ (t.co 0).xch = none ∧ (t.cx 0).xowed = true) ∧
    [0, 1].all (fun w => let t := withX 0 (xch 0 w false ⟨0, false, 0, 1⟩) s
      decide (Runs t 0 (.exo exo1)) && (t.co 0).xch == some (xch 0 w false ⟨0, false, 0, 1⟩)) = true := by decide +kernel

/-- Each kind of entry, before its slot's window and in it, with a pointer to the window's last 64 bytes. -/
theorem witness_ExchangeTransfers : ([(0, Instr.exs ⟨0, true⟩ 0), (1, .exr ⟨0, true⟩ 0), (2, .exs ⟨0, true⟩ 0), (3, .exr ⟨0, true⟩ 0),
    (4, .exred true ⟨0, true⟩ 0), (5, .exred true ⟨0, true⟩ 0)] : List (Nat × Instr)).all (fun e => [0, 1].all fun w =>
      let x := xch 0 w true ⟨0, decide (4 ≤ e.1), e.1, if e.1 < 2 then 1 else 0⟩
      let s := withX 0 x (withPtr 0 ⟨65472, 0, 0, .l, 0⟩ u0)
      decide (Runs s 0 e.2) && (s.sq 0).xabort == 0 && (s.co (coreK 0)).xch == some x && x.sid == 0 && x.tbl[x.next]?.isSome &&
      decide (((s.r 0).ptr 0).base.toNat + 64 ≤ s.winSize 0) && ((s.r 0).ptr 0).base.toNat % 16 == 0) = true ∧
    (let x := { xch 0 1 true ⟨0, false, 5, 0⟩ with sent := true, landed := true }
     let s := withX 0 x u0
     Runs s 0 (.exred false ⟨0, false⟩ 0) ∧ (s.co 0).xch = some x ∧ x.windows > 0) ∧
    (let x := { xch 0 1 true ⟨0, false, 1, 1⟩ with landed := true }
     let s := withX 0 x u0
     Runs s 0 (.exr ⟨0, false⟩ 0) ∧ (s.co 0).xch = some x) := by decide +kernel

theorem witness_ExchangeEndsAndTraps :
    ((u0.co 0).xch = none ∧ (u0.cx 0).xowed = false ∧ (u0.sq 0).xabort = 0 ∧
      ([.exc, .exr ⟨0, true⟩ 0, .exs ⟨0, true⟩ 0, .exred false ⟨0, true⟩ 0] : List Instr).all (fun i => decide (Runs u0 0 i)) = true) ∧
    (let x := xch 0 1 true ⟨0, false, 1, 1⟩
     let s := withX 0 x u0
     x.next < x.tbl.length ∧ Runs s 0 .exc ∧ Runs s 0 (.exr ⟨0, false⟩ 1) ∧ Runs s 0 (.exs ⟨0, false⟩ 1)) ∧
    (let x := { xch 0 1 true ⟨0, false, 1, 1⟩ with next := 1 }
     let s := withX 0 x u0
     x.tbl.length ≤ x.next ∧ Runs s 0 .exc) := by decide +kernel

/-- A ready phase; one in its first window; one whose receiver and whose ROOT wait. -/
theorem witness_ExchangeEvents :
    (let x := xch 0 0 false ⟨0, false, 0, 1⟩
     x.ready = true ∧ x.windows = 0) ∧
    (let x := { xch 0 1 true ⟨0, false, 0, 1⟩ with nslot := 1 }
     let s := withX 1 { x with sid := 12 } (withX 0 x u0)
     0 < x.windows ∧ x.windows ≤ x.nslot.toNat ∧ s.xchPeers 0 x = [0, 1] ∧
     (s.xchPeers 0 x).all (fun c => ((s.co c).xch.map Exch.windows) == some 1) = true) ∧
    (let x := { xch 0 1 true ⟨0, false, 1, 1⟩ with rx := some ⟨false, 0, 0, 0⟩ }
     let w : Xfer := ⟨0, 1, 0, 0, false, 0, clean (List.replicate 64 7), [0]⟩
     let s := (withX 0 x u0).modSch fun h => { h with xfers := [w] }
     x.tbl[x.next]? = some ⟨0, false, 1, 1⟩ ∧ coreK x.sid = 0 ∧
     s.sch.xfers.find? (fun w => w.pid == x.pid && w.slot == 0 && decide (w.kind < 4) && w.dsts.contains 0) = some w) ∧
    (let x := { xch 0 1 true ⟨0, true, 5, 0⟩ with rx := some ⟨false, 0, 0, 0⟩, sent := true }
     let w (c kind : Nat) : Xfer := ⟨0, c, 0, kind, true, 0, clean (List.replicate 64 7), [0]⟩
     let s := (withX 0 x u0).modSch fun h => { h with xfers := [w 8 4, w 0 5] }
     (s.xchPeers 0 x).all (fun c => decide (c = 0) || decide (meshCol c ≠ meshCol 0)) = true ∧
     (∃ w ∈ s.sch.xfers, w.pid = x.pid ∧ w.slot = 0 ∧ 4 ≤ w.kind ∧ w.dsts = [0] ∧ w.src = 0) ∧
     [w 0 5, w 8 4].Pairwise (fun a b => a.src < b.src) ∧ [w 0 5, w 8 4].Perm s.sch.xfers) := by
  refine ⟨by decide +kernel, by decide +kernel, by decide +kernel, by decide +kernel, by decide +kernel, by decide +kernel, ?_⟩
  exact List.Perm.swap _ _ _

/-! ## Witnesses: tile commands, JAF, copies -/

/-- A near-memory command. -/
def nm (opc n : Nat) (rec : List Byte) (dst src : List Xl) : NmCmd :=
  { id := 1, q := 0, opc := opc, bf16 := false, record := rec, recOff := 0, dst := dst, src := src, dva := 0x40000000, n := n, slot := ⟨false, 0, 0, 0⟩,
    win := 0, limit := 65536, out := none, result := [], dest := 0, holder := some 0, part := 0, walker := none, fate := .live }
def withNm (m : NmCmd) (s : State) : State := s.modF 0 fun f => { f with nms := [m] }
def near0 (cc : BitVec 3) : Xl := ⟨0, cc, true, 0⟩
/-- A near-memory command that owns home page 0. -/
def owned (s : State) : State := withNm { nm 0x13 1024 (List.replicate 8 7) [near0 0] [] with out := some [] } s

/-- A partition of 64 buckets in a mode, for context c. -/
def withJ (all i32 : Bool) (c : Nat) (s : State) : State := s.modJ c fun j => { j with part := some ⟨all, i32⟩ }
def way1 (row cblk : W32) (mask : W16) : Way := ⟨row, cblk, mask, ofLanes (List.replicate 16 0x3F800000)⟩
def withWay (i : Nat) (w : Way) (s : State) : State := s.modCo 0 fun c => { c with jaf := [(i, some w)] }

theorem witness_TileCommandResults : let s := withPtr 1 ⟨1024, 0, 0, .l, 0⟩ (withJ false false 0 u0)
    let o : MtileOp := ⟨⟨0, true⟩, ⟨1, true⟩, .e4m3, false, false, 0, false, false, 0, 5, 6, some (0x8001, 0xFFFF)⟩
    Runs s 0 (.mtile o) ∧ Runs s 0 (.mtile { o with masks := some (1, 0) }) ∧
    okAnd (s.tileCheck 0 o ((s.r 0).ptr 0) ((s.r 0).ptr 1)) (fun e => match e.2.tileRun 0 e.1 with | .go _ ts => ts.length == 2 | _ => false) = true ∧
    ((s.cx 0).j.part.map JPart.i32) = some false ∧ ((s.r 0).ptr 1).space = .l ∧ ((s.r 0).ptr 1).base.toNat + 1024 ≤ s.winSize 0 ∧
    (Says.seenAt s 0 .m 0 1024 ++ Says.seenAt s 0 .m 1 1024).all (fun b => !b.2) = true ∧
    -- a global A operand: with the core's pins free, and with another command's 64
    (let g := withPtr 0 ⟨0x40000000, 0, 0, .g, 0⟩ (withPage (pte 0) s)
     let t := (g.modCx 1 fun x => { x with tpins := (List.range 64).map fun i => (0, i) }).modJ 1 fun j => { j with cmds := [⟨0, 0, [], true, 9, true, [0]⟩] }
     okAnd (g.tileCheck 0 o ((g.r 0).ptr 0) ((g.r 0).ptr 1)) (fun e => (e.2.tilePins 0 e.1).map List.length == some 16 &&
       match e.2.tileRun 0 e.1 with | .go _ ts => ts.length == 2 | _ => false) = true ∧ Runs g 0 (.mtile o) ∧
     okAnd (t.tileCheck 0 o ((t.r 0).ptr 0) ((t.r 0).ptr 1)) (fun e => (e.2.tilePins 0 e.1).isNone) = true ∧ Runs t 0 (.mtile o)) := by
  decide +kernel

/-- 64 lines of one page; none; with the budget of the core, and with it spent. -/
theorem witness_TilePinning : let s := uG 0
    ((s.r 0).ptr 1).space = .g ∧ okAnd (s.pages 0 0x40000000 4096 .tile) (fun e => decide (e.2.pinned 0 + 64 ≤ 64)) = true ∧
    Runs s 0 (.tfetch 1 64) ∧ Runs s 0 (.trel 1 64) ∧
    (let t := s.modCx 0 fun x => { x with tpins := (List.range 64).map fun i => (0, i) }
     t.pinned 0 = 64 ∧ Runs t 0 (.tfetch 1 1)) := by decide +kernel

theorem witness_JafClaims : let s := withJ false true 1 u0
    (s.cx 0).j.parked = false ∧ (s.cx 0).n.mc = 0 ∧ ctxnK 0 = 0 ∧ Runs s 0 (.jinit false false) ∧ Runs s 0 (.jinit true true) ∧
    (∃ n < 4, n ≠ ctxnK 0 ∧ ∃ q, (s.cx (cidAt 0 n)).j.part = some q ∧ (true || q.all) = true) ∧
    ¬(∃ n < 4, n ≠ ctxnK 0 ∧ ((s.cx (cidAt 0 n)).j.part.map JPart.all).getD false = true) := by
  refine ⟨by decide +kernel, by decide +kernel, by decide +kernel, by decide +kernel, by decide +kernel, ⟨1, by decide, by decide, ⟨false, true⟩, ?_, rfl⟩,
    by decide +kernel⟩
  rfl

/-- The key 0, 0 at L 0, in bucket 0: absent with a free way, present, and with the overflow flag set. -/
theorem witness_JafAddResults : let s := withJ false false 0 u0
    let t := withWay 0 (way1 0 0 1) s
    let v := s.modCo 0 fun c => { c with ovf := [(0, true)] }
    (s.cx 0).j.part = some ⟨false, false⟩ ∧ (Says.seenAt s 0 .c 0 8).all (fun b => !b.2) = true ∧ (s.cx 0).j.parked = false ∧ (s.cx 0).j.cmds = [] ∧
    (s.cx 0).j.cur = none ∧ Says.maskOf s 0 ≠ 0 ∧ Runs s 0 (.jadd 3 ⟨0, true⟩ .fp32) ∧ Says.maskOf (s.modReg 0 fun g => { g with m := 0 }) 0 = 0 ∧
    ((t.co 0).findKey ⟨false, false⟩ 0 0 0).map Prod.fst = some 0 ∧ Runs t 0 (.jadd 3 ⟨0, true⟩ .fp32) ∧
    (s.co 0).findKey ⟨false, false⟩ 0 0 0 = none ∧
    ((JPart.probes ⟨false, false⟩ 0 0).find? fun w => ((s.co 0).way w).isNone) = some 0 ∧
    (v.co 0).findKey ⟨false, false⟩ 0 0 0 = none ∧ Tab.get false (v.co 0).ovf 0 = true ∧ Runs v 0 (.jadd 3 ⟨0, true⟩ .fp32) ∧ (v.cx 0).j.ringSize < 128 ∧
    (let r := (withPage (pte 0) v).modJ 0 fun j => { j with ringBase := 0x40000000, ringSize := 128 }
     Runs r 0 (.jadd 3 ⟨0, true⟩ .fp32) ∧ 128 * ((r.cx 0).j.ring.length + 1) ≤ (r.cx 0).j.ringSize ∧
     okAnd (r.translateAll (r.who 0) (r.cx 0).j.ringBase 128 .write) (fun e => e.1 != []) = true ∧
     r.walkHeld (r.whoJaf 0 0) (r.cx 0).j.next 128 .write = none ∧
     -- a page-table entry in a page that a near-memory command owns
     (let h := owned (r.modH fun h => { h with tlb := [] })
      (h.walkHeld (h.whoJaf 0 0) (h.cx 0).j.next 128 .write).isSome = true ∧ 0 < (h.cx 0).j.ringSize ∧
      128 * ((h.cx 0).j.ring.length + 1) ≤ (h.cx 0).j.ringSize ∧ (h.cx 0).j.ring = [])) := by decide +kernel

theorem witness_JafGetResults : let s := withJ false true 0 u0
    (s.cx 0).j.part = some ⟨false, true⟩ ∧ Runs s 0 (.jget 3 ⟨0, true⟩ .i32) ∧
    (withWay 0 (way1 0 0 1) s |>.co 0 |>.findKey ⟨false, true⟩ 0 0 0).isSome = true ∧ (s.co 0).findKey ⟨false, true⟩ 0 0 0 = none := by decide +kernel

/-- Two keys, in their order; an output that just fits, and one in G; the least rectangle. -/
theorem witness_JafDrainResults : let s := (withJ true false 0 u0).modCo 0 fun c => { c with jaf := [(0, some (way1 1 0 1)), (1, some (way1 0 5 2))] }
    let t := withPtr 2 ⟨65376, 0, 0, .l, 0⟩ s
    [way1 0 5 2, way1 1 0 1].Perm (s.jafEntries 0) ∧ (s.cx 0).n.mc = 0 ∧ ((t.r 0).ptr 2).base.toNat + 80 * 2 ≤ t.winSize 0 ∧
    ((t.r 0).ptr 2).base.toNat % 16 = 0 ∧ Runs t 0 (.jdrainT 2) ∧ ((t.r 0).ptr 2).base.toNat + 64 ≤ t.winSize 0 ∧ Runs t 0 (.jdrainD 2 0) ∧
    (let g := withPtr 2 ⟨0x40000000, 0, 0, .g, 0⟩ (withPage (pte 0) s)
     [160, 64].all (fun n => okAnd (g.pages 0 0x40000000 n .write) fun e => !e.2.pagesHeld e.1 0x40000000 0 n &&
       (e.1.map fun x => (x.ha, x.cc)) == [(0, 0)] && e.2.h.late.isEmpty && e.2.h.frrs.isEmpty) = true ∧ (g.cx 0).j.ring = [] ∧ isLehr 159 = false ∧
     Runs g 0 (.jdrainT 2) ∧ Runs g 0 (.jdrainD 2 0) ∧ ((g.r 0).ptr 2).space = .g ∧ ((g.r 0).ptr 2).base.toNat % 16 = 0) := by
  decide +kernel

theorem witness_JafStatusAndRing : let s := withJ false true 0 (uG 0)
    Runs s 0 .jstat ∧ Runs u0 0 .jstat ∧ (u0.cx 0).j.part = none ∧ ((s.co 0).ways ⟨false, true⟩ 0).length < 2 ^ 24 ∧
    (let t (n : Nat) (lim : W32) := (withPtr 1 ⟨0x40000000, 0, lim, .g, 0⟩ s).modJ 0 fun j =>
       { j with ring := List.replicate n ⟨⟨0, 0, 1, 0, false⟩, true, false⟩ }
     okAnd ((t 1 128).pages 0 0x40000000 128 .write) (fun e => !e.2.pagesHeld e.1 0x40000000 0 128) = true ∧ ((t 1 128).cx 0).j.cmds = [] ∧
     Runs (t 1 128) 0 (.jspill 1) ∧ okIs ((t 2 128).pages 0 0x40000000 128 .write) = true ∧ 128 < 128 * ((t 2 128).cx 0).j.ring.length ∧
     (((t 1 128).modJ 0 fun j => { j with parked := true, cmds := [⟨0, 0, [⟨0, 0, 3, 0, false⟩], false, 4, true, []⟩] }).cx 0).j.parked = true) := by
  decide +kernel

/-- Streams of one entry: a pair of k = 9 and an END. -/
def joinEnt (a b c : W32) : QEnt := ⟨ofLanes [a, b, c, 0, 0, 0, 0, 1], 0⟩

theorem witness_JoinResults : [9, 8].all (fun ky =>
    let s := (withJ false false 0 u0).modQ 0 fun q => { q with ac := [joinEnt 3 9 0x3F800000], mc := [joinEnt ky 0x21 0x40000000] }
    decide (Runs s 0 (.joins .ac .mc .fp32)) && (s.sq 0).joins == none && decide (consumer .ac = qOf 0) && decide (consumer .mc = qOf 0) &&
    (s.cx 0).q.spill .ac == [] && (s.cx 0).q.spill .mc == [] && lane (joinEnt 3 9 0).data 3 == 0 && lane (joinEnt 3 9 0).data 7 == 1 &&
    (s.cx 0).j.cmds == [] && (s.cx 0).j.cur == none) = true := by decide +kernel

theorem witness_JafApplication :
    let s (p : Bool) := (withWay 0 (way1 0 0 1) (withJ false false 0 u0)).modJ 0 fun j =>
      { j with cmds := [⟨0, 0, [⟨0, 0, 3, 0, false⟩], false, 4, true, []⟩], parked := p }
    ((s false).cx 0).j.part = some ⟨false, false⟩ ∧ (((s false).cx 0).j.cmds.find? fun x => x.src == 0) = some ⟨0, 0, [⟨0, 0, 3, 0, false⟩], false, 4, true, []⟩ ∧
    ((s true).cx 0).j.parked = true ∧ ((s false).cx 0).j.cur = none ∧
    (((s false).modJ 0 fun j => { j with cur := some 5 }).cx 0).j.cur = some 5 ∧ ((s false).co 0).findKey ⟨false, false⟩ (ctxnOf 0) 0 0 = some (0, way1 0 0 1) := by decide +kernel

/-- A copy of 512 B from G to L; with its follow-on; of nothing; with 256 in flight; and the counts that are not valid. -/
theorem witness_CopyIssueResults : let s := withJ false false 0 (uG 0)
    let o : CpyOp := ⟨⟨0, true⟩, ⟨1, true⟩, 3, false, false, 512, 0⟩
    let f : MtileOp := ⟨⟨0, false⟩, ⟨0, false⟩, .i8, false, false, 0, false, false, 0, 0, 0, none⟩
    let g : MtileOp := { f with ty := .e4m3 }
    Runs s 0 (.cpy o none) ∧ okIs (s.cpyChks 0 o 512) = true ∧ okAnd (s.cpySides 0 o 512) (fun e => okIs (e.2.2.tileCheck 0 g ((s.r 0).ptr 0) ((s.r 0).ptr 0))) = true ∧
    Runs s 0 (.cpy o (some g)) ∧ okIs (s.cpyChks 0 { o with count := 0 } 0) = true ∧ Runs s 0 (.cpy { o with count := 0 } none) ∧
    (let c : Copy := ⟨1, 0, o, 512, .scr 0 0 ⟨false, 0, 0, 0⟩, .glob 0 [], [], [], 0, [], [], [], 0⟩
     let t := s.modF 0 fun f => { f with copies := List.replicate 256 c }
     (t.cx 0).f.copies.length = 256 ∧ Runs t 0 (.cpy o none)) ∧
    (let t := withS 536870912 s
     Runs t 0 (.cpy { o with ls := true, count := 0 } none) ∧ 536870911 < (t.r 0).s.toNat % 2 ^ 32) ∧
    Runs s 0 (.cpy { o with sc := true, count := 511 } none) ∧ 511 % 512 ≠ 0 := by decide +kernel

/-- The last chunk of a copy, and one that is not. -/
theorem witness_CopyChunkResults : let c (n : Nat) : Copy := ⟨1, 0, ⟨⟨0, false⟩, ⟨1, false⟩, 3, false, false, 0, 0⟩, n, .scr 0 0 ⟨false, 0, 0, 0⟩,
      .glob 0x40000000 [xl0], [], [], 0, [], [], [], 0⟩
    [500, 513].all (fun n => let s := u0.modF 0 fun f => { f with copies := [c n] }
      ((s.cx 0).f.copies.find? fun y => y.id == 1) == some (c n) && s.chunkDue (c n) 0 && !(c n).op.sc) = true ∧
    (c 500).landed.length + 1 = ((c 500).n + 511) / 512 ∧ (c 513).landed.length + 1 ≠ ((c 513).n + 511) / 512 := by decide +kernel

/-- A copy under way from two pages, to d, of which some chunks have landed; and the state of its context. -/
def cp2 (sc : Bool) (n : Nat) (d : Side) (landed : List Nat) : Copy :=
  ⟨1, 0, ⟨⟨0, false⟩, ⟨1, false⟩, 3, sc, false, 0, 7⟩, n, d, .glob 0x40000000 [xl0, { xl0 with ha := 4096 }], landed, [], 0, [], [], [], 0⟩
def copying (x : Copy) : State := u0.modF 0 fun f => { f with copies := [x] }
def scr0 (off : Nat) : Side := .scr 0 0 ⟨false, 0, off, 0⟩
def far : Copy := cp2 false 4096 (.glob 0x40000000 [xl0]) [0, 1, 2, 3, 4, 5, 6]

/-- A destination off the 16-byte units, of which each chunk waits for the other; the last chunk of a page (without weight
expanders nothing is discarded: `no_frr`); and a scaled copy's, with room in the queue for its word and with none. -/
theorem witness_CopyChunkResults_more :
    ([(cp2 false 1024 (scr0 8) [], 0), (cp2 false 1024 (scr0 8) [], 1), (cp2 false 1024 (scr0 8) [0], 1), (cp2 false 1024 (scr0 8) [1], 0), (far, 7),
      (cp2 true 512 (scr0 0) [], 0)] : List (Copy × Nat)).all (fun e => (((copying e.1).cx 0).f.copies.find? fun y => y.id == e.1.id) == some e.1 &&
        (copying e.1).chunkDue e.1 e.2) = true ∧
    (scr0 8).offset % 16 ≠ 0 ∧ (cp2 false 1024 (scr0 8) []).edge 1 = 520 ∧ far.dst.offset % 16 = 0 ∧
    0x40000000 % 4096 + far.edge 7 + ((copying far).chunkBytes 0 far 7).length = 4096 ∧ (xlAt [xl0] 0x40000000 3584).cc ≠ 4 ∧ isLehr 4095 = false ∧
    (copying far).h.late = [] ∧ (copying far).h.frrs = [] ∧ xl0.ha % 4096 = 0 ∧
    (let x := cp2 true 512 (scr0 0) []
     let t := (copying x).modQ 0 fun q => { q with scale := List.replicate 64 ⟨0, 0, 0, false⟩ }
     ((copying x).cx 0).f.copies = [x] ∧ x.words = 0 ∧ ((copying x).cx 0).q.scale = [] ∧ (t.cx 0).f.copies = [x] ∧ t.chunkDue x 0 = true ∧
     64 ≤ (t.cx 0).q.scale.length) := by decide +kernel

theorem witness_CopyEventResults :
    let c : Copy := ⟨1, 0, ⟨⟨0, false⟩, ⟨1, false⟩, 3, true, false, 512, 0⟩, 512, .scr 0 0 ⟨false, 0, 0, 0⟩,
      .glob 0x40000000 [{ xl0 with cc := 6 }], [], [(0, 7, false)], 0, [], [], [], 0⟩
    let s := u0.modF 0 fun f => { f with copies := [c] }
    ((s.cx 0).f.copies.find? fun y => y.op.sc && decide (y.words < (y.n + 511) / 512)) = some c ∧ (s.cx 0).q.scale.length < 64 ∧
    (c.scales.find? fun e => e.1 == c.words) = some (0, 7, false) ∧ (s.moverCopy (.ctx 0 1)).map Prod.fst = some c ∧ c.poolPage (.src 0) = true ∧ PieceAt.src 0 ∉ c.parked ∧ PieceAt.src 0 ∉ c.lost ∧
    (let d : Copy := { c with dst := .glob 0x40000000 [{ xl0 with cc := 6 }], parked := [.dst 0] }
     let t := u0.modF 0 fun f => { f with copies := [d] }
     (t.moverCopy (.ctx 0 1)).map Prod.fst = some d ∧ PieceAt.dst 0 ∈ d.parked ∧ d.poolPage (.dst 0) = true) ∧
    (let o : MtileOp := ⟨⟨0, false⟩, ⟨0, false⟩, .e4m3, false, false, 0, false, false, 0, 0, 0, none⟩
     let f : Follow := ⟨1, 0, ⟨o, (u0.r 0).ptr 0, (u0.r 0).ptr 0, [], [], 0⟩, false⟩
     let t := u0.modF 0 fun x => { x with follows := [f] }
     (t.cx 0).f.follows = [f] ∧ f.held = false ∧ t.followReady 0 f = true ∧ (t.followWait 0 f).tilePins 0 f.tile = some [] ∧
     (match (t.followWait 0 f).tileRun (sidAt 0 0) f.tile with | .go _ ts => ts.length == 16 | _ => false) = true) := by decide +kernel

/-! ## Witnesses: offers and near-memory commands -/

/-- VA 0x4000_0000 at pointer 5, whose page of class cc takes offers; the slot at L 0; the value at pointer 2, L 64. -/
def uO (cc : Nat) : State :=
  withPtr 2 ⟨64, 0, 0, .l, 0⟩ (withPtr 5 ⟨0x40000000, 0, 0, .g, 0⟩ (withPage (pte cc + 0x800) u0))
def of1 (ty : ElemTy) (v : OVal) : OfferOp := ⟨⟨5, true⟩, ⟨0, true⟩, ty, false, v⟩
/-- A slot with a declined `oadd.i32` that has its operands. -/
def declinedSlot : List Byte := [0x49, 0, 0x84, 0, 0, 0, 0, 0]

theorem witness_OfferIssues : let s := withL 0 declinedSlot ((uO 0).modH id)
    let t := (uO 3).modH fun h => { h with rowSize := [(0, 64)] }
    ([(Instr.oadd (of1 .i32 .s), 0), (.oand (of1 .i32 .s), 1), (.oor (of1 .i32 .s), 2), (.omin (of1 .i32 .s), 3), (.omax (of1 .i32 .s), 4),
      (.oxch (of1 .i32 .s), 5), (.ocas (of1 .i32 (.mem 2 true)), 6), (.ofin (of1 .i32 .s) 0, 8), (.owait (of1 .i32 .s), 9)] : List (Instr × Nat)).all
      (fun e => let v : OVal := if e.2 = 6 then .mem 2 true else .s
        decide (Runs s 0 e.1) && okIs (s.offerChks 0 (of1 .i32 v) 4 (if e.2 = 6 then 16 else 4) 32) &&
        okAnd (s.offerPlace 0 (of1 .i32 v) e.2 0) fun p => !(p.2.2.cx 0).slotBusy (ctxnK 0) (s.loc 0 ((s.r 0).ptr 0)) 32 (fun _ => true) &&
          okIs (p.2.2.oval 0 v (if e.2 = 6 then 16 else 4) (if e.2 = 6 then 16 else 4))) = true ∧
    (let o := of1 .bf16 (.mem 2 true)
     okIs (t.offerChks 0 o 64 64 96) = true ∧ okAnd (t.offerPlace 0 o 7 64) (fun p => okIs (p.2.2.oval 0 o.v 64 64)) = true ∧
     Runs t 0 (.orow o true 64)) := by decide +kernel

/-- The word at home address 0x40, an offer to it and the state in which it is on its way. -/
def of2 (opc : Nat) (ty : ElemTy) : Offer :=
  ⟨1, 0, opc, 0, ty, false, false, 0x40000040, ⟨0x40, 0, true, 0⟩, ty.bytes, List.replicate ty.bytes 1, List.replicate ty.bytes 2, 0,
   ⟨false, 0, 0, 0⟩, 0, none, .sent, .live⟩
def sent (o : Offer) : State := u0.modF 0 fun f => { f with offers := [o] }

theorem witness_OfferFunctions : ([.i32, .ui32, .i64, .fp32] : List ElemTy).all (fun ty => (of2 0 ty).size == ty.bytes && (of2 0 ty).val.length == ty.bytes) = true ∧
    (of2 6 .i64).val2.length = 8 ∧ opRef (of2 4 .i32) [0, 0, 0, 0x80] = [1, 1, 1, 1] ∧ opRef (of2 4 .ui32) [0, 0, 0, 0x80] = [0, 0, 0, 0x80] ∧
    opRef (of2 0 .ui32) [0xFF, 0xFF, 0xFF, 0xFF] = [0, 1, 1, 1] := by decide +kernel

theorem witness_OfferExecution : [0, 6].all (fun opc => let o := of2 opc .i64
      let s := sent o
      (s.cx 0).f.offers == [o] && o.stage == .sent && s.offerFirst 0 o && (s.cx 0).f.loads.isEmpty && !s.notNear o.x && !s.h.gone o.x.ha && haRegion o.x.ha == 0 && !isLehr o.x.ha && o.x.cc == 0 &&
      (s.writeLeases (o.x.ha / 65536)).isEmpty && (s.h.bytes o.x o.size).all (fun b => !b.2) && (State.offerLines o).all (fun l => (s.reserver l).isNone) &&
      !s.nmOwned 0 && (List.range 8).all (fun j => !s.h.discards (o.x.ha + j)) && State.offerMode o == 0 && !o.add &&
      (opRef o ((s.h.bytes o.x o.size).map Prod.fst)).length == 8) = true ∧
    (let o := of2 8 .i32
     let s := sent o
     let t := s.modH fun h => { h with fin := [⟨0, 0, 1, 0, 0⟩] }
     t.ticketValid (o.x.ha / 64) o.ticket = true ∧ s.ticketValid (o.x.ha / 64) o.ticket = false ∧ (s.finEntry (o.x.ha / 64)).isSome = true ∧
     o.val.length = o.size ∧ (∀ e ∈ s.h.fin, e.idx < 4096)) := by decide +kernel

/-- An earlier load of the operand, and an offer that is answered. -/
theorem witness_OfferExecution_overtaken : let o := { of2 0 .i32 with x := { xl0 with ha := 64, cc := 6 } }
    let l := { ld0 with id := 0, x := o.x }
    let s := (sent o).modF 0 fun f => { f with loads := [l] }
    o.stage = .sent ∧ o.opc ≠ 8 ∧ s.offerFirst 0 o = true ∧ (s.cx 0).f.offers.find? (fun p => p.id == o.id) = some o ∧ l ∈ (s.cx 0).f.loads ∧
    (l.q = o.q ∧ l.id < o.id ∧ overlap o.x.ha (max o.size 1) (s.loadRange l).1 (s.loadRange l).2 = true) ∧
    (match exec (.offerPerform 0 1 ⟨false, false, false⟩) s with
      | .next t => ((t.cx 0).f.offers.find? fun p => p.id == o.id).any fun p => match p.stage with | .replied bs => p == { o with stage := .replied bs } | _ => false
      | _ => false) = true := by decide +kernel

/-- A POOL page; a TOKEN page without the token; a block that another device writes; OFF = 0, an entry or none for its
ticket; an NMC page; a policy; a reservation, which an escalated offer waits for. -/
theorem witness_OfferDeclines : let o := of2 0 .i32
    let s := sent o
    s.notNear { o.x with cc := 6 } = true ∧ s.holds 0 o.x.ha = false ∧
    (s.modH fun h => { h with leases := [⟨0, 1, true⟩] }).writeLeases (o.x.ha / 65536) ≠ [] ∧
    (s.finEntry (o.x.ha / 64)).isSome = true ∧ State.offerMode { o with policy := 0x101 } ≠ 0 ∧ State.offerMode o = 0 ∧
    (let t := s.modH fun h => { h with resv := [⟨1, 8⟩] }
     ∃ l ∈ State.offerLines o, ∃ d, t.reserver l = some d ∧ d ≠ 0) ∧
    (let p := { o with e := true }
     ((sent p).cx 0).f.offers.find? (fun q => q.id == p.id) = some p ∧ (sent p).offerFirst 0 p = true ∧ p.x.off = true ∧ p.x.cc = 0) ∧
    -- the host window, with a poisoned operand
    (let p := { o with x := { o.x with ha := 2 ^ 41 + 64 } }
     let t := (sent p).modH fun h => { h with poison := [((2 ^ 41 + 64) / 16, true)] }
     (t.cx 0).f.offers.find? (fun q => q.id == p.id) = some p ∧ t.offerFirst 0 p = true ∧ (t.cx 0).f.loads = [] ∧ t.notNear p.x = false ∧
     haRegion p.x.ha = 2 ∧ p.x.off = true ∧ ∃ b ∈ t.h.bytes p.x p.size, b.2 = true) := by
  refine ⟨by decide +kernel, by decide +kernel, by decide +kernel, by decide +kernel, by decide +kernel, by decide +kernel, ⟨1, by decide +kernel, 8,
    by decide +kernel, by decide⟩, by decide +kernel, by decide +kernel⟩

/-- A finish table of which every entry is another line's, and that line is reserved. -/
def fullFin (n : Nat) (s : State) : State :=
  s.modH fun h => { h with fin := (List.range n).map fun i => ⟨0, i, 5, 0, 0⟩, resv := [⟨5, 8⟩] }

theorem findFrom_none {p : Nat → Bool} : ∀ n lo, (∀ i, i < lo + n → p i = false) → findFrom p lo n = none
  | 0, _, _ => rfl
  | n + 1, lo, h => by
    rw [findFrom, h lo (by omega)]
    exact findFrom_none n (lo + 1) fun i hi => h i (by omega)

theorem fullFin_finEntry (s : State) (n : Nat) (hc : Config.finishCap = n) : (fullFin n s).finEntry 1 = none := by
  have hf : (fullFin n s).h.fin = (List.range n).map fun i => ⟨0, i, 5, 0, 0⟩ := rfl
  have hr : ∀ e : FinEnt, e.line = 5 → ((fullFin n s).reserver e.line).isNone = false := fun e h => by rw [h]; rfl
  have hn : findFrom (fun i => !((fullFin n s).h.fin.filter fun e => e.cnmu == cnmuOf 64).any fun e => e.idx == i) 0 n = none :=
    findFrom_none _ _ fun i hi => by
      rw [hf, Bool.not_eq_false', List.any_eq_true]
      exact ⟨⟨0, i, 5, 0, 0⟩, List.mem_filter.2 ⟨List.mem_map.2 ⟨i, List.mem_range.2 (by omega), rfl⟩, rfl⟩, by simp⟩
  have hl : lruEnt (fullFin n s) ((fullFin n s).h.fin.filter fun e => e.cnmu == cnmuOf 64) = none := by
    rw [lruEnt, List.filter_eq_nil_iff.2]
    · rfl
    · intro e he
      rw [hf] at he
      obtain ⟨i, -, rfl⟩ := List.mem_map.1 (List.mem_filter.1 he).1
      rw [hr _ rfl]
      exact Bool.false_ne_true
  have h0 : ((fullFin n s).h.fin.find? fun e => e.line == 1) = none := by rw [hf]; simp
  simp only [State.finEntry, h0]
  rw [show (1 : Nat) * 64 = 64 from rfl, hc, hn, hl]

theorem fullFin_frame (s : State) (n : Nat) : (fullFin n s).ctxs = s.ctxs ∧ { fullFin n s with h := s.h } = s ∧
    { (fullFin n s).h with fin := s.h.fin, resv := s.h.resv } = s.h := ⟨rfl, rfl, rfl⟩

/-- An OFF = 0 page, and a stale ticket, at a CNMU whose finish table is so. -/
theorem witness_OfferDeclinesFull : [of2 0 .i32, of2 8 .i32].all (fun o => let s := sent { o with x := { o.x with off := false } }
      let o := { o with x := { o.x with off := false } }
      (s.cx 0).f.offers == [o] && s.offerFirst 0 o && !s.notNear o.x && (s.writeLeases (o.x.ha / 65536)).isEmpty &&
      (s.h.bytes o.x o.size).all (fun b => !b.2) && o.x.ha / 64 == 1) = true ∧ ∀ s, let t := fullFin Config.finishCap s
      t.finEntry 1 = none ∧ t.ctxs = s.ctxs ∧ { t with h := s.h } = s ∧ { t.h with fin := s.h.fin, resv := s.h.resv } = s.h :=
  ⟨by decide +kernel, fun s => ⟨fullFin_finEntry s _ rfl, fullFin_frame s _⟩⟩

/-- The ports toward a device down: it is lost, and the homes of its memory gone, where a port leads to it. -/
theorem witness_OfferEventsLost (p : Nat) (h : p < 36) (hp : Config.portTo p 1 = true) :
    (u0.modH fun h => { h with portDown := (List.range 36).map fun p => (p, true) }).h.gone (2 * 2 ^ 52 + 64) = true := by
  have hd : ∀ q, q < 36 → Tab.get false ((List.range 36).map fun p => (p, true)) q = true := by decide +kernel
  rw [show Homes.gone _ (2 * 2 ^ 52 + 64) = Homes.lost _ 1 from rfl]
  simp only [Homes.lost, State.modH, Bool.and_eq_true, List.any_eq_true, List.all_eq_true, List.mem_range, Bool.or_eq_true]
  exact ⟨⟨p, h, hd p h, hp⟩, fun q hq => Or.inl (hd q hq)⟩

theorem witness_OfferEvents : ([.replied (clean (List.replicate 32 0)), .waiting (some (clean [1, 2, 3, 4])), .waiting none] : List OfferStage).all (fun st =>
      let o := { of2 9 .i32 with stage := st }
      ((sent o).cx 0).f.offers.find? (fun p => p.id == o.id) == some o) = true ∧
    (let s := u0.modH fun h => { h with revoking := [⟨0, 1, true⟩] }
     s.h.revoking.any (fun l => l.block == 0 && l.dev == 1) = true ∧ s.writeHeld 1023 = false ∧ s.h.discards 65535 = false ∧ isLehr 65535 = false ∧
     s.h.lost 1 = false) := by
  decide +kernel

theorem witness_OfferStatusResults : [0, 0x40, 0xC0].all (fun kind => let s := withL 0 [kind, 0, 0x80] u0
      okAnd (State.consume (s.statBytes 0 ((s.r 0).ptr 0))) (fun b => b.getD 0 0 == kind) && decide (Runs s 0 (.ostat true 0)) &&
      decide (Runs s 0 (.ostat false 0)) && !(s.cx 0).slotBusy (ctxnK 0) (s.loc 0 ((s.r 0).ptr 0)) 32 fun q => q == 0) = true ∧
    (let s := sent (of2 0 .i32)
     (s.cx 0).slotBusy (ctxnK 0) (s.loc 0 ((s.r 0).ptr 0)) 32 (fun q => q == 0) = true ∧ Runs s 0 (.ostat true 0) ∧
     okIs (State.consume (s.statBytes 0 ((s.r 0).ptr 0))) = true) := by decide +kernel

/-- Records at L 64: a lookup of no index, and a scan of one page without terms. -/
def scanRec : List Byte := bvLe 8 (0x40000000 : W64) ++ natLe 4 1 ++ [0, 0, 0, 0, 0, 8, 4, 0] ++ List.replicate 108 0

theorem witness_NearMemoryIssueResults : let s := uO 0
    let t := withL 64 scanRec (uO 4)
    let w := withPtr 6 ⟨0x40000400, 0, 0, .g, 0⟩ (withS 1024 s)
    s.slotTaken 0 ((s.r 0).ptr 0) = false ∧
    okAnd (s.recordOf 0 ((s.r 0).ptr 0) ((s.r 0).ptr 2) embBad) (fun r => okIs (s.pages 0 (BitVec.ofNat 64 (fld r 8 8)) (embListLen r) (.offer false))) = true ∧
    Runs s 0 (.oemb true ⟨0, true⟩ ⟨2, true⟩) ∧
    okAnd (t.recordOf 0 ((t.r 0).ptr 0) ((t.r 0).ptr 2) scanBad) (fun r => decide (fld r 24 4 + 16 * fld r 18 2 ≤ t.winSize 0) &&
      okIs (t.pages 0 (BitVec.ofNat 64 (fld r 0 8)) (fld r 8 4 * 4096) (.offer false))) = true ∧
    Runs t 0 (.oscan ⟨0, true⟩ ⟨2, true⟩) ∧
    okIs (w.rowChks 0 ((w.r 0).ptr 5) ((w.r 0).ptr 0) (some ((w.r 0).ptr 6)) (.lit 0) 1024) = true ∧
    okIs (w.rowPages 0 0x40000000 (some 0x40000400) 1024) = true ∧ Runs w 0 (.orowc ⟨5, true⟩ ⟨0, true⟩ ⟨6, true⟩ .s) ∧
    okIs (w.rowChks 0 ((w.r 0).ptr 5) ((w.r 0).ptr 0) none (.mem 2 true) 1024) = true ∧
    okAnd (w.rowPages 0 0x40000000 none 1024) (fun e => okIs (e.2.2.oval 0 (.mem 2 true) 8 8)) = true ∧
    Runs w 0 (.ofill ⟨5, true⟩ ⟨0, true⟩ (.mem 2 true) (.imm 1024)) := by decide +kernel

/-- A table of 64 B rows, and the record of a lookup of its row 0 with its one index in the record. -/
def table0 : EmbTable := ⟨0, 0, 0, 0x40000000, 64, 4, .fp32, [near0 3]⟩
def embRec : List Byte := [0, 0, 0, 1] ++ List.replicate 124 0

theorem witness_NearMemoryPerformance :
    ([(nm 0x13 1024 (List.replicate 8 7) [near0 0] []), nm 0x12 1024 [] [near0 0] [{ near0 0 with ha := 4096 }], nm 0x11 0 scanRec [] [near0 4]] : List NmCmd).all
      (fun m => let s := withNm m u0
        s.nmIn 0 1 == some m && s.nmFirst 0 m && (s.nodeNear m.id).isNone && (s.nmWaits m).isNone && !(m.dst ++ m.src).any (s.nmFar false) &&
        s.h.frr.isEmpty && !(m.dst ++ m.src).any fun x => isLehr x.ha || x.cc == 2) = true ∧
    (let s := withNm (nm 0x11 0 scanRec [] [near0 4]) u0
     s.scanPoison (nm 0x11 0 scanRec [] [near0 4]) = none ∧ (near0 4).cc = 4 ∧ s.nmFar true (near0 4) = false ∧ s.nmFar true xl0 = true) ∧
    (let m := nm 0x10 0 embRec [] []
     let s := (withNm m u0).modH fun h => { h with emb := [table0] }
     s.nmIn 0 1 = some m ∧ s.nmFirst 0 m = true ∧ (s.nmWaits m).isNone = true ∧ s.embTable 0 0 = some table0 ∧ m.dest + table0.lanes * 4 ≤ m.limit ∧
     s.nmFar true (table0.row 0) = false ∧ s.poisonedLine table0.pages table0.base 0 64 = none ∧ fld m.record 3 1 = 1 ∧
     m.walker = none ∧ s.lookups (s.embCnmu m) < 64 ∧
     -- the queue of its walker is full
     (let x := { m with id := 2, walker := some (s.embCnmu m) }
      let t := s.modF 1 fun f => { f with nms := List.replicate 64 x }
      t.nmIn 0 1 = some m ∧ t.nmFirst 0 m = true ∧ 64 ≤ t.lookups (t.embCnmu m))) ∧
    (let f := { near0 0 with off := false }
     ([nm 0x12 1024 [] [f] [near0 0], nm 0x13 1024 (List.replicate 8 7) [f] [], nm 0x10 0 embRec [] [f], nm 0x11 0 scanRec [] [f]] : List NmCmd).all fun m =>
      let s := withNm m u0
      s.nmIn 0 1 == some m && s.nmFirst 0 m && (s.nodeNear m.id).isNone && (m.dst ++ m.src).any (s.nmFar false) &&
        (m.src.isEmpty || m.src.head? != some f || m.src.any (s.nmFar true))) := by decide +kernel

/-- A reply with and without results, and a row command's; a request under a revocation and without; this device's lines of another's block. -/
theorem witness_NearMemoryEventsAndLeases : [(0x10, []), (0x10, [1, 2]), (0x13, [])].all (fun (e : Nat × List Byte) =>
      let m := { nm e.1 64 embRec [near0 0] [] with out := some (clean (List.replicate 32 0)), result := e.2 }
      let s := withNm m u0
      s.nmIn 0 1 == some m && (s.nodeNear 1).isNone && s.nmLands 0 m) = true ∧
    1 / 65536 = u0.pf.domain ∧ 1 ≠ u0.pf.fabricId ∧ u0.h.revoking.any (fun l => l.block == 0) = false ∧
    (u0.modH fun h => { h with revoking := [⟨0, 2, false⟩] }).h.revoking.any (fun l => l.block == 0) = true ∧
    ((uC 1 u0).giveBack ((1 + 1) * 2 ^ 36)).isSome = true := by decide +kernel

/-! ## Witnesses: walks, traps, sequencers, tasks -/

def walk0 : Walk := ⟨true, 0, 0, [0x40000000, 0, 1, 0, 0, 0, 0, 0], Flags.init, 0x40000100, 0, 0, false, 0, 0, [], 1, 0, 5, false, [], false⟩
def withW (w : Walk) (s : State) : State := { s.modBe 0 fun b => { b with walks := [w] } with turn := .awl 0 }
def uW (w : Walk) : State := withW w (uG 0)


theorem witness_WalkRegisterResults : (uW walk0).turn = .awl 0 ∧ ((uW walk0).be 0).walks.head? = some walk0 ∧ walk0.w.length = 8 := by decide +kernel

/-- An element that is aligned and readable, one that is not, a row that fits and one that does not, an expanded element. -/
theorem witness_WalkReads : let s := uW walk0
    okAnd (s.translateOne (s.whoWalk walk0) (walk0.get 0) .read) (fun e => (e.2.readHeld e.1.ha).isNone &&
      (e.2.h.bytes e.1 64).all fun b => !b.2) = true ∧
    (walk0.get 0).toNat % 64 = 0 ∧ (walk0.get 2).toNat % 8 ≠ 0 ∧ okIs (s.translateOne (s.whoWalk walk0) (walk0.get 1) .read) = false ∧
    ((walk0.get 1).toNat % 64 = 0 ∧ (walk0.get 1).toNat + 64 ≤ (s.cx walk0.cid).slot.winSize) ∧ (walk0.get 2).toNat % 64 ≠ 0 ∧
    (walk0.get 2).toNat % 2 ^ 16 = 2 ^ 0 ∧ walk0.rows = [] ∧ (s.cx 0).slot.state ≠ .free ∧
    -- a page that is owned, and a table in one
    okAnd ((owned s).translateOne (s.whoWalk walk0) (walk0.get 0) .read) (fun e => e.2.readHeld e.1.ha == some .waitNc) = true ∧
    (match (owned (s.modH fun h => { h with tlb := [] })).translateOne (s.whoWalk walk0) (walk0.get 0) .read with
      | .error e => e.hold == some .waitNc | .ok _ => false) = true := by decide +kernel

theorem witness_WalkOutputs : walk0.qsel ≠ 0 ∧ walk0.partialEnt.length < 3 ∧ ((uW walk0).cx 0).q.spill .ac = [] ∧
    ((uW walk0).cx 0).q.ac.length < 32 ∧ walk0.rows = [] ∧ walk0.chunkBytes = 0 ∧ walk0.doneEn = false ∧
    (let w := { walk0 with partialEnt := [(1, 2, 3), (4, 5, 6), (7, 8, 9)] }
     let s := (uW w).modQ 0 fun q => { q with ac := List.replicate 32 ⟨0, 0⟩ }
     w.partialEnt.length = 3 ∧ ((uW w).be 0).walks.head? = some w ∧ 32 ≤ ((s.cx 0).q.get .ac).length ∧ (s.cx 0).q.spill .ac = [] ∧
     ((s.cx 0).reg.kring.toNat % 256 = 0 ∨ (s.cx 0).reg.kquota = 0) ∧ s.turn = .awl 0 ∧ (s.be 0).walks.head? = some w ∧
     -- spilling on: a quarter of 16 entries that is full, and a quota of one entry with one spilled
     (let g (quota : W64) (n : Nat) : State := (s.modCx 0 fun c => { c with reg := { c.reg with kring := 1, kquota := quota } }).modQ 0 fun q => { q with sAc := List.replicate n 0 }
      (g 4096 16).turn = .awl 0 ∧ ((g 4096 16).cx 0).reg.kring.toNat % 256 * 16 ≤ (((g 4096 16).cx 0).q.spill .ac).length ∧
      ((g 64 1).cx 0).reg.kquota.toNat < 64 * (((g 64 1).cx 0).q.spilled + 1) ∧ (((g 64 1).cx 0).q.spill .ac).length < 16 ∧
      ((g 64 1).cx 0).reg.kquota ≠ 0 ∧ ((g 64 1).cx 0).slot.state ≠ .free ∧ w.rows = [])) ∧
    (let w := { walk0 with qsel := 0, chunkBytes := 64 }
     (uW w).turn = .awl 0 ∧ ((uW w).be 0).walks.head? = some w) ∧
    (let w := { walk0 with qsel := 0, doneEn := true }
     ((uW w).be 0).walks.head? = some w) := by decide +kernel

/-- A start block; one with a reserved byte set; a walk at its limits, alone and with another behind it. -/
theorem witness_WalkRunResults : [0, 1].all (fun b => let s := withL 0 (List.replicate 60 0 ++ [b]) u0
      okAnd (s.scrVal 0 ((s.r 0).ptr 0) 64 64 false) (fun bs => leNat ((bs.drop 60).take 4) == b.toNat) && decide (Runs s 0 (.wrun 0)) &&
      decide ((s.be 0).queued < 48) && (s.be 0).walks.isEmpty) = true ∧
    (let w := { walk0 with started := false }
     ((uW w).be 0).walks.head? = some w) ∧
    (let w := { walk0 with steps := 16777216, sinceYield := 4096 }
     let s := (uW w).modBe 0 fun b => { b with walks := [w, walk0] }
     (s.be 0).walks = [w, walk0] ∧ w.rows = [] ∧ w.ended = false ∧ w.full = false ∧ w.sinceYield ≠ 0 ∧ w.sinceYield % 4096 = 0) ∧
    -- a start block that has been read, with room and without
    (let s := u0.modSq 0 fun q => { q with wrun := some walk0 }
     let t := s.modBe 0 fun b => { b with walks := [walk0] }
     (s.sq 0).wrun = some walk0 ∧ Runs s 0 (.wrun 0) ∧ (s.be 0).queued < 48 ∧ (s.be 0).walks = [] ∧ Runs t 0 (.wrun 0) ∧
     ∃ w ∈ (t.be 0).walks, w.cid = cidOf 0) ∧
    (let s := (withL 0 (List.replicate 64 0) u0).modBe 0 fun b => { b with walks := [walk0] }
     (s.sq 0).wrun = none ∧ Runs s 0 (.wrun 0) ∧ okIs (s.scrVal 0 ((s.r 0).ptr 0) 64 64 false) = true) ∧
    (let w := { walk0 with rows := [(0, clean [1], 0), (64, clean [2], 0)] }
     w.rows[1]? = some (64, clean [2], 0) ∧ (∀ x ∈ w.rows.take 1, x.1 ≠ 64) ∧ w.ended = false) := by decide +kernel

def kv (s : State) : State := s.modReg 0 fun g => { g with kvec := 0x2001 }
/-- An instance of one member in context 0, of node 0 of the graph at VA 0x4000_0100. -/
def inst0 : Inst := ⟨9, 0x40000100, 0, 0, 0, 0, [0], 0, 0, 3, some 1, .running, 0, 0, none, [], false, false, false⟩
def node0 : Node :=
  { kind := 1, prio := 2, coop := true, mig := true, lf := false, team := 1, lsize := 1, npred := 0, gx := 2, gy := 1, target := 0x1000, args := 0x40000000,
    succ := [], aff := 0, geo3 := 0, pcnt := 0, state := .running, donei := 0, barc := 0, fault := 0, fva := 0, finst := 0, doneInst := [], cancelled := [],
    readyTick := 0, readyNs := 0, swapIn := [], desc := [], copy := none, near := none }
def graph0 (ns : List Node) : Graph := ⟨0x40000100, 0, ns, ns.length⟩
def withG (ns : List Node) (is : List Inst) (s : State) : State := s.modSch fun h => { h with graphs := [graph0 ns], insts := is }
def uI (ns : List Node) : State := withG ns [inst0] ((uG 0).modSlot 0 fun x => { x with inst := 9 })
/-- A run-ahead that begins for a trap, and sequencer 0 in it. -/
def ahead0 (s : State) (t : TrapInfo) : Ahead := ⟨t, s.r 0, (s.cx 0).reg, (s.co 0).scr, (s.co 0).spois, (s.co 0).hidden, [], [], [], 0, false⟩
def inAhead (f : Ahead → Ahead) (t : TrapInfo) (s : State) : State := s.modSq 0 fun q => { q with ra := some (f (ahead0 s t)) }

theorem witness_TrapEntryResults : let s := kv u0
    let t : TrapInfo := ⟨.swap, 0, true, 0, [], none, none⟩
    (s.cx 0).reg.kvec.getLsbD 0 = true ∧ t.record.length ≤ 32 ∧
    (let p := s.modSq 0 fun q => { q with pend := [t] }
     p.pendNow 0 = [t] ∧ p.mayIssue 0 = true) ∧
    (let a := ahead0 s { t with code := .page }
     let p (o : Bool) := inAhead (fun a => { a with isOver := o }) { t with code := .page } s
     ((p true).sq 0).ra = some { a with isOver := true } ∧ ((p false).sq 0).ra = some a ∧
     { a.trap with record := a.trap.record ++ a.batch } = { t with code := .page }) ∧
    -- KVEC disabled
    (let s := uI [node0]
     (s.cx 0).reg.kvec.getLsbD 0 = false ∧ s.instOf 0 = some inst0 ∧ inst0.members = [coreK 0] ∧ inst0.ctxn = ctxnK 0 ∧ inst0.state = .running ∧
     s.node inst0.ctxid inst0.hdr inst0.node = some node0 ∧ node0.fault = 0 ∧ node0.barc = 0 ∧
     node0.doneInst.length + node0.cancelled.length + 1 < node0.count) := by decide +kernel

/-- PAGE for the page of VA 0x5000_0000, which no table maps. -/
def page0 : TrapInfo := ⟨.page, 0x50000000, false, 0, [⟨0x50000, 0, false, false, false⟩], none, none⟩
/-- The page of 0x4000_0000 holds the words, and sequencer 0 is about to fetch them. -/
def withCode (ws : List W32) (s : State) : State :=
  withPage 0xDF (withM 0 (ws.flatMap fun w => bvLe 4 w) (s.modR 0 fun r => { r with pc := 0x40000000 }))

/-- A word that decodes to nothing; one that ends a run-ahead; one refused at level U; one that executes, as the 512th
too; and a load of a page that no table maps. -/
theorem witness_RunaheadResults : page0.code = .page ∧ (∀ e ∈ page0.record, e.fetch = false) ∧ (u0.sq 0).ra = none ∧
    (u0.cx 0).slot.state = .running ∧ (ahead0 u0 page0).batch = [] ∧ (ahead0 u0 page0).trap.record.length = 1 ∧
    ([(withCode [0xFFFFFFFF] u0, none), (withCode (encode .exc) u0, some .exc), (withCode (encode .eret) u0, some .eret),
      (withCode (encode (.li (.short 7))) u0, some (.li (.short 7))),
      (withCode (encode (.ldg (.ty .i32) ⟨0, true⟩ ⟨1, true⟩)) (withPtr 1 ⟨0x60000000, 0, 0, .g, 0⟩ u0), some (.ldg (.ty .i32) ⟨0, true⟩ ⟨1, true⟩))] :
        List (State × Option Instr)).all (fun e =>
      [0, 511].all fun n => let s := inAhead (fun a => { a with count := n }) page0 e.1
      let a := { ahead0 e.1 page0 with count := n }
      (s.sq 0).ra == some a && !a.isOver && !s.follows 0 && okAnd ((s.shadow 0 a).fetch 0) fun f => match e.2 with
        | none => (match decode f.1 with | .bad _ => true | .ok _ => false)
        | some i => decide (decode f.1 = .ok i) && (i.uses a.r.rep).all (fun n => !a.bad.contains n)) = true ∧
    Instr.exc.endsAhead = true ∧ (u0.refuses 0 .eret).isSome = true ∧ (Instr.li (.short 7)).endsAhead = false ∧
    (u0.refuses 0 (.li (.short 7))).isSome = false ∧
    (let s := withCode (encode (.ldg (.ty .i32) ⟨0, true⟩ ⟨1, true⟩)) (withPtr 1 ⟨0x60000000, 0, 0, .g, 0⟩ u0)
     okAnd ((s.shadow 0 (ahead0 s page0)).fetch 0) (fun f =>
       (match f.2.gAccess 0 (some ((f.2.r 0).ptr 0)) ((f.2.r 0).ptr 1) 4 .read false with
       | .error e => e.code == .page && e.hold.isNone && e.record.length == 1 && e.record.all (fun p => p.vpn != 0x50000)
       | .ok _ => false)) = true) := by decide +kernel

/-- Words that cannot be fetched: their page is not mapped, or is owned. An instruction that uses a poisoned register;
and the destination of the load above, in space L. -/
theorem witness_RunaheadResults_more :
    ([0x60000000, 0x40000000] : List W64).all (fun pc =>
      let s := (uG 0).modR 0 fun r => { r with pc := pc }
      let s := inAhead id page0 (if pc = 0x40000000 then owned s else s)
      (s.sq 0).ra.any fun a => !a.isOver && !s.follows 0 && match (s.shadow 0 a).fetch 0 with
        | .error t => t.hold.isSome == decide (pc = 0x40000000) && (t.hold.isSome || t.record.length == 1 && t.record.all fun p => p.vpn != 0x50000)
        | .ok _ => false) = true ∧
    (let i : Instr := .pget 7 3
     let s0 := withCode (encode i) u0
     let s := inAhead (fun a => { a with bad := i.uses a.r.rep }) page0 s0
     ((s.sq 0).ra.any fun a => !a.isOver && !s.follows 0 && (i.uses a.r.rep).any a.bad.contains &&
       okAnd ((s.shadow 0 a).fetch 0) fun f => decide (decode f.1 = .ok i) && (f.2.refuses 0 i).isNone) = true ∧ i.endsAhead = false ∧ i.isRep = false ∧
     i.sets Says.noRep = [8] ∧ ((s0.r 0).ptr 0).space = .l) := by decide +kernel

/-- `trap` at level U; `eret` of a frame without a repetition, and with one at the start of a pass. -/
theorem witness_TrapAndReturnResults : let s := kv u0
    Runs s 0 (.trap 0xFFFF) ∧ s.follows 0 = false ∧ Runs (lvl s) 0 .eret ∧
    (Says.kword (lvl s) 0 (pathOf (qOf 0)) 8).getLsbD 63 = false ∧
    (let t := (lvl s).modCo 0 fun c => { c with scr := ((c.scr.write (kKey 0 15) 0x80).write (kKey 0 0) 2) }
     (Says.kword t 0 (pathOf (qOf 0)) 8).getLsbD 63 = true ∧ (Says.kword t 0 (pathOf (qOf 0)) 0) = 2 ∧ Runs t 0 .eret) := by decide +kernel

/-- The frame of a repetition of COUNT 2, of two instructions at VA 0x4000_0000, as `eret` finds it. -/
def framed (pass pos : Byte) : State :=
  let bs : List (Nat × Byte) := [(0, 2), (4, pass), (8, pos * 16), (9, 1), (15, 0x80), (19, 0x40)]
  (lvl (withCode [0x08000004, 0x08000004] u0)).modCo 0 fun c => { c with scr := bs.foldl (fun m e => m.write (kKey 0 e.1) e.2) c.scr }

/-- At the second position; with PASS at COUNT; with POS beyond the body; and with its page owned. -/
theorem witness_TrapAndReturnResults_frames : ([(0, 1), (1, 1), (2, 0), (1, 2)] : List (Byte × Byte)).all (fun e => let s := framed e.1 e.2
      let f := s.frame 0
      decide (Runs s 0 .eret) && f == ⟨true, e.1.setWidth 32, 2, 1, e.2.setWidth 4, 0, 0x40000000⟩ && (s.sq 0).traps.isEmpty && (s.returnHeld 0).isNone &&
      [0x40000000, 0x40000004].all fun a => okAnd ((s.lowered 0).translateOne ((s.lowered 0).who 0) a .fetch) fun x =>
        ((s.lowered 0).readHeld x.1.ha).isNone && leBv 32 ((x.2.h.bytes x.1 4).map Prod.fst) == 0x08000004) = true ∧
    ((owned (framed 0 1)).returnHeld 0).isSome = true ∧ Runs (owned (framed 0 1)) 0 .eret ∧
    ({ (framed 0 1).frame 0 with stag := 0 } : Rep) = ⟨(Says.kword (framed 0 1) 0 .c 8).getLsbD 63, (Says.kword (framed 0 1) 0 .c 0).extractLsb' 32 32,
      (Says.kword (framed 0 1) 0 .c 0).extractLsb' 0 32, (Says.kword (framed 0 1) 0 .c 8).extractLsb' 8 4, (Says.kword (framed 0 1) 0 .c 8).extractLsb' 4 4, 0,
      Says.kword (framed 0 1) 0 .c 16⟩ := by decide +kernel

theorem witness_TranslationProtects : canonical 0x0100000000000000 = false ∧
    okIs ((uG 0).translate ((uG 0).who 0) 0x40000000 .write) = true ∧ okIs ((uG 3).translate ((uG 3).who 0) 0x40000000 .rowRead) = true ∧
    okIs ((uG 7).translate ((uG 7).who (sidAt 0 0)) 0x40000000 .read) = false := by decide +kernel

theorem witness_SystemRegisterReads : ([0, 1, 2, 3, 4, 8, 0x10, 0x11, 0x12, 0x13, 0x20, 0x21, 0x22, 0x23, 0x28, 0x29, 0x30, 0x31, 0x38, 0x39, 0x40, 0x7F] :
    List Nat).all (fun n => decide (Runs (lvl u0) 0 (.srr (BitVec.ofNat 12 n)))) = true := by decide +kernel

/-- LSPLIT 3 takes a window at the top; with entries spilled, KRING is not written. -/
theorem witness_SystemRegisterWrites : let s := lvl u0
    ([0, 1, 2, 3, 4, 8, 0x10, 0x11, 0x12, 0x13, 0x20, 0x21, 0x22, 0x23, 0x28, 0x29, 0x30, 0x31, 0x38, 0x39, 0x40, 0x7F] :
      List Nat).all (fun n => decide (Runs s 0 (.srw (BitVec.ofNat 12 n)))) = true ∧ (s.cx 0).q.spilled = 0 ∧
    (let t := s.modQ 0 fun q => { q with sAc := [0] }
     (t.cx 0).q.spilled ≠ 0 ∧ Runs t 0 (.srw 0x012)) ∧
    (∀ w ∈ s.windows 0, w.1 + w.2 ≤ scrLimit 3) ∧ (∀ l ∈ (s.co 0).cache, l.isDirty = false) ∧ (∀ l ∈ (s.be 0).pool, l.c.isDirty = false) ∧
    (let t := withS 3 (s.modSlot 0 fun x => { x with winBase := 0x70000, winSize := 0x20000 })
     Runs t 0 (.srw 0x010) ∧ ∃ w ∈ t.windows 0, scrLimit ((t.r 0).s &&& 3) < w.1 + w.2) ∧
    -- a pool line that is dirty and held back
    (let t := (s.modBe 0 fun b => { b with pool := [⟨line0 1, 0⟩] }).modH fun h => { h with resv := [⟨(line0 1).line, 8⟩] }
     Runs t 0 (.srw 0x011) ∧ ∃ l ∈ (t.be 0).pool, l.c.isDirty = true ∧ t.writeHeld l.c.line = true) := by decide +kernel

/-- The others stopped. -/
def stopped (s : State) : State := (s.modSq 1 fun q => { q with run := false }).modSq 2 fun q => { q with run := false }

theorem witness_ForkResults : Runs u0 0 (.fork true 0x10000) ∧ (u0.sq (sidAt 0 2)).run = true ∧ Runs u0 0 (.forkBoth 1 0xFFFFFFFF) ∧
    Runs (stopped u0) 0 (.fork false 1) ∧ ((stopped u0).sq (sidAt 0 1)).run = false ∧ Runs (stopped u0) 0 (.forkBoth 1 1) ∧
    ((stopped u0).sq (sidAt 0 2)).run = false := by decide +kernel

theorem witness_SequencerWaits : let cm : SeqSet := ⟨true, true, false⟩
    Runs u0 0 (.rdv cm) ∧ cm.has (qOf 0) = true ∧ cm.has 2 = false ∧ (u0.sq 1).run = true ∧ (u0.sq 1).waiting = none ∧
    ((stopped u0).sq 1).run = false ∧ Runs (stopped u0) 0 (.rdv cm) ∧ Runs (turnOf 2 u0) 2 (.rdv cm) ∧
    (let s := u0.modSq 1 fun q => { q with waiting := some (.rdv cm) }
     Runs s 0 (.rdv cm) ∧ (s.sq 1).waiting = some (.rdv cm)) ∧
    Runs (turnOf 1 u0) 1 .tdone ∧ qOf 1 ≠ 0 ∧ Runs u0 0 (.idle 0) ∧ (u0.sq 0).released = false ∧
    (let s := u0.modSq 0 fun q => { q with waiting := some .idle, released := true }
     Runs s 0 (.idle 0) ∧ (s.sq 0).released = true ∧ (s.sq 0).waiting = some .idle) ∧ Runs u0 0 .iflush := by decide +kernel

theorem witness_TaskEnds : let s := stopped (uI [node0])
    Runs u0 0 .tdone ∧ (u0.sq (sidAt 0 1)).run = true ∧ Runs s 0 .tdone ∧ (s.sq (sidAt 0 1)).run = false ∧ (s.sq (sidAt 0 2)).run = false ∧
    (s.cx 0).n = ⟨0, 0, 0, 0, 0, 0⟩ ∧ s.tokensBusy 0 = false ∧ (s.sq 0).pend = [] ∧ s.instOf 0 = some inst0 ∧ inst0.members = [coreK 0] ∧
    s.node 0 0x40000100 0 = some node0 ∧ node0.donei + 1 < node0.count ∧ node0.barc = 0 ∧
    (let t := s.modN 0 fun n => { n with oc := 1 }
     (t.cx 0).n.busy = some .waitOc ∧ Runs t 0 .tdone) := by decide +kernel

/-- A node that needs all the cores of bench 0, which has none free beside context 0's. -/
def hungry : Node := { node0 with team := 48, lsize := 16, aff := 0x101 }

theorem witness_BarrierAndQuantumResults : let s := uI [node0]
    s.instOf 0 = some inst0 ∧ s.node inst0.ctxid inst0.hdr inst0.node = some node0 ∧ Runs s 0 .gbar ∧ (s.sq 0).released = false ∧
    (s.cx 0).slot.arrived = false ∧ node0.barc + 1 + node0.doneInst.length * node0.team < node0.gx * node0.gy * node0.team ∧
    (let n := { node0 with barc := 1 }
     (uI [n]).node 0 0x40000100 0 = some n ∧ n.gx * n.gy * n.team ≤ n.barc + 1 + n.doneInst.length * n.team ∧ Runs (uI [n]) 0 .gbar) ∧
    (let n := { node0 with coop := false }
     (uI [n]).node 0 0x40000100 0 = some n ∧ Runs (uI [n]) 0 .gbar) ∧
    (s.cx 0).slot.departed = false ∧ ((s.modSq 0 fun q => { q with released := true }).sq 0).released = true ∧
    ((s.modSlot 0 fun x => { x with departed := true }).cx 0).slot.departed = true ∧ s.needed inst0 = false ∧ Runs s 0 .yield ∧
    (let t := uI [node0, hungry]
     t.needed inst0 = true ∧ t.node 0 0x40000100 0 = some node0 ∧ inst0.state = .running ∧ inst0.saveid = some 1 ∧
     (∀ d ∈ State.cids inst0, t.inExchange d = false) ∧ Runs t 0 .yield) := by decide +kernel

/-- The header of a graph of one event node, with its record behind it, at VA 0x4000_0200. -/
def header1 : List Byte := [15, 0, 0, 0, 1, 0, 0, 0] ++ List.replicate 56 0
def copyNode : List Byte := [0, 0, 1, 0] ++ List.replicate 8 0 ++ [1, 0, 1, 0] ++ bvLe 8 (0x40000400 : W64) ++ List.replicate 104 0
def record1 (npred : Byte) : List Byte := [4, 0, 1, 0, npred, 0, 0, 0, 0, 0, 0, 0, 1, 0, 1] ++ List.replicate 113 0

/-- The page of VA 0x4000_1000 is owned, and the descriptor of node 0 of the header at VA 0x4000_0200 lies there. -/
def ownedPage (s : State) : State :=
  withNm { nm 0x13 1024 (List.replicate 8 7) [{ near0 0 with ha := 4096 }] [] with out := some [] } (s.modH fun h =>
    { h with tlb := h.tlb ++ [⟨0, tslice 0x40001000 0, 0, 0, 0x40001, 12, pte 0 + 4096⟩] })
def heldLaunch (s : State) : State :=
  ownedPage (withM 0x200 (header1 ++ ([0, 0, 1, 0] ++ List.replicate 12 0 ++ bvLe 8 (0x40001000 : W64) ++ List.replicate 104 0)) s)

theorem witness_SignalResults : let ev (p : Nat) : Node := { node0 with kind := 4, pcnt := p }
    (uI [ev 2]).instOf 0 = some inst0 ∧ (uI [ev 2]).node 0 0x40000100 0 = some (ev 2) ∧ (uI [ev 0]).node 0 0x40000100 0 = some (ev 0) ∧
    Runs (uI [ev 2]) 0 (.tsig 0) ∧ node0.kind ≠ 4 ∧ Runs (uI [node0]) 0 (.tsig 0) ∧
    (let s := withM 0x200 (header1 ++ record1 1) (withS 0x40000200 (uI [node0]))
     Runs s 0 .tsigS ∧ okAnd (s.pages 0 0x40000200 64 .read) (fun e => e.2.h.byte (xlAt e.1 0x40000200 0) 0 == (15, false) &&
       (e.2.readHeld (xlAt e.1 0x40000200 0).ha).isNone && (e.2.launchHeld 0 0x40000200).isNone &&
       okAnd (e.2.sigCheck 0 0x40000200).1 fun g => g.nodes.all fun n => n.npred != 0) = true) ∧
    (let s := withM 0x100 (header1 ++ record1 1) (withS 0x40000100 (uI [node0]))
     Runs s 0 .tsigS ∧ okAnd (s.pages 0 0x40000100 64 .read) (fun e => e.2.h.byte (xlAt e.1 0x40000100 0) 0 == (15, false) &&
       (e.2.readHeld (xlAt e.1 0x40000100 0).ha).isNone && (e.2.launchHeld 0 0x40000100).isNone &&
       (match (e.2.sigCheck 0 0x40000100).1 with | .error .running => true | _ => false)) = true) ∧
    -- a header of no node
    (let s := withM 0x200 ([15, 0, 0, 0, 0, 0, 0, 0] ++ List.replicate 56 0) (withS 0x40000200 (uI [node0]))
     Runs s 0 .tsigS ∧ okAnd (s.pages 0 0x40000200 64 .read) (fun e => e.2.h.byte (xlAt e.1 0x40000200 0) 0 == (15, false) &&
       (e.2.readHeld (xlAt e.1 0x40000200 0).ha).isNone && (e.2.launchHeld 0 0x40000200).isNone &&
       (match (e.2.sigCheck 0 0x40000200).1 with | .error .header => true | _ => false)) = true) ∧
    Runs (withS 1 (uI [node0])) 0 .tsigS ∧
    -- a first node without predecessor
    (let s := withM 0x400 (bvLe 8 (0x40000000 : W64) ++ bvLe 8 (0x40000600 : W64) ++ [0, 2, 0, 0] ++ List.replicate 12 0)
       (withM 0x200 (header1 ++ copyNode) (withS 0x40000200 (uI [node0])))
     Runs s 0 .tsigS ∧ okAnd (s.pages 0 0x40000200 64 .read) (fun e => e.2.h.byte (xlAt e.1 0x40000200 0) 0 == (15, false) &&
       (e.2.readHeld (xlAt e.1 0x40000200 0).ha).isNone && (e.2.launchHeld 0 0x40000200).isNone &&
       okAnd (e.2.sigCheck 0 0x40000200).1 fun g => g.nodes.all fun n => n.npred == 0 && n.kind == 0) = true) ∧
    -- the last signal of an event node: the graph's last node, one of two, and with a successor
    (let last : Node := { node0 with kind := 4, pcnt := 1, state := .waiting }
     let next (p : Nat) : Node := { node0 with pcnt := p, state := .waiting }
     (uI [last]).node 0 0x40000100 0 = some last ∧ (uI [last]).graph 0 0x40000100 = some (graph0 [last]) ∧ (graph0 [last]).left = 1 ∧
     (uI [node0, last]).node 0 0x40000100 1 = some last ∧ (uI [node0, last]).graph 0 0x40000100 = some (graph0 [node0, last]) ∧
     1 < (graph0 [node0, last]).left ∧ Runs (uI [node0, last]) 0 (.tsig 1) ∧
     [1, 2].all (fun p => let l := { last with succ := [2] }
       let s := uI [node0, l, next p]
       decide (Runs s 0 (.tsig 1)) && s.graph 0 0x40000100 == some (graph0 [node0, l, next p]) && (next p).kind != 4) = true) ∧
    -- a copy node whose descriptor's page a near-memory command owns
    (let s := heldLaunch (withS 0x40000200 (uI [node0]))
     Runs s 0 .tsigS ∧ okAnd (s.pages 0 0x40000200 64 .read) (fun e => e.2.h.byte (xlAt e.1 0x40000200 0) 0 == (15, false) &&
       (e.2.readHeld (xlAt e.1 0x40000200 0).ha).isNone && e.2.launchHeld 0 0x40000200 == some .waitNc) = true) := by decide +kernel

theorem witness_TranslationInvalidation : let s := lvl (uG 0)
    s.h.leases = [] ∧ (∀ rs, ∀ e ∈ s.ctxs, State.underWay rs e.2.f = false) ∧ s.sch.graphs = [] ∧ ((s.r 0).ptr 1).space = .g ∧
    Runs s 0 (.tinv 1) ∧ Runs s 0 .tinvAsid ∧ Runs s 0 .tinvAll := by
  refine ⟨by decide +kernel, ?_, by decide +kernel, by decide +kernel, by decide +kernel, by decide +kernel, by decide +kernel⟩
  intro rs e h; simp [lvl, uG, withPage, withPtr, u0, State.reset, State.modR, State.modSq, State.setSq, State.modH, State.modSlot, State.modCx,
    State.setCx, Tab.put] at h; subst h; rfl

theorem witness_FaultReplies : let s := uI [node0]
    let mine (i : Inst) : Bool := i.ctxid % 65536 == 0 && i.saveid.getD 0 == 1 && i.gen % 65536 == 3
    s.sch.insts.find? mine = some inst0 ∧ u0.sch.insts.find? mine = none ∧ s.sch.images = [] ∧ (State.cids inst0).Nodup := by decide +kernel

/-! ## Witnesses: layers, graphs, dispatch -/

/-- A model of one layer whose descriptor lies at VA 0x4000_0800, at home address 0x800, in a page of the kernel's. -/
def md0 : Model := ⟨0, 0, 0, 0x40000800, [⟨0, 5, false, 0⟩], 1, 3⟩
def md1 : Model := ⟨0, 1, 0, 0x40000A00, [⟨0, 5, false, 0⟩], 1, 3⟩
/-- A layer record: FLAG, CAUSE, TGT, then PIN, SRC, BYTES, TYPE and the digest of one zero byte (FIPS 202). -/
def layRec (flag : Byte) (pin : W32) : List Byte :=
  [flag, 0, 0, 0] ++ bvLe 4 pin ++ bvLe 8 (0x40000E00 : W64) ++ [1, 0, 0, 0, 8, 0, 0, 0] ++ List.replicate 40 0 ++
  [0x5d, 0x53, 0x46, 0x9f, 0x20, 0xfe, 0xf4, 0xf8, 0xea, 0xb5, 0x2b, 0x88, 0x04, 0x4e, 0xde, 0x69, 0xc7, 0x7a, 0x6a, 0x68, 0xa6, 0x07, 0x28, 0x60,
   0x9f, 0xc4, 0xa6, 0x5f, 0xf5, 0x31, 0xe7, 0xd0]
def uL (flag : Byte) (pin : W32) : State :=
  ((withM 0x840 (layRec flag pin) (withM 0x800 [1, 0, 3, 0, 0] (lvl u0))).modH fun h => { h with tlb := [⟨0, tslice 0x40000000 0, 0, 0, 0x40000, 12, 0x5CF⟩] }).modSch
    fun h => { h with models := [md0] }
def res0 : Fill := ⟨0, 0, 0, 0x40000E00, 1, 0, 0, 0, 1, []⟩

theorem witness_LayerInstructionResults : ([0, 1, 2, 3, 4] : List Byte).all (fun f => let s := uL f 0
      okAnd (s.layModel 0 .s true) (fun m => m == md0) && State.pinRoom (s.cx 0) md0 0 && s.layFlag md0 0 == f.toNat && decide (Runs s 0 (.lacq .s)) &&
      decide (Runs s 0 (.lrel .s)) && decide (Runs s 0 (.lhint .s)) && decide (Runs s 0 (.lreset .s))) = true ∧
    okIs (((uL 0 0).modPf fun p => { p with cwin := [(0x30, 0x100)] }).layModel 0 (.imm 0) true) = true ∧
    (((uL 2 0).modSch fun h => { h with residents := [res0] }).sch.residents.find? fun f => f.part == 0 && f.mid == 0 && f.layer == 0) = some res0 ∧
    (let s := (uL 2 0).modCx 0 fun x => { x with pins := (List.range 16).map fun i => ⟨i + 1, 0, 1⟩ }
     State.pinRoom (s.cx 0) md0 0 = false) ∧
    (((uL 2 0).modCx 0 fun x => { x with pins := [⟨0, 0, 1⟩] }).cx 0).pins.any (fun p => p.mid == 0 && p.layer == 0) = true ∧
    (uL 2 0).lvlK 0 = true := by decide +kernel

/-- A demand with room, one without, and its victim; an eviction; a fill with the right digest, a wrong one, and a lost
source. -/
theorem witness_LayerLoaderResults :
    (let s := (uL 0 0).modSch fun h => { h with demand := [(0, 0, 0)], pools := [(0, ⟨0, 1, 0, 0⟩)] }
     s.requests 0 = [(md0, 0, true)] ∧ s.mdNat md0 (64 + 2) 1 = 0 ∧ s.mdNat md0 (64 + 16) 4 = 1 ∧ s.freeRun 0 0 1 = some 0) ∧
    (let s := (withM 0xA40 (layRec 2 0) (uL 0 0)).modSch fun h =>
       { h with models := [md0, md1], demand := [(0, 0, 0)], pools := [(0, ⟨0, 1, 0, 0⟩)], residents := [{ res0 with mid := 1 }] }
     s.requests 0 = [(md0, 0, true)] ∧ s.freeRun 0 0 1 = none ∧ s.evictingIn 0 0 = false ∧ s.victims md0 0 0 true = [(md1, 0)]) ∧
    (let s := (uL 3 0).modSch fun h => { h with evicting := [(0, 0, 0)] }
     (0, 0, 0) ∈ s.sch.evicting ∧ s.model 0 0 = some md0) ∧
    (let s := (uL 1 0).modSch fun h => { h with fills := [res0] }
     (s.sch.fills.find? fun f => f.part == 0 && f.mid == 0 && f.layer == 0) = some res0 ∧ s.model 0 0 = some md0 ∧ s.sch.graphs = [] ∧
     ((s.fillOut res0).fillSource md0 res0 false).1.toOption = some [0] ∧ ((s.fillOut res0).fillSource md0 res0 true).1.toOption = none ∧
     (((withM 0xE00 [1] s).fillOut res0).fillSource md0 res0 false).1.toOption = some [1] ∧ (∀ e ∈ s.seqs, e.2.lacq = none) ∧
     State.pinRoom (s.cx 0) md0 0 = true ∧ s.sch.residents = [] ∧ s.fillHeld md0 res0 = false ∧ s.targetWaits res0 = false ∧
     -- its source's page, and its target's line
     (owned s).fillHeld md0 res0 = true ∧ (s.modH fun h => { h with resv := [⟨(s.fillHa res0) / 64, 8⟩] }).targetWaits res0 = true ∧
     -- a parked one, and a `lacq` that waits
     (let f := { res0 with parked := [.src 0] }
      let t := (uL 1 0).modSch fun h => { h with fills := [f] }
      (t.sch.fills.find? fun f => f.part == 0 && f.mid == 0 && f.layer == 0) = some f ∧ t.model 0 0 = some md0 ∧ f.parked ≠ []) ∧
     (let t := s.modSq 0 fun q => { q with lacq := some ⟨.s, 0, 0⟩ }
      (t.sq 0).lacq = some ⟨.s, 0, 0⟩ ∧ (t.cx 0).slot.part = 0 ∧ (∀ j < 3, j ≠ 0 → (t.sq j).lacq = none))) := by decide +kernel

theorem test_sha3_of_one_zero_byte : Sha3.sha3_256 [0] = (uL 1 0).mdRead md0 (64 + 64) 32 := by decide +kernel

theorem witness_ModelCommandResults : let s := (uL 0 0).modSch fun h => { h with models := [] }
    s.mayCommand none = true ∧ s.mayCommand (some .port0) = false ∧ Tab.get 0 s.pf.status 0 ≠ 2 ∧
    Tab.get 0 (s.modPf fun p => { p with status := [(0, 2)] }).pf.status 0 = 2 ∧ (∀ e ∈ (uL 0 0).seqs, e.2.lacq = none) ∧
    (let t := (uL 0 0).modSq 0 fun q => { q with lacq := some ⟨.s, 0, 0⟩ }
     (t.sq 0).lacq = some ⟨.s, 0, 0⟩ ∧ (t.cx (cidOf 0)).slot.part = 0) ∧
    s.modelHeld 0 0x40000800 = false ∧ (owned s).modelHeld 0 0x40000800 = true ∧
    (s.modelAt 0 0 0x40000800 0).isSome = true ∧ s.modelAt 0 0 0x40000000 0 = none ∧ s.model 0 0 = none ∧ (0x40000801 : W64).toNat % 64 ≠ 0 ∧
    (uL 0 0).model 0 0 = some md0 ∧ (uL 0 0).layPin md0 0 = 0 ∧ (uL 0 0).layFlag md0 0 = 0 ∧ (uL 2 1).layPin md0 0 ≠ 0 ∧ (uL 0 0).sch.graphs = [] ∧
    s.poolOk 0 ⟨0, 2048, 0, 0⟩ = true ∧ s.poolOk 0 ⟨1, 2048, 0, 0⟩ = false ∧ (s.pool 0).arena % 2 ^ 21 = 0 ∧
    (let t := s.modSch fun h => { h with pools := [(1, ⟨0, 1, 0, 0⟩)] }
     (1, ⟨0, 1, 0, 0⟩) ∈ t.sch.pools ∧ overlap 0 1 0 1 = true) := by decide +kernel

/-- A field that the device writes, one that it would write behind another, and the engines' turn at which the oldest goes. -/
theorem witness_LaunchAndCancelResults_fields : let o : FieldOp := .write 0 0x40000100 [1]
    let s := { (uG 0).modSch fun h => { h with fields := [o, .irq 0] } with turn := .engine }
    s.agenda = [] ∧ s.turn = .engine ∧ s.settle.sch.fields = [o, .irq 0] ∧ (({ s.settle with sch := { s.settle.sch with fields := [.irq 0] } } : State).fieldNow o).isSome = true ∧
    (uG 0).sch.fields = [] ∧ okIs ((uG 0).translateOne { (uG 0).whoCtx 0 true with waits := true } 0x40000100 .read) = true := by decide +kernel

theorem witness_LaunchAndCancelResults : let s := withM 0x200 (header1 ++ record1 1) (uG 0)
    s.mayCommand none = true ∧ s.mayCommand (some .port0) = false ∧
    s.launchHeld 0 0x40000200 = none ∧ s.launchHeld 0 0x40000240 = none ∧ s.launchHeld 0 0x50000000 = none ∧ ((heldLaunch (uG 0)).launchHeld 0 0x40000200).isSome = true ∧
    okAnd (s.launchCheck 0 0x40000200).1 (fun g => g.nodes.all fun n => n.npred != 0) = true ∧ okIs (s.launchCheck 0 0x40000240).1 = false ∧
    okIs (s.launchCheck 0 0x50000000).1 = false ∧ (0x40000200 : W64) = ((0x40000200 : W64).extractLsb' 6 51 ++ (0 : BitVec 6)).signExtend 64 ∧
    s.graph 0 0x40000200 = none ∧ (uI [node0]).graph 0 0x40000100 = some (graph0 [node0]) ∧ node0.state = .running := by decide +kernel

def ready (kind : Nat) (desc : List Byte) : Node := { node0 with kind := kind, state := .ready, desc := desc }
def cdesc (dst src : W64) : List Byte := bvLe 8 dst ++ bvLe 8 src ++ [0, 2, 0, 0] ++ List.replicate 12 0
def ndesc (opc : Byte) (dst src : W64) : List Byte := [opc, 0, 0, 0, 0, 0, 0, 0] ++ bvLe 8 dst ++ bvLe 8 src ++ [0, 4, 0, 0, 0, 0, 0, 0]

/-- Nodes whose ranges translate, and whose ranges do not; a fill node on a layer in each of its states, and without a
model. -/
theorem witness_NodeStartResults :
    (let n := ready 0 (cdesc 0x40000000 0x40000400)
     let s := uI [n]
     s.nodeAt 0x40000100 0 0 .ready = some (0, n) ∧ s.node 0 0x40000100 0 = some n ∧
     okAnd ((s.setNode 0 0x40000100 0 .running).translateAll (s.whoCtx 0 false) n.dst 512 .copyWrite)
       (fun e => okIs (e.2.translateAll (s.whoCtx 0 false) n.src 512 .copyRead)) = true ∧
     okIs ((s.setNode 0 0x40000100 0 .running).translateAll (s.whoCtx 0 false) (ready 0 (cdesc 0 0)).dst 512 .copyWrite) = false ∧
     (s.walkHeld (s.whoCtx 0 false) n.dst 512 .copyWrite).or (s.walkHeld (s.whoCtx 0 false) n.src 512 .copyRead) = none ∧
     (let t := owned (s.modH fun h => { h with tlb := [] })
      t.nodeAt 0x40000100 0 0 .ready = some (0, n) ∧ (t.walkHeld (t.whoCtx 0 false) n.dst 512 .copyWrite).isSome = true)) ∧
    ([0x12, 0x13] : List Byte).all (fun opc => let n := ready 2 (ndesc opc 0x40000000 0x40000400)
     let s := uI [n]
     s.nodeAt 0x40000100 0 2 .ready == some (0, n) &&
     okAnd ((s.setNode 0 0x40000100 0 .running).translateAll (s.whoCtx 0 false) n.dst 1024 (.near true))
       (fun e => okIs (e.2.translateAll (s.whoCtx 0 false) n.src 1024 (.near false))) &&
     ((s.walkHeld (s.whoCtx 0 false) n.dst 1024 (.near true)).or (s.walkHeld (s.whoCtx 0 false) n.src 1024 (.near false))).isNone &&
     let t := owned (s.modH fun h => { h with tlb := [] })
     t.nodeAt 0x40000100 0 2 .ready == some (0, n) && (t.walkHeld (t.whoCtx 0 false) n.dst 1024 (.near true)).isSome) = true ∧
    ([0, 1, 2, 3, 4] : List Byte).all (fun f => let n := ready 3 (List.replicate 32 0)
     let s := withG [n] [] (uL f 0)
     s.nodeAt 0x40000100 0 3 .ready == some (0, n) && (s.setNode 0 0x40000100 0 .running).model (s.cpart 0) 0 == some md0 &&
     (s.setNode 0 0x40000100 0 .running).layFlag md0 0 == f.toNat) = true ∧
    (uI [ready 3 (List.replicate 32 0)]).model 0 0 = none := by decide +kernel

def rec0 : BindRec := ⟨0x40000140, 0, 1, 1, 0, 0, 2⟩
/-- Node 0 READY with two instances to bind; its bench's core 1 has free contexts. -/
def uB : State := withG [{ node0 with state := .ready }] [] (uG 0)

theorem witness_BindingResults : uB.recordNode rec0 = some (graph0 [{ node0 with state := .ready }], 0, { node0 with state := .ready }) ∧
    uB.bindOk 0 rec0 (graph0 [{ node0 with state := .ready }]) 0 { node0 with state := .ready } = true ∧ uB.findInst 0 0x40000100 0 0 = none ∧
    uB.bindOk 0 { rec0 with mem := 6 } (graph0 [{ node0 with state := .ready }]) 0 { node0 with state := .ready } = false ∧
    rec0.mem.getLsbD rec0.leader = true ∧ u0.recordNode rec0 = none ∧ rec0.op = 0 ∧ ({ rec0 with op := 2 } : BindRec).op ≠ 1 ∧ uB.selfBind.isSome = true ∧ u0.selfBind = none := by decide +kernel

theorem witness_QuantumAndRotationResults : let s := uI [node0]
    let r : BindRec := { rec0 with op := 1 }
    let named (y : Inst) : Bool := nodeVa y.hdr y.node == r.node && y.inst == r.inst && y.part == r.part && y.state == .running && r.op == 1
    s.sch.insts.find? named = some inst0 ∧ u0.sch.insts.find? named = none ∧
    (let x := { inst0 with preempt := true }
     let t := s.modSch fun h => { h with insts := [x] }
     t.instAt x.hdr x.node x.inst (fun y => y.state == .running && y.preempt) = some x ∧ t.inst x.id = some x) ∧
    s.sch.graphs.find? (fun y => y.hdr == 0x40000100) = some (graph0 [node0]) ∧ node0.coop = true ∧ s.inst inst0.id = some inst0 ∧
    1 < node0.count ∧ ({ node0 with gx := 1 } : Node).count ≤ 1 := by decide +kernel

/-- An instance bound on core 0, whose ARGS are in a page that translates. -/
def bound0 : Inst := { inst0 with state := .bound, saveid := none }
def uS (st : SlotState) (i : Inst) (n : Node) : State :=
  withG [n] [i] ((uG 0).modSlot 0 fun x => { x with state := st, inst := 9, winSize := 65536 })

theorem witness_InstanceStartResults : let s := uS .bound bound0 node0
    s.instAt bound0.hdr bound0.node bound0.inst s.unstarted = some bound0 ∧ s.inst bound0.id = some bound0 ∧ s.node 0 0x40000100 0 = some node0 ∧
    bound0.members.Nodup ∧ bound0.ctxn < 4 ∧ s.argsHeld bound0 node0 = none ∧ s.argsHeld bound0 { node0 with args := 0 } = none ∧
    ((owned s).argsHeld bound0 node0).isSome = true ∧ okIs (s.readArgs bound0 node0) = true ∧ okIs (s.readArgs bound0 { node0 with args := 0 }) = false ∧
    bound0.migrated = false ∧ (s.cx 0).slot.lastAsid = s.asidOf bound0.ctxid := by decide +kernel

theorem witness_SwapResults :
    (let i := { inst0 with state := .quiescing }
     let s := uS .quiescing i node0
     s.instAt i.hdr i.node i.inst (fun y => y.state == .quiescing) = some i ∧ (s.saveTeam i).isSome = true ∧ (∀ g ∈ s.sch.graphs, ∀ n ∈ g.nodes, n.prio ≠ 7 ∧ n.swapIn = []) ∧ s.sch.images = [] ∧ s.inst i.id = some i) ∧
    (let i := { inst0 with state := .bound }
     let m : Image := ⟨9, 0, Ctx.init, SeqSt.init, SeqSt.init, SeqSt.init, [], [], [], [], [], [], none, 0⟩
     let s := (uS .bound i node0).modSch fun h => { h with images := [m] }
     s.instAt i.hdr i.node i.inst (fun y => y.state == .bound && !(s.imagesOf y.id).isEmpty && y.members.all (s.jafFits y.id) &&
        (s.imagesOf y.id).all fun m => !s.imageHeld ((State.cids y).getD m.tidx 0) m) = some i ∧
     (s.imagesOf i.id).map Image.tidx = List.range i.members.length) := by decide +kernel

/-- Core 0 has no free context, and BLOAD names core 1. -/
def uM : State := [1, 2, 3].foldl (fun s c => s.modSlot c fun x => { x with state := .running })
  ((uS .bound bound0 node0).modBe 0 fun b => { b with bload := 0x401 })

theorem witness_MigrationResults : uM.migrates 0 = some (bound0, node0, 1) ∧ okIs (uM.readArgs bound0 node0) = true ∧
    okIs (uM.readArgs bound0 { node0 with args := 0 }) = false ∧
    (let s := uM.modSch fun h => { h with migs := [⟨9, 0, 1, []⟩] }
     s.sch.migs[0]? = some ⟨9, 0, 1, []⟩ ∧ s.inst 9 = some bound0 ∧ s.graph 0 0x40000100 = some (graph0 [node0]) ∧ s.node 0 0x40000100 0 = some node0 ∧
     s.canTake 1 0 1 = true ∧ s.findInst 0 0x40000100 0 0 = some bound0 ∧ 1 ∉ bound0.members ∧
     (let t := [4, 5, 6, 7].foldl (fun s c => s.modSlot c fun x => { x with state := .running }) s
      ∀ k < 4, t.canTake 1 k 1 = false)) := by decide +kernel

/-! ## Witnesses: platform, and the whole machine -/

theorem witness_PartitionCommandResults : let s := uG 3
    s.rowSize 0 = 0 ∧ (let t := s.modH fun h => { h with rowSize := [(0, 64)] }
      t.rowSize 0 = 64 ∧ s.mayCommand none = true ∧ s.mayCommand (some .board) = false ∧ Tab.get 0 s.pf.status 0 ≠ 2 ∧ (∀ g ∈ s.sch.graphs, s.cpart g.ctxid ≠ 0) ∧
      (t.tableOf 0 0 1 0x40000000 64 4 9).isSome = true ∧ t.tableOf 0 0 256 0x40000000 64 4 9 = none ∧ t.tableBusy 0 1 = false) ∧
    (withNm (nm 0x10 0 embRec [] []) s).tableBusy 0 0 = true ∧
    -- pages whose walk is held, and pages whose walk is not
    s.walkHeld (s.whoCtx 0 true) 0x40000000 (64 * 4) .read = none ∧
    (let t := owned (s.modH fun h => { h with tlb := [] })
     (t.walkHeld (t.whoCtx 0 true) 0x40000000 (64 * 4) .read).isSome = true) ∧
    s.frrTakes 0 (frrOf 0 1 0 0) = true ∧ s.frrTakes 0 (frrOf 0 0 0 0) = false ∧ Tab.get false s.pf.keyUsed 4095 = false ∧
    Tab.get false (s.modPf fun p => { p with keyUsed := [(1, true)] }).pf.keyUsed 1 = true := by decide +kernel

theorem witness_TrustAndFabricResults : 0x830 % 8 = 0 ∧ 0 < 0x830 ∧ 0x830 < 0x838 ∧ u0.mayCommand none = true ∧ u0.mayCommand (some .port1) = false ∧ u0.pf.ready = false ∧ u0.pf.owner = none ∧
    (u0.modPf fun p => { p with ready := true, owner := some .port0, present := [.port0, .board] }).pf.owner = some .port0 ∧
    Tab.get 0 u0.h.refresh 7 = 0 ∧ Tab.get 0 (u0.modH fun h => { h with refresh := [(7, 16)] }).h.refresh 7 = 16 ∧
    Tab.get 0 (u0.modH fun h => { h with refresh := [(7, 32)] }).h.refresh 7 = 32 := by decide +kernel

theorem witness_HostAndPowerResults : let s := u0.modPf fun p => { p with ready := true, owner := some .board }
    s.hostTakes 0 8 = true ∧ u0.hostTakes 0 8 = false ∧ s.anyUnderWay [(0, 4096)] = false ∧ s.writeHeld 0 = false ∧
    (withNm (nm 0x13 1024 (List.replicate 8 7) [near0 0] []) s).anyUnderWay [(0, 4096)] = true ∧ (owned s).writeHeld 0 = true ∧ s.sch.fills = [] ∧
    (s.cores.any fun e => match e.2.xch with | some y => y.opened | none => false) = false ∧
    ((withX 0 (xch 0 1 true ⟨0, false, 0, 1⟩) s).cores.any fun e => match e.2.xch with | some y => y.opened | none => false) = true ∧
    (∀ e ∈ State.reset.ctxs, e.2.slot.state = .free) ∧ State.reset.pf.pstate = .d0 ∧ (∃ e ∈ s.ctxs, e.2.slot.state ≠ .free) ∧
    s.pf.owner = some .board ∧ s.pf.owner ≠ some .port1 ∧ s.sch.graphs = [] ∧ s.sch.insts = [] ∧ (uI [node0]).sch.graphs ≠ [] ∧
    (s.ctxs.map Prod.fst).Nodup ∧ s.ctxs = [(0, s.cx 0)] := by decide +kernel

theorem witness_DecodeInvertsEncode : ([.ret, .addImm (.long 0), .cpy cp (some mt), .mtile { mt with masks := some (0, 0xFFFF) }, .wend] : List Instr).all
    (fun i => i.wf && !i.isEvent) = true := by decide +kernel

/-- Every turn that the part has, at its bounds. -/
theorem witness_EveryStepGoesOn : ([.seq 0, .seq 55295, .awl 95, .engine] : List Turn).all (fun t => match t with
    | .seq k => decide (k < 4608 * 4 * 3) | .awl b => decide (b < 96) | .engine => true) = true := by decide +kernel

/-- Words that decode and a word that does not, at the pc of a sequencer and of a walk; words that cannot be fetched; an event on the agenda. -/
theorem witness_StepRunsTheDecoded : let at_ (w : List Byte) := withM 0 w (withPage (pte 0) (u0.modR 0 fun r => { r with pc := 0x40000000 }))
    let wk := { walk0 with pc := 0x40000000 }
    ([([4, 0, 0, 8], true), ([0, 0, 0, 0xE0], false)] : List (List Byte × Bool)).all (fun e => let s := at_ e.1
      s.agenda == [] && s.turn == .seq 0 && s.settle.mayIssue 0 && (s.settle.pendNow 0).isEmpty && !s.settle.follows 0 &&
      okAnd (s.settle.fetch 0) fun p => match decode p.1 with | .ok i => e.2 && i == .addImm (.short 1) | .bad _ => !e.2) = true ∧
    ([([0, 0, 0, 0xAC], true), ([0, 0, 0, 0xE0], false)] : List (List Byte × Bool)).all (fun e => let s := withW wk (at_ e.1)
      s.settle.walk 0 == some wk && s.settle.awlReady 0 wk && okAnd (s.settle.awlWords wk wk.pc maxWords [])
        fun p => match decode p.1 with | .ok i => e.2 && i == .wend | .bad _ => !e.2) = true ∧
    -- words that cannot be fetched, alone and where a running `joins` passes the handler of another sequencer
    ([none, some 1] : List (Option Nat)).all (fun h =>
      let s := ((u0.modR 0 fun r => { r with pc := 0x50000000 }).modCx 0 fun x => { x with handler := h }).modSq 0 fun q =>
        { q with joins := some ⟨[], [], false, false, none, none, [], none, 7⟩ }
      s.settle.mayIssue 0 && (s.settle.pendNow 0).isEmpty && !s.settle.follows 0 && s.settle.barred 0 == h.isSome &&
      (match s.settle.fetch 0 with | .error t => t.hold.isNone | .ok _ => false)) = true ∧
    -- a word that stalled before
    (let s := (at_ [4, 0, 0, 8]).modSq 0 fun q => { q with stalled := some (u0.blocked 0 .waitOc) }
     (s.settle.mayIssue 0 && okAnd (s.settle.fetch 0) fun p => (p.2.sq 0).stalled.isSome) = true) ∧
    Instr.clockGating.isEvent = true := by decide +kernel

/-- Each clause: an awl's word, one of the compute sequencer's, one that no body may hold, a privileged one; and a core's
instruction on an awl. -/
theorem witness_WhoMayExecuteWhat : isW .wend = true ∧ isW .gbar = false ∧ qOf 1 ≠ 0 ∧ computeOnly .gbar = true ∧
    ((inRep 0 2 1 0 0 u0).r 0).rep.act = true ∧ noRep .ret = true ∧ isW .ret = false ∧ (u0.r 0).rep.act = false ∧ (u0.r 0).pl = false ∧
    privileged .eret = true ∧ isW .eret = false ∧ (uW walk0).walk 0 = some walk0 ∧
    -- level U in a repetition, and on another sequencer; and nothing that refuses, at level K
    ((inRep 0 2 1 0 0 u0).r 0).pl = false ∧ noRep (.srw 0) = false ∧ privileged (.srw 0) = true ∧ (turnOf 1 u0).turn = .seq 1 ∧ ((turnOf 1 u0).r 1).pl = false ∧
    u0.openPhaseOf 0 = none ∧ isW (.srw 0) = false ∧ computeOnly (.srw 0) = false ∧ ((lvl u0).r 0).pl = true ∧ (lvl u0).openPhaseOf 0 = none := by decide +kernel

theorem witness_UserLevelKeepsKernelRegisters : (u0.turn = .seq 0 ∧ (u0.r 0).pl = false ∧ Instr.ret.isEvent = false) ∧ ∃ t, exec .ret u0 = .next t :=
  ⟨by decide +kernel, _, rfl⟩

/-- A state in which a program's instruction stands where the next step fetches. -/
theorem witness_EveryStepKeepsMemories : (State.reset.withFetchWord 32 0x08000004).memOk ∧
    ∃ t, step (State.reset.withFetchWord 32 0x08000004) = .next t := by
  refine ⟨⟨by decide +kernel, fun k => ?_, ?_⟩, _, rfl⟩
  · exact (rfl : ((State.reset.withFetchWord 32 0x08000004).co k) = State.reset.co k) ▸ rfl
  · intro i h; cases h

/-- The first instruction after reset with a program placed: `add s, #1`. -/
theorem test_withFetchWord : ∀ t, step (State.reset.withFetchWord 32 0x08000004) = .next t → (t.r 0).s = 1 := by
  intro t h; injection h with h; subst h; decide +kernel

end Sys2Proof.Tests
end

section
/-! SUPPORT. Proofs of the statements about the device as a whole, about the models' commands and about the commands of
the partition windows. -/

namespace Sys2Proof

open Machine Machine.State

/-! ## Every step goes on (R10, R116) -/

theorem goes_next (t : State) : Goes (.next t) := ⟨t, rfl⟩

theorem goes_ite {c : Prop} [Decidable c] {a b : Res} (ha : Goes a) (hb : Goes b) : Goes (if c then a else b) := by
  split
  · exact ha
  · exact hb

theorem happens_goes {α : Type} (s : State) (o : Option α) (f : α → State) : Goes (happens s o f) := by
  cases o <;> exact ⟨_, rfl⟩

theorem command_goes (s : State) (w : Via) (o : Option State) : Goes (command s w o) := by
  unfold command
  refine goes_ite ⟨_, rfl⟩ ?_
  split <;> exact ⟨_, rfl⟩

/-- Every instruction of a core is a body that `run` runs. -/
theorem exec_eq_run (i : Instr) (s : State) (hE : i.isEvent = false) (hW : isW i = false) :
    ∃ body, exec i s = run i s body := by
  cases i <;> cases hE <;> cases hW
  case div u x t =>
    by_cases h : t = .fp32
    · exact ⟨_, if_pos h⟩
    · exact ⟨_, if_neg h⟩
  all_goals exact ⟨_, rfl⟩

theorem awl_goes (i : Instr) (s : State) (body : Walk → WOut) : Goes (awl i s body) := by
  unfold awl
  split
  · split
    · exact ⟨_, rfl⟩
    · split <;> exact ⟨_, rfl⟩
  · exact run_goes ..

theorem execWend_goes (s : State) : Goes (execWend s) := by
  unfold execWend
  split
  · split
    · exact ⟨_, rfl⟩
    · refine goes_ite ⟨_, rfl⟩ ?_
      split <;> exact ⟨_, rfl⟩
  · exact run_goes ..

/-- An awl's instruction goes on, whosever turn it is. -/
theorem exec_goes_of_isW (i : Instr) (s : State) (hW : isW i = true) : Goes (exec i s) := by
  cases i <;> cases hW
  case wend => exact execWend_goes s
  all_goals simp only [exec, execWld, execWldi, execWldiSh, execWadd, execWsub, execWand, execWshr, execWcmp, execWbr,
    execWjmp, execWemit, execWtile, execWtileExpand, awl_goes]

/-- An event goes on, pending or not: it has its effect, or the state stays as it is. -/
theorem exec_goes_of_isEvent (i : Instr) (s : State) (hE : i.isEvent = true) : Goes (exec i s) := by
  cases i <;> cases hE
  case loadLanding | storeAcceptance | runaheadEnd | faultReply | replayableFault | poolFaultReply | scaleWordEntry
      | followOnIssue | offerPerform | finishCommit | owaitTimeout | nmCommandPerform | exchangeT0 | slotWindowStart
      | walkStart | walkYield | walkStepLimit | copyNodeStart | nearNodeStart | fillNodeStart | instanceStart
      | dispatchSelfBind | quantumBoundary | coopRotation | swapDrainTimeout | teamResume | threadMigration
      | migrationMessage | evictionDone | layerFillEnd | revocationRequest => exact happens_goes ..
  case rowreg | embunreg | modunreg | frrreq | laypool => exact command_goes ..
  case modreg | embreg => exact goes_ite ⟨_, rfl⟩ (command_goes ..)
  case keyreq w key =>
    cases key
    · exact command_goes ..
    · exact ⟨_, rfl⟩
  case layerFillStart => exact goes_ite ⟨_, rfl⟩ (happens_goes ..)
  case homeWriteArrival | bloadRefresh | idleTimeout | bringUp | leaseRevocationAck | flitReplay =>
    exact goes_ite ⟨_, rfl⟩ ⟨_, rfl⟩
  case memoryError => exact goes_ite ⟨_, rfl⟩ (goes_ite ⟨_, rfl⟩ ⟨_, rfl⟩)
  case lineEviction | pageWalk | tokenGrant | exchangeTransferLanding | exchangeReduction | copyChunkLanding | owaitWake
      | offerReplyLanding | nmReplyLanding | wtileRowLanding | bind | preempt | trapEntry | ownerLinkLoss =>
    simp only [exec, execLineEviction, execPageWalk, execTokenGrant, execExchangeTransferLanding, execExchangeReduction,
      execCopyChunkLanding, execOwaitWake, execOfferReplyLanding, execNmReplyLanding, execWtileRowLanding, execBind,
      execPreempt, execTrapEntry, execOwnerLinkLoss]
    repeat' split
    all_goals simp only [goes_next, happens_goes]
  all_goals exact ⟨_, rfl⟩

theorem exec_goes (i : Instr) (s : State) : Goes (exec i s) := by
  cases hE : i.isEvent with
  | true => exact exec_goes_of_isEvent i s hE
  | false =>
    cases hW : isW i with
    | true => exact exec_goes_of_isW i s hW
    | false =>
      obtain ⟨body, h⟩ := exec_eq_run i s hE hW
      rw [h]
      exact run_goes i s body

theorem woken_goes {old : State} {r : Res} (h : Goes r) : Goes (woken old r) := by
  obtain ⟨t, rfl⟩ := h
  exact ⟨_, rfl⟩

theorem rotated_goes {t : Turn} {r : Res} (h : Goes r) : Goes (rotated t r) := by
  obtain ⟨u, rfl⟩ := h
  exact ⟨_, rfl⟩

/-- What a turn comes to is an instruction or a state. -/
def Machine.Ready.present : Ready → Bool
  | .absent => false
  | _ => true

@[simp] theorem present_inst (i : Instr) (s : State) : (Ready.inst i s).present = true := rfl
@[simp] theorem present_done (s : State) : (Ready.done s).present = true := rfl

theorem decoded_present (s : State) (k : Nat) (ws : List W32) : (s.decoded k ws).present = true := by
  unfold State.decoded
  split <;> rfl

theorem followed_present (s : State) (k : Nat) : (s.followed k).present = true := by
  unfold State.followed
  split
  · rfl
  · split
    · rfl
    · exact decoded_present ..

/-- A sequencer of the part has a turn. -/
theorem seqReady_present (s : State) {k : Nat} (hk : k < seqCount) : (s.seqReady k).present = true := by
  unfold State.seqReady State.seqTurn
  simp only [Nat.not_le.mpr hk, if_false]
  repeat' split
  all_goals simp only [followed_present, decoded_present, present_done]

/-- An awl of the part has a turn. -/
theorem awlTurn_present (s : State) {b : Nat} (hb : b < Config.benches) : (s.awlTurn b).present = true := by
  unfold State.awlTurn
  simp only [Nat.not_le.mpr hb, if_false]
  repeat' split
  all_goals rfl

theorem engineTurn_present (s : State) : s.engineTurn.present = true := by
  unfold State.engineTurn
  repeat' split
  all_goals rfl

theorem takeTurn_goes {t : Turn} {r : Ready} (h : r.present = true) : Goes (takeTurn t r) := by
  cases r with
  | inst i s => exact exec_goes i _
  | done s => exact ⟨_, rfl⟩
  | absent => exact nomatch h

/-- The turn names a sequencer or an awl that the part has, or the engines. -/
def Machine.Turn.present : Turn → Prop
  | .seq k => k < seqCount
  | .awl b => b < Config.benches
  | .engine => True

theorem turnStep_goes {t : Turn} (ht : t.present) (s : State) : Goes (turnStep t s) := by
  cases t with
  | seq k => exact takeTurn_goes (seqReady_present s ht)
  | awl b => exact takeTurn_goes (awlTurn_present s ht)
  | engine => exact takeTurn_goes (engineTurn_present s)

theorem agendaStep_goes {a : Agendum} (ha : ∀ t, a = .go t → t.present) (s : State) : Goes (agendaStep a s) := by
  cases a with
  | ev i => exact goes_ite (exec_goes i s) ⟨_, rfl⟩
  | go t => exact turnStep_goes (ha t rfl) s
  | prefetch k a => exact ⟨_, rfl⟩

theorem stepFrom_goes {s : State} (h : ∀ t, t = s.turn ∨ Agendum.go t ∈ s.agenda.take 1 → t.present) : Goes (stepFrom s) := by
  unfold stepFrom
  split
  next a rest ha => exact agendaStep_goes (fun t e => h t (.inr (by simp [ha, e]))) _
  next ha => exact rotated_goes (turnStep_goes (h _ (.inl rfl)) _)

/-- Settles O54: every instruction is a body that `run` or `awl` runs, every event has an effect or none, and a turn that
is present comes to one of them. -/
theorem everyStepGoesOn : Obligations.EveryStepGoesOn := by
  refine ⟨exec_goes, fun s h => woken_goes (stepFrom_goes fun t ht => ?_)⟩
  have := h t ht
  cases t <;> exact this

end Sys2Proof
end

section
/-! SUPPORT. What stores at the homes and translations leave unchanged (R132, R135): whatever arrives at a home touches the
state in the sense of `Touched`. -/

namespace Sys2Proof

open Machine Machine.State

/-! ## Homes -/

/-- Between two states of the homes, only what arriving writes and translations may change has changed. -/
def Machine.Homes.Touched (h h' : Homes) : Prop :=
  { h' with
    mem := h.mem, poison := h.poison, keys := h.keys, tlb := h.tlb, tlbOld := h.tlbOld, ats := h.ats
    fin := h.fin, late := h.late, rowVer := h.rowVer, mended := h.mended } = h

namespace Machine.Homes

theorem Touched.refl (h : Homes) : Homes.Touched h h := rfl

theorem Touched.trans {h h' h'' : Homes} (h1 : Homes.Touched h h') (h2 : Homes.Touched h' h'') : Homes.Touched h h'' :=
  calc ({ h'' with
          mem := h.mem, poison := h.poison, keys := h.keys, tlb := h.tlb, tlbOld := h.tlbOld, ats := h.ats
          fin := h.fin, late := h.late, rowVer := h.rowVer, mended := h.mended } : Homes)
      = { ({ h'' with
          mem := h'.mem, poison := h'.poison, keys := h'.keys, tlb := h'.tlb, tlbOld := h'.tlbOld, ats := h'.ats
          fin := h'.fin, late := h'.late, rowVer := h'.rowVer, mended := h'.mended } : Homes) with
          mem := h.mem, poison := h.poison, keys := h.keys, tlb := h.tlb, tlbOld := h.tlbOld, ats := h.ats
          fin := h.fin, late := h.late, rowVer := h.rowVer, mended := h.mended } := rfl
    _ = h := by rw [show _ = h' from h2]; exact h1

theorem Touched.foldl {α : Type} {f : Homes → α → Homes} (hf : ∀ h a, Homes.Touched h (f h a)) (l : List α) (h : Homes) :
    Homes.Touched h (l.foldl f h) := by
  induction l generalizing h with
  | nil => exact .refl h
  | cons a l ih => exact (hf h a).trans (ih _)

theorem rekey_touched (h : Homes) (key u : Nat) : Homes.Touched h (h.rekey key u) := by
  unfold Homes.rekey
  split <;> rfl

theorem setMem_touched (h : Homes) (m : Memory) : Homes.Touched h { h with mem := m } := rfl

theorem put_touched (h : Homes) (key : Nat) (ws : List (Nat × PByte)) : Homes.Touched h (h.put key ws) :=
  (Touched.foldl (fun h u => rekey_touched h key u) (unitsOf (ws.map Prod.fst)) h).trans rfl

theorem mend_touched (h : Homes) (u bit : Nat) (bad : Bool) : Homes.Touched h (h.mend u bit bad) := by
  unfold Homes.mend
  simp only
  repeat' split
  all_goals rfl

theorem nmcPut_touched (h : Homes) (key a : Nat) (b : PByte) : Homes.Touched h (h.nmcPut key a b) := by
  unfold Homes.nmcPut
  refine Touched.foldl (fun h t => ?_) _ h
  exact ((rekey_touched h key _).trans (setMem_touched _ _)).trans (mend_touched _ _ _ _)

theorem store_touched (h : Homes) (key : Nat) (cc : BitVec 3) (ws : List (Nat × PByte)) :
    Homes.Touched h (h.store key cc ws) := by
  unfold Homes.store
  split
  · refine Touched.foldl (fun h w => ?_) ws h
    exact nmcPut_touched ..
  · exact put_touched h key ws

theorem advanceEpoch_touched (h : Homes) (line : Nat) : Homes.Touched h (h.advanceEpoch line) := rfl

end Machine.Homes

/-! ## The state -/

namespace Touched

theorem refl (s : State) : Touched s s := ⟨rfl, rfl, rfl, fun _ => rfl⟩

theorem trans {s u t : State} (h1 : Touched s u) (h2 : Touched u t) : Touched s t where
  rest :=
    calc ({ t with ctxs := s.ctxs, h := s.h, pf := s.pf } : State)
        = { ({ t with ctxs := u.ctxs, h := u.h, pf := u.pf } : State) with ctxs := s.ctxs, h := s.h, pf := s.pf } := rfl
      _ = s := by rw [h2.rest, h1.rest]
  pf :=
    calc ({ t.pf with discarded := s.pf.discarded } : Platform)
        = { ({ t.pf with discarded := u.pf.discarded } : Platform) with discarded := s.pf.discarded } := rfl
      _ = s.pf := by rw [h2.pf, h1.pf]
  homes := Homes.Touched.trans h1.homes h2.homes
  ctx d :=
    calc ({ t.cx d with f := { (t.cx d).f with offers := (s.cx d).f.offers } } : Ctx)
        = { ({ t.cx d with f := { (t.cx d).f with offers := (u.cx d).f.offers } } : Ctx) with
            f := { ({ t.cx d with f := { (t.cx d).f with offers := (u.cx d).f.offers } } : Ctx).f with
              offers := (s.cx d).f.offers } } := rfl
      _ = s.cx d := by rw [h2.ctx d, h1.ctx d]

theorem foldl {α : Type} {f : State → α → State} (hf : ∀ s a, Touched s (f s a)) (l : List α) (s : State) :
    Touched s (l.foldl f s) := by
  induction l generalizing s with
  | nil => exact refl s
  | cons a l ih => exact (hf s a).trans (ih _)

theorem modH (s : State) {f : Homes → Homes} (h : Homes.Touched s.h (f s.h)) : Touched s (s.modH f) :=
  ⟨rfl, rfl, h, fun _ => rfl⟩

section parts

variable {s u : State} (h : Touched s u)
include h

theorem seqs : u.seqs = s.seqs := (congrArg State.seqs h.rest :)
theorem cores : u.cores = s.cores := (congrArg State.cores h.rest :)
theorem benches : u.benches = s.benches := (congrArg State.benches h.rest :)
theorem sch : u.sch = s.sch := (congrArg State.sch h.rest :)
theorem sq (k : Nat) : u.sq k = s.sq k := congrArg (Tab.get SeqSt.init · k) h.seqs
theorem co (k : Nat) : u.co k = s.co k := congrArg (Tab.get Core.init · k) h.cores
theorem be (b : Nat) : u.be b = s.be b := congrArg (Tab.get Bench.init · b) h.benches
theorem status : u.pf.status = s.pf.status := (congrArg Platform.status h.pf :)
theorem emb : u.h.emb = s.h.emb := (congrArg Homes.emb h.homes :)
theorem rowSize (a : Nat) : u.rowSize a = s.rowSize a :=
  congrArg (Tab.get 0 · (blockOf a)) (congrArg Homes.rowSize h.homes :)

end parts

end Touched

namespace Machine.State

theorem bumpRow_touched (s : State) (a : Nat) : Touched s (s.bumpRow a) := by
  unfold State.bumpRow
  split
  · exact .refl s
  · exact .modH s rfl

/-- A write wakes offers that wait for it, and nothing else of a context changes. -/
theorem wake_touched (s : State) (line : Nat) : Touched s (s.wake line) where
  rest := rfl
  pf := rfl
  homes := rfl
  ctx d := by
    have h : (s.wake line).cx d =
        { s.cx d with f := { (s.cx d).f with offers := (s.cx d).f.offers.map (wakeOffer s.h line) } } :=
      Tab.get_map Ctx.init s.ctxs (fun e => { e.2 with f := { e.2.f with offers := e.2.f.offers.map (wakeOffer s.h line) } }) d rfl
    rw [h]

theorem arrive_touched (s : State) (key : Nat) (cc : BitVec 3) (line : Nat) (ws : List (Nat × PByte)) :
    Touched s (s.arrive key cc line ws) := by
  have count (b : Prop) [Decidable b] : Touched s (if b then s.modPf fun p => { p with discarded := p.discarded + 1 } else s) := by
    split
    · exact ⟨rfl, rfl, rfl, fun _ => rfl⟩
    · exact .refl s
  unfold State.arrive
  simp only
  split
  · exact count _
  · exact (((count _).trans (.modH _ ((Homes.store_touched _ _ _ _).trans (Homes.advanceEpoch_touched _ _)))).trans
      (bumpRow_touched _ _)).trans (wake_touched _ _)

theorem send_touched (s : State) (key : Nat) (cc : BitVec 3) (line : Nat) (ws : List (Nat × PByte)) :
    Touched s (s.send key cc line ws) := by
  unfold State.send
  split
  · exact .modH s rfl
  · exact arrive_touched ..

/-- A store of consecutive bytes, at once or where it waits, touches the state alone. -/
theorem homeSend_touched (s : State) (x : Xl) (bs : List PByte) : Touched s (s.homeSend x bs) :=
  Touched.foldl (fun _ _ => send_touched ..) _ s

theorem mdWrite_touched (s : State) (m : Model) (off : Nat) (bs : List Byte) : Touched s (s.mdWrite m off bs) :=
  homeSend_touched ..

/-! ## Translations (R132, R135, R137) -/

theorem setAD_touched (s : State) (pte : W64) (at_ : Nat) (k : XKind) : Touched s (s.setAD pte at_ k) := by
  unfold State.setAD
  split
  · exact .refl s
  · exact send_touched ..

theorem tlbPut_touched (s : State) (w : Who) (va : W64) (e : TlbEnt) : Touched s (s.tlbPut w va e) := by
  refine .modH s ?_
  simp only
  split <;> rfl

theorem atsPut_touched (s : State) (ha : Nat) : Touched s (s.atsPut ha) := by
  unfold State.atsPut
  split
  · exact .modH s rfl
  · exact .refl s

theorem translate_touched {s u : State} {w : Who} {va : W64} {k : XKind} {x : Xl} (h : s.translate w va k = .ok (x, u)) :
    Touched s u := by
  unfold State.translate at h
  simp only at h
  split at h
  · cases h
  split at h
  · cases h
  · cases h
  split at h
  · cases h
  split at h
  · cases h
  split at h
  · cases h
    exact atsPut_touched ..
  split at h
  · cases h
    exact atsPut_touched ..
  · cases h
  split at h
  · cases h
  · cases h
    exact ((setAD_touched ..).trans (tlbPut_touched ..)).trans (atsPut_touched ..)

theorem translatePages_touched {s u : State} {w : Who} {va : W64} {k : XKind} {n : Nat} {xs : List Xl}
    (h : s.translatePages w va k n = .ok (xs, u)) : Touched s u := by
  induction n generalizing s va xs with
  | zero =>
    cases h
    exact .refl _
  | succ n ih =>
    unfold State.translatePages at h
    split at h
    · cases h
    next x v hx =>
      split at h
      · cases h
      next ys t hy =>
        cases h
        exact (translate_touched hx).trans (ih hy)

theorem translateAll_touched {s u : State} {w : Who} {va : W64} {n : Nat} {k : XKind} {xs : List Xl}
    (h : s.translateAll w va n k = .ok (xs, u)) : Touched s u := translatePages_touched h

end Machine.State

end Sys2Proof
end

section
/-! SUPPORT. The commands of the partition windows (R324): what a window does with one, and what MODREG, MODUNREG and
LAYPOOL come to (R301, R305, R313). -/

namespace Sys2Proof

open Machine Machine.State

/-! ## A command at its window (R1, R324, R328) -/

/-- A window of one of the 16 partitions, not busy with a core's command where a master gives one. -/
def Machine.State.windowFree (s : State) (w : Via) : Prop :=
  w.win < 16 ∧ (w.by_.isSome = true → Tab.get 0 s.pf.status w.win ≠ 2)

/-- The command is refused: its status is 1, and nothing else changes. -/
def Refused (s : State) (part : Nat) (i : Instr) : Prop :=
  Says.Happens i s fun t => { t with pf := { t.pf with status := s.pf.status } } = s ∧ Tab.get 0 t.pf.status part = 1

theorem status_status (s : State) (part n : Nat) : Tab.get 0 (s.status part n).pf.status part = n := by
  simp [State.status]

theorem refused_of {s : State} {part : Nat} {i : Instr} (h : exec i s = .next (s.status part 1)) : Refused s part i :=
  ⟨_, h, rfl, status_status s part 1⟩

section window

variable {s : State} {w : Via}

theorem command_ignored {o : Option State} (h : 16 ≤ w.win ∨ w.by_.isSome = true ∧ Tab.get 0 s.pf.status w.win = 2) :
    command s w o = .next s := if_pos h

theorem takes_ignored (h : 16 ≤ w.win ∨ w.by_.isSome = true ∧ Tab.get 0 s.pf.status w.win = 2) : s.takes w = false := by
  unfold State.takes
  rcases h with h | ⟨h1, h2⟩
  · simp [Nat.not_lt.mpr h]
  · simp [h1, h2]

theorem takes_denied (h : s.mayCommand w.by_ = false) : s.takes w = false := by
  simp [State.takes, h]

variable (hw : s.windowFree w)
include hw

theorem not_ignored : ¬(16 ≤ w.win ∨ w.by_.isSome = true ∧ Tab.get 0 s.pf.status w.win = 2) := by
  rintro (h | ⟨h1, h2⟩)
  · exact absurd hw.1 (Nat.not_lt.mpr h)
  · exact hw.2 h1 h2

theorem command_denied {o : Option State} (h : s.mayCommand w.by_ = false) : command s w o = .next (s.status w.win 1) := by
  unfold command
  simp only [if_neg (not_ignored hw), h, Bool.false_eq_true, if_false]

theorem command_none : command s w none = .next (s.status w.win 1) := by
  unfold command
  simp only [if_neg (not_ignored hw), ite_self]

theorem command_some {u : State} (h : s.mayCommand w.by_ = true) : command s w (some u) = .next (u.status w.win 0) := by
  unfold command
  simp only [if_neg (not_ignored hw), h, if_true]

theorem takes_free (h : s.mayCommand w.by_ = true) : s.takes w = true := by
  unfold State.takes
  obtain ⟨h1, h2⟩ := hw
  cases hb : w.by_.isSome with
  | false => simp [h1, h]
  | true => simp [h1, h, h2 hb]

end window

/-! ## MODREG (R301) -/

section modreg

variable {s : State} {w : Via} {ctxid mid : Nat} {desc : W64}

/-- MODREG, where no read of the descriptor waits. -/
theorem exec_modreg (h : (s.takes w && s.modelHeld ctxid desc) = false) : exec (.modreg w ctxid desc mid) s =
    command s w ((s.modelAt w.win ctxid desc mid).map fun (m, u) => u.register m) :=
  if_neg (by simp [h])

/-- What MODREG refuses before it reads the descriptor. -/
theorem modelAt_refuses {part : Nat}
    (h : desc.toNat % 64 ≠ 0 ∨ 256 ≤ mid ∨ (s.model part mid).isSome = true ∨ s.cpart ctxid ≠ part) :
    s.modelAt part ctxid desc mid = none := by
  have h63 : desc &&& 63 = 0 → desc.toNat % 64 = 0 := fun e => by
    have := congrArg BitVec.toNat e
    rwa [BitVec.toNat_and, show (63 : W64).toNat = 2 ^ 6 - 1 from rfl, Nat.and_two_pow_sub_one_eq_mod] at this
  refine if_pos ?_
  rcases h with h | h | h | h
  · simp [show ¬desc &&& 63#64 = 0#64 from mt h63 h]
  · simp [h]
  · simp [h]
  · simp [h]

theorem descPages_ok {va : W64} {n : Nat} {ps : List Xl} {u : State} (h : s.descPages ctxid va n = some (ps, u)) :
    Touched s u ∧ (ps.all fun x => x.cc == 5) = true := by
  unfold State.descPages at h
  simp only at h
  split at h
  · cases h
  next xs t ht =>
    split at h
    next hc =>
      cases h
      simp only [Bool.and_eq_true] at hc
      exact ⟨translateAll_touched ht, hc.1⟩
    · cases h

theorem modelOk_bounds {h : Record} (hh : modelOk h = true) : 1 ≤ fld h 0 2 ∧ fld h 0 2 ≤ 4096 ∧ fld h 2 1 < 8 := by
  simp only [modelOk, Bool.and_eq_true, decide_eq_true_eq] at hh
  obtain ⟨⟨⟨⟨h1, h2⟩, h3⟩, -⟩, -⟩ := hh
  exact ⟨h1, h2, h3⟩

/-- The model that MODREG lists: as the command names it, with a header in its bounds, on UNCACHED pages. -/
theorem modelAt_ok {part : Nat} {md : Model} {u : State} (h : s.modelAt part ctxid desc mid = some (md, u)) :
    Touched s u ∧ md.part = part ∧ md.mid = mid ∧ md.desc = desc ∧ 1 ≤ md.nlayers ∧ md.nlayers ≤ 4096 ∧ md.prio < 8 ∧
      (md.pages.all fun x => x.cc == 5) = true := by
  unfold State.modelAt at h
  split at h
  · cases h
  obtain ⟨⟨ps, v⟩, hv, h⟩ := Option.bind_eq_some_iff.mp h
  simp only at h
  split at h
  · cases h
  next hh =>
    obtain ⟨⟨qs, t⟩, ht, h⟩ := Option.bind_eq_some_iff.mp h
    simp only at h
    split at h
    next =>
      cases h
      simp only [Bool.or_eq_true, Bool.not_eq_true', not_or, Bool.not_eq_false] at hh
      obtain ⟨h1, h2, h3⟩ := modelOk_bounds hh.2
      obtain ⟨hv, -⟩ := descPages_ok hv
      obtain ⟨ht, hq⟩ := descPages_ok ht
      exact ⟨hv.trans ht, rfl, rfl, rfl, h1, h2, h3, hq⟩
    · cases h

/-- Registration writes the descriptor and lists the model. -/
theorem register_eq (s : State) (m : Model) :
    ∃ v, Touched s v ∧ s.register m = v.modSch fun h => { h with models := h.models ++ [m] } := by
  refine ⟨_, ?_, rfl⟩
  refine .trans (.trans (mdWrite_touched ..) (mdWrite_touched ..)) (.foldl (fun s l => ?_) _ _)
  exact .trans (.trans (.trans (mdWrite_touched ..) (mdWrite_touched ..)) (mdWrite_touched ..)) (mdWrite_touched ..)

end modreg

/-! ## MODUNREG (R301, R313) -/

theorem OnlySeqs.refl (s : State) : OnlySeqs s s := ⟨rfl⟩

theorem OnlySeqs.foldl {α : Type} {f : State → α → State} (hf : ∀ s a, OnlySeqs s (f s a)) (l : List α) (s : State) :
    OnlySeqs s (l.foldl f s) := by
  induction l generalizing s with
  | nil => exact .refl s
  | cons a l ih => exact (hf s a).trans (ih _)

/-- A key that reads as something else than the default is listed with what it reads as. -/
theorem Machine.Tab.mem_of_get_ne {α : Type} {d : α} {t : Tab α} {k : Nat} (h : Tab.get d t k ≠ d) :
    (k, Tab.get d t k) ∈ t := by
  induction t with
  | nil => exact absurd rfl h
  | cons e t ih =>
    rw [Tab.get_cons] at h ⊢
    split at h
    next he =>
      subst he
      simp
    next he =>
      rw [if_neg he]
      exact List.mem_cons_of_mem _ (ih h)

section waiters

variable {s : State} {m : Model} {p : Nat → Bool} {f : State → Nat → Lacq → State}

/-- What is done at an entry of the sequencers' table. -/
def atWaiter (m : Model) (p : Nat → Bool) (f : State → Nat → Lacq → State) (s : State) (e : Nat × SeqSt) : State :=
  match e.2.lacq with
  | some w => if w.mid == m.mid && p w.layer && (s.cx (cidOf e.1)).slot.part == m.part then f s e.1 w else s
  | none => s

theorem lacqWaiters_eq : s.lacqWaiters m p f = s.seqs.foldl (atWaiter m p f) s := rfl

theorem atWaiter_onlySeqs (hf : ∀ s k w, OnlySeqs s (f s k w)) (s : State) (e : Nat × SeqSt) :
    OnlySeqs s (atWaiter m p f s e) := by
  unfold atWaiter
  split
  · split
    · exact hf ..
    · exact .refl s
  · exact .refl s

theorem lacqWaiters_onlySeqs (hf : ∀ s k w, OnlySeqs s (f s k w)) : OnlySeqs s (s.lacqWaiters m p f) :=
  .foldl (atWaiter_onlySeqs hf) s.seqs s

/-- Nothing is done where no sequencer stalls at a `lacq`. -/
theorem lacqWaiters_of_none (h : ∀ e ∈ s.seqs, e.2.lacq = none) : s.lacqWaiters m p f = s := by
  have key (l : List (Nat × SeqSt)) (hl : ∀ e ∈ l, e.2.lacq = none) : l.foldl (atWaiter m p f) s = s := by
    induction l with
    | nil => rfl
    | cons e l ih =>
      have he : atWaiter m p f s e = s := by
        unfold atWaiter
        rw [hl e (by simp)]
      rw [List.foldl_cons, he]
      exact ih fun e he => hl e (List.mem_cons_of_mem _ he)
  exact key s.seqs h

end waiters

/-- The `lacq` of a sequencer no longer stalls, and the trap is pending there. -/
def Raised (s : State) (k : Nat) (t : TrapInfo) : Prop := (s.sq k).lacq = none ∧ t ∈ (s.sq k).pend

theorem lacqTrap_raised (s : State) (k : Nat) (t : TrapInfo) : Raised (s.lacqTrap k t) k t := by
  unfold Raised State.lacqTrap
  simp

/-- A trap that has been raised stays pending while others are. -/
theorem Raised.lacqTrap {s : State} {k : Nat} {t : TrapInfo} (h : Raised s k t) (j : Nat) (u : TrapInfo) :
    Raised (s.lacqTrap j u) k t := by
  obtain ⟨h1, h2⟩ := h
  unfold Raised State.lacqTrap
  simp only [sq_modSq]
  split
  next hk =>
    subst hk
    exact ⟨rfl, List.mem_cons_of_mem _ h2⟩
  · exact ⟨h1, h2⟩

section traps

variable {m : Model} {p : Nat → Bool} {tr : Lacq → TrapInfo}

theorem atWaiter_traps_onlySeqs (s : State) (e : Nat × SeqSt) :
    OnlySeqs s (atWaiter m p (fun s k w => s.lacqTrap k (tr w)) s e) :=
  atWaiter_onlySeqs (fun s k _ => onlySeqs_modSq s k _) s e

theorem lacqTraps_onlySeqs (s : State) : OnlySeqs s (s.lacqWaiters m p fun s k w => s.lacqTrap k (tr w)) :=
  lacqWaiters_onlySeqs fun s k _ => onlySeqs_modSq s k _

theorem Raised.atWaiter {s : State} {k : Nat} {t : TrapInfo} (h : Raised s k t) (e : Nat × SeqSt) :
    Raised (atWaiter m p (fun s k w => s.lacqTrap k (tr w)) s e) k t := by
  unfold Sys2Proof.atWaiter
  split
  · split
    · exact h.lacqTrap ..
    · exact h
  · exact h

/-- Every waiter among the entries has its trap raised. -/
theorem foldl_atWaiter_raises {k : Nat} {w : Lacq} {q : SeqSt} (hq : q.lacq = some w) (hm : w.mid = m.mid) (hp : p w.layer = true)
    (l : List (Nat × SeqSt)) (s : State) (hpart : (s.cx (cidOf k)).slot.part = m.part) (hl : (k, q) ∈ l) :
    Raised (l.foldl (atWaiter m p fun s k w => s.lacqTrap k (tr w)) s) k (tr w) := by
  induction l generalizing s with
  | nil => cases hl
  | cons e l ih =>
    rw [List.foldl_cons]
    rcases List.mem_cons.mp hl with rfl | hl
    · have stays (l : List (Nat × SeqSt)) (s : State) (h : Raised s k (tr w)) :
          Raised (l.foldl (atWaiter m p fun s k w => s.lacqTrap k (tr w)) s) k (tr w) := by
        induction l generalizing s with
        | nil => exact h
        | cons e l ih => exact ih _ (h.atWaiter e)
      refine stays l _ ?_
      unfold Sys2Proof.atWaiter
      simp only [hq, hm, hp, hpart, beq_self_eq_true, Bool.and_self, if_true]
      exact lacqTrap_raised ..
    · refine ih _ ?_ hl
      rw [(atWaiter_traps_onlySeqs s e).cx]
      exact hpart

/-- Every `lacq` that waits for such a layer has its trap raised. -/
theorem lacqWaiters_raises {s : State} {k : Nat} {w : Lacq} (hq : (s.sq k).lacq = some w) (hm : w.mid = m.mid)
    (hp : p w.layer = true) (hpart : (s.cx (cidOf k)).slot.part = m.part) :
    Raised (s.lacqWaiters m p fun s k w => s.lacqTrap k (tr w)) k (tr w) :=
  foldl_atWaiter_raises hq hm hp s.seqs s hpart (Tab.mem_of_get_ne (d := SeqSt.init) fun h => by
    rw [State.sq, h] at hq
    cases hq)

end traps

theorem model_some {s : State} {part mid : Nat} {m : Model} (h : s.model part mid = some m) : m.part = part ∧ m.mid = mid := by
  have := List.find?_some h
  simpa using this

/-- Without a RUNNING graph no fill node waits. -/
theorem waitingFills_nil {s : State} (h : s.sch.graphs = []) (part mid : Nat) (p : Nat → Bool) :
    s.waitingFills part mid p = [] := by
  simp [State.waitingFills, h]

/-- What remains listed when a model goes: other models, and the requests and the units of theirs. -/
def withoutModel (m : Model) (h : Sched) : Sched :=
  { h with
    models := h.models.filter fun x => !(x.part == m.part && x.mid == m.mid)
    demand := h.demand.filter fun d => !(d.1 == m.part && d.2.1 == m.mid)
    residents := h.residents.filter fun f => !(f.part == m.part && f.mid == m.mid) }

theorem unregister_eq {s : State} (h : s.sch.graphs = []) (m : Model) :
    s.unregister m = (s.modSch (withoutModel m)).lacqWaiters m (fun _ => true)
      fun s k w => s.lacqTrap k (precise .prot (BitVec.ofNat 64 (m.mid * 65536 + w.layer))) := by
  let trap (w : Lacq) : TrapInfo := precise .prot (BitVec.ofNat 64 (m.mid * 65536 + w.layer))
  have hg := congrArg Sched.graphs (lacqTraps_onlySeqs (m := m) (p := fun _ => true) (tr := trap) (s.modSch (withoutModel m))).sch
  exact congrArg (List.foldl _ _) (waitingFills_nil (hg.trans h) ..)

/-- A layer that keeps its model registered: pinned, FILLING or EVICTING. -/
def Machine.State.layBusy (s : State) (m : Model) (l : Nat) : Bool :=
  s.layPin m l != 0 || s.layFlag m l == lfFilling || s.layFlag m l == lfEvicting

theorem exec_modunreg (s : State) (w : Via) (mid : Nat) : exec (.modunreg w mid) s = command s w (match s.model w.win mid with
    | some m => if (List.range m.nlayers).any (s.layBusy m) then none else some (s.unregister m)
    | none => none) := rfl

theorem layBusy_any {s : State} {m : Model} (h : ∃ l < m.nlayers, s.layPin m l ≠ 0 ∨ s.layFlag m l = 1 ∨ s.layFlag m l = 3) :
    (List.range m.nlayers).any (s.layBusy m) = true := by
  obtain ⟨l, hl, h⟩ := h
  refine List.any_eq_true.mpr ⟨l, List.mem_range.mpr hl, ?_⟩
  simpa [State.layBusy, lfFilling, lfEvicting, or_assoc] using h

theorem layBusy_none {s : State} {m : Model} (h : ∀ l < m.nlayers, s.layPin m l = 0 ∧ s.layFlag m l ≠ 1 ∧ s.layFlag m l ≠ 3) :
    (List.range m.nlayers).any (s.layBusy m) = false := by
  refine List.any_eq_false.mpr fun l hl => ?_
  simpa [State.layBusy, lfFilling, lfEvicting, and_assoc] using h l (List.mem_range.mp hl)

/-! ## LAYPOOL (R305) -/

theorem exec_laypool (s : State) (w : Via) (slot slots arena units : Nat) : exec (.laypool w slot slots arena units) s =
    command s w (if s.poolOk w.win ⟨slot, slots, arena, units⟩ then some (s.setPool w.win ⟨slot, slots, arena, units⟩) else none) := rfl

/-- A hold after LAYPOOL: its place, counted from the new start. -/
def reheld (s : State) (part : Nat) (p : Pool) (f : Fill) : Fill :=
  if f.part = part then { f with unit := (s.rehold p f).getD f.unit } else f

/-- LAYPOOL lists the pool and counts the holds anew; beyond that it writes UNIT fields alone. -/
theorem setPool_eq (s : State) (part : Nat) (p : Pool) :
    Touched (s.modSch fun h => { h with
      pools := Tab.set ⟨0, 0, 0, 0⟩ h.pools part p, fills := h.fills.map (reheld s part p)
      residents := h.residents.map (reheld s part p) }) (s.setPool part p) := by
  refine .foldl (fun s f => ?_) _ _
  split
  · exact mdWrite_touched ..
  · exact .refl s

theorem poolOk_parts {s : State} {part : Nat} {p : Pool} (h : s.poolOk part p = true) :
    p.arena % unitBytes = 0 ∧
    (∀ o o', o ≠ part → (o, o') ∈ s.sch.pools → o'.slots ≠ 0 → p.slots ≠ 0 → overlap p.slot0 p.slots o'.slot0 o'.slots = false) ∧
    ∀ f ∈ s.sch.residents, f.part = part → (s.rehold p f).isSome = true := by
  simp only [State.poolOk, Bool.and_eq_true] at h
  obtain ⟨⟨⟨⟨⟨-, ha⟩, -⟩, -⟩, hp⟩, hf⟩ := h
  refine ⟨by simpa using ha, fun o o' ho hm h1 h2 => ?_, fun f hm hfp => ?_⟩
  · have := List.all_eq_true.mp hp _ hm
    simp only [beq_eq_false_iff_ne.mpr ho, bne_iff_ne.mpr h1, bne_iff_ne.mpr h2, Bool.false_or, Bool.true_and, Bool.not_or,
      Bool.and_eq_true, Bool.not_eq_true'] at this
    exact this.1
  · exact List.all_eq_true.mp hf f (List.mem_filter.mpr ⟨List.mem_append_right _ hm, by simpa using hfp⟩)

/-- The unit that a hold has after LAYPOOL lies where it lay. -/
theorem rehold_unitPa {s t : State} {part n : Nat} {p : Pool} {f : Fill} (ht : t.pool part = p) (hf : f.part = part)
    (hlt : f.tgt < 2) (ha : p.arena % unitBytes = 0) (hs : (s.pool part).arena % unitBytes = 0) (h : s.rehold p f = some n) :
    t.unitPa part f.tgt n = s.unitPa part f.tgt f.unit := by
  subst hf
  unfold State.rehold at h
  rw [if_neg (show f.tgt ≠ 2 by omega)] at h
  obtain h0 | h1 : f.tgt = 0 ∨ f.tgt = 1 := by omega
  · simp only [State.unitPa, h0, if_true] at h ⊢
    split at h
    next hu =>
      simp only [unitBytes, Option.some.injEq] at h hu ⊢
      rw [ht]
      omega
    · cases h
  · simp only [State.unitPa, h1, Nat.one_ne_zero, if_false] at h ⊢
    split at h
    next hu =>
      simp only [unitBytes, Option.some.injEq] at h hu ha hs ⊢
      rw [ht]
      omega
    · cases h

theorem pool_setPool (s : State) (part : Nat) (p : Pool) (o : Nat) :
    (s.setPool part p).pool o = if o = part then p else s.pool o := by
  unfold State.pool
  rw [(setPool_eq s part p).sch]
  exact Tab.get_set ..

theorem setPool_resident {s : State} {part : Nat} {p : Pool} (hp : s.poolOk part p = true)
    (hs : (s.pool part).arena % unitBytes = 0) {f : Fill} (hm : f ∈ s.sch.residents) (hf : f.part = part) (hlt : f.tgt < 2) :
    ∃ g ∈ (s.setPool part p).sch.residents, { g with unit := f.unit } = f ∧
      (s.setPool part p).unitPa part g.tgt g.unit = s.unitPa part f.tgt f.unit := by
  obtain ⟨ha, -, hr⟩ := poolOk_parts hp
  obtain ⟨n, hn⟩ := Option.isSome_iff_exists.mp (hr f hm hf)
  have ht : (s.setPool part p).pool part = p := by rw [pool_setPool, if_pos rfl]
  refine ⟨{ f with unit := n }, ?_, rfl, ?_⟩
  · rw [(setPool_eq s part p).sch]
    refine List.mem_map.mpr ⟨f, hm, ?_⟩
    simp [reheld, hf, hn]
  · exact rehold_unitPa (f := f) ht hf hlt ha hs hn

/-! ## The three together -/

section together

variable {s : State} {w : Via} {ctxid mid slot slots arena units : Nat} {desc : W64}

/-- The models' commands are for windows that take them. -/
theorem modelCommands_ignored (h : 16 ≤ w.win ∨ w.by_.isSome = true ∧ Tab.get 0 s.pf.status w.win = 2) :
    ∀ i ∈ [Instr.modreg w ctxid desc mid, .modunreg w mid, .laypool w slot slots arena units], exec i s = .next s := by
  have ht : (s.takes w && s.modelHeld ctxid desc) = false := by rw [takes_ignored h, Bool.false_and]
  simp only [List.forall_mem_cons]
  refine ⟨?_, ?_, ?_, List.forall_mem_nil _⟩
  · exact (exec_modreg ht).trans (command_ignored h)
  · exact (exec_modunreg ..).trans (command_ignored h)
  · exact (exec_laypool ..).trans (command_ignored h)

/-- They are the owner's. -/
theorem modelCommands_denied (hw : s.windowFree w) (hm : s.mayCommand w.by_ = false) :
    ∀ i ∈ [Instr.modreg w ctxid desc mid, .modunreg w mid, .laypool w slot slots arena units], Refused s w.win i := by
  have ht : (s.takes w && s.modelHeld ctxid desc) = false := by rw [takes_denied hm, Bool.false_and]
  simp only [List.forall_mem_cons]
  refine ⟨refused_of ?_, refused_of ?_, refused_of ?_, List.forall_mem_nil _⟩
  · exact (exec_modreg ht).trans (command_denied hw hm)
  · exact (exec_modunreg ..).trans (command_denied hw hm)
  · exact (exec_laypool ..).trans (command_denied hw hm)

/-- The command is carried out: its status is 0, the cores stay as they are, and of the next state `P` holds. -/
def CarriedOut (s : State) (part : Nat) (i : Instr) (P : State → Prop) : Prop :=
  Says.Happens i s fun t => t.cores = s.cores ∧ Tab.get 0 t.pf.status part = 0 ∧ P t

theorem modreg_later (hw : s.windowFree w) (hm : s.mayCommand w.by_ = true) (hh : s.modelHeld ctxid desc = true) :
    exec (.modreg w ctxid desc mid) s = .next (s.later (.modreg w ctxid desc mid)) := by
  have ht : (s.takes w && s.modelHeld ctxid desc) = true := by rw [takes_free hw hm, hh, Bool.and_self]
  exact if_pos ht

/-- MODREG refuses where it makes no model. -/
theorem modreg_refused (hw : s.windowFree w) (hh : s.modelHeld ctxid desc = false)
    (h : s.modelAt w.win ctxid desc mid = none) : Refused s w.win (.modreg w ctxid desc mid) := by
  have ht : (s.takes w && s.modelHeld ctxid desc) = false := by rw [hh, Bool.and_false]
  refine refused_of ?_
  rw [exec_modreg ht, h]
  exact command_none hw

/-- MODREG lists the model that it makes. -/
theorem modreg_carried (hw : s.windowFree w) (hm : s.mayCommand w.by_ = true) (hh : s.modelHeld ctxid desc = false)
    {md : Model} {u : State} (h : s.modelAt w.win ctxid desc mid = some (md, u)) :
    CarriedOut s w.win (.modreg w ctxid desc mid) fun t =>
      t.seqs = s.seqs ∧ t.sch = { s.sch with models := s.sch.models ++ [md] } := by
  have ht : (s.takes w && s.modelHeld ctxid desc) = false := by rw [hh, Bool.and_false]
  obtain ⟨hu, -⟩ := modelAt_ok h
  obtain ⟨v, hv, hr⟩ := register_eq u md
  have hv := hu.trans hv
  refine ⟨(u.register md).status w.win 0, ?_, ?_, status_status .., ?_, ?_⟩
  · rw [exec_modreg ht, h]
    exact command_some hw hm
  · rw [hr]
    exact hv.cores
  · rw [hr]
    exact hv.seqs
  · rw [hr]
    exact congrArg (fun h : Sched => { h with models := h.models ++ [md] }) hv.sch

/-- MODUNREG refuses a MID without a model. -/
theorem modunreg_unknown (hw : s.windowFree w) (h : s.model w.win mid = none) : Refused s w.win (.modunreg w mid) := by
  refine refused_of ?_
  rw [exec_modunreg, h]
  exact command_none hw

/-- MODUNREG refuses a model with a layer that is pinned, FILLING or EVICTING. -/
theorem modunreg_busy (hw : s.windowFree w) {md : Model} (h : s.model w.win mid = some md)
    (hb : ∃ l < md.nlayers, s.layPin md l ≠ 0 ∨ s.layFlag md l = 1 ∨ s.layFlag md l = 3) :
    Refused s w.win (.modunreg w mid) := by
  refine refused_of ?_
  rw [exec_modunreg, h]
  simp only [layBusy_any hb, if_true]
  exact command_none hw

/-- MODUNREG takes a model's requests and units, and its waiting `lacq`s raise PROT. -/
theorem modunreg_carried (hw : s.windowFree w) (hm : s.mayCommand w.by_ = true) {md : Model} (h : s.model w.win mid = some md)
    (hb : ∀ l < md.nlayers, s.layPin md l = 0 ∧ s.layFlag md l ≠ 1 ∧ s.layFlag md l ≠ 3) (hg : s.sch.graphs = []) :
    CarriedOut s w.win (.modunreg w mid) fun t => ((∀ e ∈ s.seqs, e.2.lacq = none) → t.seqs = s.seqs) ∧
      (∀ k w', (s.sq k).lacq = some w' → w'.mid = mid → (s.cx (cidOf k)).slot.part = w.win →
        Raised t k (precise .prot (BitVec.ofNat 64 (mid * 65536 + w'.layer)))) ∧ t.sch = withoutModel md s.sch := by
  obtain ⟨hpart, hmid⟩ := model_some h
  have hu := unregister_eq hg md
  have ho : OnlySeqs (s.modSch (withoutModel md)) (s.unregister md) := by
    rw [hu]
    exact lacqTraps_onlySeqs _
  refine ⟨(s.unregister md).status w.win 0, ?_, ho.cores, status_status .., fun hn => ?_, fun k w' hk hw' hp => ?_, ho.sch⟩
  · rw [exec_modunreg, h]
    simp only [layBusy_none hb, Bool.false_eq_true, if_false]
    exact command_some hw hm
  · change (s.unregister md).seqs = s.seqs
    rw [hu, lacqWaiters_of_none (s := s.modSch (withoutModel md)) hn]
    rfl
  · change Raised (s.unregister md) k _
    rw [hu, ← hmid]
    exact lacqWaiters_raises (s := s.modSch (withoutModel md)) hk (hw'.trans hmid.symm) rfl (hp.trans hpart.symm)

theorem laypool_refused (hw : s.windowFree w) (h : s.poolOk w.win ⟨slot, slots, arena, units⟩ = false) :
    Refused s w.win (.laypool w slot slots arena units) := by
  refine refused_of ?_
  rw [exec_laypool, h]
  exact command_none hw

/-- LAYPOOL refuses slots that another partition has. -/
theorem poolOk_meets {part o : Nat} {p o' : Pool} (ho : o ≠ part) (hm : (o, o') ∈ s.sch.pools) (h1 : o'.slots ≠ 0)
    (h2 : p.slots ≠ 0) (hv : overlap p.slot0 p.slots o'.slot0 o'.slots = true) : s.poolOk part p = false :=
  Bool.eq_false_iff.mpr fun h => by
    obtain ⟨-, hp, -⟩ := poolOk_parts h
    rw [hp o o' ho hm h1 h2] at hv
    cases hv

/-- LAYPOOL gives the partition its pool, and the units of its RESIDENT layers stay where they are. -/
theorem laypool_carried (hw : s.windowFree w) (hm : s.mayCommand w.by_ = true)
    (h : s.poolOk w.win ⟨slot, slots, arena, units⟩ = true) :
    CarriedOut s w.win (.laypool w slot slots arena units) fun t => t.seqs = s.seqs ∧
      t.pool w.win = ⟨slot, slots, arena, units⟩ ∧ (∀ o, o ≠ w.win → t.pool o = s.pool o) ∧
      ((s.pool w.win).arena % 2 ^ 21 = 0 → ∀ f ∈ s.sch.residents, f.part = w.win → f.tgt < 2 → ∃ g ∈ t.sch.residents,
        { g with unit := f.unit } = f ∧ t.unitPa w.win g.tgt g.unit = s.unitPa w.win f.tgt f.unit) := by
  have ht := setPool_eq s w.win ⟨slot, slots, arena, units⟩
  refine ⟨(s.setPool w.win ⟨slot, slots, arena, units⟩).status w.win 0, ?_, ht.cores, status_status .., ht.seqs,
    (pool_setPool ..).trans (if_pos rfl), fun o ho => (pool_setPool ..).trans (if_neg ho), fun ha f hf hp hlt => ?_⟩
  · rw [exec_laypool, h]
    exact command_some hw hm
  · exact setPool_resident h ha hf hp hlt

end together

/-- Settles O43: each command's body is a state to carry out or a refusal, and `command` gives the status. -/
theorem modelCommandResults : Obligations.ModelCommandResults := by
  intro s by_ part ctxid mid slot slots arena units desc
  refine ⟨fun i hi h => modelCommands_ignored h i hi, fun hpart hbusy => ?_⟩
  have hw : s.windowFree ⟨by_, part⟩ := ⟨hpart, hbusy⟩
  refine ⟨modelCommands_denied hw, fun hm => ⟨modreg_later hw hm, fun hh => ⟨modreg_refused hw hh, fun h => ?_, fun md u h => ?_⟩,
    modunreg_unknown hw, fun md h => ⟨modunreg_busy hw h, fun hb hg => ?_⟩, laypool_refused hw, fun o o' ho hl h1 h2 hv => ?_,
    laypool_carried hw hm⟩⟩
  · exact modreg_refused hw hh (modelAt_refuses h)
  · obtain ⟨-, h1, h2, h3, h4, h5, h6, h7⟩ := modelAt_ok h
    exact ⟨h1, h2, h3, h4, h5, h6, h7, modreg_carried hw hm hh h⟩
  · obtain ⟨hpart, hmid⟩ := model_some h
    have hc := modunreg_carried hw hm h hb hg
    unfold CarriedOut withoutModel at hc
    rw [hpart, hmid] at hc
    exact hc
  · exact laypool_refused hw (poolOk_meets ho hl h1 h2 hv)

end Sys2Proof
end

section
/-! SUPPORT. ROWREG, EMBREG, EMBUNREG, FRRREQ, KEYREQ and the clearing of a partition (R167, R253, R260, R284, R324, R327). -/

namespace Sys2Proof

open Machine Machine.State

theorem rowSizes_contains (size : Nat) : rowSizes.contains size = true ↔ size ∈ [64, 128, 256, 512, 1024] :=
  List.contains_iff_mem

/-- The command is carried out: its status is 0, and of the next state `P` holds. -/
def Done (s : State) (part : Nat) (i : Instr) (P : State → Prop) : Prop :=
  Says.Happens i s fun t => Tab.get 0 t.pf.status part = 0 ∧ P t

/-- Of the device, the homes alone have changed, and a status. -/
def OnlyHomes (s t : State) (h : Homes) : Prop :=
  { t with h := s.h, pf := { t.pf with status := s.pf.status } } = s ∧ t.h = h

section commands

variable {s : State} {w : Via}

/-! ## ROWREG (R167) -/

theorem exec_rowreg (s : State) (w : Via) (pa size : Nat) : exec (.rowreg w pa size) s =
    command s w (if rowSizes.contains size && (s.rowSize pa == 0 || s.rowSize pa == size) then
      some (s.modH fun h => { h with rowSize := Tab.set 0 h.rowSize (blockOf pa) size }) else none) := rfl

theorem rowreg_done (hw : s.windowFree w) (hm : s.mayCommand w.by_ = true) {pa size : Nat}
    (hs : size ∈ [64, 128, 256, 512, 1024]) (hr : s.rowSize pa = 0 ∨ s.rowSize pa = size) :
    Done s w.win (.rowreg w pa size) fun t => OnlyHomes s t { s.h with rowSize := t.h.rowSize } ∧
      ∀ a, t.rowSize a = if a / 65536 = pa / 65536 then size else s.rowSize a := by
  have hc : (rowSizes.contains size && (s.rowSize pa == 0 || s.rowSize pa == size)) = true := by
    rw [(rowSizes_contains size).mpr hs]
    simpa using hr
  refine ⟨(s.modH fun h => { h with rowSize := Tab.set 0 h.rowSize (blockOf pa) size }).status w.win 0, ?_, status_status ..,
    ⟨rfl, rfl⟩, fun a => Tab.get_set ..⟩
  rw [exec_rowreg, if_pos hc]
  exact command_some hw hm

theorem rowreg_refused (hw : s.windowFree w) {pa size : Nat}
    (h : ¬size ∈ [64, 128, 256, 512, 1024] ∨ s.rowSize pa ≠ 0 ∧ s.rowSize pa ≠ size) : Refused s w.win (.rowreg w pa size) := by
  have hc : ¬(rowSizes.contains size && (s.rowSize pa == 0 || s.rowSize pa == size)) = true := by
    simp only [Bool.and_eq_true, Bool.or_eq_true, beq_iff_eq, rowSizes_contains]
    rintro ⟨hs, hr⟩
    rcases h with h | ⟨h1, h2⟩
    · exact h hs
    · exact hr.elim h1 h2
  refine refused_of ?_
  rw [exec_rowreg, if_neg hc]
  exact command_none hw

/-! ## EMBUNREG and EMBREG (R253) -/

theorem exec_embunreg (s : State) (w : Via) (n : Nat) : exec (.embunreg w n) s =
    command s w (if s.tableBusy w.win n then none else some (s.dropTable w.win n)) := rfl

theorem embunreg_refused (hw : s.windowFree w) {n : Nat} (h : s.tableBusy w.win n = true) : Refused s w.win (.embunreg w n) := by
  refine refused_of ?_
  rw [exec_embunreg, if_pos h]
  exact command_none hw

theorem embunreg_done (hw : s.windowFree w) (hm : s.mayCommand w.by_ = true) {n : Nat} (h : s.tableBusy w.win n = false) :
    Done s w.win (.embunreg w n) fun t =>
      OnlyHomes s t { s.h with emb := s.h.emb.filter fun e => !(e.part == w.win && e.id == n) } := by
  refine ⟨(s.dropTable w.win n).status w.win 0, ?_, status_status .., rfl, rfl⟩
  rw [exec_embunreg, if_neg (by simp [h])]
  exact command_some hw hm

section embreg

variable {ctxid n rowsz nrows : Nat} {base : W64} {fmt : EmbFmt}

/-- A walk for the table's pages waits. -/
abbrev Machine.State.embHeld (s : State) (ctxid : Nat) (base : W64) (rowsz nrows : Nat) : Option Cause :=
  s.walkHeld (s.whoCtx ctxid true) base (nrows * rowsz) .read

theorem exec_embreg (h : (s.takes w && (s.embHeld ctxid base rowsz nrows).isSome) = false) :
    exec (.embreg w ctxid n base rowsz nrows fmt) s = command s w (if s.tableBusy w.win n || !fmt.pinned then none
      else (s.tableOf w.win ctxid n base rowsz nrows fmt.code).map fun (t, u) =>
        (u.dropTable w.win n).modH fun h => { h with emb := h.emb ++ [t] }) :=
  if_neg (by simp [h])

theorem embreg_later (hw : s.windowFree w) (hm : s.mayCommand w.by_ = true) (hh : (s.embHeld ctxid base rowsz nrows).isSome = true) :
    exec (.embreg w ctxid n base rowsz nrows fmt) s = .next (s.later (.embreg w ctxid n base rowsz nrows fmt)) := by
  have ht : (s.takes w && (s.embHeld ctxid base rowsz nrows).isSome) = true := by rw [takes_free hw hm, hh, Bool.and_self]
  exact if_pos ht

/-- EMBREG refuses a table whose number a lookup reads, pages that are not pinned, and what makes no table. -/
theorem embreg_refused (hw : s.windowFree w) (hh : s.embHeld ctxid base rowsz nrows = none)
    (h : s.tableBusy w.win n = true ∨ fmt.pinned = false ∨ s.tableOf w.win ctxid n base rowsz nrows fmt.code = none) :
    Refused s w.win (.embreg w ctxid n base rowsz nrows fmt) := by
  have ht : (s.takes w && (s.embHeld ctxid base rowsz nrows).isSome) = false := by rw [hh, Option.isSome_none, Bool.and_false]
  refine refused_of ?_
  rw [exec_embreg ht]
  rcases h with h | h | h <;> simp only [h, Bool.true_or, Bool.not_false, Bool.or_true, if_true, Option.map_none, ite_self]
  all_goals exact command_none hw

/-- The table that EMBREG lists: of the command's rows, on ROW pages of its row size. -/
theorem tableOf_ok {part code : Nat} {tb : EmbTable} {u : State} (h : s.tableOf part ctxid n base rowsz nrows code = some (tb, u)) :
    Touched s u ∧ tb.rowsz = rowsz ∧ tb.nrows = nrows ∧ (tb.pages.all fun x => x.cc == 3 && s.rowSize x.ha == rowsz) = true := by
  unfold State.tableOf at h
  split at h
  · cases h
  split at h
  · cases h
  split at h
  · cases h
  next ps v hv =>
    split at h
    next hc =>
      cases h
      have hu := translateAll_touched hv
      refine ⟨hu, rfl, rfl, ?_⟩
      simpa only [hu.rowSize] using hc
    · cases h

theorem embreg_done (hw : s.windowFree w) (hm : s.mayCommand w.by_ = true) (hh : s.embHeld ctxid base rowsz nrows = none)
    (hb : s.tableBusy w.win n = false) (hp : fmt.pinned = true) {tb : EmbTable} {u : State}
    (h : s.tableOf w.win ctxid n base rowsz nrows fmt.code = some (tb, u)) :
    Done s w.win (.embreg w ctxid n base rowsz nrows fmt) fun t => OnlyHomes u t
      { u.h with emb := s.h.emb.filter (fun e => !(e.part == w.win && e.id == n)) ++ [tb] } := by
  have ht : (s.takes w && (s.embHeld ctxid base rowsz nrows).isSome) = false := by rw [hh, Option.isSome_none, Bool.and_false]
  obtain ⟨hu, -⟩ := tableOf_ok h
  refine ⟨((u.dropTable w.win n).modH fun h => { h with emb := h.emb ++ [tb] }).status w.win 0, ?_, status_status .., rfl, ?_⟩
  · rw [exec_embreg ht, hb, hp, h]
    exact command_some hw hm
  · rw [← hu.emb]
    rfl

end embreg

/-! ## FRRREQ (R260) -/

section frrreq

variable {n : Nat} {w0 w1 w2 w3 : W64}

/-- The words that FRRREQ writes: those of the command, RSV bits 0. -/
def frrWords (w0 w1 w2 w3 : W64) : List W64 :=
  [w0 &&& 0x800FFFFFFFFFFF0F, w1 &&& 0xFFFFFFFF, w2 &&& 0x000FFFFFFFFFFFFF, w3 &&& 0x000FFFFFFFFFFFFF]

/-- The register that they give. -/
abbrev frrMasked (w0 w1 w2 w3 : W64) : Frr :=
  frrOf (w0 &&& 0x800FFFFFFFFFFF0F) (w1 &&& 0xFFFFFFFF) (w2 &&& 0x000FFFFFFFFFFFFF) (w3 &&& 0x000FFFFFFFFFFFFF)

/-- The table of registers with the four words of register `n` set. -/
def frrSet (t : Tab W64) (n : Nat) (ws : List W64) : Tab W64 :=
  ((List.range 4).zip ws).foldl (fun t p => Tab.set 0 t (4 * n + p.1) p.2) t

theorem exec_frrreq (s : State) (w : Via) (n : Nat) (w0 w1 w2 w3 : W64) : exec (.frrreq w n w0 w1 w2 w3) s =
    command s w (if s.frrTakes n (frrMasked w0 w1 w2 w3) then
      some (s.modH fun h => { h with frr := frrSet h.frr n (frrWords w0 w1 w2 w3) }) else none) := rfl

theorem get_frrSet (t : Tab W64) (n : Nat) (v0 v1 v2 v3 : W64) (j : Nat) :
    Tab.get 0 (frrSet t n [v0, v1, v2, v3]) j = if j = 4 * n then v0 else if j = 4 * n + 1 then v1
      else if j = 4 * n + 2 then v2 else if j = 4 * n + 3 then v3 else Tab.get 0 t j := by
  have he : frrSet t n [v0, v1, v2, v3] = Tab.set 0 (Tab.set 0 (Tab.set 0 (Tab.set 0 t (4 * n) v0) (4 * n + 1) v1)
    (4 * n + 2) v2) (4 * n + 3) v3 := rfl
  rw [he]
  simp only [Tab.get_set]
  grind

theorem frrreq_done (hw : s.windowFree w) (hm : s.mayCommand w.by_ = true) (h : s.frrTakes n (frrMasked w0 w1 w2 w3) = true) :
    Done s w.win (.frrreq w n w0 w1 w2 w3) fun t => OnlyHomes s t { s.h with frr := t.h.frr } ∧
      ∀ j, Tab.get 0 t.h.frr j = if j = 4 * n then w0 &&& 0x800FFFFFFFFFFF0F else if j = 4 * n + 1 then w1 &&& 0xFFFFFFFF
        else if j = 4 * n + 2 then w2 &&& 0x000FFFFFFFFFFFFF else if j = 4 * n + 3 then w3 &&& 0x000FFFFFFFFFFFFF
        else Tab.get 0 s.h.frr j := by
  refine ⟨(s.modH fun h => { h with frr := frrSet h.frr n (frrWords w0 w1 w2 w3) }).status w.win 0, ?_, status_status ..,
    ⟨rfl, rfl⟩, fun j => get_frrSet ..⟩
  rw [exec_frrreq, if_pos h]
  exact command_some hw hm

theorem frrreq_refused (hw : s.windowFree w) (h : s.frrTakes n (frrMasked w0 w1 w2 w3) = false) :
    Refused s w.win (.frrreq w n w0 w1 w2 w3) := by
  refine refused_of ?_
  rw [exec_frrreq, if_neg (by simp [h])]
  exact command_none hw

theorem fieldN_eq {m : Nat} (v : BitVec m) (lo len : Nat) : fieldN v lo len = v.toNat / 2 ^ lo % 2 ^ len := by
  rw [fieldN, BitVec.extractLsb'_toNat, Nat.shiftRight_eq_div_pow]

/-- What R260 asks of a register that may be written, in the words' fields. -/
theorem frrTakes_fields {v0 v1 v2 v3 : W64} (h : s.frrTakes n (frrOf v0 v1 v2 v3) = true) :
    n < 256 ∧ v1 ≠ 0 ∧ v0.toNat % 16 ≤ 2 ∧ v0.toNat / 4096 % 16 = 0 ∧ v0.toNat / 256 % 16 ∈ [0, 8, 10, 12] ∧
    (v0.toNat / 256 % 16 = 12 → v0.toNat % 16 = 2) ∧ v0.toNat % 2 ^ 52 / 2 ^ 36 = n / 16 ∧ v2.toNat % 2 ^ 52 / 2 ^ 36 = n / 16 := by
  simp only [State.frrTakes, frrOk, frrOf, Bool.and_eq_true, Bool.or_eq_true, decide_eq_true_eq, beq_iff_eq, bne_iff_ne, fieldN_eq]
    at h
  obtain ⟨⟨⟨hn, ⟨⟨⟨⟨⟨⟨⟨hout, hfmt⟩, hnpg⟩, hview⟩, hstack⟩, -⟩, hsrc⟩, -⟩⟩, -⟩, -⟩ := h
  simp only [List.mem_cons, List.not_mem_nil, or_false]
  refine ⟨hn, ?_, ?_, ?_, ?_, ?_, ?_, ?_⟩
  · rintro rfl
    exact hnpg rfl
  all_goals omega

/-- FRRREQ refuses a register that the part has not, and words whose fields R260 refuses. -/
theorem frrTakes_refuses {v0 v1 v2 v3 : W64} (hv : v2.toNat < 2 ^ 52) (h : 256 ≤ n ∨ v1 = 0 ∨ 2 < (v0 &&& 15).toNat ∨
      (v0.toNat / 4096 % 16 ≠ 0) ∨ ¬v0.toNat / 256 % 16 ∈ [0, 8, 10, 12] ∨ (v0.toNat / 256 % 16 = 12 ∧ v0.toNat % 16 ≠ 2) ∨
      v0.toNat % 2 ^ 52 / 2 ^ 36 ≠ n / 16 ∨ v2.toNat / 2 ^ 36 ≠ n / 16) : s.frrTakes n (frrOf v0 v1 v2 v3) = false := by
  refine Bool.eq_false_iff.mpr fun ht => ?_
  obtain ⟨h1, h2, h3, h4, h5, h6, h7, h8⟩ := frrTakes_fields ht
  rw [Nat.mod_eq_of_lt hv] at h8
  rw [BitVec.toNat_and, show (15 : W64).toNat = 2 ^ 4 - 1 from rfl, Nat.and_two_pow_sub_one_eq_mod] at h
  rcases h with h | h | h | h | h | ⟨h, h'⟩ | h | h
  · omega
  · exact h2 h
  · omega
  · exact h h4
  · exact h h5
  · exact h' (h6 h)
  · exact h h7
  · exact h h8

theorem masked_lt (v : W64) : (v &&& 0x000FFFFFFFFFFFFF).toNat < 2 ^ 52 := by
  rw [BitVec.toNat_and]
  exact Nat.and_lt_two_pow _ (by decide)

end frrreq

/-! ## KEYREQ (R40, R327) -/

section keyreq

variable {n owner : Nat}

theorem exec_keyreq_bind (s : State) (w : Via) (n owner : Nat) : exec (.keyreq w (.bind n owner)) s =
    command s w (if decide (1 ≤ n) && decide (n < 4096) && decide (owner < 16) && !Tab.get false s.pf.keyUsed n then
      some (s.modPf fun p => { p with keyPart := Tab.set 0 p.keyPart n (owner + 1), keyUsed := Tab.set false p.keyUsed n true })
    else none) := rfl

theorem keyreq_refused (hw : s.windowFree w) (h : n = 0 ∨ 4096 ≤ n ∨ 16 ≤ owner ∨ Tab.get false s.pf.keyUsed n = true) :
    Refused s w.win (.keyreq w (.bind n owner)) := by
  refine refused_of ?_
  rw [exec_keyreq_bind, if_neg]
  · exact command_none hw
  · simp only [Bool.and_eq_true, decide_eq_true_eq, Bool.not_eq_true']
    rintro ⟨⟨⟨h1, h2⟩, h3⟩, h4⟩
    rcases h with h | h | h | h
    · omega
    · omega
    · omega
    · simp [h] at h4

theorem keyreq_done (hw : s.windowFree w) (hm : s.mayCommand w.by_ = true) (h1 : 1 ≤ n) (h2 : n < 4096) (h3 : owner < 16)
    (h4 : Tab.get false s.pf.keyUsed n = false) : Done s w.win (.keyreq w (.bind n owner)) fun t =>
      { t with pf := { t.pf with keyPart := s.pf.keyPart, keyUsed := s.pf.keyUsed, status := s.pf.status } } = s ∧
      ∀ k, Tab.get 0 t.pf.keyPart k = if k = n then owner + 1 else Tab.get 0 s.pf.keyPart k := by
  refine ⟨(s.modPf fun p => { p with keyPart := Tab.set 0 p.keyPart n (owner + 1), keyUsed := Tab.set false p.keyUsed n true }).status w.win 0,
    ?_, status_status .., rfl, fun k => Tab.get_set 0 s.pf.keyPart n (owner + 1) k⟩
  rw [exec_keyreq_bind, if_pos (by simp [h1, h2, h3, h4])]
  exact command_some hw hm

end keyreq

/-! ## The window -/

section window

variable {pa size ctxid n rowsz nrows owner : Nat} {base w0 w1 w2 w3 : W64} {fmt : EmbFmt}

/-- The partition windows' commands are for windows that take them. -/
theorem partitionCommands_ignored (h : 16 ≤ w.win ∨ w.by_.isSome = true ∧ Tab.get 0 s.pf.status w.win = 2) :
    ∀ i ∈ [Instr.rowreg w pa size, .embreg w ctxid n base rowsz nrows fmt, .embunreg w n, .frrreq w n w0 w1 w2 w3,
      .keyreq w (.bind n owner)], exec i s = .next s := by
  have ht : (s.takes w && (s.embHeld ctxid base rowsz nrows).isSome) = false := by rw [takes_ignored h, Bool.false_and]
  simp only [List.forall_mem_cons]
  exact ⟨(exec_rowreg ..).trans (command_ignored h), (exec_embreg ht).trans (command_ignored h),
    (exec_embunreg ..).trans (command_ignored h), (exec_frrreq ..).trans (command_ignored h),
    (exec_keyreq_bind ..).trans (command_ignored h), List.forall_mem_nil _⟩

/-- They are the owner's. -/
theorem partitionCommands_denied (hw : s.windowFree w) (hm : s.mayCommand w.by_ = false) :
    ∀ i ∈ [Instr.rowreg w pa size, .embreg w ctxid n base rowsz nrows fmt, .embunreg w n, .frrreq w n w0 w1 w2 w3,
      .keyreq w (.bind n owner)], Refused s w.win i := by
  have ht : (s.takes w && (s.embHeld ctxid base rowsz nrows).isSome) = false := by rw [takes_denied hm, Bool.false_and]
  simp only [List.forall_mem_cons]
  exact ⟨refused_of ((exec_rowreg ..).trans (command_denied hw hm)), refused_of ((exec_embreg ht).trans (command_denied hw hm)),
    refused_of ((exec_embunreg ..).trans (command_denied hw hm)), refused_of ((exec_frrreq ..).trans (command_denied hw hm)),
    refused_of ((exec_keyreq_bind ..).trans (command_denied hw hm)), List.forall_mem_nil _⟩

end window

end commands

end Sys2Proof
end

section
/-! SUPPORT. The clearing of a partition: its keys are free, and no cache keeps a line under one (R284, R327). -/

namespace Sys2Proof

open Machine Machine.State

/-! ## What a fold reaches -/

section folds

variable {α : Type} {f : State → α → State} {good : State → Prop}

theorem foldl_keeps (keep : ∀ s a, good s → good (f s a)) {s : State} (h : good s) (l : List α) : good (l.foldl f s) := by
  induction l generalizing s with
  | nil => exact h
  | cons a l ih => exact ih (keep s a h)

theorem foldl_attains (keep : ∀ s a, good s → good (f s a)) {a : α} (ha : ∀ s, good (f s a)) {l : List α} (hl : a ∈ l)
    (s : State) : good (l.foldl f s) := by
  obtain ⟨xs, ys, rfl⟩ := List.append_of_mem hl
  rw [List.foldl_append]
  exact foldl_keeps keep (ha _) ys

end folds

/-! ## Write-backs leave the caches of other cores, and of a core what they do not clean -/

theorem writeHome_touched (s : State) (l : CLine) : Touched s (s.writeHome l) := by
  unfold State.writeHome
  split
  · exact send_touched ..
  · exact .refl s

theorem poolTakes_cores (s : State) (bench line : Nat) (ws : List (Nat × PByte)) : (s.poolTakes bench line ws).cores = s.cores := by
  unfold State.poolTakes
  split <;> rfl

theorem coreHome_cores (s : State) (core : Nat) (l : CLine) : (s.coreHome core l).cores = s.cores := by
  unfold State.coreHome
  split
  · exact (poolTakes_cores ..).trans (writeHome_touched s l).cores
  · rfl

/-- A dirty line that is written back to its home stays in the core's cache clean. -/
theorem backLine_co {l : CLine} (hl : l.isDirty = true) (s : State) (core m : Nat) :
    (s.backLine core true l).co m = (s.cleanLine core l.line).co m := by
  unfold State.backLine
  simp only [hl, Bool.not_true, Bool.false_eq_true, if_false, Bool.false_and]
  exact congrArg (Tab.get Core.init · m) (coreHome_cores ..)

theorem cleanLine_co_other (s : State) {core m : Nat} (line : Nat) (h : m ≠ core) : (s.cleanLine core line).co m = s.co m := by
  unfold State.cleanLine
  rw [co_modCo, if_neg h]

theorem dirty_of_cleanLine {s : State} {core line : Nat} {x : CLine} (hx : x ∈ ((s.cleanLine core line).co core).cache)
    (hd : x.isDirty = true) : x ∈ (s.co core).cache ∧ line ≠ x.line := by
  unfold State.cleanLine at hx
  rw [co_modCo, if_pos rfl] at hx
  obtain ⟨y, hy, rfl⟩ := List.mem_map.mp hx
  split at hd
  · simp [CLine.isDirty] at hd
  next h =>
    rw [if_neg h]
    exact ⟨hy, fun e => h (beq_iff_eq.mpr e.symm)⟩

/-- A line that is dirty after lines have been written back is none of them. -/
theorem dirty_of_backLines {core : Nat} {x : CLine} (ls : List CLine) (hls : ∀ l ∈ ls, l.isDirty = true) (s : State)
    (hx : x ∈ ((ls.foldl (fun s l => s.backLine core true l) s).co core).cache) (hd : x.isDirty = true) :
    x ∈ (s.co core).cache ∧ ∀ l ∈ ls, l.line ≠ x.line := by
  induction ls generalizing s with
  | nil => exact ⟨hx, List.forall_mem_nil _⟩
  | cons l ls ih =>
    obtain ⟨h1, h2⟩ := ih (fun k hk => hls k (List.mem_cons_of_mem _ hk)) _ hx
    rw [backLine_co (hls l List.mem_cons_self)] at h1
    obtain ⟨h1, h3⟩ := dirty_of_cleanLine h1 hd
    exact ⟨h1, List.forall_mem_cons.mpr ⟨h3, h2⟩⟩

/-- The lines of a core that satisfy `p` leave it, their dirty bytes for their homes. -/
def flushCore (p : CLine → Bool) (s : State) (core : Nat) : State := (s.backLines core p).dropClean core p

theorem flushCore_clears (p : CLine → Bool) (s : State) (core : Nat) :
    ∀ l ∈ ((flushCore p s core).co core).cache, p l = false := by
  intro x hx
  unfold flushCore State.dropClean at hx
  rw [co_modCo, if_pos rfl] at hx
  obtain ⟨hx, hk⟩ := List.mem_filter.mp hx
  refine Bool.eq_false_iff.mpr fun hp => ?_
  have hd : x.isDirty = true := by simpa [hp] using hk
  have hls : ∀ l ∈ (s.co core).cache.filter fun l => l.isDirty && p l, l.isDirty = true := fun l hl =>
    ((Bool.and_eq_true _ _).mp (List.mem_filter.mp hl).2).1
  obtain ⟨hm, hn⟩ := dirty_of_backLines _ hls s hx hd
  exact hn x (List.mem_filter.mpr ⟨hm, by simp [hd, hp]⟩) rfl

theorem flushCore_other (p : CLine → Bool) (s : State) {core m : Nat} (h : m ≠ core) : (flushCore p s core).co m = s.co m := by
  unfold flushCore State.dropClean
  rw [co_modCo, if_neg h]
  unfold State.backLines
  exact foldl_keeps (good := fun t => t.co m = s.co m) (fun t l ht => by
    cases hl : l.isDirty with
    | true => rw [backLine_co hl, cleanLine_co_other _ _ h, ht]
    | false => simpa [State.backLine, hl] using ht) rfl _

/-! ## The pools -/

theorem writeHomes_touched (s : State) (ls : List PoolLine) : Touched s (ls.foldl (fun s l => s.writeHome l.c) s) :=
  .foldl (fun s l => writeHome_touched s l.c) ls s

/-- The lines of a pool that satisfy `p` leave it, their dirty bytes for their homes. -/
def flushPool (p : CLine → Bool) (s : State) (bench : Nat) : State :=
  (s.backPool bench p).modBe bench fun b => { b with pool := b.pool.filter fun l => !p l.c }

theorem flushPool_cores (p : CLine → Bool) (s : State) (bench : Nat) : (flushPool p s bench).cores = s.cores :=
  (writeHomes_touched ..).cores

theorem flushPool_other (p : CLine → Bool) (s : State) {bench m : Nat} (h : m ≠ bench) : (flushPool p s bench).be m = s.be m := by
  unfold flushPool State.backPool
  rw [be_modBe, if_neg h, (writeHomes_touched ..).be, be_modBe, if_neg h]

theorem flushPool_clears (p : CLine → Bool) (s : State) (bench : Nat) :
    ∀ l ∈ ((flushPool p s bench).be bench).pool, p l.c = false := by
  intro l hl
  unfold flushPool at hl
  rw [be_modBe, if_pos rfl] at hl
  simpa using (List.mem_filter.mp hl).2

/-! ## All of them -/

theorem flushKeys_eq (s : State) (p : Nat → Bool) :
    s.flushKeys p = (s.cores.foldl (fun s e => flushCore (fun l => p l.key) s e.1) s).benches.foldl
      (fun s e => flushPool (fun l => p l.key) s e.1) (s.cores.foldl (fun s e => flushCore (fun l => p l.key) s e.1) s) := rfl

theorem flushCores_clear (p : CLine → Bool) (s : State) (m : Nat) :
    ∀ l ∈ ((s.cores.foldl (fun s e => flushCore p s e.1) s).co m).cache, p l = false := by
  have keep (s : State) (e : Nat × Core) (h : ∀ l ∈ (s.co m).cache, p l = false) :
      ∀ l ∈ ((flushCore p s e.1).co m).cache, p l = false := by
    by_cases he : m = e.1
    · subst he
      exact flushCore_clears p s e.1
    · rw [flushCore_other p s he]
      exact h
  by_cases hm : s.co m = Core.init
  · refine foldl_keeps (good := fun t => ∀ l ∈ (t.co m).cache, p l = false) keep ?_ _
    rw [hm]
    exact List.forall_mem_nil _
  · exact foldl_attains (good := fun t => ∀ l ∈ (t.co m).cache, p l = false) keep
      (a := (m, s.co m)) (fun t => flushCore_clears p t m) (Tab.mem_of_get_ne hm) s

theorem flushPools_clear (p : CLine → Bool) (s : State) (m : Nat) :
    ∀ l ∈ ((s.benches.foldl (fun s e => flushPool p s e.1) s).be m).pool, p l.c = false := by
  have keep (s : State) (e : Nat × Bench) (h : ∀ l ∈ (s.be m).pool, p l.c = false) :
      ∀ l ∈ ((flushPool p s e.1).be m).pool, p l.c = false := by
    by_cases he : m = e.1
    · subst he
      exact flushPool_clears p s e.1
    · rw [flushPool_other p s he]
      exact h
  by_cases hm : s.be m = Bench.init
  · refine foldl_keeps (good := fun t => ∀ l ∈ (t.be m).pool, p l.c = false) keep ?_ _
    rw [hm]
    exact List.forall_mem_nil _
  · exact foldl_attains (good := fun t => ∀ l ∈ (t.be m).pool, p l.c = false) keep
      (a := (m, s.be m)) (fun t => flushPool_clears p t m) (Tab.mem_of_get_ne hm) s

/-- No core and no pool keeps a line under one of the keys. -/
theorem flushKeys_clears (s : State) (p : Nat → Bool) (m : Nat) :
    (∀ l ∈ ((s.flushKeys p).co m).cache, p l.key = false) ∧ ∀ l ∈ ((s.flushKeys p).be m).pool, p l.c.key = false := by
  rw [flushKeys_eq]
  refine ⟨?_, flushPools_clear (fun l => p l.key) _ m⟩
  have hc := foldl_keeps (f := fun s (e : Nat × Bench) => flushPool (fun l => p l.key) s e.1)
    (good := fun t => t.cores = (s.cores.foldl (fun s e => flushCore (fun l => p l.key) s e.1) s).cores)
    (fun t e h => (flushPool_cores _ t e.1).trans h) rfl
    (s.cores.foldl (fun s e => flushCore (fun l => p l.key) s e.1) s).benches
  rw [State.co, hc]
  exact flushCores_clear (fun l => p l.key) s m

/-- A table without the entries of a value other than the default does not read as that value. -/
theorem get_filter_ne {t : Tab Nat} {v : Nat} (hv : v ≠ 0) (k : Nat) :
    Tab.get 0 (t.filter fun e => e.2 != v) k ≠ v := by
  induction t with
  | nil => exact hv.symm
  | cons e t ih =>
    rw [List.filter_cons]
    split
    next he =>
      rw [Tab.get_cons]
      split
      · simpa using he
      · exact ih
    · exact ih

/-- A partition's keys. -/
def keysOf (s : State) (part k : Nat) : Bool := k != 0 && Tab.get 0 s.pf.keyPart k == part + 1

theorem freeKeys_keyPart (s : State) (part k : Nat) : Tab.get 0 (s.freeKeys part).pf.keyPart k ≠ part + 1 :=
  get_filter_ne (Nat.succ_ne_zero part) k

theorem freeKeys_co (s : State) (part m : Nat) : (s.freeKeys part).co m = (s.flushKeys (keysOf s part)).co m := rfl
theorem freeKeys_be (s : State) (part m : Nat) : (s.freeKeys part).be m = (s.flushKeys (keysOf s part)).be m := rfl

theorem exec_partitionClear (s : State) (part : Nat) : exec (.partitionClear part) s =
    .next (((s.sch.graphs.filter fun g => s.cpart g.ctxid == part).foldl (fun s g => s.cancelGraph g.ctxid g.hdr) s).freeKeys part) := rfl

/-- Clearing a partition frees its keys; where none of its graphs is RUNNING, no cache keeps a line under one. -/
theorem partitionClear_happens (s : State) (part : Nat) :
    Says.Happens (.partitionClear part) s fun t => (∀ k, Tab.get 0 t.pf.keyPart k ≠ part + 1) ∧
      ((∀ g ∈ s.sch.graphs, s.cpart g.ctxid ≠ part) → ∀ k, k ≠ 0 → Tab.get 0 s.pf.keyPart k = part + 1 → ∀ m,
        (∀ l ∈ (t.co m).cache, l.key ≠ k) ∧ ∀ l ∈ (t.be m).pool, l.c.key ≠ k) := by
  refine ⟨_, exec_partitionClear s part, freeKeys_keyPart _ part, fun hg k hk hp m => ?_⟩
  have hn : (s.sch.graphs.filter fun g => s.cpart g.ctxid == part) = [] :=
    List.filter_eq_nil_iff.mpr fun g hm => by simpa using hg g hm
  have hkey : keysOf s part k = true := by simp [keysOf, hk, hp]
  obtain ⟨h1, h2⟩ := flushKeys_clears s (keysOf s part) m
  rw [hn]
  refine ⟨fun l hl e => ?_, fun l hl e => ?_⟩
  · exact Bool.false_ne_true ((h1 l hl).symm.trans (e ▸ hkey))
  · exact Bool.false_ne_true ((h2 l hl).symm.trans (e ▸ hkey))

/-- Settles O48: each command's body is a state to carry out or a refusal, to which `command` gives the status; and the
caches lose every line under a key of a partition that is cleared. -/
theorem partitionCommandResults : Obligations.PartitionCommandResults := by
  intro s by_ part ctxid n pa size rowsz nrows fmt owner base w0 w1 w2 w3 pinned
  refine ⟨fun i hi h => partitionCommands_ignored h i hi, fun hpart hbusy => ?_, fun w what => rfl, partitionClear_happens s part⟩
  have hw : s.windowFree ⟨by_, part⟩ := ⟨hpart, hbusy⟩
  refine ⟨partitionCommands_denied hw, fun hm => ⟨rowreg_done hw hm, rowreg_refused hw, embunreg_refused hw, embunreg_done hw hm,
    embreg_later hw hm, fun hh => ⟨fun h => embreg_refused hw hh (.inl h), fun h => embreg_refused hw hh (.inr (.inr h)),
      embreg_refused hw hh (.inr (.inl rfl)), fun tb u hb h => ?_⟩,
    ⟨frrreq_done hw hm, fun h => frrreq_refused hw (frrTakes_refuses (masked_lt w2) h)⟩, keyreq_refused hw, keyreq_done hw hm⟩⟩
  obtain ⟨h1, h2, h3, h4⟩ := tableOf_ok h
  exact ⟨h1, h2, h3, h4, embreg_done hw hm hh hb rfl h⟩

end Sys2Proof
end

section
/-! SUPPORT. Proofs of the statement about conditions (R21): the borrow of a subtraction, a branch that is taken or not, and
the turn of a sequencer that fetches what does not decode. -/

namespace Sys2Proof

open Machine Machine.State

/-! ## The borrow (R21, R334) -/

theorem exec_cmpImm (im : Imm) (s : State) : exec (.cmpImm im) s = aluI (.cmpImm im) s im opCmp := rfl
theorem exec_subImm (im : Imm) (s : State) : exec (.subImm im) s = aluI (.subImm im) s im opSub := rfl

@[simp] theorem subFlags_c (a b : W64) : (subFlags a b).c = a.ult b := rfl

/-- The I form of the mould retires with what its operation does to the registers. -/
theorem aluI_retires {s : State} {k : Nat} {i : Instr} {im : Imm} {f : Seq → W64 → Seq} (h : Runs s k i)
    (hf : ∀ r b, (f r b).pc = r.pc ∧ (f r b).rep = r.rep) :
    ∃ t, aluI i s im f = .next t ∧ OnlySeqs s t ∧ Retires s t k i fun r => f r im.sx :=
  done_modR h rfl rfl fun r => hf r im.sx

/-- The flags are those that the instruction has set: the pc and REPSTATE are all else that retiring changes. -/
theorem Retires.flags {s t : State} {k : Nat} {i : Instr} {f : Seq → Seq} (h : Retires s t k i f) :
    (t.r k).fl = (f (s.r k)).fl :=
  (congrArg Seq.fl h.regs :)

/-- An I form whose flags are those of the subtraction leaves its borrow in C. -/
theorem aluI_borrow {s : State} {k : Nat} {i : Instr} {im : Imm} {f : Seq → W64 → Seq} (h : Runs s k i)
    (hf : ∀ r b, (f r b).pc = r.pc ∧ (f r b).rep = r.rep) (hfl : ∀ r b, (f r b).fl = subFlags r.s b) :
    ∃ t, aluI i s im f = .next t ∧ (t.r k).fl.c = (s.r k).s.ult im.sx := by
  obtain ⟨t, ht, -, hr⟩ := aluI_retires h hf
  exact ⟨t, ht, by rw [hr.flags, hfl, subFlags_c]⟩

/-! ## Taken and not taken (R336) -/

theorem exec_br (c : Cond) (tg : Target) (s : State) : exec (.br c tg) s =
    run (.br c tg) s fun k => attempt s (targetChk tg) fun _ =>
      if c.holds (s.r k).fl then .jump (s.modR k fun r => { r with pc := targetOf r.pc tg }) else .done s := rfl

section

variable {s : State} {k : Nat} {c : Cond} {tg : Target}

theorem br_taken (h : Runs s k (.br c tg)) (hk : targetChk tg = .ok ()) (hc : c.holds (s.r k).fl = true) :
    ∃ t, exec (.br c tg) s = .next t ∧ OnlySeqs s t ∧ Jumps s t k fun r => { r with pc := targetOf r.pc tg } := by
  rw [exec_br]
  exact jump_modR (g := fun r => { r with pc := targetOf r.pc tg }) h (by simp only [hk, attempt, hc, if_true]) rfl

theorem br_not_taken (h : Runs s k (.br c tg)) (hk : targetChk tg = .ok ()) (hc : c.holds (s.r k).fl = false) :
    ∃ t, exec (.br c tg) s = .next t ∧ OnlySeqs s t ∧ Retires s t k (.br c tg) id := by
  rw [exec_br]
  exact done_of h (by simp only [hk, attempt, hc, Bool.false_eq_true, if_false])
    (fun j => by by_cases hj : j = k <;> simp [hj]) fun _ => ⟨rfl, rfl⟩

end

/-! ## COND 15 (R21, R116 step 6) -/

/-- Words whose fields do not parse do not decode. -/
theorem decode_bad {w : W32} {ws : List W32} (h : parse (w :: ws) = none) : ∃ r, decode (w :: ws) = .bad r := by
  simp only [decode, h]
  repeat' split
  all_goals exact ⟨_, rfl⟩

/-- A sequencer whose words do not decode raises ILLEGAL. -/
theorem decoded_bad {s : State} {k : Nat} {ws : List W32} (h : ∃ r, decode ws = .bad r) :
    s.decoded k ws = .done (s.raise k (precise .illegal)) := by
  obtain ⟨r, hr⟩ := h
  unfold State.decoded
  rw [hr]

section

variable (cls : BitVec 3) (opc : BitVec 6) (body : BitVec 21) (len : BitVec 2)

@[simp] theorem wCls_firstWord : wCls (firstWord cls opc body len) = cls :=
  (BitVec.extractLsb'_append_eq_of_le (by decide)).trans
    ((BitVec.extractLsb'_append_eq_of_le (by decide)).trans BitVec.extractLsb'_append_eq_left)

@[simp] theorem wOpc_firstWord : wOpc (firstWord cls opc body len) = opc :=
  (BitVec.extractLsb'_append_eq_of_le (by decide)).trans
    ((BitVec.extractLsb'_append_eq_of_le (by decide)).trans BitVec.extractLsb'_append_eq_right)

@[simp] theorem wBody_firstWord : wBody (firstWord cls opc body len) = body :=
  (BitVec.extractLsb'_append_eq_of_le (by decide)).trans BitVec.extractLsb'_append_eq_right

end

@[simp] theorem unpack_pack_FQ (f : FQ) : FQ.unpack f.pack = f := by
  have hs : f.pack.extractLsb' 17 4 = f.sel := BitVec.extractLsb'_append_eq_left
  have hv : f.pack.extractLsb' 0 17 = f.val := BitVec.extractLsb'_append_eq_right
  rw [FQ.unpack, hs, hv]

/-- The word of `br` in its fields (R94, R99). -/
theorem br_word (sel : BitVec 4) (v : BitVec 17) (len : BitVec 2) :
    ((0 : BitVec 3) ++ (0x30 : BitVec 6) ++ sel ++ v ++ len : W32) = firstWord 0 0x30 (FQ.pack ⟨sel, v⟩) len :=
  congrArg (· ++ len) BitVec.append_assoc

@[simp] theorem w0_of (w : W32) (ws : List W32) : (Raw.of (w :: ws)).w0 = w := rfl

theorem parse_classS {w : W32} (h : wCls w = 0) (ws : List W32) : parse (w :: ws) = parseS (Raw.of (w :: ws)) := by
  unfold parse
  simp only [w0_of, h]
  rfl

/-- What the words of `br` parse to: its condition, where COND names one, and its target. -/
theorem parse_br {w : W32} (hc : wCls w = 0) (ho : wOpc w = 0x30) (ws : List W32) :
    parse (w :: ws) = (Cond.ofCode (FQ.unpack (wBody w)).sel).map (.br · (Raw.of (w :: ws)).tgt) := by
  rw [parse_classS hc]
  unfold parseS
  simp only [w0_of, ho]
  rfl

/-- COND 15 names no condition. -/
theorem decode_br_cond15 (v : BitVec 17) (len : BitVec 2) (ws : List W32) :
    ∃ r, decode (firstWord 0 0x30 (FQ.pack ⟨15, v⟩) len :: ws) = .bad r := by
  refine decode_bad ?_
  rw [parse_br (wCls_firstWord ..) (wOpc_firstWord ..), wBody_firstWord, unpack_pack_FQ]
  rfl

/-! ## The turn of a sequencer that fetches (R116 step 1) -/

theorem sidAt_cidOf_qOf (k : Nat) : sidAt (cidOf k) (qOf k) = k := by
  unfold sidAt cidOf qOf
  omega

/-- A sequencer that may issue does not run ahead (R138). -/
theorem ra_of_mayIssue {s : State} {k : Nat} (h : s.mayIssue k = true) : (s.sq k).ra = none := by
  have hn : s.noRunahead (cidOf k) = true := by
    simp only [State.mayIssue, Bool.and_eq_true] at h
    obtain ⟨⟨⟨⟨-, hn⟩, -⟩, -⟩, -⟩ := h
    exact hn
  have hq := List.all_eq_true.mp hn (qOf k) (List.mem_range.mpr (Nat.mod_lt k (by decide)))
  rw [sidAt_cidOf_qOf] at hq
  exact Option.isNone_iff_eq_none.mp hq

/-- What comes of the turn of a sequencer that may issue, with no trap to take: its words decode, or raise ILLEGAL. -/
theorem seqReady_fetched {s u : State} {k : Nat} {ws : List W32} (hk : k < seqCount) (hi : s.mayIssue k = true)
    (hp : s.pendNow k = []) (hf : s.follows k = false) (hw : s.fetch k = .ok (ws, u)) : s.seqReady k = u.decoded k ws := by
  unfold State.seqReady State.seqTurn
  rw [ra_of_mayIssue hi]
  simp only [Nat.not_le.mpr hk, hi, hp, hf, hw, Bool.not_true, Bool.false_eq_true, if_false]

/-- A step without an agenda is the turn of the sequencer that is next. -/
theorem step_seq {s : State} {k : Nat} (ha : s.agenda = []) (ht : s.turn = .seq k) :
    step s = woken s (rotated (.seq k) (takeTurn (.seq k) (s.settle.seqReady k))) := by
  unfold step stepFrom
  rw [ha, ht]
  rfl

/-- A step in which a sequencer fetches words that do not decode. -/
theorem step_undecodable {s u : State} {k : Nat} {ws : List W32} (ha : s.agenda = []) (ht : s.turn = .seq k) (hk : k < seqCount)
    (hi : s.settle.mayIssue k = true) (hp : s.settle.pendNow k = []) (hf : s.settle.follows k = false)
    (hw : s.settle.fetch k = .ok (ws, u)) (hd : ∃ r, decode ws = .bad r) :
    step s = woken s (.next ((u.raise k (precise .illegal)).rotate (.seq k))) := by
  rw [step_seq ha ht, seqReady_fetched hk hi hp hf hw, decoded_bad hd]
  rfl

/-- Settles O5: C is the borrow of `opCmp` and `opSub`; R21's table is `Cond.holds`, row by row; `br` is taken or not as its
condition holds; and COND 15 is no condition, so that the word does not decode. -/
theorem branchConditions : Obligations.BranchConditions := by
  refine ⟨fun s k v i hi h => ?_, fun f => ?_, fun c s k o h => ?_, fun v len ws s u k ha ht hk hi hp hf hw => ?_⟩
  · obtain rfl | rfl : i = .cmpImm (.long v) ∨ i = .subImm (.long v) := by simpa using hi
    · rw [exec_cmpImm]
      exact aluI_borrow h (fun _ _ => ⟨rfl, rfl⟩) fun _ _ => rfl
    · rw [exec_subImm]
      exact aluI_borrow h (fun _ _ => ⟨rfl, rfl⟩) fun _ _ => rfl
  · simp [Cond.holds]
  · cases hc : c.holds (s.r k).fl with
    | true =>
      obtain ⟨t, h1, h2, h3⟩ := br_taken h rfl hc
      exact ⟨t, h1, h2, fun _ => h3, nofun⟩
    | false =>
      obtain ⟨t, h1, h2, h3⟩ := br_not_taken h rfl hc
      exact ⟨t, h1, h2, nofun, fun _ => h3⟩
  · refine step_undecodable ha ht hk hi hp hf hw ?_
    rw [br_word]
    exact decode_br_cond15 v len ws

end Sys2Proof
end

section
/-! SUPPORT. Proofs of the statement about the host's accesses through BAR2, memory errors, the pool's links, clocks and power
states (R42, R146, R172, R321, R322, R329 to R331). -/

namespace Sys2Proof

open Machine Machine.State

/-! ## Tables that count -/

/-- A table of numbers or words after one of its entries has grown by `v`. -/
theorem Machine.Tab.get_set_add {α : Type} [DecidableEq α] [Add α] [OfNat α 0] (add_zero : ∀ a : α, a + 0 = a) (t : Tab α)
    (k : Nat) (v : α) (n : Nat) : Tab.get 0 (Tab.set 0 t k (Tab.get 0 t k + v)) n = Tab.get 0 t n + if n = k then v else 0 := by
  rw [Tab.get_set]
  split
  next h => rw [h]
  next => rw [add_zero]

/-- A table of bits with one more set. -/
theorem Machine.Tab.get_set_true (t : Tab Bool) (k n : Nat) :
    Tab.get false (Tab.set false t k true) n = (n == k || Tab.get false t n) := by
  rw [Tab.get_set]
  split
  next h => rw [h, beq_self_eq_true, Bool.true_or]
  next h => rw [beq_eq_false_iff_ne.mpr h, Bool.false_or]

/-! ## The host (R172, R321) -/

/-- The number that an access reads is that of its bytes, each read at its own address. -/
theorem pnum_bytes (h : Homes) (x : Xl) (n : Nat) :
    pnum (h.bytes x n) = leNat ((List.range n).map fun i => (h.byte { x with ha := x.ha + i } 0).1) :=
  congrArg leNat List.map_map

section host

variable {s : State} {part ha size : Nat} {bs : List Byte} {op : HostOp} {v c : W64}

/-- A place that the host names: a home address, under no key. -/
abbrev hostAt (ha : Nat) : Xl := ⟨ha, 0, false, 0⟩

theorem exec_hostWindowWrite (s : State) (part ha : Nat) (bs : List Byte) : exec (.hostWindowWrite part ha bs) s =
    .next (if part < 16 ∧ s.hostTakes ha bs.length = true then s.homeSend (hostAt ha) (clean bs) else s) := rfl

theorem hostWindowWrite_taken (hp : part < 16) (ht : s.hostTakes ha bs.length = true) :
    exec (.hostWindowWrite part ha bs) s = .next (s.homeSend (hostAt ha) (clean bs)) := by
  rw [exec_hostWindowWrite, if_pos ⟨hp, ht⟩]

theorem hostWindowWrite_ignored (h : 16 ≤ part ∨ s.hostTakes ha bs.length = false) :
    exec (.hostWindowWrite part ha bs) s = .next s := by
  rw [exec_hostWindowWrite, if_neg]
  rintro ⟨hp, ht⟩
  rcases h with h | h
  · omega
  · exact Bool.false_ne_true (h.symm.trans ht)

/-- An AtomicOp that is performed where it arrives: one that the device takes, of 4 or 8 B in place, on a line not held. -/
def HostPerforms (s : State) (part ha size : Nat) : Prop :=
  part < 16 ∧ (size = 4 ∨ size = 8) ∧ ha % size = 0 ∧ s.hostTakes ha size = true ∧ s.writeHeld (ha / 64) = false

theorem hostAtomicop_performed (h : HostPerforms s part ha size) : exec (.hostAtomicop part op ha size v c) s =
    .next (s.homeWrite (hostAt ha) (clean (natLe size
      (HostOp.result op size (pnum (s.h.bytes (hostAt ha) size)) v.toNat c.toNat)))) := by
  obtain ⟨hp, hs, ha0, ht, hw⟩ := h
  exact congrArg Host.Outcome.next (if_pos ⟨hp, hs, ha0, ht, congrArg not hw⟩)

theorem hostAtomicop_ignored (h : ¬HostPerforms s part ha size) : exec (.hostAtomicop part op ha size v c) s = .next s := by
  refine congrArg Host.Outcome.next (if_neg ?_)
  rintro ⟨hp, hs, ha0, ht, hw⟩
  exact h ⟨hp, hs, ha0, ht, (Bool.not_eq_true' _).mp hw⟩

theorem not_hostPerforms (h : 16 ≤ part ∨ ¬(size = 4 ∨ size = 8) ∨ ha % size ≠ 0 ∨ s.hostTakes ha size = false ∨
    s.writeHeld (ha / 64) = true) : ¬HostPerforms s part ha size := by
  rintro ⟨hp, hs, ha0, ht, hw⟩
  rcases h with h | h | h | h | h
  · omega
  · exact h hs
  · exact h ha0
  · exact Bool.false_ne_true (h.symm.trans ht)
  · exact Bool.false_ne_true (hw.symm.trans h)

theorem exec_atsInvalidation (s : State) (ha : Nat) : exec (.atsInvalidation ha) s =
    .next (if s.anyUnderWay [(ha / 4096 * 4096, 4096)] = true then s else { s with
      pf := { s.pf with atsDone := s.pf.atsDone + 1 }, h := { s.h with ats := s.h.ats.filter (· != ha / 4096) } }) := rfl

end host

/-! ## Memory errors (R329) -/

theorem inCore_iff {u : MemUnit} : MemUnit.inCore u = true ↔ u = .scratchpad ∨ u = .kernel := by
  cases u <;> decide

/-- Between two states, one more corrected error is counted under `i`, and nothing else has changed. -/
def CountedAt (s : State) (i : Nat) (t : State) : Prop :=
  { t with pf := { t.pf with corrected := s.pf.corrected } } = s ∧
    ∀ n, Tab.get 0 t.pf.corrected n = Tab.get 0 s.pf.corrected n + if n = i then 1 else 0

section errors

variable {s : State} {u : MemUnit} {core ha : Nat}

/-- The unit is another than a core's own, or of a core that the part has. -/
def MemPresent (u : MemUnit) (core : Nat) : Prop := MemUnit.inCore u = true → core < 4608

theorem memoryError_absent (hu : MemUnit.inCore u = true) (hc : 4608 ≤ core) (fixed : Bool) :
    exec (.memoryError ⟨u, core, ha⟩ fixed) s = .next s :=
  if_pos (by rw [hu, Bool.true_and]; exact decide_eq_true hc)

theorem exec_memoryError (h : MemPresent u core) (fixed : Bool) : exec (.memoryError ⟨u, core, ha⟩ fixed) s =
    if fixed = true then
      let n := (if MemUnit.inCore u = true then dieOf core else dieHome ha) * 8 + MemUnit.num u
      .next (s.modPf fun p => { p with corrected := Tab.set 0 p.corrected n (Tab.get 0 p.corrected n + 1) })
    else .next (s.strike u core ha) := by
  refine if_neg fun hc => ?_
  obtain ⟨hu, hc⟩ := (Bool.and_eq_true _ _).mp hc
  exact absurd (h hu) (Nat.not_lt.mpr (of_decide_eq_true hc))

/-- A corrected error is counted by die and unit. -/
theorem memoryError_corrected (h : MemPresent u core) {i : Nat}
    (hi : (if MemUnit.inCore u = true then dieOf core else dieHome ha) * 8 + MemUnit.num u = i) :
    Says.Happens (.memoryError ⟨u, core, ha⟩ true) s (CountedAt s i) := by
  subst hi
  exact ⟨_, exec_memoryError h true, rfl, Tab.get_set_add Nat.add_zero s.pf.corrected _ 1⟩

/-- An error of a scratchpad that is not corrected poisons its 16 B in the core. -/
theorem memoryError_scratchpad (hc : core < 4608) (hlt : ha < 2 ^ 20) :
    Says.Happens (.memoryError ⟨.scratchpad, core, ha⟩ false) s fun t =>
      { t with cores := s.cores } = s ∧ (∀ d, d ≠ core → t.co d = s.co d) ∧
      { t.co core with spois := (s.co core).spois } = s.co core ∧
      ∀ n, Tab.get false (t.co core).spois n = (n == ha / 16 || Tab.get false (s.co core).spois n) := by
  have hs : s.strike .scratchpad core ha =
      s.modCo core fun co => { co with spois := Tab.set false co.spois (ha / 16) true } := by
    have hu : MemUnit.unit .scratchpad ha = some (ha / 16) := if_pos hlt
    simp only [State.strike, hu, MemUnit.inCore, if_true]
  refine ⟨_, exec_memoryError (fun _ => hc) false, ?_⟩
  rw [hs]
  refine ⟨rfl, fun d hd => ?_, ?_, fun n => ?_⟩
  · rw [co_modCo, if_neg hd]
  · rw [co_modCo, if_pos rfl]
  · rw [co_modCo, if_pos rfl, Tab.get_set_true]

/-- One of another unit poisons its 16 B at the home. -/
theorem memoryError_home (hu : MemUnit.inCore u = false) : Says.Happens (.memoryError ⟨u, core, ha⟩ false) s fun t =>
    { t with h := { t.h with poison := s.h.poison, mended := s.h.mended } } = s ∧
    ∀ n, Tab.get false t.h.poison n = (n == ha / 16 || Tab.get false s.h.poison n) := by
  have hs : s.strike u core ha = s.modH fun h => { h with
      poison := Tab.set false h.poison (ha / 16) true, mended := Tab.erase h.mended (ha / 16) } := by
    unfold State.strike
    rw [hu]
    rfl
  refine ⟨_, exec_memoryError (fun h => absurd (hu.symm.trans h) Bool.false_ne_true) false, ?_⟩
  rw [hs]
  exact ⟨rfl, Tab.get_set_true s.h.poison (ha / 16)⟩

end errors

/-! ## The pool's links (R146, R322) -/

/-- A copy once the link to a pool device has failed: what parked there is lost, and parks no longer. -/
def Machine.Copy.cutOff (dev : Nat) (y : Copy) : Copy :=
  { y with lost := y.lost ++ y.parkedAt dev, parked := y.parked.filter fun p => !(y.parkedAt dev).contains p }

/-- A context whose copies are cut off. -/
def Machine.Ctx.cutOff (dev : Nat) (x : Ctx) : Ctx := { x with f := { x.f with copies := x.f.copies.map (Copy.cutOff dev) } }

/-- The state in which the device's link is cut, and the copies with it. -/
def cutPool (s : State) (dev : Nat) : State := { s with
  h := { s.h with poolCut := Tab.set false s.h.poolCut dev true }
  ctxs := s.ctxs.map fun e => (e.1, e.2.cutOff dev)
  sch := { s.sch with graphs := s.sch.graphs.map fun g => { g with nodes := g.nodes.map fun n =>
    { n with copy := n.copy.map (Copy.cutOff dev) } } } }

/-- Where no layer's fill is under way, the failure of a link is all about copies. -/
theorem exec_poolLinkFailure {s : State} (h : s.sch.fills = []) :
    exec .poolLinkFailure s = .next (cutPool s (Config.poolFails s.free)) :=
  congrArg (fun l : List Fill => Host.Outcome.next (l.foldl _ (cutPool s (Config.poolFails s.free)))) h

theorem cutPool_cx (s : State) (dev d : Nat) : (cutPool s dev).cx d = (s.cx d).cutOff dev :=
  Tab.get_map Ctx.init s.ctxs (fun e => e.2.cutOff dev) d rfl

theorem poolLinkFailure_happens {s : State} (h : s.sch.fills = []) : Says.Happens .poolLinkFailure s fun t =>
    t.h = { s.h with poolCut := Tab.set false s.h.poolCut (Config.poolFails s.free) true } ∧
    t.seqs = s.seqs ∧ t.cores = s.cores ∧
    (∀ d, (t.cx d).f.copies = (s.cx d).f.copies.map (Copy.cutOff (Config.poolFails s.free))) ∧
    ∀ d, { t.cx d with f := { (t.cx d).f with copies := (s.cx d).f.copies } } = s.cx d := by
  refine ⟨_, exec_poolLinkFailure h, rfl, rfl, rfl, fun d => ?_, fun d => ?_⟩
  · rw [cutPool_cx]
    rfl
  · rw [cutPool_cx]
    rfl

/-! ## Clocks and power states (R42, R331) -/

section power

variable {s : State} {m : Master} {mhz : Nat}

/-- An exchange phase is open in some core. -/
def phaseOpen (s : State) : Bool := s.cores.any fun e => match e.2.xch with | some x => x.opened | none => false

theorem exec_clockStepChange (s : State) (mhz : Nat) : exec (.clockStepChange mhz) s =
    .next (if (clockSteps.contains mhz && !phaseOpen s) = true then { s with pf := { s.pf with clock := mhz } } else s) := rfl

theorem clockSteps_contains : clockSteps.contains mhz = true ↔ mhz ∈ [800, 700, 600, 500, 400] := List.contains_iff_mem

theorem clockStepChange_done (hm : mhz ∈ [800, 700, 600, 500, 400]) (ho : phaseOpen s = false) :
    exec (.clockStepChange mhz) s = .next { s with pf := { s.pf with clock := mhz } } := by
  rw [exec_clockStepChange, clockSteps_contains.mpr hm, ho]
  rfl

/-- A clock that is no step of R42, or that waits for an open phase, leaves the state as it is. -/
theorem clockStepChange_ignored (h : ¬mhz ∈ [800, 700, 600, 500, 400] ∨ phaseOpen s = true) :
    exec (.clockStepChange mhz) s = .next s := by
  rw [exec_clockStepChange, if_neg]
  rw [Bool.and_eq_true, clockSteps_contains, Bool.not_eq_true']
  rintro ⟨hm, ho⟩
  rcases h with h | h
  · exact h hm
  · exact Bool.false_ne_true (ho.symm.trans h)

theorem exec_clockGating (s : State) : exec .clockGating s =
    .next (if (s.noSlotBound && s.pf.pstate == .d0) = true then { s with pf := { s.pf with gated := true } } else s) := rfl

theorem noSlotBound_iff : s.noSlotBound = true ↔ ∀ e ∈ s.ctxs, e.2.slot.state = .free := by
  simp only [State.noSlotBound, List.all_eq_true, beq_iff_eq]

theorem clockGating_done (h : ∀ e ∈ s.ctxs, e.2.slot.state = .free) (hp : s.pf.pstate = .d0) :
    exec .clockGating s = .next { s with pf := { s.pf with gated := true } } := by
  rw [exec_clockGating, noSlotBound_iff.mpr h, hp]
  rfl

theorem clockGating_ignored (h : ∃ e ∈ s.ctxs, e.2.slot.state ≠ .free) : exec .clockGating s = .next s := by
  obtain ⟨e, he, hb⟩ := h
  rw [exec_clockGating, if_neg]
  rw [Bool.and_eq_true, noSlotBound_iff]
  rintro ⟨hf, -⟩
  exact hb (hf e he)

/-- Something is RUNNING: a graph, or what a launch has started (R331). -/
def somethingRuns (s : State) : Bool := !(s.sch.graphs.isEmpty && !s.sch.insts.any fun i => i.state == .running)

theorem somethingRuns_iff : somethingRuns s = true ↔ s.sch.graphs ≠ [] ∨ ∃ i ∈ s.sch.insts, i.state = .running := by
  simp only [somethingRuns, Bool.not_eq_true', Bool.and_eq_false_iff, List.isEmpty_eq_false_iff, Bool.not_eq_false',
    List.any_eq_true, beq_iff_eq]

theorem powerRequest_other (h : s.pf.owner ≠ some m) (d3 : Bool) : exec (.powerRequest m d3) s = .next s :=
  congrArg Host.Outcome.next (if_pos (bne_iff_ne.mpr h))

/-- What the owner's request comes to. -/
theorem exec_powerRequest (h : s.pf.owner = some m) (d3 : Bool) : exec (.powerRequest m d3) s =
    .next (if (!d3) = true then { s with pf := { s.pf with pstate := .d0 } }
      else if (!somethingRuns s) = true then { s with pf := { s.pf with pstate := .d3hot, gated := false } } else s) := by
  refine congrArg Host.Outcome.next ((if_neg fun hn => bne_iff_ne.mp hn h).trans ?_)
  rw [somethingRuns, Bool.not_not]
  rfl

theorem powerRequest_d0 (h : s.pf.owner = some m) :
    exec (.powerRequest m false) s = .next { s with pf := { s.pf with pstate := .d0 } } :=
  exec_powerRequest h false

theorem powerRequest_d3hot (h : s.pf.owner = some m) (hg : s.sch.graphs = []) (hi : ∀ i ∈ s.sch.insts, i.state ≠ .running) :
    exec (.powerRequest m true) s = .next { s with pf := { s.pf with pstate := .d3hot, gated := false } } := by
  have hr : somethingRuns s = false := by
    rw [Bool.eq_false_iff, Ne, somethingRuns_iff]
    rintro (hn | ⟨i, hm, hs⟩)
    · exact hn hg
    · exact hi i hm hs
  rw [exec_powerRequest h, hr]
  rfl

theorem powerRequest_running (h : s.pf.owner = some m) (hr : s.sch.graphs ≠ [] ∨ ∃ i ∈ s.sch.insts, i.state = .running) :
    exec (.powerRequest m true) s = .next s := by
  rw [exec_powerRequest h, somethingRuns_iff.mpr hr]
  rfl

end power

/-! ## STALEP (R330) -/

/-- What STALEP takes of a context that has counted `now` where it had seen `was`. -/
def staleStep (was now : W64) : W64 := if was ≤ now then now - was else 0

/-- STALEP takes one context's STALE. -/
def takeStale (s : State) (e : Nat × Ctx) : State :=
  let d := staleStep (Tab.get 0 s.pf.staleSeen e.1) e.2.reg.stale
  (s.modPf fun p => { p with stalep := Tab.set 0 p.stalep e.2.slot.part (Tab.get 0 p.stalep e.2.slot.part + d) }).seenStale
    e.1 e.2.reg.stale

theorem exec_stalepUpdate (s : State) : exec .stalepUpdate s = .next (s.ctxs.foldl takeStale s) := rfl

theorem takeStale_staleSeen (s : State) (e : Nat × Ctx) (d : Nat) : Tab.get 0 (takeStale s e).pf.staleSeen d =
    if d = e.1 then e.2.reg.stale else Tab.get 0 s.pf.staleSeen d := Tab.get_set ..

theorem takeStale_stalep (s : State) (e : Nat × Ctx) (p : Nat) : Tab.get 0 (takeStale s e).pf.stalep p =
    Tab.get 0 s.pf.stalep p + if p = e.2.slot.part then staleStep (Tab.get 0 s.pf.staleSeen e.1) e.2.reg.stale else 0 :=
  Tab.get_set_add BitVec.add_zero s.pf.stalep e.2.slot.part _ p

/-- Of the device, STALEP and what it has seen alone have changed. -/
def StaleOnly (s t : State) : Prop :=
  { t with pf := { t.pf with stalep := s.pf.stalep, staleSeen := s.pf.staleSeen } } = s

theorem takeStales_only (s : State) (l : List (Nat × Ctx)) : StaleOnly s (l.foldl takeStale s) :=
  foldl_keeps (f := takeStale) (good := StaleOnly s) (fun _ _ h => h) rfl l

theorem takeStales_other (l : List (Nat × Ctx)) (s : State) {d : Nat} (h : d ∉ l.map Prod.fst) :
    Tab.get 0 (l.foldl takeStale s).pf.staleSeen d = Tab.get 0 s.pf.staleSeen d := by
  induction l generalizing s with
  | nil => rfl
  | cons e l ih =>
    obtain ⟨hd, hl⟩ := not_or.mp (mt List.mem_cons.mpr h)
    rw [List.foldl_cons, ih _ hl, takeStale_staleSeen, if_neg hd]

/-- Of each context that is listed once, the STALE that it has is seen. -/
theorem takeStales_seen (l : List (Nat × Ctx)) (s : State) (hn : (l.map Prod.fst).Nodup) {e : Nat × Ctx} (he : e ∈ l) :
    Tab.get 0 (l.foldl takeStale s).pf.staleSeen e.1 = e.2.reg.stale := by
  induction l generalizing s with
  | nil => cases he
  | cons a l ih =>
    obtain ⟨ha, hn⟩ := List.nodup_cons.mp hn
    rcases List.mem_cons.mp he with rfl | he
    · rw [List.foldl_cons, takeStales_other l _ ha, takeStale_staleSeen, if_pos rfl]
    · exact ih _ hn he

theorem stalepUpdate_happens (s : State) : Says.Happens .stalepUpdate s fun t => StaleOnly s t ∧
    ((s.ctxs.map Prod.fst).Nodup → ∀ e ∈ s.ctxs, Tab.get 0 t.pf.staleSeen e.1 = e.2.reg.stale) ∧
    ∀ d y, s.ctxs = [(d, y)] → ∀ p, Tab.get 0 t.pf.stalep p = Tab.get 0 s.pf.stalep p +
      if p = y.slot.part ∧ Tab.get 0 s.pf.staleSeen d ≤ y.reg.stale then y.reg.stale - Tab.get 0 s.pf.staleSeen d else 0 := by
  refine ⟨_, exec_stalepUpdate s, takeStales_only s _, fun hn e he => takeStales_seen _ s hn he, fun d y hy p => ?_⟩
  rw [hy]
  refine (takeStale_stalep s (d, y) p).trans ?_
  unfold staleStep
  by_cases hp : p = y.slot.part
  · simp only [hp, true_and, if_true]
  · simp only [hp, false_and, if_false]

/-- Settles O50: each event has the effect of the branch that its condition takes; the cut of a pool link is read off context
by context, and STALEP is a fold whose steps each change one context's entry. -/
theorem hostAndPowerResults : Obligations.HostAndPowerResults := by
  intro s part ha size mhz core u bs op v c m
  refine ⟨hostWindowWrite_taken, hostWindowWrite_ignored, fun hp hs ha0 ht hw => ?_,
    fun h => hostAtomicop_ignored (not_hostPerforms h), fun h => ?_, fun h => ?_,
    ⟨fun hu hc fixed => memoryError_absent (inCore_iff.mpr hu) hc fixed, fun hu hc => ⟨?_, ?_⟩, fun hu => ?_⟩,
    poolLinkFailure_happens, ⟨clockStepChange_done, clockStepChange_ignored⟩, clockGating_done, clockGating_ignored,
    powerRequest_other, fun h => ⟨powerRequest_d0 h, powerRequest_d3hot h, powerRequest_running h⟩, stalepUpdate_happens s⟩
  · rw [hostAtomicop_performed ⟨hp, hs, ha0, ht, hw⟩, pnum_bytes]
    cases op <;> rfl
  · rw [exec_atsInvalidation, if_neg (Bool.eq_false_iff.mp h)]
  · rw [exec_atsInvalidation, if_pos h]
  · exact memoryError_corrected (fun _ => hc) (by rw [if_pos (inCore_iff.mpr hu)]; rfl)
  · rintro rfl hlt
    exact memoryError_scratchpad hc hlt
  · have hu : MemUnit.inCore u = false := Bool.eq_false_iff.mpr (mt inCore_iff.mp hu)
    have hp : MemPresent u core := fun h => absurd (hu.symm.trans h) Bool.false_ne_true
    exact ⟨memoryError_corrected hp (by rw [hu]; rfl), memoryError_home hu⟩

end Sys2Proof
end

section
/-! SUPPORT. Proofs of the statement about division (R72): what quotient and remainder are, case by case, and that `div` and
`rem` with an immediate leave them in s. -/

namespace Sys2Proof

open Machine Machine.State

/-! ## Quotient and remainder -/

@[simp] theorem divVal_zero (u : Bool) (a : W64) : divVal u a 0 = BitVec.allOnes 64 := if_pos rfl

@[simp] theorem remVal_zero (u : Bool) (a : W64) : remVal u a 0 = a := if_pos rfl

section

variable {b : W64} (h : b ≠ 0) (a : W64)
include h

theorem divVal_unsigned : divVal true a b = BitVec.ofNat 64 (a.toNat / b.toNat) := if_neg h

theorem remVal_unsigned : remVal true a b = BitVec.ofNat 64 (a.toNat % b.toNat) := if_neg h

theorem divVal_signed : divVal false a b = BitVec.ofInt 64 (a.toInt.tdiv b.toInt) := if_neg h

theorem remVal_signed : remVal false a b = BitVec.ofInt 64 (a.toInt.tmod b.toInt) := if_neg h

end

theorem toInt_minus_one : (BitVec.allOnes 64).toInt = -1 := by decide

theorem minus_one_ne_zero : BitVec.allOnes 64 ≠ 0 := by decide

/-- Division by -1 negates, modulo 2^64. -/
theorem divVal_minus_one (a : W64) : divVal false a (BitVec.allOnes 64) = -a := by
  rw [divVal_signed minus_one_ne_zero, toInt_minus_one, Int.tdiv_neg, Int.tdiv_one, BitVec.ofInt_neg, BitVec.ofInt_toInt]

/-- Division by -1 leaves no remainder. -/
theorem remVal_minus_one (a : W64) : remVal false a (BitVec.allOnes 64) = 0 := by
  rw [remVal_signed minus_one_ne_zero, toInt_minus_one, Int.tmod_neg, Int.tmod_one]
  rfl

/-! ## The instructions -/

theorem exec_divImm (u : Bool) (im : Imm) (s : State) : exec (.divImm u im) s = aluI (.divImm u im) s im (opDiv u) := rfl
theorem exec_remImm (u : Bool) (im : Imm) (s : State) : exec (.remImm u im) s = aluI (.remImm u im) s im (opRem u) := rfl

/-- An I form whose operation comes to the result v completes with v in s and nothing else changed. -/
theorem aluI_completes {s : State} {k : Nat} {i : Instr} {im : Imm} {f : Seq → W64 → Seq} {v : W64}
    (he : exec i s = aluI i s im f) (hv : f (s.r k) im.sx = (s.r k).result v) :
    Says.Completes s k i (fun r => { r with s := v }) fun t => OnlySeqs s t := fun h => by
  have hd : ∃ t, aluI i s im f = .next t ∧ OnlySeqs s t ∧ Retires s t k i (fun r => r.result v) :=
    done_modR h rfl hv fun _ => ⟨rfl, rfl⟩
  obtain ⟨t, ht, ho, hr⟩ := hd
  exact ⟨t, he.trans ht, hr, ho⟩

theorem divImm_completes {s : State} {k : Nat} {u : Bool} {d q : W64} (hq : divVal u (s.r k).s d = q) :
    Says.Completes s k (.divImm u (.long d)) (fun r => { r with s := q }) fun t => OnlySeqs s t :=
  aluI_completes (exec_divImm u (.long d) s) (congrArg (s.r k).result hq)

theorem remImm_completes {s : State} {k : Nat} {u : Bool} {d r : W64} (hr : remVal u (s.r k).s d = r) :
    Says.Completes s k (.remImm u (.long d)) (fun x => { x with s := r }) fun t => OnlySeqs s t :=
  aluI_completes (exec_remImm u (.long d) s) (congrArg (s.r k).result hr)

/-- Settles O51: `div` and `rem` leave `divVal` and `remVal` in s, whose cases are those of R72; the most negative value is
its own negation, so that division by -1 gives it back. -/
theorem divisionRule : Obligations.DivisionRule := by
  refine fun s k d => ⟨fun hd u => ?_, fun hd => ?_, fun hd => ?_, fun ha hd => ?_⟩
  · subst hd
    exact ⟨divImm_completes (divVal_zero u _), remImm_completes (remVal_zero u _)⟩
  · exact ⟨divImm_completes (divVal_unsigned hd _), remImm_completes (remVal_unsigned hd _)⟩
  · exact ⟨divImm_completes (divVal_signed hd _), remImm_completes (remVal_signed hd _)⟩
  · subst hd
    have hq : divVal false (s.r k).s (BitVec.allOnes 64) = (s.r k).s := by
      rw [divVal_minus_one, ha, BitVec.neg_intMin]
    exact ⟨divImm_completes hq, remImm_completes (remVal_minus_one _)⟩

end Sys2Proof
end

section
/-! SUPPORT. Proofs of the statement about the issue of copies (R143, R147, R339, R340). -/

namespace Sys2Proof

open Machine Machine.State

/-- What a trap without effect that is no page fault comes to. -/
theorem deliver_trap_precise {s : State} {k : Nat} {i : Instr} {c : TrapCode} (hc : c ≠ .page) (a : W64) :
    deliver s k i (.trap (precise c a) s) = s.takeTrap k (precise c a) := by
  have h : ((precise c a).code == TrapCode.page) = false := beq_eq_false_iff_ne.mpr hc
  show s.raise k (precise c a) = _
  unfold State.raise
  rw [h]
  rfl

@[simp] theorem attempt_ok {α : Type} (s : State) (a : α) (f : α → Out) : attempt s (.ok a) f = f a := rfl

@[simp] theorem attempt_error {α : Type} (s : State) (t : TrapInfo) (f : α → Out) : attempt s (.error t) f = .trap t s := rfl

/-! ## Sides -/

theorem Machine.State.pages_touched {s u : State} {k : Nat} {va : W64} {n : Nat} {x : XKind} {ps : List Xl}
    (h : s.pages k va n x = .ok (ps, u)) : Touched s u := by
  unfold State.pages at h
  split at h
  · cases h
  next hx => 
    cases h
    exact translateAll_touched hx

theorem cpySide_touched {s u : State} {k : Nat} {p : Ptr} {n : Nat} {x : XKind} {d : Side}
    (h : s.cpySide k p n x = .ok (d, u)) : Touched s u := by
  unfold State.cpySide at h
  split at h
  · split at h
    · cases h
    next hx =>
      cases h
      exact pages_touched hx
  · cases h
    exact .refl s
  · cases h
    exact .refl s

theorem cpySides_touched {s u : State} {k : Nat} {o : CpyOp} {n : Nat} {d x : Side}
    (h : s.cpySides k o n = .ok (d, x, u)) : Touched s u := by
  unfold State.cpySides at h
  split at h
  · cases h
  next hd =>
    split at h
    · cases h
    next hx =>
      cases h
      exact (cpySide_touched hd).trans (cpySide_touched hx)

theorem tilePages_touched {s u : State} {k : Nat} {p : Ptr} {n : Nat} {ps : List Xl}
    (h : s.tilePages k p n = .ok (ps, u)) : Touched s u := by
  unfold State.tilePages at h
  split at h
  · exact pages_touched h
  · cases h
    exact .refl s

theorem tileCheck_touched {s u : State} {k : Nat} {m : MtileOp} {pa pb : Ptr} {ti : TileIn}
    (h : s.tileCheck k m pa pb = .ok (ti, u)) : Touched s u := by
  unfold State.tileCheck at h
  simp only at h
  split at h
  · cases h
  split at h
  · cases h
  next ha =>
    split at h
    · cases h
    next hb =>
      cases h
      exact (tilePages_touched ha).trans (tilePages_touched hb)

/-! ## The instruction (R339) -/

theorem Touched.r {s u : State} (h : Touched s u) (k : Nat) : u.r k = s.r k := congrArg SeqSt.r (h.sq k)

theorem cpyCount_eq (s : State) (k : Nat) (o : CpyOp) :
    s.cpyCount k o = if o.ls then (s.r k).s.toNat % 2 ^ 32 else o.count.toNat := by
  unfold State.cpyCount
  rw [fieldN_eq, Nat.pow_zero, Nat.div_one]

/-- The count is above 2^29 - 1, or a scaled copy's is no positive multiple of 512. -/
def badCount (s : State) (k : Nat) (o : CpyOp) : Bool :=
  o.ls && decide (536870911 < s.cpyCount k o) || (o.sc && (s.cpyCount k o == 0 || s.cpyCount k o % 512 != 0))

theorem badCount_iff (s : State) (k : Nat) (o : CpyOp) : badCount s k o = true ↔
    (o.ls = true ∧ 536870911 < s.cpyCount k o) ∨ (o.sc = true ∧ (s.cpyCount k o = 0 ∨ s.cpyCount k o % 512 ≠ 0)) := by
  simp [badCount]

theorem firstOf_count_checks (s : State) (k : Nat) (o : CpyOp) :
    firstOf [trapIf (o.ls && decide (536870911 < s.cpyCount k o)) .illegal,
      trapIf (o.sc && (s.cpyCount k o == 0 || s.cpyCount k o % 512 != 0)) .illegal] =
    if badCount s k o then .error (precise .illegal) else .ok () := by
  unfold badCount
  cases (o.ls && decide (536870911 < s.cpyCount k o))
  · cases (o.sc && (s.cpyCount k o == 0 || s.cpyCount k o % 512 != 0)) <;> rfl
  · rfl

/-- The context with a copy of `n` bytes in flight. -/
def withCopy (id k : Nat) (o : CpyOp) (n : Nat) (d x : Side) (pc : W64) (a : Ctx) : Ctx :=
  if n = 0 then a else { a with
    n := { a.n with cc := a.n.cc + 1 }
    f := { a.f with copies := a.f.copies ++ [⟨id, qOf k, o, n, d, x, [], [], 0, [], [], [], pc⟩] } }

/-- The context with a follow-on of copy `id`. -/
def withFollow (id k : Nat) (t : TileIn) (held : Bool) (a : Ctx) : Ctx := { a with
  n := { a.n with mc := a.n.mc + 1 }
  f := { a.f with follows := a.f.follows ++ [⟨id, qOf k, t, held⟩] } }

section start

variable (s : State) (k : Nat) (o : CpyOp) (n : Nat) (d x : Side)

theorem cpyStart_seqs (fo : Option TileIn) : (s.cpyStart k o n d x fo).seqs = s.seqs := by
  unfold State.cpyStart
  cases fo <;> dsimp only <;> split <;> rfl

theorem cpyStart_rest (fo : Option TileIn) :
    { s.cpyStart k o n d x fo with ctxs := s.ctxs, nextId := s.nextId } = s := by
  unfold State.cpyStart
  cases fo <;> dsimp only <;> split <;> rfl

theorem cpyStart_cx_none (e : Nat) : (s.cpyStart k o n d x none).cx e =
    if e = cidOf k then withCopy s.nextId k o n d x (s.r k).pc (s.cx (cidOf k)) else s.cx e := by
  unfold State.cpyStart withCopy
  dsimp only
  split
  · split
    · subst e
      rfl
    · rfl
  · exact cx_modCx ..

theorem cpyStart_some (t : TileIn) : s.cpyStart k o n d x (some t) =
    (s.cpyStart k o n d x none).modCx (cidOf k) (withFollow s.nextId k t (s.followFailed (cidOf k))) := by
  unfold State.cpyStart
  dsimp only
  split <;> rfl

theorem cpyStart_cx_some (t : TileIn) (e : Nat) : (s.cpyStart k o n d x (some t)).cx e =
    if e = cidOf k then withFollow s.nextId k t (s.followFailed (cidOf k))
      (withCopy s.nextId k o n d x (s.r k).pc (s.cx (cidOf k))) else s.cx e := by
  rw [cpyStart_some, cx_modCx, cpyStart_cx_none, cpyStart_cx_none, if_pos rfl]
  split <;> rfl

end start

section

variable {s : State} {k : Nat} {o : CpyOp} {fo : Option MtileOp}

theorem cpy_illegal (hb : badCount s k o = true) : Says.Traps s k (.cpy o fo) (precise .illegal) s := fun h => by
  show execCpy o fo s = _
  unfold execCpy
  rw [run_of_runs h]
  dsimp only
  rw [firstOf_count_checks, if_pos hb, attempt_error, deliver_trap_precise (by decide)]

theorem cpy_stalls (hb : ¬badCount s k o = true) (hc : Config.copyCap ≤ (s.cx (cidOf k)).f.copying.length) :
    Says.Stalls s k (.cpy o fo) .waitCc := fun h => by
  show execCpy o fo s = _
  unfold execCpy
  rw [run_of_runs h]
  dsimp only
  rw [firstOf_count_checks, if_neg hb, attempt_ok, if_pos hc]
  rfl

/-- Where the checks pass, the copy starts and the pointers advance. -/
theorem cpy_completes (hb : ¬badCount s k o = true) (hc : (s.cx (cidOf k)).f.copying.length < Config.copyCap)
    (hk : s.cpyChks k o (s.cpyCount k o) = .ok ()) {d x : Side} {u v : State} {ti : Option TileIn}
    (hs : s.cpySides k o (s.cpyCount k o) = .ok (d, x, u)) (hf : u.cpyFollow k fo = .ok (ti, v)) (hv : Touched s v) {g : Ctx → Ctx}
    (hg : ∀ e, (v.cpyStart k o (s.cpyCount k o) d x ti).cx e = if e = cidOf k then g (v.cx (cidOf k)) else v.cx e) :
    Says.Completes s k (.cpy o fo) (fun r => r.advance (cpyPtrs o fo)) fun t => Touched s v ∧ OnlyCtx v t (cidOf k) g := fun h => by
  have hseqs := cpyStart_seqs v k o (s.cpyCount k o) d x ti
  obtain ⟨t, ht, ho, hr⟩ : ∃ t, exec (.cpy o fo) s = .next t ∧
      OnlySeqs ((v.cpyStart k o (s.cpyCount k o) d x ti).retireR k (cpyPtrs o fo) fun r => r) t ∧
      Retires s t k (.cpy o fo) fun r => r.advance (cpyPtrs o fo) := by
    refine done_of h ?_ (fun j => ?_) (advance_keeps _)
    · dsimp only
      rw [firstOf_count_checks, if_neg hb, attempt_ok, if_neg (Nat.not_le.mpr hc), hk, attempt_ok, hs, attempt_ok, hf, attempt_ok]
    · have e : ∀ i, (v.cpyStart k o (s.cpyCount k o) d x ti).sq i = s.sq i := fun i =>
        congrArg (Tab.get SeqSt.init · i) (hseqs.trans hv.seqs)
      unfold State.retireR
      rw [sq_modR, e, e]
  refine ⟨t, ht, hr, hv, onlyCtx_of ho ?_ hg⟩
  calc _ = ({ ({ v.cpyStart k o (s.cpyCount k o) d x ti with ctxs := v.ctxs, nextId := v.nextId } : State) with
        seqs := v.seqs } : State) := rfl
    _ = v := by rw [cpyStart_rest]

end

theorem filter_copying (f : Flight) :
    (f.copies.filter fun y => y.landed.length != (y.n + 511) / 512 || !y.held.isEmpty) = f.copying :=
  List.filter_congr fun y _ => by rw [Copy.finished, Bool.not_and]; rfl

/-- Settles O25: a count that is not valid traps first; then 256 copies in flight stall; then `cpyStart` puts the copy and
its follow-on in flight in the state that the translations leave. -/
theorem copyIssueResults : Obligations.CopyIssueResults := by
  intro s k o fo
  dsimp only
  rw [← cpyCount_eq, ← badCount_iff, filter_copying]
  refine ⟨cpy_illegal, cpy_stalls, fun hb hc hk d x u hs => ?_⟩
  have hu := cpySides_touched hs
  refine ⟨?_, ?_⟩
  · rintro rfl
    refine cpy_completes hb hc hk hs rfl hu fun e => ?_
    rw [cpyStart_cx_none, hu.r]
    rfl
  · rintro m ti v rfl ht
    have hv := hu.trans (tileCheck_touched ht)
    refine cpy_completes (ti := some ti) hb hc hk hs ?_ hv fun e => ?_
    · unfold State.cpyFollow
      dsimp only
      rw [hu.r, ht]
    · rw [cpyStart_cx_some, hv.r]
      rfl

end Sys2Proof
end

section
/-! SUPPORT. Refutation of the statement about the progress of copies (R143, R238): a chunk that lands in space G is a write at its
home, and a write wakes the `owait`s at its line, those of the copy's own context among them. -/

namespace Sys2Proof

open Machine Machine.State

namespace WakingCopy

/-- A copy of 8 bytes, from home address 4,096 to home address 0. -/
def copy : Copy := ⟨0, 0, ⟨⟨0, false⟩, ⟨1, false⟩, 0, false, false, 8, 0⟩, 8, .glob 0 [⟨0, 0, false, 0⟩], .glob 0 [⟨4096, 0, false, 0⟩],
  [], [], 0, [], [], [], 0⟩

/-- An `owait` of the same context, in the wait table while the 8 bytes at home address 0 are zeros. -/
def owait : Offer := ⟨1, 0, 9, 0, .i64, false, false, 0, ⟨0, 0, false, 0⟩, 8, List.replicate 8 0, [], 0, ⟨false, 0, 0, 0⟩, 0, none,
  .waiting none, .live⟩

/-- The first byte to be copied is 7; the destination is zeros. -/
def state : State := { State.reset with
  ctxs := [(0, { Ctx.init with n := { Counters.init with cc := 1, oc := 1 }, f := { Flight.init with copies := [copy], offers := [owait] } })]
  h := { Homes.init with mem := [(4096, 7)] } }

theorem chunkDue_copy : state.chunkDue copy 0 = true := by decide +kernel

/-- Whether context 0's `owait` stands as before where the event ends. -/
def asBefore (r : Res) : Bool :=
  match r with
  | .next t => (t.cx 0).f.offers == [owait]
  | _ => false

/-- The landing of the copy's one chunk wakes the `owait`. -/
theorem landing_wakes : asBefore (exec (.copyChunkLanding 0 copy.id 0) state) = false := by decide +kernel

theorem asBefore_of_offers {t : State} (h : (t.cx 0).f.offers = [owait]) : asBefore (.next t) = true := beq_iff_eq.mpr h

end WakingCopy

/-- Refutes O26: in `WakingCopy.state` the copy's last chunk lands, and of what is in flight the `owait` changes, too. -/
theorem not_copyProgressResults : ¬ Obligations.CopyProgressResults := by
  unfold Obligations.CopyProgressResults Part.CopyChunkResults
  rintro ⟨h, -⟩
  obtain ⟨-, -, hlands, -⟩ := h WakingCopy.state 0 0 WakingCopy.copy rfl WakingCopy.chunkDue_copy
  obtain ⟨t, ht, -, ⟨hlast, -⟩, -⟩ := hlands rfl
  obtain ⟨-, hf⟩ := hlast rfl rfl
  have hoffers : (t.cx 0).f.offers = [WakingCopy.owait] := congrArg Flight.offers hf
  have hwakes := WakingCopy.landing_wakes
  rw [ht, WakingCopy.asBefore_of_offers hoffers] at hwakes
  cases hwakes

end Sys2Proof
end

section
/-! SUPPORT. Proofs of the statement about translation (R128, R132, R134, R137), `tinv` (R135, R406) and the replies of the
fault service (R140, R411). -/

namespace Sys2Proof

open Machine Machine.State

/-! ## What is permitted -/

theorem ite_some_eq_none {α : Type} {c : Prop} [Decidable c] {a : α} {o : Option α} :
    (if c then some a else o) = none ↔ ¬c ∧ o = none := by
  split <;> simp_all

section permit

variable {s : State} {w : Who} {pte : W64} {ha : Nat} {k : XKind}

/-- What a leaf that is permitted allows. -/
theorem permit_none (h : s.permit w pte ha k = none) :
    Pte.cc pte ≠ 7 ∧ (w.lvlK = false → isMmio ha = false) ∧ (k.needW = true → isLehr ha = false) ∧
      (k = .read ∨ k = .write ∨ k = .fetch ∨ k = .tile → Pte.cc pte ≠ 6 ∧ s.otherDomain ha = false) ∧
      (haRegion ha = 3 → Pte.cc pte = 6) ∧ (k = .rowRead → Pte.cc pte = 3) ∧
      (Pte.key pte ≠ 0 → Tab.get 0 s.pf.keyPart (Pte.key pte) = w.part + 1) := by
  unfold State.permit at h
  simp only [ite_some_eq_none] at h
  obtain ⟨-, hclass, -, -, hpool, hdomain, hplain, hrow, -, hkey, hlehr, hmmio, -⟩ := h
  refine ⟨hclass, fun hl => ?_, fun hw => ?_, fun hk => ⟨fun h6 => ?_, ?_⟩, fun h3 => ?_, fun hr => ?_, fun hz => ?_⟩
  · simpa [hl] using hmmio
  · simpa [hw] using hlehr
  · rcases hk with rfl | rfl | rfl | rfl <;> simp [h6] at hplain
  · rcases hk with rfl | rfl | rfl | rfl <;> simpa using hdomain
  · simpa [h3] using hpool
  · simpa [hr] using hrow
  · simpa [State.keyOk, hz] using hkey

theorem translate_not_canonical {va : W64} (hc : canonical va = false) : s.translate w va k = .error ⟨.page, 2, va, none⟩ := by
  unfold State.translate
  rw [hc]
  rfl

/-- What translates is canonical, and its leaf is permitted. -/
theorem translate_permitted {va : W64} {x : Xl} {u : State} (h : s.translate w va k = .ok (x, u)) :
    canonical va = true ∧ ∃ pte, x.cc = Pte.cc pte ∧ x.key = Pte.key pte ∧ s.permit w pte x.ha k = none := by
  unfold State.translate at h
  simp only at h
  split at h
  · cases h
  next hc =>
    have hc : canonical va = true := by simpa using hc
    refine ⟨hc, ?_⟩
    split at h
    · cases h
    · cases h
    next pte _ _ _ =>
      split at h
      · cases h
      split at h
      · cases h
      next hp =>
        split at h
        · cases h
          exact ⟨pte, rfl, rfl, hp⟩
        split at h
        · cases h
          exact ⟨pte, rfl, rfl, hp⟩
        · cases h
        split at h
        · cases h
        · cases h
          exact ⟨pte, rfl, rfl, hp⟩

end permit

theorem exec_pageWalk (c : Nat) (va : W64) (fetch : Bool) (s : State) : exec (.pageWalk c va fetch) s =
    match s.translate (s.who (sidAt c 0)) va (if fetch then .fetch else .read) with
    | .ok (_, u) => .next u
    | .error _ => .next s := rfl

theorem translationProtects : Part.TranslationProtects := by
  intro s w va k
  refine ⟨translate_not_canonical, fun x u h => ?_, fun c fetch => ⟨fun x u h => ?_, fun e h => ?_⟩⟩
  · obtain ⟨hc, pte, hcc, hkey, hp⟩ := translate_permitted h
    have hn := permit_none hp
    rw [← hcc, ← hkey] at hn
    exact ⟨hc, translate_touched h, hn⟩
  · rw [exec_pageWalk, h]
  · rw [exec_pageWalk, h]

/-! ## `tinv` (R406) -/

/-- The sequencer itself, of those that it forwards to. -/
theorem forward_self (s u : State) (k : Nat) (i : Instr) : ∃ pc rep fwd ps,
    (s.forward u k i).sq k = { u.sq k with r := { (u.sq k).r with pc := pc, rep := rep }, fwd := fwd, passed := ps } ∧
      (s.follows k = false → (s.forward u k i).r k = u.r k) := by
  obtain ⟨l, ps, h, -⟩ := forward_sq s u k i k
  obtain ⟨pc, rep, fwd, h1, h2⟩ := pulled_self s u k
  unfold State.r
  rw [h]
  split
  · exact ⟨_, _, l, ps, rfl, fun _ => rfl⟩
  · exact ⟨pc, rep, l, ps, by rw [h1], fun hf => by rw [h2 hf]⟩

/-- An instruction of one word that leaves the registers of its own sequencer passes, whatever becomes of other
sequencers. -/
theorem passes_done {s u : State} {k : Nat} {i : Instr} (hb : i.bytes = 4) (hs : slotsOf i = 1) (hu : u.r k = s.r k) :
    Says.Passes s (deliver s k i (.done u)) k := by
  obtain ⟨pc, rep, fwd, ps, h, hf⟩ := forward_self s
    (u.modSq k fun q => (q.retire i.bytes (slotsOf i)).issued (s.r k).pc i.bytes) k i
  have hr : (u.modSq k fun q => (q.retire i.bytes (slotsOf i)).issued (s.r k).pc i.bytes).r k = (s.r k).next 4 1 := by
    rw [← hu, ← hb, ← hs]
    unfold State.r
    rw [sq_modSq, if_pos rfl]
    rfl
  refine ⟨?_, fun hn => ?_⟩
  · have hk : (deliver s k i (.done u)).r k = { (s.r k).next 4 1 with pc := pc, rep := rep } := by
      rw [← hr]
      exact congrArg SeqSt.r h
    rw [hk]
    exact Seq.next_regs (s.r k) 4 1 (s.r k).pc (s.r k).rep
  · have hk : (deliver s k i (.done u)).r k = (s.r k).next 4 1 := (hf hn).trans hr
    rw [hk, Seq.next_follow]

section tinv

variable (s : State) (k : Nat) (d : TlbEnt → Bool)

theorem dropWords_r (es : List TlbEnt) : (s.dropWords es).r k = s.r k := by
  have h := Tab.get_map SeqSt.init s.seqs (fun e : Nat × SeqSt =>
    { e.2.flag (fun b => b.words.any fun x => es.any fun t => t.covers (s.who e.1) x.1) with
      pre := e.2.pre.filter fun x => !es.any fun t => t.covers (s.who e.1) x.1 }) k rfl
  exact (congrArg SeqSt.r h :)

/-- The translation caches without the entries that `d` names, and the words of their pages gone. -/
def dropped : State := (s.dropWords ((s.h.tlb ++ s.h.tlbOld).filter d)).modH fun h => { h with
  tlb := h.tlb.filter fun t => !d t, tlbOld := h.tlbOld.filter fun t => !d t }

variable {s k d}

/-- With no lease to revoke and nothing under way, `tinv` is done at once. -/
theorem tinv_done (hl : s.h.leases = []) (hu : ∀ rs, s.anyUnderWay rs = false) : s.tinv k d = .done (dropped s d) := by
  unfold State.tinv
  simp only [hl, hu]
  rfl

theorem anyUnderWay_none (hc : ∀ rs, ∀ e ∈ s.ctxs, State.underWay rs e.2.f = false)
    (hn : ∀ g ∈ s.sch.graphs, ∀ n ∈ g.nodes, n.copy = none ∧ n.near = none) (rs : List (Nat × Nat)) :
    s.anyUnderWay rs = false := by
  unfold State.anyUnderWay
  rw [List.any_eq_false.mpr fun e he => by rw [hc rs e he]; decide, Bool.false_or]
  refine List.any_eq_false.mpr fun g hg => ?_
  rw [Bool.not_eq_true]
  refine List.any_eq_false.mpr fun n hn' => ?_
  obtain ⟨h1, h2⟩ := hn g hg n hn'
  rw [h1, h2]
  exact Bool.false_ne_true

/-- The instruction drops from every translation cache what `d` names, and nothing else. -/
theorem drops_of {i : Instr} {body : Nat → Out} (he : exec i s = run i s body) (hb : body k = .done (dropped s d))
    (h4 : i.bytes = 4) (h1 : slotsOf i = 1) (h : Runs s k i) : Says.Happens i s fun t => Says.Passes s t k ∧
      { t with seqs := s.seqs, h := { t.h with tlb := s.h.tlb, tlbOld := s.h.tlbOld } } = s ∧
      t.h.tlb = s.h.tlb.filter (fun e => !d e) ∧ t.h.tlbOld = s.h.tlbOld.filter fun e => !d e := by
  have ho := deliver_done_only s (dropped s d) k i
  refine ⟨deliver s k i (.done (dropped s d)), ?_, passes_done h4 h1 (dropWords_r s k _), ?_, ?_, ?_⟩
  · rw [he, run_of_runs h, hb]
  · rw [ho.homes]
    exact congrArg (fun t : State => { t with
      seqs := s.seqs, h := { (dropped s d).h with tlb := s.h.tlb, tlbOld := s.h.tlbOld } }) ho.rest
  · exact congrArg Homes.tlb ho.homes
  · exact congrArg Homes.tlbOld ho.homes

end tinv

/-- The entries for a page are those that cover its address. -/
theorem covers_who (s : State) (k : Nat) (va : W64) :
    (fun e : TlbEnt => e.part == (s.cx (cidOf k)).slot.part && (e.asid == (s.cx (cidOf k)).slot.asid || e.pte.getLsbD 5) &&
      e.vpn == va.toNat % 2 ^ 57 / 2 ^ e.bits) = fun e => e.covers (s.who k) va := by
  funext e
  unfold TlbEnt.covers
  rw [fieldN_eq, Nat.pow_zero, Nat.div_one]
  rfl

theorem translationInvalidation : Part.TranslationInvalidation := by
  intro s k p hl hc hn
  have hdone (d : TlbEnt → Bool) : s.tinv k d = .done (dropped s d) := tinv_done hl (anyUnderWay_none hc hn)
  refine ⟨fun hg => ?_, ?_, ?_⟩
  · rw [covers_who]
    refine fun h => drops_of rfl ?_ rfl rfl h
    dsimp only
    rw [hg]
    exact hdone _
  · exact fun h => drops_of rfl (hdone _) rfl rfl h
  · exact fun h => drops_of rfl (hdone _) rfl rfl h

/-! ## Replies of the fault service (R140, R411) -/

theorem exec_faultReply (ctxid sv gen q : Nat) (w : W64) (s : State) : exec (.faultReply ctxid sv gen q w) s =
    happens s (s.sch.insts.find? fun i => i.ctxid % 65536 == ctxid % 65536 && i.saveid.getD 0 == sv && i.gen % 65536 == gen) fun i =>
      if s.sch.images.any fun m => m.inst == i.id then
        let s := (List.range i.members.length).foldl (fun s t => s.saveWord i t (1 + q % 3) w) s
        s.modSch fun h => { h with images := h.images.map fun (m : Image) =>
          if m.inst == i.id then { m with ctx := { m.ctx with reply := (q, w) :: m.ctx.reply.filter fun e => e.1 != q } } else m }
      else (State.cids i).foldl (fun s c => s.modCx c fun x => { x with reply := (q, w) :: x.reply.filter fun e => e.1 != q }) s := rfl

/-- The same change of several contexts changes each of them once, and nothing else. -/
theorem foldl_modCx (f : Ctx → Ctx) (l : List Nat) (s : State) (hl : l.Nodup) :
    let t := l.foldl (fun s c => s.modCx c f) s
    { t with ctxs := s.ctxs } = s ∧ (∀ c ∈ l, t.cx c = f (s.cx c)) ∧ ∀ c, c ∉ l → t.cx c = s.cx c := by
  induction l generalizing s with
  | nil => exact ⟨rfl, fun c hc => absurd hc List.not_mem_nil, fun _ _ => rfl⟩
  | cons a l ih =>
    obtain ⟨ha, hl⟩ := List.nodup_cons.mp hl
    obtain ⟨hrest, hin, hout⟩ := ih (s.modCx a f) hl
    rw [List.foldl_cons]
    refine ⟨?_, fun c hc => ?_, fun c hc => ?_⟩
    · exact congrArg (fun t : State => { t with ctxs := s.ctxs }) hrest
    · rcases List.mem_cons.mp hc with rfl | hc
      · rw [hout c ha, cx_modCx, if_pos rfl]
      · rw [hin c hc, cx_modCx, if_neg (ne_of_mem_of_not_mem hc ha)]
    · rw [List.mem_cons, not_or] at hc
      rw [hout c hc.2, cx_modCx, if_neg hc.1]

theorem faultReplies : Part.FaultReplies := by
  intro s ctxid sv gen q w
  refine ⟨fun h => ?_, fun i h hm hn => ?_⟩
  · rw [exec_faultReply, h]
    rfl
  · have hi : (s.sch.images.any fun m => m.inst == i.id) = false :=
      List.any_eq_false.mpr fun m h => by simpa using hm m h
    refine ⟨_, ?_, foldl_modCx (fun x => { x with reply := (q, w) :: x.reply.filter fun e => e.1 != q }) _ s hn⟩
    rw [exec_faultReply, h, happens, hi]
    rfl

/-- Settles O40: what translates is permitted by its leaf; `tinv`, with nothing to wait for, drops what it names from the
caches; a reply is the same change of each of a team's contexts. -/
theorem translationResults : Obligations.TranslationResults :=
  ⟨translationProtects, translationInvalidation, faultReplies⟩

end Sys2Proof
end

section
/-! SUPPORT. Refutation of the statement about the layer loader (R318): it ranges over all states, also over those whose table of
sequencers holds two entries for one sequencer. Reads reach the first of them alone; the end of a fill goes through all. -/

namespace Sys2Proof

open Machine Machine.State

namespace TwiceListed

/-- A model of one layer; its descriptor stands at home address 0. -/
def model : Model := ⟨0, 0, 0, 0, [⟨0, 5, false, 0⟩], 1, 0⟩

/-- The fill of its layer, of no bytes. -/
def fill : Fill := ⟨0, 0, 0, 0, 0, 0, 0, 0, 0, []⟩

/-- SHA3-256 of no bytes (FIPS 202). -/
def digest : List Byte :=
  [0xa7, 0xff, 0xc6, 0xf8, 0xbf, 0x1e, 0xd7, 0x66, 0x51, 0xc1, 0x47, 0x56, 0xa0, 0x61, 0xd6, 0x62,
   0xf5, 0x80, 0xff, 0x4d, 0xe4, 0x3b, 0x49, 0xfa, 0x82, 0xd8, 0x0a, 0x4b, 0x80, 0xf8, 0x43, 0x4a]

/-- A sequencer that waits for the layer. -/
def waiter : SeqSt := { SeqSt.init with lacq := some ⟨.s, 0, 0⟩ }

/-- Sequencer 0 waits for the layer. Sequencer 1 of its context does not, but a second entry of it does; and the context's pin
table has room for one pin more. -/
def state : State := { State.reset with
  seqs := [(1, SeqSt.init), (1, waiter), (0, waiter)]
  ctxs := [(0, { Ctx.init with pins := [⟨0, 0, 65534⟩] })]
  h := { Homes.init with mem := Memory.writeN [] 128 digest }
  sch := { Sched.init with models := [model], fills := [fill] } }

/-- Of the context's sequencers, sequencer 0 alone reads as waiting. -/
theorem others_do_not_wait (j : Nat) (hj : j ≠ 0) : (state.sq j).lacq = none := by
  show (Tab.get SeqSt.init [(1, SeqSt.init), (1, waiter), (0, waiter)] j).lacq = none
  rw [Tab.get_cons, Tab.get_cons, Tab.get_cons]
  by_cases h1 : j = 1
  · rw [if_pos h1]
    rfl
  · rw [if_neg h1, if_neg h1, if_neg hj]
    rfl

theorem source : (state.fillOut fill).fillSource model fill false = (.ok [], state.fillOut fill) := rfl

theorem digest_right : Sha3.sha3_256 [] = (state.fillOut fill).mdRead model (64 + 128 * 0 + 64) 32 := by decide +kernel

/-- Whether sequencer 0 still waits where the event ends. -/
def stillWaits (r : Res) : Bool :=
  match r with
  | .next t => (t.sq 0).lacq == some ⟨.s, 0, 0⟩
  | _ => false

/-- The second entry of sequencer 1 takes the last pin. -/
theorem fillEnd_leaves_waiting : stillWaits (exec (.layerFillEnd 0 0 0 false) state) = true := by decide +kernel

theorem lacq_of_stillWaits {t : State} (h : stillWaits (.next t) = true) : (t.sq 0).lacq = some ⟨.s, 0, 0⟩ := eq_of_beq h

end TwiceListed

/-- Refutes O42: in `TwiceListed.state` the fill ends RESIDENT, sequencer 0 waits for it alone and with room for its pin, and it
waits still when the event is over. -/
theorem not_layerLoaderResults : ¬ Obligations.LayerLoaderResults := by
  unfold Obligations.LayerLoaderResults
  rintro ⟨-, -, h⟩
  obtain ⟨-, hends⟩ := h TwiceListed.state 0 0 0 false TwiceListed.fill TwiceListed.model rfl rfl
  obtain ⟨-, hok⟩ := hends rfl rfl rfl rfl
  obtain ⟨-, hright⟩ := hok [] _ TwiceListed.source
  obtain ⟨t, ht, -, -, hwaits⟩ := hright TwiceListed.digest_right
  have hnone : (t.sq 0).lacq = none :=
    (hwaits 0 ⟨⟨.s, 0, 0⟩, rfl, rfl, rfl, rfl⟩ (fun j hj _ => TwiceListed.others_do_not_wait j hj) rfl
      fun g hg => absurd hg List.not_mem_nil).1
  have hsome := TwiceListed.lacq_of_stillWaits (ht ▸ TwiceListed.fillEnd_leaves_waiting)
  rw [hnone] at hsome
  cases hsome

end Sys2Proof
end

section
/-! SUPPORT. Refutation of the statement about the registers and the fabric: a launch that waits at its home comes again under
the name by which it came (R43, R323), and a write to LAUNCH is then no launch record. -/

namespace Sys2Proof

open Machine Machine.State

section

variable {s : State} {w : Via} {v : W64} (hm : s.mayCommand w.by_ = true) (hh : (s.launchHeld w.win (hdrOf v)).isSome = true)
include hm hh

theorem registerWrite_later : exec (.registerWrite w 0 v) s = .next (s.later (.registerWrite w 0 v)) := by
  show execRegisterWrite w 0 v s = _
  unfold execRegisterWrite
  rw [hm, if_neg (by decide), if_pos ⟨rfl, hh⟩]

theorem launch_later : exec (.launch w v) s = .next (s.later (.launch w v)) := by
  show execLaunch w v s = _
  unfold execLaunch
  rw [hm, if_neg (by decide), if_pos hh]

/-- The two leave different agendas. -/
theorem registerWrite_ne_launch : exec (.registerWrite w 0 v) s ≠ exec (.launch w v) s := by
  rw [registerWrite_later hm hh, launch_later hm hh]
  intro h
  injection h with h
  have ha : (s.later (.registerWrite w 0 v)).agenda = (s.later (.launch w v)).agenda := congrArg State.agenda h
  simp [State.later] at ha

end

/-- The page table of context 0 stands at the start of die 0's lehr, whose first macro refreshes. -/
def refreshedRoot : State :=
  (State.reset.modPf fun p => { p with cwin := [(cwinKey 0 8, 0x10000000000)] }).modH fun h => { h with refresh := [(0, 1)] }

theorem refreshedRoot_launchHeld : refreshedRoot.launchHeld 0 0 = some .refresh := by decide +kernel

/-- Refutes O49: in `refreshedRoot` a core's write to LAUNCH of context 0 and the launch itself wait for the refresh, and the
agenda holds the one as a register write, the other as a launch. -/
theorem not_trustAndFabricResults : ¬ Obligations.TrustAndFabricResults := by
  unfold Obligations.TrustAndFabricResults
  intro h
  obtain ⟨-, -, -, hl, -⟩ := h refreshedRoot none 0 0 0 0 0 [] .port0 .port0 0
  have hh : (refreshedRoot.launchHeld 0 (hdrOf 0)).isSome = true := by
    rw [show hdrOf 0 = 0 by decide, refreshedRoot_launchHeld]
    rfl
  exact registerWrite_ne_launch (w := ⟨none, 0⟩) rfl hh hl

end Sys2Proof
end
